-- ==== Sys2Proof/Word.lean ====
section
/-! DEFINITION. The word types of the 80286 (20_memory.md R80, 00_scope.md R9): bytes, 16-bit words, 24-bit physical
addresses, and the operand width the `w` bit selects (30_encoding.md R182). -/

namespace Sys2Proof

/-- An 8-bit byte, the addressable unit of memory (R80). -/
abbrev Byte := BitVec 8

/-- A 16-bit word. -/
abbrev Word := BitVec 16

/-- A 24-bit physical address (R9). -/
abbrev Phys := BitVec 24

/-- The `w` field of an opcode: a byte or a word operation (R182). -/
inductive Width where
  | byte
  | word
deriving DecidableEq, Repr

/-- How many bits an operand of this width has. -/
abbrev Width.bits : Width → Nat
  | .byte => 8
  | .word => 16

/-- How many bytes an operand of this width has. -/
def Width.bytes : Width → Nat
  | .byte => 1
  | .word => 2

/-- A value of an operand of width `w`. -/
abbrev Val (w : Width) := BitVec w.bits

end Sys2Proof
end

