-- ==== Sys2Proof/Syntax.lean ====
section
/-! DEFINITION. The instructions of the 80286: one constructor per row of spec/opcode_table.json, with the operand forms
of 30_encoding.md R182 to R199. The four kinds of prefix (R190) are rows of the table and constructors too. -/

namespace Sys2Proof

/-- A register number (R186): AX CX DX BX SP BP SI DI in a word instruction, AL CL DL BL AH CH DH BH in a byte one. -/
inductive RegNum where
  | r0 | r1 | r2 | r3 | r4 | r5 | r6 | r7
deriving DecidableEq, Repr

/-- The four segment registers (10_state.md R24), numbered 0 to 3 in this order (R187). -/
inductive SReg where
  | es | cs | ss | ds
deriving DecidableEq, Repr

/-- The eight sums of base and index registers that the r/m field names when mod is not 11 (R198). -/
inductive EaBase where
  | bxsi | bxdi | bpsi | bpdi | si | di | bp | bx
deriving DecidableEq, Repr

/-- A memory operand (R198): a direct offset (mod 00, r/m 110), or a base with no displacement (mod 00), with a
sign-extended byte (mod 01) or with a word (mod 10). -/
inductive MemOp where
  | direct (o : Word)
  | based (b : EaBase)
  | disp8 (b : EaBase) (d : Byte)
  | disp16 (b : EaBase) (d : Word)
deriving DecidableEq, Repr

/-- The operand named by mod and r/m (R183): a register when mod is 11, else memory. -/
inductive RM where
  | reg (r : RegNum)
  | mem (a : MemOp)
deriving DecidableEq, Repr

/-- An immediate of the width of the operation (R195): a byte when w = 0, a word when w = 1. -/
inductive Imm where
  | b (v : Byte)
  | w (v : Word)
deriving DecidableEq, Repr

/-- The instructions. Beside each constructor stands its row's mnemonic, operands and encoding. -/
inductive Instr where
  /-- ADD eb,rb / ew,rw: `0000000w oorrrmmm` (R281). -/
  | addRmReg (w : Width) (m : RM) (r : RegNum)
  /-- ADD rb,eb / rw,ew: `0000001w oorrrmmm` (R281). -/
  | addRegRm (w : Width) (r : RegNum) (m : RM)
  /-- ADD AL,db / AX,dw: `0000010w` (R281). -/
  | addAccImm (v : Imm)
  /-- ADD eb,db / ew,dw: `1000000w oo000mmm` (R281). -/
  | addRmImm (m : RM) (v : Imm)
  /-- ADD eb,db: `10000010 oo000mmm` (R281). -/
  | addRm8Imm82 (m : RM) (v : Byte)
  /-- ADD ew,db: `10000011 oo000mmm` (R281). -/
  | addRmSext (m : RM) (v : Byte)
  /-- OR eb,rb / ew,rw: `0000100w oorrrmmm` (R322). -/
  | orRmReg (w : Width) (m : RM) (r : RegNum)
  /-- OR rb,eb / rw,ew: `0000101w oorrrmmm` (R322). -/
  | orRegRm (w : Width) (r : RegNum) (m : RM)
  /-- OR AL,db / AX,dw: `0000110w` (R322). -/
  | orAccImm (v : Imm)
  /-- OR eb,db / ew,dw: `1000000w oo001mmm` (R322). -/
  | orRmImm (m : RM) (v : Imm)
  /-- ADC eb,rb / ew,rw: `0001000w oorrrmmm` (R282). -/
  | adcRmReg (w : Width) (m : RM) (r : RegNum)
  /-- ADC rb,eb / rw,ew: `0001001w oorrrmmm` (R282). -/
  | adcRegRm (w : Width) (r : RegNum) (m : RM)
  /-- ADC AL,db / AX,dw: `0001010w` (R282). -/
  | adcAccImm (v : Imm)
  /-- ADC eb,db / ew,dw: `1000000w oo010mmm` (R282). -/
  | adcRmImm (m : RM) (v : Imm)
  /-- ADC eb,db: `10000010 oo010mmm` (R282). -/
  | adcRm8Imm82 (m : RM) (v : Byte)
  /-- ADC ew,db: `10000011 oo010mmm` (R282). -/
  | adcRmSext (m : RM) (v : Byte)
  /-- SBB eb,rb / ew,rw: `0001100w oorrrmmm` (R285). -/
  | sbbRmReg (w : Width) (m : RM) (r : RegNum)
  /-- SBB rb,eb / rw,ew: `0001101w oorrrmmm` (R285). -/
  | sbbRegRm (w : Width) (r : RegNum) (m : RM)
  /-- SBB AL,db / AX,dw: `0001110w` (R285). -/
  | sbbAccImm (v : Imm)
  /-- SBB eb,db / ew,dw: `1000000w oo011mmm` (R285). -/
  | sbbRmImm (m : RM) (v : Imm)
  /-- SBB eb,db: `10000010 oo011mmm` (R285). -/
  | sbbRm8Imm82 (m : RM) (v : Byte)
  /-- SBB ew,db: `10000011 oo011mmm` (R285). -/
  | sbbRmSext (m : RM) (v : Byte)
  /-- AND eb,rb / ew,rw: `0010000w oorrrmmm` (R321). -/
  | andRmReg (w : Width) (m : RM) (r : RegNum)
  /-- AND rb,eb / rw,ew: `0010001w oorrrmmm` (R321). -/
  | andRegRm (w : Width) (r : RegNum) (m : RM)
  /-- AND AL,db / AX,dw: `0010010w` (R321). -/
  | andAccImm (v : Imm)
  /-- AND eb,db / ew,dw: `1000000w oo100mmm` (R321). -/
  | andRmImm (m : RM) (v : Imm)
  /-- SUB eb,rb / ew,rw: `0010100w oorrrmmm` (R284). -/
  | subRmReg (w : Width) (m : RM) (r : RegNum)
  /-- SUB rb,eb / rw,ew: `0010101w oorrrmmm` (R284). -/
  | subRegRm (w : Width) (r : RegNum) (m : RM)
  /-- SUB AL,db / AX,dw: `0010110w` (R284). -/
  | subAccImm (v : Imm)
  /-- SUB eb,db / ew,dw: `1000000w oo101mmm` (R284). -/
  | subRmImm (m : RM) (v : Imm)
  /-- SUB eb,db: `10000010 oo101mmm` (R284). -/
  | subRm8Imm82 (m : RM) (v : Byte)
  /-- SUB ew,db: `10000011 oo101mmm` (R284). -/
  | subRmSext (m : RM) (v : Byte)
  /-- XOR eb,rb / ew,rw: `0011000w oorrrmmm` (R323). -/
  | xorRmReg (w : Width) (m : RM) (r : RegNum)
  /-- XOR rb,eb / rw,ew: `0011001w oorrrmmm` (R323). -/
  | xorRegRm (w : Width) (r : RegNum) (m : RM)
  /-- XOR AL,db / AX,dw: `0011010w` (R323). -/
  | xorAccImm (v : Imm)
  /-- XOR eb,db / ew,dw: `1000000w oo110mmm` (R323). -/
  | xorRmImm (m : RM) (v : Imm)
  /-- CMP eb,rb / ew,rw: `0011100w oorrrmmm` (R292). -/
  | cmpRmReg (w : Width) (m : RM) (r : RegNum)
  /-- CMP rb,eb / rw,ew: `0011101w oorrrmmm` (R292). -/
  | cmpRegRm (w : Width) (r : RegNum) (m : RM)
  /-- CMP AL,db / AX,dw: `0011110w` (R292). -/
  | cmpAccImm (v : Imm)
  /-- CMP eb,db / ew,dw: `1000000w oo111mmm` (R292). -/
  | cmpRmImm (m : RM) (v : Imm)
  /-- CMP eb,db: `10000010 oo111mmm` (R292). -/
  | cmpRm8Imm82 (m : RM) (v : Byte)
  /-- CMP ew,db: `10000011 oo111mmm` (R292). -/
  | cmpRmSext (m : RM) (v : Byte)
  /-- PUSH ES / CS / SS / DS: `000gg110` (R245). -/
  | pushSreg (g : SReg)
  /-- POP ES: `00000111` (R247). -/
  | popEs
  /-- POP SS: `00010111` (R247). -/
  | popSs
  /-- POP DS: `00011111` (R247). -/
  | popDs
  /-- SEG__prefix ES: / CS: / SS: / DS:: `001gg110` (R484). -/
  | segPfx (g : SReg)
  /-- LOCK__prefix: `11110000` (R480). -/
  | lockPfx
  /-- REPNE_REPNZ__prefix: `11110010` (R360). -/
  | repnePfx
  /-- REP_REPE_REPZ__prefix: `11110011` (R360). -/
  | repPfx
  /-- DAA: `00100111` (R289). -/
  | daa
  /-- DAS: `00101111` (R291). -/
  | das
  /-- AAA: `00110111` (R288). -/
  | aaa
  /-- AAS: `00111111` (R290). -/
  | aas
  /-- INC rw: `01000rrr` (R283). -/
  | incReg (r : RegNum)
  /-- DEC rw: `01001rrr` (R286). -/
  | decReg (r : RegNum)
  /-- PUSH rw: `01010rrr` (R245). -/
  | pushReg (r : RegNum)
  /-- POP rw: `01011rrr` (R247). -/
  | popReg (r : RegNum)
  /-- PUSHA: `01100000` (R246). -/
  | pusha
  /-- POPA: `01100001` (R249). -/
  | popa
  /-- BOUND rw,md: `01100010 oorrrmmm` (R392). -/
  | bound (r : RegNum) (a : MemOp)
  /-- ARPL ew,rw: `01100011 oorrrmmm` (R519). -/
  | arpl (m : RM) (r : RegNum)
  /-- PUSH dw: `01101000` (R245). -/
  | pushImm16 (v : Word)
  /-- IMUL rw,ew,dw: `01101001 oorrrmmm` (R295). -/
  | imulRegRmImm16 (r : RegNum) (m : RM) (v : Word)
  /-- PUSH db: `01101010` (R245). -/
  | pushImm8 (v : Byte)
  /-- IMUL rw,ew,db: `01101011 oorrrmmm` (R295). -/
  | imulRegRmImm8 (r : RegNum) (m : RM) (v : Byte)
  /-- INS_INSB_INSW eb,DX / ew,DX: `0110110w` (R356). -/
  | ins (w : Width)
  /-- OUTS_OUTSB_OUTSW DX,eb / DX,ew: `0110111w` (R357). -/
  | outs (w : Width)
  /-- JO cb: `01110000` (R380). -/
  | jo (d : Byte)
  /-- JNO cb: `01110001` (R380). -/
  | jno (d : Byte)
  /-- JB_JNAE_JC cb: `01110010` (R380). -/
  | jb (d : Byte)
  /-- JNB_JAE_JNC cb: `01110011` (R380). -/
  | jnb (d : Byte)
  /-- JE_JZ cb: `01110100` (R380). -/
  | je (d : Byte)
  /-- JNE_JNZ cb: `01110101` (R380). -/
  | jne (d : Byte)
  /-- JBE_JNA cb: `01110110` (R380). -/
  | jbe (d : Byte)
  /-- JNBE_JA cb: `01110111` (R380). -/
  | jnbe (d : Byte)
  /-- JS cb: `01111000` (R380). -/
  | js (d : Byte)
  /-- JNS cb: `01111001` (R380). -/
  | jns (d : Byte)
  /-- JP_JPE cb: `01111010` (R380). -/
  | jp (d : Byte)
  /-- JNP_JPO cb: `01111011` (R380). -/
  | jnp (d : Byte)
  /-- JL_JNGE cb: `01111100` (R380). -/
  | jl (d : Byte)
  /-- JNL_JGE cb: `01111101` (R380). -/
  | jnl (d : Byte)
  /-- JLE_JNG cb: `01111110` (R380). -/
  | jle (d : Byte)
  /-- JNLE_JG cb: `01111111` (R380). -/
  | jnle (d : Byte)
  /-- TEST eb,rb / ew,rw: `1000010w oorrrmmm` (R324). -/
  | testRmReg (w : Width) (m : RM) (r : RegNum)
  /-- XCHG eb,rb / ew,rw: `1000011w oorrrmmm` (R256). -/
  | xchgRmReg (w : Width) (m : RM) (r : RegNum)
  /-- MOV eb,rb / ew,rw: `1000100w oorrrmmm` (R241). -/
  | movRmReg (w : Width) (m : RM) (r : RegNum)
  /-- MOV rb,eb / rw,ew: `1000101w oorrrmmm` (R241). -/
  | movRegRm (w : Width) (r : RegNum) (m : RM)
  /-- MOV ew,ES / ew,CS / ew,SS / ew,DS: `10001100 oo0ggmmm` (R242). -/
  | movRmSreg (m : RM) (g : SReg)
  /-- LEA rw,m: `10001101 oorrrmmm` (R260). -/
  | lea (r : RegNum) (a : MemOp)
  /-- MOV ES,ew / SS,ew / DS,ew: `10001110 oo0ggmmm` (R242). -/
  | movSregRm (g : SReg) (m : RM)
  /-- POP mw: `10001111 oo000mmm` (R248). -/
  | popRm (m : RM)
  /-- NOP: `10010000` (R476). -/
  | nop
  /-- XCHG AX,rw: `10010rrr` (R256). -/
  | xchgAxReg (r : RegNum)
  /-- CBW: `10011000` (R300). -/
  | cbw
  /-- CWD: `10011001` (R301). -/
  | cwd
  /-- CALL cd: `10011010` (R377). -/
  | callFar (o : Word) (c : Word)
  /-- WAIT: `10011011` (R481). -/
  | wait
  /-- PUSHF: `10011100` (R262). -/
  | pushf
  /-- POPF: `10011101` (R263). -/
  | popf
  /-- SAHF: `10011110` (R265). -/
  | sahf
  /-- LAHF: `10011111` (R264). -/
  | lahf
  /-- MOV AL,xb / AX,xw: `1010000w` (R241). -/
  | movAccMoffs (w : Width) (o : Word)
  /-- MOV xb,AL / xw,AX: `1010001w` (R241). -/
  | movMoffsAcc (w : Width) (o : Word)
  /-- MOVS_MOVSB_MOVSW mb,mb / mw,mw: `1010010w` (R351). -/
  | movs (w : Width)
  /-- CMPS_CMPSB_CMPSW mb,mb / mw,mw: `1010011w` (R352). -/
  | cmps (w : Width)
  /-- TEST AL,db / AX,dw: `1010100w` (R324). -/
  | testAccImm (v : Imm)
  /-- STOS_STOSB_STOSW mb / mw: `1010101w` (R355). -/
  | stos (w : Width)
  /-- LODS_LODSB_LODSW mb / mw: `1010110w` (R354). -/
  | lods (w : Width)
  /-- SCAS_SCASB_SCASW mb / mw: `1010111w` (R353). -/
  | scas (w : Width)
  /-- MOV rb,db / rw,dw: `1011wrrr` (R241). -/
  | movRegImm (r : RegNum) (v : Imm)
  /-- ROL eb,db / ew,db: `1100000w oo000mmm` (R331). -/
  | rolImm (w : Width) (m : RM) (v : Byte)
  /-- ROL eb,1 / ew,1: `1101000w oo000mmm` (R331). -/
  | rolOne (w : Width) (m : RM)
  /-- ROL eb,CL / ew,CL: `1101001w oo000mmm` (R331). -/
  | rolCl (w : Width) (m : RM)
  /-- ROR eb,db / ew,db: `1100000w oo001mmm` (R332). -/
  | rorImm (w : Width) (m : RM) (v : Byte)
  /-- ROR eb,1 / ew,1: `1101000w oo001mmm` (R332). -/
  | rorOne (w : Width) (m : RM)
  /-- ROR eb,CL / ew,CL: `1101001w oo001mmm` (R332). -/
  | rorCl (w : Width) (m : RM)
  /-- RCL eb,db / ew,db: `1100000w oo010mmm` (R333). -/
  | rclImm (w : Width) (m : RM) (v : Byte)
  /-- RCL eb,1 / ew,1: `1101000w oo010mmm` (R333). -/
  | rclOne (w : Width) (m : RM)
  /-- RCL eb,CL / ew,CL: `1101001w oo010mmm` (R333). -/
  | rclCl (w : Width) (m : RM)
  /-- RCR eb,db / ew,db: `1100000w oo011mmm` (R334). -/
  | rcrImm (w : Width) (m : RM) (v : Byte)
  /-- RCR eb,1 / ew,1: `1101000w oo011mmm` (R334). -/
  | rcrOne (w : Width) (m : RM)
  /-- RCR eb,CL / ew,CL: `1101001w oo011mmm` (R334). -/
  | rcrCl (w : Width) (m : RM)
  /-- SHL_SAL eb,db / ew,db: `1100000w oo100mmm` (R335). -/
  | shlImm (w : Width) (m : RM) (v : Byte)
  /-- SHL_SAL eb,1 / ew,1: `1101000w oo100mmm` (R335). -/
  | shlOne (w : Width) (m : RM)
  /-- SHL_SAL eb,CL / ew,CL: `1101001w oo100mmm` (R335). -/
  | shlCl (w : Width) (m : RM)
  /-- SHR eb,db / ew,db: `1100000w oo101mmm` (R336). -/
  | shrImm (w : Width) (m : RM) (v : Byte)
  /-- SHR eb,1 / ew,1: `1101000w oo101mmm` (R336). -/
  | shrOne (w : Width) (m : RM)
  /-- SHR eb,CL / ew,CL: `1101001w oo101mmm` (R336). -/
  | shrCl (w : Width) (m : RM)
  /-- SAR eb,db / ew,db: `1100000w oo111mmm` (R337). -/
  | sarImm (w : Width) (m : RM) (v : Byte)
  /-- SAR eb,1 / ew,1: `1101000w oo111mmm` (R337). -/
  | sarOne (w : Width) (m : RM)
  /-- SAR eb,CL / ew,CL: `1101001w oo111mmm` (R337). -/
  | sarCl (w : Width) (m : RM)
  /-- RET dw: `11000010` (R385). -/
  | retImm (v : Word)
  /-- RET: `11000011` (R385). -/
  | ret
  /-- LES rw,ed: `11000100 oorrrmmm` (R261). -/
  | les (r : RegNum) (a : MemOp)
  /-- LDS rw,ed: `11000101 oorrrmmm` (R261). -/
  | lds (r : RegNum) (a : MemOp)
  /-- MOV eb,db / ew,dw: `1100011w oo000mmm` (R241). -/
  | movRmImm (m : RM) (v : Imm)
  /-- ENTER dw,db: `11001000` (R390). -/
  | enter (v : Word) (l : Byte)
  /-- LEAVE: `11001001` (R391). -/
  | leave
  /-- RET__far dw: `11001010` (R386). -/
  | retFarImm (v : Word)
  /-- RET__far: `11001011` (R386). -/
  | retFar
  /-- INT 3: `11001100` (R400). -/
  | int3
  /-- INT db: `11001101` (R400). -/
  | intImm (v : Byte)
  /-- INTO: `11001110` (R401). -/
  | into
  /-- IRET: `11001111` (R409). -/
  | iret
  /-- AAM: `11010100 00001010` (R298). -/
  | aam
  /-- AAD: `11010101 00001010` (R299). -/
  | aad
  /-- XLAT_XLATB mb: `11010111` (R259). -/
  | xlat
  /-- ESC opcode TTT LLL, ea: `11011ttt oolllmmm` (R483). -/
  | esc (t : BitVec 3) (l : BitVec 3) (m : RM)
  /-- LOOPNZ_LOOPNE cb: `11100000` (R382). -/
  | loopne (d : Byte)
  /-- LOOPZ_LOOPE cb: `11100001` (R382). -/
  | loope (d : Byte)
  /-- LOOP cb: `11100010` (R382). -/
  | loop (d : Byte)
  /-- JCXZ cb: `11100011` (R381). -/
  | jcxz (d : Byte)
  /-- IN AL,db / AX,db: `1110010w` (R257). -/
  | inImm (w : Width) (v : Byte)
  /-- OUT db,AL / db,AX: `1110011w` (R258). -/
  | outImm (w : Width) (v : Byte)
  /-- CALL cw: `11101000` (R376). -/
  | callRel (d : Word)
  /-- JMP cw: `11101001` (R373). -/
  | jmpRel16 (d : Word)
  /-- JMP__far cd: `11101010` (R375). -/
  | jmpFar (o : Word) (c : Word)
  /-- JMP cb: `11101011` (R373). -/
  | jmpRel8 (d : Byte)
  /-- IN AL,DX / AX,DX: `1110110w` (R257). -/
  | inDx (w : Width)
  /-- OUT DX,AL / DX,AX: `1110111w` (R258). -/
  | outDx (w : Width)
  /-- HLT: `11110100` (R478). -/
  | hlt
  /-- CMC: `11110101` (R471). -/
  | cmc
  /-- TEST eb,db / ew,dw: `1111011w oo000mmm` (R324). -/
  | testRmImm (m : RM) (v : Imm)
  /-- NOT eb / ew: `1111011w oo010mmm` (R325). -/
  | notRm (w : Width) (m : RM)
  /-- NEG eb / ew: `1111011w oo011mmm` (R287). -/
  | negRm (w : Width) (m : RM)
  /-- MUL eb / ew: `1111011w oo100mmm` (R293). -/
  | mulRm (w : Width) (m : RM)
  /-- IMUL eb / ew: `1111011w oo101mmm` (R294). -/
  | imulRm (w : Width) (m : RM)
  /-- DIV eb / ew: `1111011w oo110mmm` (R296). -/
  | divRm (w : Width) (m : RM)
  /-- IDIV eb / ew: `1111011w oo111mmm` (R297). -/
  | idivRm (w : Width) (m : RM)
  /-- CLC: `11111000` (R470). -/
  | clc
  /-- STC: `11111001` (R472). -/
  | stc
  /-- CLI: `11111010` (R475). -/
  | cli
  /-- STI: `11111011` (R479). -/
  | sti
  /-- CLD: `11111100` (R473). -/
  | cld
  /-- STD: `11111101` (R474). -/
  | std
  /-- INC eb / ew: `1111111w oo000mmm` (R283). -/
  | incRm (w : Width) (m : RM)
  /-- DEC eb / ew: `1111111w oo001mmm` (R286). -/
  | decRm (w : Width) (m : RM)
  /-- CALL ew: `11111111 oo010mmm` (R376). -/
  | callRm (m : RM)
  /-- CALL__far ed: `11111111 oo011mmm` (R377). -/
  | callFarMem (a : MemOp)
  /-- JMP ew: `11111111 oo100mmm` (R374). -/
  | jmpRm (m : RM)
  /-- JMP__far ed: `11111111 oo101mmm` (R375). -/
  | jmpFarMem (a : MemOp)
  /-- PUSH mw: `11111111 oo110mmm` (R245). -/
  | pushRm (m : RM)
  /-- SLDT ew: `00001111 00000000 oo000mmm` (R506). -/
  | sldt (m : RM)
  /-- STR ew: `00001111 00000000 oo001mmm` (R509). -/
  | str (m : RM)
  /-- LLDT ew: `00001111 00000000 oo010mmm` (R505). -/
  | lldt (m : RM)
  /-- LTR ew: `00001111 00000000 oo011mmm` (R508). -/
  | ltr (m : RM)
  /-- VERR ew: `00001111 00000000 oo100mmm` (R517). -/
  | verr (m : RM)
  /-- VERW ew: `00001111 00000000 oo101mmm` (R518). -/
  | verw (m : RM)
  /-- SGDT m: `00001111 00000001 oo000mmm` (R503). -/
  | sgdt (a : MemOp)
  /-- SIDT m: `00001111 00000001 oo001mmm` (R504). -/
  | sidt (a : MemOp)
  /-- LGDT m: `00001111 00000001 oo010mmm` (R501). -/
  | lgdt (a : MemOp)
  /-- LIDT m: `00001111 00000001 oo011mmm` (R502). -/
  | lidt (a : MemOp)
  /-- SMSW ew: `00001111 00000001 oo100mmm` (R511). -/
  | smsw (m : RM)
  /-- LMSW ew: `00001111 00000001 oo110mmm` (R510). -/
  | lmsw (m : RM)
  /-- LAR rw,ew: `00001111 00000010 oorrrmmm` (R515). -/
  | lar (r : RegNum) (m : RM)
  /-- LSL rw,ew: `00001111 00000011 oorrrmmm` (R516). -/
  | lsl (r : RegNum) (m : RM)
  /-- CLTS: `00001111 00000110` (R477). -/
  | clts
deriving DecidableEq, Repr

end Sys2Proof
end

