-- ==== Sys2Proof/WellFormed.lean ====
section
/-! DEFINITION. Which terms of `Instr` the encoding admits. Only three things can be wrong: a memory operand [BP] with no
displacement (mod 00, r/m 110 is the direct offset, 30_encoding.md R198), MOV CS,ew (R226), and XCHG AX,AX in the short
form, which is NOP (opcode_table.json, row XCHG AX,rw). -/

namespace Sys2Proof

/-- A memory operand has an encoding: [BP] alone has none (R198). -/
def MemOp.wf : MemOp → Bool
  | .based b => decide (b ≠ .bp)
  | .direct _ => true
  | .disp8 _ _ => true
  | .disp16 _ _ => true

/-- An operand of the mod-reg-r/m byte has an encoding. -/
def RM.wf : RM → Bool
  | .reg _ => true
  | .mem a => a.wf

/-- An instruction has an encoding. -/
def Instr.wf : Instr → Bool
  | .addRmReg _ m _ => m.wf
  | .addRegRm _ _ m => m.wf
  | .addAccImm _ => true
  | .addRmImm m _ => m.wf
  | .addRm8Imm82 m _ => m.wf
  | .addRmSext m _ => m.wf
  | .orRmReg _ m _ => m.wf
  | .orRegRm _ _ m => m.wf
  | .orAccImm _ => true
  | .orRmImm m _ => m.wf
  | .adcRmReg _ m _ => m.wf
  | .adcRegRm _ _ m => m.wf
  | .adcAccImm _ => true
  | .adcRmImm m _ => m.wf
  | .adcRm8Imm82 m _ => m.wf
  | .adcRmSext m _ => m.wf
  | .sbbRmReg _ m _ => m.wf
  | .sbbRegRm _ _ m => m.wf
  | .sbbAccImm _ => true
  | .sbbRmImm m _ => m.wf
  | .sbbRm8Imm82 m _ => m.wf
  | .sbbRmSext m _ => m.wf
  | .andRmReg _ m _ => m.wf
  | .andRegRm _ _ m => m.wf
  | .andAccImm _ => true
  | .andRmImm m _ => m.wf
  | .subRmReg _ m _ => m.wf
  | .subRegRm _ _ m => m.wf
  | .subAccImm _ => true
  | .subRmImm m _ => m.wf
  | .subRm8Imm82 m _ => m.wf
  | .subRmSext m _ => m.wf
  | .xorRmReg _ m _ => m.wf
  | .xorRegRm _ _ m => m.wf
  | .xorAccImm _ => true
  | .xorRmImm m _ => m.wf
  | .cmpRmReg _ m _ => m.wf
  | .cmpRegRm _ _ m => m.wf
  | .cmpAccImm _ => true
  | .cmpRmImm m _ => m.wf
  | .cmpRm8Imm82 m _ => m.wf
  | .cmpRmSext m _ => m.wf
  | .pushSreg _ => true
  | .popEs => true
  | .popSs => true
  | .popDs => true
  | .segPfx _ => true
  | .lockPfx => true
  | .repnePfx => true
  | .repPfx => true
  | .daa => true
  | .das => true
  | .aaa => true
  | .aas => true
  | .incReg _ => true
  | .decReg _ => true
  | .pushReg _ => true
  | .popReg _ => true
  | .pusha => true
  | .popa => true
  | .bound _ a => a.wf
  | .arpl m _ => m.wf
  | .pushImm16 _ => true
  | .imulRegRmImm16 _ m _ => m.wf
  | .pushImm8 _ => true
  | .imulRegRmImm8 _ m _ => m.wf
  | .ins _ => true
  | .outs _ => true
  | .jo _ => true
  | .jno _ => true
  | .jb _ => true
  | .jnb _ => true
  | .je _ => true
  | .jne _ => true
  | .jbe _ => true
  | .jnbe _ => true
  | .js _ => true
  | .jns _ => true
  | .jp _ => true
  | .jnp _ => true
  | .jl _ => true
  | .jnl _ => true
  | .jle _ => true
  | .jnle _ => true
  | .testRmReg _ m _ => m.wf
  | .xchgRmReg _ m _ => m.wf
  | .movRmReg _ m _ => m.wf
  | .movRegRm _ _ m => m.wf
  | .movRmSreg m _ => m.wf
  | .lea _ a => a.wf
  | .movSregRm g m => decide (g ≠ .cs) && m.wf
  | .popRm m => m.wf
  | .nop => true
  | .xchgAxReg r => decide (r ≠ .r0)
  | .cbw => true
  | .cwd => true
  | .callFar _ _ => true
  | .wait => true
  | .pushf => true
  | .popf => true
  | .sahf => true
  | .lahf => true
  | .movAccMoffs _ _ => true
  | .movMoffsAcc _ _ => true
  | .movs _ => true
  | .cmps _ => true
  | .testAccImm _ => true
  | .stos _ => true
  | .lods _ => true
  | .scas _ => true
  | .movRegImm _ _ => true
  | .rolImm _ m _ => m.wf
  | .rolOne _ m => m.wf
  | .rolCl _ m => m.wf
  | .rorImm _ m _ => m.wf
  | .rorOne _ m => m.wf
  | .rorCl _ m => m.wf
  | .rclImm _ m _ => m.wf
  | .rclOne _ m => m.wf
  | .rclCl _ m => m.wf
  | .rcrImm _ m _ => m.wf
  | .rcrOne _ m => m.wf
  | .rcrCl _ m => m.wf
  | .shlImm _ m _ => m.wf
  | .shlOne _ m => m.wf
  | .shlCl _ m => m.wf
  | .shrImm _ m _ => m.wf
  | .shrOne _ m => m.wf
  | .shrCl _ m => m.wf
  | .sarImm _ m _ => m.wf
  | .sarOne _ m => m.wf
  | .sarCl _ m => m.wf
  | .retImm _ => true
  | .ret => true
  | .les _ a => a.wf
  | .lds _ a => a.wf
  | .movRmImm m _ => m.wf
  | .enter _ _ => true
  | .leave => true
  | .retFarImm _ => true
  | .retFar => true
  | .int3 => true
  | .intImm _ => true
  | .into => true
  | .iret => true
  | .aam => true
  | .aad => true
  | .xlat => true
  | .esc _ _ m => m.wf
  | .loopne _ => true
  | .loope _ => true
  | .loop _ => true
  | .jcxz _ => true
  | .inImm _ _ => true
  | .outImm _ _ => true
  | .callRel _ => true
  | .jmpRel16 _ => true
  | .jmpFar _ _ => true
  | .jmpRel8 _ => true
  | .inDx _ => true
  | .outDx _ => true
  | .hlt => true
  | .cmc => true
  | .testRmImm m _ => m.wf
  | .notRm _ m => m.wf
  | .negRm _ m => m.wf
  | .mulRm _ m => m.wf
  | .imulRm _ m => m.wf
  | .divRm _ m => m.wf
  | .idivRm _ m => m.wf
  | .clc => true
  | .stc => true
  | .cli => true
  | .sti => true
  | .cld => true
  | .std => true
  | .incRm _ m => m.wf
  | .decRm _ m => m.wf
  | .callRm m => m.wf
  | .callFarMem a => a.wf
  | .jmpRm m => m.wf
  | .jmpFarMem a => a.wf
  | .pushRm m => m.wf
  | .sldt m => m.wf
  | .str m => m.wf
  | .lldt m => m.wf
  | .ltr m => m.wf
  | .verr m => m.wf
  | .verw m => m.wf
  | .sgdt a => a.wf
  | .sidt a => a.wf
  | .lgdt a => a.wf
  | .lidt a => a.wf
  | .smsw m => m.wf
  | .lmsw m => m.wf
  | .lar _ m => m.wf
  | .lsl _ m => m.wf
  | .clts => true

/-- Well-formed, as a proposition that `decide` runs on. -/
abbrev Instr.WellFormed (i : Instr) : Prop := i.wf = true

end Sys2Proof
end

