-- ==== Sys2Proof/Machine/Bits.lean ====
section
/-! DEFINITION. Byte order, sign extension and the numbers of registers: the bit-level helpers that decoding and the
machine share (20_memory.md R80, R82; 30_encoding.md R186, R187, R195). -/

namespace Sys2Proof

/-- The low byte of a word. -/
def loByte (v : Word) : Byte := v.extractLsb' 0 8

/-- The high byte of a word. -/
def hiByte (v : Word) : Byte := v.extractLsb' 8 8

/-- A word from its low and its high byte. -/
def wordOf (lo hi : Byte) : Word := hi ++ lo

/-- A word as the machine stores it, low byte first (R80). -/
def wordBytes (v : Word) : List Byte := [loByte v, hiByte v]

/-- `sext_16` of a byte (00_scope.md R12). -/
def sextByte (v : Byte) : Word := v.signExtend 16

/-- `zext_16` of a byte. -/
def zextByte (v : Byte) : Word := v.setWidth 16

/-- A bit as a number. -/
def bit (b : Bool) : Nat := if b then 1 else 0

/-- The 3-bit number of a register (R186). -/
def RegNum.bits : RegNum → BitVec 3
  | .r0 => 0
  | .r1 => 1
  | .r2 => 2
  | .r3 => 3
  | .r4 => 4
  | .r5 => 5
  | .r6 => 6
  | .r7 => 7

/-- The register a 3-bit number names. -/
def RegNum.ofBits (b : BitVec 3) : RegNum :=
  match b.toNat with
  | 0 => .r0
  | 1 => .r1
  | 2 => .r2
  | 3 => .r3
  | 4 => .r4
  | 5 => .r5
  | 6 => .r6
  | _ => .r7

/-- The 2-bit number of a segment register (R187). -/
def SReg.bits : SReg → BitVec 2
  | .es => 0
  | .cs => 1
  | .ss => 2
  | .ds => 3

/-- The segment register a 2-bit number names. -/
def SReg.ofBits (b : BitVec 2) : SReg :=
  match b.toNat with
  | 0 => .es
  | 1 => .cs
  | 2 => .ss
  | _ => .ds

/-- The r/m number of a base (R198); `.bp` is 110, the direct offset when mod is 00. -/
def EaBase.bits : EaBase → BitVec 3
  | .bxsi => 0
  | .bxdi => 1
  | .bpsi => 2
  | .bpdi => 3
  | .si => 4
  | .di => 5
  | .bp => 6
  | .bx => 7

/-- The base an r/m number names when mod is not 11. -/
def EaBase.ofBits (b : BitVec 3) : EaBase :=
  match b.toNat with
  | 0 => .bxsi
  | 1 => .bxdi
  | 2 => .bpsi
  | 3 => .bpdi
  | 4 => .si
  | 5 => .di
  | 6 => .bp
  | _ => .bx

/-- The width an immediate has. -/
def Imm.width : Imm → Width
  | .b _ => .byte
  | .w _ => .word

/-- An immediate as a value of its width. -/
def Imm.val : (v : Imm) → Val v.width
  | .b v => v
  | .w v => v

/-- The bytes of an immediate, low byte first. -/
def Imm.bytes : Imm → List Byte
  | .b v => [v]
  | .w v => wordBytes v

end Sys2Proof
end

