-- ==== Sys2Proof/Decode.lean ====
section
/-! DEFINITION. Decoding bytes into instructions, total on any bytes and rejecting by name (30_encoding.md R180 to R228),
and after it the encoder. `decode` reads one instruction or one prefix byte; `decodeSeq` reads the prefixes and the
instruction they belong to. -/

namespace Sys2Proof

/-- Why bytes are no instruction. -/
inductive DecodeError where
  /-- More bytes are needed than were given: the bytes at hand end inside the instruction. -/
  | truncated
  /-- An opcode byte no row defines, or MOV CS,ew (R220, R226): the processor raises #UD. -/
  | undefinedOpcode
  /-- A register operand where memory is required (R221): the processor raises #UD. -/
  | registerOperand
  /-- 8F /1 to /7 and FF /7 (R222): the processor raises exception 13. -/
  | pushPopGroup
  /-- A group member the source does not list (R223, 93 U3, 90 C3): the spec tells a model to refuse it. -/
  | unlistedGroup
  /-- AAM or AAD with a second byte other than 0AH (R224, 93 U4): the spec tells a model to refuse it. -/
  | adjustBase
deriving DecidableEq, Repr

/-- What decoding answers: an instruction and the bytes after it, or the name of what is wrong. -/
abbrev Decoded := Except DecodeError (Instr × List Byte)

/-- Read one byte. -/
def withByte (bs : List Byte) (k : Byte → List Byte → Decoded) : Decoded :=
  match bs with
  | b :: rest => k b rest
  | [] => .error .truncated

/-- Read one word, low byte first (R195, R196). -/
def withWord (bs : List Byte) (k : Word → List Byte → Decoded) : Decoded :=
  match bs with
  | lo :: hi :: rest => k (wordOf lo hi) rest
  | _ => .error .truncated

/-- Read an immediate of a width (R195). -/
def withImm (w : Width) (bs : List Byte) (k : Imm → List Byte → Decoded) : Decoded :=
  match w with
  | .byte => withByte bs fun v rest => k (.b v) rest
  | .word => withWord bs fun v rest => k (.w v) rest

/-- The displacement and operand that a mod-reg-r/m byte calls for (R183, R184, R198). -/
def withOperand (mod : Nat) (rm : BitVec 3) (bs : List Byte) (k : RM → List Byte → Decoded) : Decoded :=
  match mod with
  | 0 =>
    if rm = 6 then withWord bs fun o rest => k (.mem (.direct o)) rest
    else k (.mem (.based (EaBase.ofBits rm))) bs
  | 1 => withByte bs fun d rest => k (.mem (.disp8 (EaBase.ofBits rm) d)) rest
  | 2 => withWord bs fun d rest => k (.mem (.disp16 (EaBase.ofBits rm) d)) rest
  | _ => k (.reg (RegNum.ofBits rm)) bs

/-- Read the mod-reg-r/m byte and its displacement: the continuation gets the reg field and the operand (R183). -/
def withModRM (bs : List Byte) (k : BitVec 3 → RM → List Byte → Decoded) : Decoded :=
  withByte bs fun b rest =>
    withOperand (b.extractLsb' 6 2).toNat (b.extractLsb' 0 3) rest fun m rest' => k (b.extractLsb' 3 3) m rest'

/-- Read the mod-reg-r/m byte of a group whose reg field names the member, and only then the displacement of a member there
is: the reg field of an undefined opcode (R226) or of a member no row lists (R223) is judged before a displacement that may
be missing (60_exceptions.md R550 (e), log 43). -/
def withGroup (bs : List Byte) (member : BitVec 3 → Except DecodeError (RM → List Byte → Decoded)) : Decoded :=
  withByte bs fun b rest =>
    match member (b.extractLsb' 3 3) with
    | .error e => .error e
    | .ok k => withOperand (b.extractLsb' 6 2).toNat (b.extractLsb' 0 3) rest k

/-- A memory operand is required; the register form is an undefined opcode (R221). -/
def memOnly (m : RM) (k : MemOp → Decoded) : Decoded :=
  match m with
  | .mem a => k a
  | .reg _ => .error .registerOperand

/-- An instruction with no operand bytes. -/
def plain (i : Instr) (bs : List Byte) : Decoded := .ok (i, bs)

/-- `/r` forms: a register and an operand. -/
def rmReg (f : RM → RegNum → Instr) (bs : List Byte) : Decoded :=
  withModRM bs fun r m rest => .ok (f m (RegNum.ofBits r), rest)

/-- `/r` forms whose operand must be memory (R221). -/
def memReg (f : RegNum → MemOp → Instr) (bs : List Byte) : Decoded :=
  withModRM bs fun r m rest => memOnly m fun a => .ok (f (RegNum.ofBits r) a, rest)

/-- A byte immediate after the opcode. -/
def byteArg (f : Byte → Instr) (bs : List Byte) : Decoded := withByte bs fun v rest => .ok (f v, rest)

/-- A word immediate after the opcode. -/
def wordArg (f : Word → Instr) (bs : List Byte) : Decoded := withWord bs fun v rest => .ok (f v, rest)

/-- A far pointer after the opcode: offset word, then selector word (R197). -/
def farArg (f : Word → Word → Instr) (bs : List Byte) : Decoded :=
  withWord bs fun o rest => withWord rest fun c rest' => .ok (f o c, rest')

/-- An immediate of the operation's width after the opcode. -/
def immArg (w : Width) (f : Imm → Instr) (bs : List Byte) : Decoded := withImm w bs fun v rest => .ok (f v, rest)

/-- 80 and 81: the immediate group (R203). -/
def immGroup (w : Width) (bs : List Byte) : Decoded :=
  withModRM bs fun ext m rest => withImm w rest fun v rest' =>
    match ext.toNat with
    | 0 => .ok (.addRmImm m v, rest')
    | 1 => .ok (.orRmImm m v, rest')
    | 2 => .ok (.adcRmImm m v, rest')
    | 3 => .ok (.sbbRmImm m v, rest')
    | 4 => .ok (.andRmImm m v, rest')
    | 5 => .ok (.subRmImm m v, rest')
    | 6 => .ok (.xorRmImm m v, rest')
    | _ => .ok (.cmpRmImm m v, rest')

/-- 82: the byte group with s = 1 (R203, R223). -/
def immGroup82 (bs : List Byte) : Decoded :=
  withGroup bs fun ext =>
    match ext.toNat with
    | 0 => .ok fun m rest => byteArg (.addRm8Imm82 m) rest
    | 2 => .ok fun m rest => byteArg (.adcRm8Imm82 m) rest
    | 3 => .ok fun m rest => byteArg (.sbbRm8Imm82 m) rest
    | 5 => .ok fun m rest => byteArg (.subRm8Imm82 m) rest
    | 7 => .ok fun m rest => byteArg (.cmpRm8Imm82 m) rest
    | _ => .error .unlistedGroup

/-- 83: the word group with a sign-extended byte (R203, R223). -/
def immGroup83 (bs : List Byte) : Decoded :=
  withGroup bs fun ext =>
    match ext.toNat with
    | 0 => .ok fun m rest => byteArg (.addRmSext m) rest
    | 2 => .ok fun m rest => byteArg (.adcRmSext m) rest
    | 3 => .ok fun m rest => byteArg (.sbbRmSext m) rest
    | 5 => .ok fun m rest => byteArg (.subRmSext m) rest
    | 7 => .ok fun m rest => byteArg (.cmpRmSext m) rest
    | _ => .error .unlistedGroup

/-- C0 and C1: shifts and rotates by an immediate count (R205, R223). -/
def shiftImmGroup (w : Width) (bs : List Byte) : Decoded :=
  withGroup bs fun ext =>
    match ext.toNat with
    | 0 => .ok fun m rest => byteArg (.rolImm w m) rest
    | 1 => .ok fun m rest => byteArg (.rorImm w m) rest
    | 2 => .ok fun m rest => byteArg (.rclImm w m) rest
    | 3 => .ok fun m rest => byteArg (.rcrImm w m) rest
    | 4 => .ok fun m rest => byteArg (.shlImm w m) rest
    | 5 => .ok fun m rest => byteArg (.shrImm w m) rest
    | 6 => .error .unlistedGroup
    | _ => .ok fun m rest => byteArg (.sarImm w m) rest

/-- D0 and D1: shifts and rotates by one (R205, R223). -/
def shiftOneGroup (w : Width) (bs : List Byte) : Decoded :=
  withGroup bs fun ext =>
    match ext.toNat with
    | 0 => .ok fun m rest => .ok (.rolOne w m, rest)
    | 1 => .ok fun m rest => .ok (.rorOne w m, rest)
    | 2 => .ok fun m rest => .ok (.rclOne w m, rest)
    | 3 => .ok fun m rest => .ok (.rcrOne w m, rest)
    | 4 => .ok fun m rest => .ok (.shlOne w m, rest)
    | 5 => .ok fun m rest => .ok (.shrOne w m, rest)
    | 6 => .error .unlistedGroup
    | _ => .ok fun m rest => .ok (.sarOne w m, rest)

/-- D2 and D3: shifts and rotates by CL (R205, R223). -/
def shiftClGroup (w : Width) (bs : List Byte) : Decoded :=
  withGroup bs fun ext =>
    match ext.toNat with
    | 0 => .ok fun m rest => .ok (.rolCl w m, rest)
    | 1 => .ok fun m rest => .ok (.rorCl w m, rest)
    | 2 => .ok fun m rest => .ok (.rclCl w m, rest)
    | 3 => .ok fun m rest => .ok (.rcrCl w m, rest)
    | 4 => .ok fun m rest => .ok (.shlCl w m, rest)
    | 5 => .ok fun m rest => .ok (.shrCl w m, rest)
    | 6 => .error .unlistedGroup
    | _ => .ok fun m rest => .ok (.sarCl w m, rest)

/-- F6 and F7 (R206, R223). -/
def unaryGroup (w : Width) (bs : List Byte) : Decoded :=
  withGroup bs fun ext =>
    match ext.toNat with
    | 0 => .ok fun m rest => immArg w (.testRmImm m) rest
    | 1 => .error .unlistedGroup
    | 2 => .ok fun m rest => .ok (.notRm w m, rest)
    | 3 => .ok fun m rest => .ok (.negRm w m, rest)
    | 4 => .ok fun m rest => .ok (.mulRm w m, rest)
    | 5 => .ok fun m rest => .ok (.imulRm w m, rest)
    | 6 => .ok fun m rest => .ok (.divRm w m, rest)
    | _ => .ok fun m rest => .ok (.idivRm w m, rest)

/-- FE (R206, R223). -/
def groupFE (bs : List Byte) : Decoded :=
  withGroup bs fun ext =>
    match ext.toNat with
    | 0 => .ok fun m rest => .ok (.incRm .byte m, rest)
    | 1 => .ok fun m rest => .ok (.decRm .byte m, rest)
    | _ => .error .unlistedGroup

/-- FF (R206, R221, R222). `/7` is judged after its displacement (log 43). -/
def groupFF (bs : List Byte) : Decoded :=
  withModRM bs fun ext m rest =>
    match ext.toNat with
    | 0 => .ok (.incRm .word m, rest)
    | 1 => .ok (.decRm .word m, rest)
    | 2 => .ok (.callRm m, rest)
    | 3 => memOnly m fun a => .ok (.callFarMem a, rest)
    | 4 => .ok (.jmpRm m, rest)
    | 5 => memOnly m fun a => .ok (.jmpFarMem a, rest)
    | 6 => .ok (.pushRm m, rest)
    | _ => .error .pushPopGroup

/-- C6 and C7: MOV immediate is `/0`; the other members are not listed (R205, R223). -/
def movImmGroup (w : Width) (bs : List Byte) : Decoded :=
  withGroup bs fun ext =>
    match ext.toNat with
    | 0 => .ok fun m rest => immArg w (.movRmImm m) rest
    | _ => .error .unlistedGroup

/-- 8C: MOV ew,sreg; bit 5 of the second byte must be 0 (R203, R223). -/
def movFromSreg (bs : List Byte) : Decoded :=
  withGroup bs fun ext =>
    if ext.getLsbD 2 then .error .unlistedGroup
    else .ok fun m rest => .ok (.movRmSreg m (SReg.ofBits (ext.extractLsb' 0 2)), rest)

/-- 8E: MOV sreg,ew; CS is an undefined opcode (R226), bit 5 set is not listed (R223). Either is known from the second byte,
before the displacement is read (60_exceptions.md R550 (e), log 43). -/
def movToSreg (bs : List Byte) : Decoded :=
  withGroup bs fun ext =>
    match ext.toNat with
    | 0 => .ok fun m rest => .ok (.movSregRm .es m, rest)
    | 1 => .error .undefinedOpcode
    | 2 => .ok fun m rest => .ok (.movSregRm .ss m, rest)
    | 3 => .ok fun m rest => .ok (.movSregRm .ds m, rest)
    | _ => .error .unlistedGroup

/-- 8F: POP mw is `/0` (R222). The other members are judged after their displacement (log 43). -/
def popGroup (bs : List Byte) : Decoded :=
  withModRM bs fun ext m rest =>
    match ext.toNat with
    | 0 => .ok (.popRm m, rest)
    | _ => .error .pushPopGroup

/-- 0F 00 (R216, R223). -/
def group0F00 (bs : List Byte) : Decoded :=
  withGroup bs fun ext =>
    match ext.toNat with
    | 0 => .ok fun m rest => .ok (.sldt m, rest)
    | 1 => .ok fun m rest => .ok (.str m, rest)
    | 2 => .ok fun m rest => .ok (.lldt m, rest)
    | 3 => .ok fun m rest => .ok (.ltr m, rest)
    | 4 => .ok fun m rest => .ok (.verr m, rest)
    | 5 => .ok fun m rest => .ok (.verw m, rest)
    | _ => .error .unlistedGroup

/-- 0F 01 (R216, R221, R223). -/
def group0F01 (bs : List Byte) : Decoded :=
  withGroup bs fun ext =>
    match ext.toNat with
    | 0 => .ok fun m rest => memOnly m fun a => .ok (.sgdt a, rest)
    | 1 => .ok fun m rest => memOnly m fun a => .ok (.sidt a, rest)
    | 2 => .ok fun m rest => memOnly m fun a => .ok (.lgdt a, rest)
    | 3 => .ok fun m rest => memOnly m fun a => .ok (.lidt a, rest)
    | 4 => .ok fun m rest => .ok (.smsw m, rest)
    | 6 => .ok fun m rest => .ok (.lmsw m, rest)
    | _ => .error .unlistedGroup

/-- The two-byte opcodes (R216). -/
def decode0F (bs : List Byte) : Decoded :=
  withByte bs fun b rest =>
    match b.toNat with
    | 0 => group0F00 rest
    | 1 => group0F01 rest
    | 2 => rmReg (fun m r => .lar r m) rest
    | 3 => rmReg (fun m r => .lsl r m) rest
    | 6 => .ok (.clts, rest)
    | _ => .error .undefinedOpcode

/-- D4 and D5: the second byte is 0AH (R224). -/
def adjust (i : Instr) (bs : List Byte) : Decoded :=
  withByte bs fun b rest => if b = 0x0A then .ok (i, rest) else .error .adjustBase

/-- The 16-bit register number in the low bits of a short opcode (R188). -/
def shortReg (n : Nat) : RegNum := RegNum.ofBits (BitVec.ofNat 3 n)

/-- Opcode bytes 00 to 0F (R201); `n` is the low digit. -/
def decodeRow0 (n : Nat) (bs : List Byte) : Decoded :=
  match n with
  | 0 => rmReg (.addRmReg .byte) bs
  | 1 => rmReg (.addRmReg .word) bs
  | 2 => rmReg (fun m r => .addRegRm .byte r m) bs
  | 3 => rmReg (fun m r => .addRegRm .word r m) bs
  | 4 => immArg .byte .addAccImm bs
  | 5 => immArg .word .addAccImm bs
  | 6 => plain (.pushSreg .es) bs
  | 7 => plain .popEs bs
  | 8 => rmReg (.orRmReg .byte) bs
  | 9 => rmReg (.orRmReg .word) bs
  | 10 => rmReg (fun m r => .orRegRm .byte r m) bs
  | 11 => rmReg (fun m r => .orRegRm .word r m) bs
  | 12 => immArg .byte .orAccImm bs
  | 13 => immArg .word .orAccImm bs
  | 14 => plain (.pushSreg .cs) bs
  | _ => decode0F bs

/-- Opcode bytes 10 to 1F (R201); `n` is the low digit. -/
def decodeRow1 (n : Nat) (bs : List Byte) : Decoded :=
  match n with
  | 0 => rmReg (.adcRmReg .byte) bs
  | 1 => rmReg (.adcRmReg .word) bs
  | 2 => rmReg (fun m r => .adcRegRm .byte r m) bs
  | 3 => rmReg (fun m r => .adcRegRm .word r m) bs
  | 4 => immArg .byte .adcAccImm bs
  | 5 => immArg .word .adcAccImm bs
  | 6 => plain (.pushSreg .ss) bs
  | 7 => plain .popSs bs
  | 8 => rmReg (.sbbRmReg .byte) bs
  | 9 => rmReg (.sbbRmReg .word) bs
  | 10 => rmReg (fun m r => .sbbRegRm .byte r m) bs
  | 11 => rmReg (fun m r => .sbbRegRm .word r m) bs
  | 12 => immArg .byte .sbbAccImm bs
  | 13 => immArg .word .sbbAccImm bs
  | 14 => plain (.pushSreg .ds) bs
  | _ => plain .popDs bs

/-- Opcode bytes 20 to 2F (R201); `n` is the low digit. -/
def decodeRow2 (n : Nat) (bs : List Byte) : Decoded :=
  match n with
  | 0 => rmReg (.andRmReg .byte) bs
  | 1 => rmReg (.andRmReg .word) bs
  | 2 => rmReg (fun m r => .andRegRm .byte r m) bs
  | 3 => rmReg (fun m r => .andRegRm .word r m) bs
  | 4 => immArg .byte .andAccImm bs
  | 5 => immArg .word .andAccImm bs
  | 6 => plain (.segPfx .es) bs
  | 7 => plain .daa bs
  | 8 => rmReg (.subRmReg .byte) bs
  | 9 => rmReg (.subRmReg .word) bs
  | 10 => rmReg (fun m r => .subRegRm .byte r m) bs
  | 11 => rmReg (fun m r => .subRegRm .word r m) bs
  | 12 => immArg .byte .subAccImm bs
  | 13 => immArg .word .subAccImm bs
  | 14 => plain (.segPfx .cs) bs
  | _ => plain .das bs

/-- Opcode bytes 30 to 3F (R201); `n` is the low digit. -/
def decodeRow3 (n : Nat) (bs : List Byte) : Decoded :=
  match n with
  | 0 => rmReg (.xorRmReg .byte) bs
  | 1 => rmReg (.xorRmReg .word) bs
  | 2 => rmReg (fun m r => .xorRegRm .byte r m) bs
  | 3 => rmReg (fun m r => .xorRegRm .word r m) bs
  | 4 => immArg .byte .xorAccImm bs
  | 5 => immArg .word .xorAccImm bs
  | 6 => plain (.segPfx .ss) bs
  | 7 => plain .aaa bs
  | 8 => rmReg (.cmpRmReg .byte) bs
  | 9 => rmReg (.cmpRmReg .word) bs
  | 10 => rmReg (fun m r => .cmpRegRm .byte r m) bs
  | 11 => rmReg (fun m r => .cmpRegRm .word r m) bs
  | 12 => immArg .byte .cmpAccImm bs
  | 13 => immArg .word .cmpAccImm bs
  | 14 => plain (.segPfx .ds) bs
  | _ => plain .aas bs

/-- Opcode bytes 40 to 4F (R202); `n` is the low digit. -/
def decodeRow4 (n : Nat) (bs : List Byte) : Decoded :=
  if n < 8 then plain (.incReg (shortReg n)) bs else plain (.decReg (shortReg (n - 8))) bs

/-- Opcode bytes 50 to 5F (R202); `n` is the low digit. -/
def decodeRow5 (n : Nat) (bs : List Byte) : Decoded :=
  if n < 8 then plain (.pushReg (shortReg n)) bs else plain (.popReg (shortReg (n - 8))) bs

/-- Opcode bytes 60 to 6F (R202); `n` is the low digit. -/
def decodeRow6 (n : Nat) (bs : List Byte) : Decoded :=
  match n with
  | 0 => plain .pusha bs
  | 1 => plain .popa bs
  | 2 => memReg .bound bs
  | 3 => rmReg .arpl bs
  | 4 => .error .undefinedOpcode
  | 5 => .error .undefinedOpcode
  | 6 => .error .undefinedOpcode
  | 7 => .error .undefinedOpcode
  | 8 => wordArg .pushImm16 bs
  | 9 => withModRM bs fun r m rest => wordArg (.imulRegRmImm16 (RegNum.ofBits r) m) rest
  | 10 => byteArg .pushImm8 bs
  | 11 => withModRM bs fun r m rest => byteArg (.imulRegRmImm8 (RegNum.ofBits r) m) rest
  | 12 => plain (.ins .byte) bs
  | 13 => plain (.ins .word) bs
  | 14 => plain (.outs .byte) bs
  | _ => plain (.outs .word) bs

/-- Opcode bytes 70 to 7F (R202); `n` is the low digit. -/
def decodeRow7 (n : Nat) (bs : List Byte) : Decoded :=
  match n with
  | 0 => byteArg .jo bs
  | 1 => byteArg .jno bs
  | 2 => byteArg .jb bs
  | 3 => byteArg .jnb bs
  | 4 => byteArg .je bs
  | 5 => byteArg .jne bs
  | 6 => byteArg .jbe bs
  | 7 => byteArg .jnbe bs
  | 8 => byteArg .js bs
  | 9 => byteArg .jns bs
  | 10 => byteArg .jp bs
  | 11 => byteArg .jnp bs
  | 12 => byteArg .jl bs
  | 13 => byteArg .jnl bs
  | 14 => byteArg .jle bs
  | _ => byteArg .jnle bs

/-- Opcode bytes 80 to 8F (R203); `n` is the low digit. -/
def decodeRow8 (n : Nat) (bs : List Byte) : Decoded :=
  match n with
  | 0 => immGroup .byte bs
  | 1 => immGroup .word bs
  | 2 => immGroup82 bs
  | 3 => immGroup83 bs
  | 4 => rmReg (.testRmReg .byte) bs
  | 5 => rmReg (.testRmReg .word) bs
  | 6 => rmReg (.xchgRmReg .byte) bs
  | 7 => rmReg (.xchgRmReg .word) bs
  | 8 => rmReg (.movRmReg .byte) bs
  | 9 => rmReg (.movRmReg .word) bs
  | 10 => rmReg (fun m r => .movRegRm .byte r m) bs
  | 11 => rmReg (fun m r => .movRegRm .word r m) bs
  | 12 => movFromSreg bs
  | 13 => memReg .lea bs
  | 14 => movToSreg bs
  | _ => popGroup bs

/-- Opcode bytes 90 to 9F (R203); `n` is the low digit. -/
def decodeRow9 (n : Nat) (bs : List Byte) : Decoded :=
  if 1 ≤ n ∧ n < 8 then plain (.xchgAxReg (shortReg n)) bs
  else match n with
  | 0 => plain .nop bs
  | 8 => plain .cbw bs
  | 9 => plain .cwd bs
  | 10 => farArg .callFar bs
  | 11 => plain .wait bs
  | 12 => plain .pushf bs
  | 13 => plain .popf bs
  | 14 => plain .sahf bs
  | _ => plain .lahf bs

/-- Opcode bytes A0 to AF (R204); `n` is the low digit. -/
def decodeRowA (n : Nat) (bs : List Byte) : Decoded :=
  match n with
  | 0 => wordArg (.movAccMoffs .byte) bs
  | 1 => wordArg (.movAccMoffs .word) bs
  | 2 => wordArg (.movMoffsAcc .byte) bs
  | 3 => wordArg (.movMoffsAcc .word) bs
  | 4 => plain (.movs .byte) bs
  | 5 => plain (.movs .word) bs
  | 6 => plain (.cmps .byte) bs
  | 7 => plain (.cmps .word) bs
  | 8 => immArg .byte .testAccImm bs
  | 9 => immArg .word .testAccImm bs
  | 10 => plain (.stos .byte) bs
  | 11 => plain (.stos .word) bs
  | 12 => plain (.lods .byte) bs
  | 13 => plain (.lods .word) bs
  | 14 => plain (.scas .byte) bs
  | _ => plain (.scas .word) bs

/-- Opcode bytes B0 to BF (R204); `n` is the low digit. -/
def decodeRowB (n : Nat) (bs : List Byte) : Decoded :=
  if n < 8 then immArg .byte (.movRegImm (shortReg n)) bs else immArg .word (.movRegImm (shortReg (n - 8))) bs

/-- Opcode bytes C0 to CF (R205); `n` is the low digit. -/
def decodeRowC (n : Nat) (bs : List Byte) : Decoded :=
  match n with
  | 0 => shiftImmGroup .byte bs
  | 1 => shiftImmGroup .word bs
  | 2 => wordArg .retImm bs
  | 3 => plain .ret bs
  | 4 => memReg .les bs
  | 5 => memReg .lds bs
  | 6 => movImmGroup .byte bs
  | 7 => movImmGroup .word bs
  | 8 => withWord bs fun v rest => byteArg (.enter v) rest
  | 9 => plain .leave bs
  | 10 => wordArg .retFarImm bs
  | 11 => plain .retFar bs
  | 12 => plain .int3 bs
  | 13 => byteArg .intImm bs
  | 14 => plain .into bs
  | _ => plain .iret bs

/-- Opcode bytes D0 to DF (R205); `n` is the low digit. -/
def decodeRowD (n : Nat) (bs : List Byte) : Decoded :=
  if 8 ≤ n then withModRM bs fun l m rest => .ok (.esc (BitVec.ofNat 3 (n - 8)) l m, rest)
  else match n with
  | 0 => shiftOneGroup .byte bs
  | 1 => shiftOneGroup .word bs
  | 2 => shiftClGroup .byte bs
  | 3 => shiftClGroup .word bs
  | 4 => adjust .aam bs
  | 5 => adjust .aad bs
  | 6 => .error .undefinedOpcode
  | _ => plain .xlat bs

/-- Opcode bytes E0 to EF (R206); `n` is the low digit. -/
def decodeRowE (n : Nat) (bs : List Byte) : Decoded :=
  match n with
  | 0 => byteArg .loopne bs
  | 1 => byteArg .loope bs
  | 2 => byteArg .loop bs
  | 3 => byteArg .jcxz bs
  | 4 => byteArg (.inImm .byte) bs
  | 5 => byteArg (.inImm .word) bs
  | 6 => byteArg (.outImm .byte) bs
  | 7 => byteArg (.outImm .word) bs
  | 8 => wordArg .callRel bs
  | 9 => wordArg .jmpRel16 bs
  | 10 => farArg .jmpFar bs
  | 11 => byteArg .jmpRel8 bs
  | 12 => plain (.inDx .byte) bs
  | 13 => plain (.inDx .word) bs
  | 14 => plain (.outDx .byte) bs
  | _ => plain (.outDx .word) bs

/-- Opcode bytes F0 to FF (R206); `n` is the low digit. -/
def decodeRowF (n : Nat) (bs : List Byte) : Decoded :=
  match n with
  | 0 => plain .lockPfx bs
  | 1 => .error .undefinedOpcode
  | 2 => plain .repnePfx bs
  | 3 => plain .repPfx bs
  | 4 => plain .hlt bs
  | 5 => plain .cmc bs
  | 6 => unaryGroup .byte bs
  | 7 => unaryGroup .word bs
  | 8 => plain .clc bs
  | 9 => plain .stc bs
  | 10 => plain .cli bs
  | 11 => plain .sti bs
  | 12 => plain .cld bs
  | 13 => plain .std bs
  | 14 => groupFE bs
  | _ => groupFF bs

/-- The instruction that begins with the opcode (or prefix) byte `b` (R184 steps 1 to 4). -/
def decodeOp (b : Byte) (bs : List Byte) : Decoded :=
  match b.toNat / 16 with
  | 0 => decodeRow0 (b.toNat % 16) bs
  | 1 => decodeRow1 (b.toNat % 16) bs
  | 2 => decodeRow2 (b.toNat % 16) bs
  | 3 => decodeRow3 (b.toNat % 16) bs
  | 4 => decodeRow4 (b.toNat % 16) bs
  | 5 => decodeRow5 (b.toNat % 16) bs
  | 6 => decodeRow6 (b.toNat % 16) bs
  | 7 => decodeRow7 (b.toNat % 16) bs
  | 8 => decodeRow8 (b.toNat % 16) bs
  | 9 => decodeRow9 (b.toNat % 16) bs
  | 10 => decodeRowA (b.toNat % 16) bs
  | 11 => decodeRowB (b.toNat % 16) bs
  | 12 => decodeRowC (b.toNat % 16) bs
  | 13 => decodeRowD (b.toNat % 16) bs
  | 14 => decodeRowE (b.toNat % 16) bs
  | _ => decodeRowF (b.toNat % 16) bs

/-- Decoding: one instruction, or one prefix byte, from the front of the bytes. -/
def decode (bs : List Byte) : Decoded := withByte bs decodeOp

/-- The four kinds of prefix (R190). -/
def Instr.isPrefix : Instr → Bool
  | .segPfx _ => true
  | .lockPfx => true
  | .repnePfx => true
  | .repPfx => true
  | _ => false

/-- The string instructions, to which a repeat prefix applies (43_string.md R360). -/
def Instr.isString : Instr → Bool
  | .ins _ => true
  | .outs _ => true
  | .movs _ => true
  | .cmps _ => true
  | .stos _ => true
  | .lods _ => true
  | .scas _ => true
  | _ => false

/-- An instruction with its prefixes as fetched: the prefixes in order, the instruction, and how many bytes they take. -/
structure Fetched where
  pfx : List Instr
  instr : Instr
  len : Nat
deriving DecidableEq, Repr

/-- Decoding with prefixes: while the byte is a prefix, note it and read the next one (R184, R190). -/
def decodeSeq : List Byte → Except DecodeError Fetched
  | [] => .error .truncated
  | b :: bs =>
    match decodeOp b bs with
    | .error e => .error e
    | .ok (i, rest) =>
      if i.isPrefix then
        match decodeSeq bs with
        | .error e => .error e
        | .ok f => .ok { pfx := i :: f.pfx, instr := f.instr, len := f.len + 1 }
      else .ok { pfx := [], instr := i, len := bs.length + 1 - rest.length }

/-- An opcode byte with the `w` field in bit 0 (R182). -/
def opW (b : Byte) : Width → Byte
  | .byte => b
  | .word => b ||| 1

/-- An opcode byte with the `w` field in bit 3 (R182, `1011 w reg`). -/
def opW8 (b : Byte) : Width → Byte
  | .byte => b
  | .word => b ||| 8

/-- A short opcode with the register number in its low bits (R188). -/
def opR (b : Byte) (r : RegNum) : Byte := b ||| r.bits.setWidth 8

/-- The mod-reg-r/m byte from its fields (R183). -/
def modRMByte (mod : BitVec 2) (reg rm : BitVec 3) : Byte := mod ++ reg ++ rm

/-- The mod-reg-r/m byte and the displacement of an operand (R183, R198). -/
def modRM (reg : BitVec 3) : RM → List Byte
  | .reg r => [modRMByte 3 reg r.bits]
  | .mem (.direct o) => modRMByte 0 reg 6 :: wordBytes o
  | .mem (.based b) => [modRMByte 0 reg b.bits]
  | .mem (.disp8 b d) => [modRMByte 1 reg b.bits, d]
  | .mem (.disp16 b d) => modRMByte 2 reg b.bits :: wordBytes d

/-- The bytes of an instruction, from the encodings of opcode_table.json and 30_encoding.md R180 to R199: opcode, the
mod-reg-r/m byte, displacement, immediate. -/
def encode : Instr → List Byte
  | .addRmReg w m r => opW 0x00 w :: modRM r.bits m
  | .addRegRm w r m => opW 0x02 w :: modRM r.bits m
  | .addAccImm v => opW 0x04 v.width :: v.bytes
  | .addRmImm m v => opW 0x80 v.width :: modRM 0 m ++ v.bytes
  | .addRm8Imm82 m v => 0x82 :: modRM 0 m ++ [v]
  | .addRmSext m v => 0x83 :: modRM 0 m ++ [v]
  | .orRmReg w m r => opW 0x08 w :: modRM r.bits m
  | .orRegRm w r m => opW 0x0A w :: modRM r.bits m
  | .orAccImm v => opW 0x0C v.width :: v.bytes
  | .orRmImm m v => opW 0x80 v.width :: modRM 1 m ++ v.bytes
  | .adcRmReg w m r => opW 0x10 w :: modRM r.bits m
  | .adcRegRm w r m => opW 0x12 w :: modRM r.bits m
  | .adcAccImm v => opW 0x14 v.width :: v.bytes
  | .adcRmImm m v => opW 0x80 v.width :: modRM 2 m ++ v.bytes
  | .adcRm8Imm82 m v => 0x82 :: modRM 2 m ++ [v]
  | .adcRmSext m v => 0x83 :: modRM 2 m ++ [v]
  | .sbbRmReg w m r => opW 0x18 w :: modRM r.bits m
  | .sbbRegRm w r m => opW 0x1A w :: modRM r.bits m
  | .sbbAccImm v => opW 0x1C v.width :: v.bytes
  | .sbbRmImm m v => opW 0x80 v.width :: modRM 3 m ++ v.bytes
  | .sbbRm8Imm82 m v => 0x82 :: modRM 3 m ++ [v]
  | .sbbRmSext m v => 0x83 :: modRM 3 m ++ [v]
  | .andRmReg w m r => opW 0x20 w :: modRM r.bits m
  | .andRegRm w r m => opW 0x22 w :: modRM r.bits m
  | .andAccImm v => opW 0x24 v.width :: v.bytes
  | .andRmImm m v => opW 0x80 v.width :: modRM 4 m ++ v.bytes
  | .subRmReg w m r => opW 0x28 w :: modRM r.bits m
  | .subRegRm w r m => opW 0x2A w :: modRM r.bits m
  | .subAccImm v => opW 0x2C v.width :: v.bytes
  | .subRmImm m v => opW 0x80 v.width :: modRM 5 m ++ v.bytes
  | .subRm8Imm82 m v => 0x82 :: modRM 5 m ++ [v]
  | .subRmSext m v => 0x83 :: modRM 5 m ++ [v]
  | .xorRmReg w m r => opW 0x30 w :: modRM r.bits m
  | .xorRegRm w r m => opW 0x32 w :: modRM r.bits m
  | .xorAccImm v => opW 0x34 v.width :: v.bytes
  | .xorRmImm m v => opW 0x80 v.width :: modRM 6 m ++ v.bytes
  | .cmpRmReg w m r => opW 0x38 w :: modRM r.bits m
  | .cmpRegRm w r m => opW 0x3A w :: modRM r.bits m
  | .cmpAccImm v => opW 0x3C v.width :: v.bytes
  | .cmpRmImm m v => opW 0x80 v.width :: modRM 7 m ++ v.bytes
  | .cmpRm8Imm82 m v => 0x82 :: modRM 7 m ++ [v]
  | .cmpRmSext m v => 0x83 :: modRM 7 m ++ [v]
  | .pushSreg g => [0x06 ||| (g.bits.setWidth 8 <<< 3)]
  | .popEs => [0x07]
  | .popSs => [0x17]
  | .popDs => [0x1F]
  | .segPfx g => [0x26 ||| (g.bits.setWidth 8 <<< 3)]
  | .lockPfx => [0xF0]
  | .repnePfx => [0xF2]
  | .repPfx => [0xF3]
  | .daa => [0x27]
  | .das => [0x2F]
  | .aaa => [0x37]
  | .aas => [0x3F]
  | .incReg r => [opR 0x40 r]
  | .decReg r => [opR 0x48 r]
  | .pushReg r => [opR 0x50 r]
  | .popReg r => [opR 0x58 r]
  | .pusha => [0x60]
  | .popa => [0x61]
  | .bound r a => 0x62 :: modRM r.bits (.mem a)
  | .arpl m r => 0x63 :: modRM r.bits m
  | .pushImm16 v => 0x68 :: wordBytes v
  | .imulRegRmImm16 r m v => 0x69 :: modRM r.bits m ++ wordBytes v
  | .pushImm8 v => [0x6A, v]
  | .imulRegRmImm8 r m v => 0x6B :: modRM r.bits m ++ [v]
  | .ins w => [opW 0x6C w]
  | .outs w => [opW 0x6E w]
  | .jo d => [0x70, d]
  | .jno d => [0x71, d]
  | .jb d => [0x72, d]
  | .jnb d => [0x73, d]
  | .je d => [0x74, d]
  | .jne d => [0x75, d]
  | .jbe d => [0x76, d]
  | .jnbe d => [0x77, d]
  | .js d => [0x78, d]
  | .jns d => [0x79, d]
  | .jp d => [0x7A, d]
  | .jnp d => [0x7B, d]
  | .jl d => [0x7C, d]
  | .jnl d => [0x7D, d]
  | .jle d => [0x7E, d]
  | .jnle d => [0x7F, d]
  | .testRmReg w m r => opW 0x84 w :: modRM r.bits m
  | .xchgRmReg w m r => opW 0x86 w :: modRM r.bits m
  | .movRmReg w m r => opW 0x88 w :: modRM r.bits m
  | .movRegRm w r m => opW 0x8A w :: modRM r.bits m
  | .movRmSreg m g => 0x8C :: modRM (g.bits.setWidth 3) m
  | .lea r a => 0x8D :: modRM r.bits (.mem a)
  | .movSregRm g m => 0x8E :: modRM (g.bits.setWidth 3) m
  | .popRm m => 0x8F :: modRM 0 m
  | .nop => [0x90]
  | .xchgAxReg r => [opR 0x90 r]
  | .cbw => [0x98]
  | .cwd => [0x99]
  | .callFar o c => 0x9A :: wordBytes o ++ wordBytes c
  | .wait => [0x9B]
  | .pushf => [0x9C]
  | .popf => [0x9D]
  | .sahf => [0x9E]
  | .lahf => [0x9F]
  | .movAccMoffs w o => opW 0xA0 w :: wordBytes o
  | .movMoffsAcc w o => opW 0xA2 w :: wordBytes o
  | .movs w => [opW 0xA4 w]
  | .cmps w => [opW 0xA6 w]
  | .testAccImm v => opW 0xA8 v.width :: v.bytes
  | .stos w => [opW 0xAA w]
  | .lods w => [opW 0xAC w]
  | .scas w => [opW 0xAE w]
  | .movRegImm r v => opR (opW8 0xB0 v.width) r :: v.bytes
  | .rolImm w m v => opW 0xC0 w :: modRM 0 m ++ [v]
  | .rolOne w m => opW 0xD0 w :: modRM 0 m
  | .rolCl w m => opW 0xD2 w :: modRM 0 m
  | .rorImm w m v => opW 0xC0 w :: modRM 1 m ++ [v]
  | .rorOne w m => opW 0xD0 w :: modRM 1 m
  | .rorCl w m => opW 0xD2 w :: modRM 1 m
  | .rclImm w m v => opW 0xC0 w :: modRM 2 m ++ [v]
  | .rclOne w m => opW 0xD0 w :: modRM 2 m
  | .rclCl w m => opW 0xD2 w :: modRM 2 m
  | .rcrImm w m v => opW 0xC0 w :: modRM 3 m ++ [v]
  | .rcrOne w m => opW 0xD0 w :: modRM 3 m
  | .rcrCl w m => opW 0xD2 w :: modRM 3 m
  | .shlImm w m v => opW 0xC0 w :: modRM 4 m ++ [v]
  | .shlOne w m => opW 0xD0 w :: modRM 4 m
  | .shlCl w m => opW 0xD2 w :: modRM 4 m
  | .shrImm w m v => opW 0xC0 w :: modRM 5 m ++ [v]
  | .shrOne w m => opW 0xD0 w :: modRM 5 m
  | .shrCl w m => opW 0xD2 w :: modRM 5 m
  | .sarImm w m v => opW 0xC0 w :: modRM 7 m ++ [v]
  | .sarOne w m => opW 0xD0 w :: modRM 7 m
  | .sarCl w m => opW 0xD2 w :: modRM 7 m
  | .retImm v => 0xC2 :: wordBytes v
  | .ret => [0xC3]
  | .les r a => 0xC4 :: modRM r.bits (.mem a)
  | .lds r a => 0xC5 :: modRM r.bits (.mem a)
  | .movRmImm m v => opW 0xC6 v.width :: modRM 0 m ++ v.bytes
  | .enter v l => 0xC8 :: wordBytes v ++ [l]
  | .leave => [0xC9]
  | .retFarImm v => 0xCA :: wordBytes v
  | .retFar => [0xCB]
  | .int3 => [0xCC]
  | .intImm v => [0xCD, v]
  | .into => [0xCE]
  | .iret => [0xCF]
  | .aam => [0xD4, 0x0A]
  | .aad => [0xD5, 0x0A]
  | .xlat => [0xD7]
  | .esc t l m => (0xD8 ||| t.setWidth 8) :: modRM l m
  | .loopne d => [0xE0, d]
  | .loope d => [0xE1, d]
  | .loop d => [0xE2, d]
  | .jcxz d => [0xE3, d]
  | .inImm w v => [opW 0xE4 w, v]
  | .outImm w v => [opW 0xE6 w, v]
  | .callRel d => 0xE8 :: wordBytes d
  | .jmpRel16 d => 0xE9 :: wordBytes d
  | .jmpFar o c => 0xEA :: wordBytes o ++ wordBytes c
  | .jmpRel8 d => [0xEB, d]
  | .inDx w => [opW 0xEC w]
  | .outDx w => [opW 0xEE w]
  | .hlt => [0xF4]
  | .cmc => [0xF5]
  | .testRmImm m v => opW 0xF6 v.width :: modRM 0 m ++ v.bytes
  | .notRm w m => opW 0xF6 w :: modRM 2 m
  | .negRm w m => opW 0xF6 w :: modRM 3 m
  | .mulRm w m => opW 0xF6 w :: modRM 4 m
  | .imulRm w m => opW 0xF6 w :: modRM 5 m
  | .divRm w m => opW 0xF6 w :: modRM 6 m
  | .idivRm w m => opW 0xF6 w :: modRM 7 m
  | .clc => [0xF8]
  | .stc => [0xF9]
  | .cli => [0xFA]
  | .sti => [0xFB]
  | .cld => [0xFC]
  | .std => [0xFD]
  | .incRm w m => opW 0xFE w :: modRM 0 m
  | .decRm w m => opW 0xFE w :: modRM 1 m
  | .callRm m => 0xFF :: modRM 2 m
  | .callFarMem a => 0xFF :: modRM 3 (.mem a)
  | .jmpRm m => 0xFF :: modRM 4 m
  | .jmpFarMem a => 0xFF :: modRM 5 (.mem a)
  | .pushRm m => 0xFF :: modRM 6 m
  | .sldt m => 0x0F :: 0x00 :: modRM 0 m
  | .str m => 0x0F :: 0x00 :: modRM 1 m
  | .lldt m => 0x0F :: 0x00 :: modRM 2 m
  | .ltr m => 0x0F :: 0x00 :: modRM 3 m
  | .verr m => 0x0F :: 0x00 :: modRM 4 m
  | .verw m => 0x0F :: 0x00 :: modRM 5 m
  | .sgdt a => 0x0F :: 0x01 :: modRM 0 (.mem a)
  | .sidt a => 0x0F :: 0x01 :: modRM 1 (.mem a)
  | .lgdt a => 0x0F :: 0x01 :: modRM 2 (.mem a)
  | .lidt a => 0x0F :: 0x01 :: modRM 3 (.mem a)
  | .smsw m => 0x0F :: 0x01 :: modRM 4 m
  | .lmsw m => 0x0F :: 0x01 :: modRM 6 m
  | .lar r m => 0x0F :: 0x02 :: modRM r.bits m
  | .lsl r m => 0x0F :: 0x03 :: modRM r.bits m
  | .clts => [0x0F, 0x06]

/-- The longest instruction in bytes (R181). -/
def maxLength : Nat := 10

/-- The bytes of a word of opcode_table.json, which numbers an instruction's `nbits` bits with the FIRST byte the most
significant (R233, 98_reader.md), followed by zero bytes up to the longest instruction. -/
def tableBytes (nbits w : Nat) : List Byte :=
  ((List.range (nbits / 8)).map fun k => BitVec.ofNat 8 (w / 256 ^ (nbits / 8 - 1 - k))) ++
    List.replicate (maxLength - nbits / 8) 0

/-- The instruction the decoder reads from a word of opcode_table.json. -/
def decodeTableWord (nbits w : Nat) : Option Instr :=
  match decode (tableBytes nbits w) with
  | .ok (i, _) => some i
  | .error _ => none

end Sys2Proof
end

