-- ==== Sys2Proof/Config.lean ====
section
/-! DEFINITION. What the platform or the implementation fixes (00_scope.md R10, 92_eei_decisions.md) and the free values:
constants without a body, of which nothing can be proved but their type. A claim that holds in this model holds for every
value of them. -/

namespace Sys2Proof

/-- UndefFlag (92 D6): the bit drawn at the n-th draw of a run; an "undefined" flag takes such a bit. -/
opaque Config.freeBit : Nat → Bool

/-- The word drawn at the n-th draw of a run: undefined bits of a stored image (10_state.md R31, R36), undefined bytes
(47_protection_control.md R503), results the spec does not settle (93 U18). -/
opaque Config.freeWord : Nat → Word

/-- REAL_MODE_A20 (92 D8, 20_memory.md R89): true for `wrap`, false for `carry`. -/
opaque Config.realModeWraps : Bool

/-- TEST_SETS_ACCESSED (92 D13): whether LAR, LSL, VERR, VERW write the accessed bit of the descriptor they test. -/
opaque Config.testSetsAccessed : Bool

/-- How many bytes beyond the 6-byte queue may already have been fetched (92 D14). -/
opaque Config.prefetchBeyondQueue : Nat

/-- PREFETCH_WINDOW (20_memory.md R166): at least the 6 bytes of the queue. -/
def Config.prefetchWindow : Nat := 6 + Config.prefetchBeyondQueue

/-- Which of the values a byte has had since the last control transfer the fetch sees, when a store has fallen into the
prefetch window: an index drawn for a draw number and a physical address (20_memory.md R166, 93 U26). -/
opaque Config.prefetchPick : Nat → Nat → Nat

/-- IoDev (92 D3): the word the port returns, given how many bus operations on the I/O bus came before and the port number; a
byte read takes its low byte. -/
opaque Config.ioIn : Nat → Word → Word

/-- ExtAgent (92 D5): whether the ESC opcode TTT LLL waits while BUSY is active ("some ESC instructions"). -/
opaque Config.escWaits : BitVec 6 → Bool

/-- ExtAgent: whether the ESC opcode TTT LLL samples ERROR ("some ESC instructions"). -/
opaque Config.escTestsError : BitVec 6 → Bool

/-- ExtAgent: whether the memory operand of the ESC opcode TTT LLL is written (else it is read). -/
opaque Config.escWrites : BitVec 6 → Bool

/-- ExtAgent: the I/O bus operations by which the ESC opcode TTT LLL is handed to the extension, given how many I/O transfers
came before: a first one, and the others ("one or more", 20_memory.md R95). Each is an output or an input, at one of the
extension's three ports, of a word. -/
opaque Config.escBus : BitVec 6 → Nat → (Bool × Fin 3 × Word) × List (Bool × Fin 3 × Word)

/-- PhysMem (92 D2): what a read of an address that no memory answers returns. -/
opaque Config.emptyByte : Nat → Byte

/-- PhysMem: what a read of a device's location returns, given the step, the read within it and the address: a read may have side
effects, so no two reads need agree (20_memory.md R154, log 48). -/
opaque Config.deviceByte : Nat → Nat → Nat → Byte

/-- ExtAgent (92 D4): what a read of memory that other bus masters write finds there, given the step, how often another master may
have had the bus in it, and the address: a byte another master has written, or none, and then this processor's own (log 48). -/
opaque Config.otherWrote : Nat → Nat → Nat → Option Byte

/-- DF_BENIGN (92 D24): the vectors after which a second exception is not turned into a double fault (the spec's default:
none; log 19). -/
opaque Config.dfBenign : Byte → Bool

end Sys2Proof
end

