-- ==== Sys2Proof/Machine/State.lean ====
section
/-! DEFINITION. The state of the 80286 as plain data (10_state.md), the reasons a step can stop, and the machine right
after RESET (10_state.md R45, 70_reset_and_hazards.md R610 to R613). INVENTORY.md lists every field with its rule. -/

namespace Sys2Proof.Machine

/-- The eight 16-bit general registers (R20). The byte registers are halves of the first four (R21). -/
structure Regs where
  ax : Word
  cx : Word
  dx : Word
  bx : Word
  sp : Word
  bp : Word
  si : Word
  di : Word
deriving DecidableEq, Repr

/-- A segment register: its selector (R24) and its hidden descriptor cache (R25). -/
structure SegReg where
  sel : Word
  base : Phys
  limit : Word
  /-- The access rights byte (20_memory.md R122). -/
  ar : Byte
  valid : Bool
deriving DecidableEq, Repr

/-- The defined bits of FLAGS (R30); bits 15, 5, 3 and 1 hold nothing (R31). `ief` is IF. -/
structure Flags where
  cf : Bool
  pf : Bool
  af : Bool
  zf : Bool
  sf : Bool
  tf : Bool
  ief : Bool
  df : Bool
  of : Bool
  iopl : BitVec 2
  nt : Bool
deriving DecidableEq, Repr

/-- The machine status word (R36). `hiKnown`: bits 15 to 4 still read FFFH, no LMSW since RESET. -/
structure Msw where
  pe : Bool
  mp : Bool
  em : Bool
  ts : Bool
  hiKnown : Bool
deriving DecidableEq, Repr

/-- GDTR and IDTR (R38, R39). -/
structure TableReg where
  base : Phys
  limit : Word
deriving DecidableEq, Repr

/-- LDTR with its hidden part (R40). -/
structure Ldtr where
  sel : Word
  base : Phys
  limit : Word
  valid : Bool
deriving DecidableEq, Repr

/-- TR with its hidden part (R41). -/
structure Tr where
  sel : Word
  base : Phys
  limit : Word
deriving DecidableEq, Repr

/-- A write to memory by another bus master: one bus operation of a byte or a word (parameter ExtAgent, 92 D4). -/
structure BusWrite where
  addr : Phys
  width : Width
  /-- A byte stands in the low half. -/
  value : Word
deriving DecidableEq, Repr

/-- The input pins of R43 as the environment drives them; the byte the interrupt controller returns (60_exceptions.md R545,
`IntrVector`); and, for the time HOLD is active, what the master that has asked for the bus writes, if anything (20_memory.md
R162, `ExtAgent`). -/
structure Pins where
  reset : Bool
  nmi : Bool
  intr : Bool
  vector : Byte
  busy : Bool
  error : Bool
  pereq : Bool
  hold : Bool
  busWrite : Option BusWrite
  notReady : Bool
deriving DecidableEq, Repr

/-- The two repeat prefixes: F3 (REP, REPE, REPZ) and F2 (REPNE, REPNZ) (43_string.md R360). -/
inductive RepKind where
  | repe
  | repne
deriving DecidableEq, Repr

/-- One bus operation on the I/O bus (20_memory.md R94): direction, port, width and value (a byte stands in the low half). A
word at an odd port is two of them. -/
structure IoEvent where
  output : Bool
  port : Word
  width : Width
  value : Word
deriving DecidableEq, Repr

/-- What answers at an address of physical memory (parameters PhysMem, 92 D2, and ExtAgent, 92 D4): RAM that only this processor
and, while HOLD is active, another bus master writes; ROM, which no store changes; RAM that other bus masters write at any time,
also between two bus operations of one instruction (20_memory.md R151, R160); a device whose reads may have side effects (R154);
nothing. -/
inductive MemKind where
  | ram
  | rom
  | shared
  | device
  | absent
deriving DecidableEq, Repr

/-- A range of physical addresses that is not RAM of this processor's own. -/
structure Region where
  base : Nat
  size : Nat
  kind : MemKind
deriving DecidableEq, Repr

/-- The memory operand of an ESC that has been issued: from then on the processor moves its words when PEREQ asks for them
(20_memory.md R170). The segment and the mode are those of the ESC; `off` is the next word's offset, not yet reduced. -/
structure ExtOperand where
  seg : SegReg
  pe : Bool
  off : Nat
  /-- The extension writes memory, else it reads it. -/
  write : Bool
deriving DecidableEq, Repr

/-- The instruction being executed: the offset of its first byte, prefixes included (60_exceptions.md R536), and the
prefixes noted in front of it (30_encoding.md R190). -/
structure Cur where
  ip : Word
  seg : Option SReg
  lock : Bool
  rep : Option RepKind
  noted : Nat
deriving DecidableEq, Repr

/-- How far the reads on the bus have come (the model's own, log 48): the steps begun, the reads of this step so far as one of
them may read a byte again, and of those the ones between which another master may have had the bus. -/
structure BusTime where
  step : Nat
  op : Nat
  gap : Nat
deriving DecidableEq, Repr

/-- Which of the events of Table 5 (60_exceptions.md R551) the instruction boundary looks at next. -/
inductive Phase where
  | singleStep
  | nmi
  | mp
  | intr
  | done
deriving DecidableEq, Repr

/-- Why a step stops with a fault: no reason. Every exception of the 80286 is taken (60_exceptions.md R530 to R595) and
every one of the 2^24 addresses can be read (20_memory.md R92), so nothing raises a fault and the type has no constructor; safe. -/
inductive Fault
deriving DecidableEq, Repr

/-- Why a step gives no meaning. -/
inductive Refusal where
  /-- Raised by an arm of `exec` whose instruction has no meaning in the model; safe. -/
  | notModelled (mnemonic : String)
  /-- Raised by a step that fetches a group member the source does not list (30_encoding.md R223, 93 U3); safe. -/
  | unlistedGroup
  /-- Raised by a step that fetches AAM or AAD with a second byte other than 0AH (30_encoding.md R224, 93 U4); safe. -/
  | adjustBase
  /-- Raised by a step that fetches REP or REPNE before a non-string instruction (30_encoding.md R191, 93 U19); safe. -/
  | repNonString
deriving DecidableEq, Repr

/-- The state of the machine. -/
structure State where
  regs : Regs
  es : SegReg
  cs : SegReg
  ss : SegReg
  ds : SegReg
  ip : Word
  flags : Flags
  msw : Msw
  gdtr : TableReg
  idtr : TableReg
  ldtr : Ldtr
  tr : Tr
  halted : Bool
  shutdown : Bool
  nmiInService : Bool
  nmiPending : Bool
  inhibitInt : Bool
  inhibitExt : Bool
  mpPending : Bool
  stepTrap : Bool
  waiting : Bool
  pins : Pins
  nmiLevel : Bool
  stale : List Host.Cell
  mem : List Host.Cell
  memMap : List Region
  io : List IoEvent
  ext : Option ExtOperand
  cur : Cur
  phase : Phase
  draws : Nat
  bus : BusTime
deriving DecidableEq, Repr

/-- A segment register as real address mode loads it (R26): base selector * 16, 64K bytes, readable and writable. The
access byte 93H is the model's (DESIGN CHOICE, log 4). -/
def SegReg.real (sel : Word) : SegReg :=
  { sel := sel, base := sel.setWidth 24 <<< 4, limit := 0xFFFF, ar := 0x93, valid := true }

/-- No prefix noted, the instruction at `ip` about to begin. -/
def Cur.at (ip : Word) : Cur := { ip := ip, seg := none, lock := false, rep := none, noted := 0 }

/-- Input pins with no device driving them (DESIGN CHOICE, log 13). -/
def Pins.idle : Pins :=
  { reset := false, nmi := false, intr := false, vector := 0, busy := false, error := false, pereq := false,
    hold := false, busWrite := none, notReady := false }

/-- The processor after RESET (R45, Table 6; 70_reset_and_hazards.md R611). What RESET does not reach is taken from `mem`,
`memMap`, `pins`, `io`, `draws` and `bus`. Registers the spec gives no value are 0 (DESIGN CHOICE, log 2 and 3). -/
def State.afterReset (mem : List Host.Cell) (memMap : List Region) (pins : Pins) (io : List IoEvent) (draws : Nat)
    (bus : BusTime) : State :=
  { regs := { ax := 0, cx := 0, dx := 0, bx := 0, sp := 0, bp := 0, si := 0, di := 0 }
    es := SegReg.real 0
    cs := { sel := 0xF000, base := 0xFF0000, limit := 0xFFFF, ar := 0x93, valid := true }
    ss := SegReg.real 0
    ds := SegReg.real 0
    ip := 0xFFF0
    flags := { cf := false, pf := false, af := false, zf := false, sf := false, tf := false, ief := false, df := false,
               of := false, iopl := 0, nt := false }
    msw := { pe := false, mp := false, em := false, ts := false, hiKnown := true }
    gdtr := { base := 0, limit := 0 }
    idtr := { base := 0, limit := 0x03FF }
    ldtr := { sel := 0, base := 0, limit := 0, valid := false }
    tr := { sel := 0, base := 0, limit := 0 }
    halted := false
    shutdown := false
    nmiInService := false
    nmiPending := false
    inhibitInt := false
    inhibitExt := false
    mpPending := false
    stepTrap := false
    waiting := false
    pins := pins
    nmiLevel := pins.nmi
    stale := []
    mem := mem
    memMap := memMap
    io := io
    ext := none
    cur := Cur.at 0xFFF0
    phase := .singleStep
    draws := draws
    bus := bus }

/-- The machine right after reset: all of memory RAM with nothing in it (log 1), no I/O transfer yet, pins idle. -/
def State.reset : State := State.afterReset [] [] Pins.idle [] 0 { step := 0, op := 0, gap := 0 }

end Sys2Proof.Machine
end

