-- ==== Sys2Proof/Machine/Memory.lean ====
section
/-! DEFINITION. Physical memory: 2^24 bytes (20_memory.md R80, R92), held as a list of (address, byte) in one canonical
form: addresses strictly rising, no byte listed that an unlisted address reads as. What an unlisted byte reads as is 00H
(DESIGN CHOICE, unsafe, log 1). Which addresses are ROM, written by others too, a device's or answered by nothing is the
platform's map, a field of State that no step changes. -/

namespace Sys2Proof.Machine

/-- What a byte of memory that nothing has written reads as. -/
def Memory.blank : Byte := 0

/-- The byte at an address. -/
def Memory.read : List Host.Cell → Nat → Byte
  | [], _ => Memory.blank
  | c :: rest, a => if c.1 = a then c.2 else Memory.read rest a

/-- Put an entry into its place, replacing an older one. -/
def Memory.insert : List Host.Cell → Nat → Byte → List Host.Cell
  | [], a, v => [(a, v)]
  | c :: rest, a, v =>
    if a < c.1 then (a, v) :: c :: rest
    else if a = c.1 then (a, v) :: rest
    else c :: Memory.insert rest a v

/-- Take an entry out. -/
def Memory.erase : List Host.Cell → Nat → List Host.Cell
  | [], _ => []
  | c :: rest, a => if c.1 = a then rest else c :: Memory.erase rest a

/-- Write a byte; writing what an unlisted address reads as removes the entry. -/
def Memory.write (m : List Host.Cell) (a : Nat) (v : Byte) : List Host.Cell :=
  if v = Memory.blank then Memory.erase m a else Memory.insert m a v

/-- The canonical form: strictly rising addresses below 2^24, no blank entry. -/
def Memory.wf : List Host.Cell → Bool
  | [] => true
  | c :: rest =>
    decide (c.1 < 2 ^ 24) && decide (c.2 ≠ Memory.blank) && rest.all (fun d => decide (c.1 < d.1)) && Memory.wf rest

/-- What a platform map says of an address: the first region that holds it, else RAM (parameter PhysMem, R92, log 1). -/
def kindIn : List Region → Nat → MemKind
  | [], _ => .ram
  | r :: rest, a => if r.base ≤ a ∧ a < r.base + r.size then r.kind else kindIn rest a

/-- What answers at a physical address. -/
def State.memKind (s : State) (a : Phys) : MemKind := kindIn s.memMap a.toNat

/-- `PhysRead(a, 1)` (R118). Where nothing answers, the platform's byte (R92); a device answers each read as it likes (R154); in
memory that other masters write, a byte one of them has written since, or else this processor's own (R160, log 48). Each of the
2^24 addresses has a byte of its own: that memory does not answer at a second address too, with A23 to A20 ignored, is the
model's choice (R92, DESIGN CHOICE, log 49). -/
def State.load8 (s : State) (a : Phys) : Byte :=
  match s.memKind a with
  | .ram => Memory.read s.mem a.toNat
  | .rom => Memory.read s.mem a.toNat
  | .shared => (Config.otherWrote s.bus.step s.bus.gap a.toNat).getD (Memory.read s.mem a.toNat)
  | .device => Config.deviceByte s.bus.step s.bus.op a.toNat
  | .absent => Config.emptyByte a.toNat

/-- `PhysRead(a, 2)`: low byte at `a`, high byte at `a + 1` (R80, R118). -/
def State.load16 (s : State) (a : Phys) : Word := wordOf (s.load8 a) (s.load8 (a + 1))

/-- The reads of one step that may read a byte which an earlier one has read, in their order: the fetch, then what the
instruction reads first (its operands, its stack), then these. -/
inductive ReadGroup where
  /-- The instruction's own reads, after the fetch. -/
  | execution
  /-- The second element that CMPS compares. -/
  | second
  /-- The descriptor a selector of the instruction names. -/
  | descriptor
  /-- The same where LOCK has kept other masters off the bus since the instruction's first own read. -/
  | heldDescriptor
  /-- The stack pointer that a return to an outer level finds on the stack. -/
  | outerPointer
  /-- The descriptor that a gate or a second selector names. -/
  | target
  /-- The stack pointer in the task state segment; the descriptor of the outgoing task. -/
  | taskState
  /-- The descriptor of an inner stack. -/
  | innerStack
  /-- The words a call gate copies. -/
  | parameters
  /-- The words of the incoming task state segment. -/
  | newTask
  | newLdt
  | newCs
  | newSs
  | newDs
  | newEs
  /-- All reads of a delivery; of one that follows a failing delivery, after all of that one's. -/
  | delivery
deriving DecidableEq, Repr

/-- The place in that order. -/
def ReadGroup.rank : ReadGroup → Nat
  | .execution => 1
  | .second => 2
  | .descriptor => 3
  | .heldDescriptor => 4
  | .outerPointer => 5
  | .target => 6
  | .taskState => 7
  | .innerStack => 8
  | .parameters => 9
  | .newTask => 10
  | .newLdt => 11
  | .newCs => 12
  | .newSs => 13
  | .newDs => 14
  | .newEs => 15
  | .delivery => 16

/-- How often another master may have had the bus by then: each group comes after a gap of its own, but for the one that LOCK
joins to the instruction's first reads (R152, 46_processor_control.md R480). -/
def ReadGroup.gaps : ReadGroup → Nat
  | .heldDescriptor => 0
  | .execution => 1
  | .second => 2
  | .descriptor => 3
  | .outerPointer => 5
  | .target => 6
  | .taskState => 7
  | .innerStack => 8
  | .parameters => 9
  | .newTask => 10
  | .newLdt => 11
  | .newCs => 12
  | .newSs => 13
  | .newDs => 14
  | .newEs => 15
  | .delivery => 16

/-- The state as later reads of the same step see it, another master having had the bus in between, perhaps (R160, log 48). -/
def State.later (s : State) (g : ReadGroup) : State :=
  { s with bus := { s.bus with op := s.bus.op + g.rank, gap := s.bus.gap + g.gaps } }

/-- The memory keeps the bytes stored: RAM. -/
def MemKind.keeps : MemKind → Bool
  | .ram => true
  | .shared => true
  | .rom => false
  | .device => false
  | .absent => false

/-- An offset lies where instruction bytes may already have been fetched: from the end of the instruction being executed
(from its start, while it repeats) up to PREFETCH_WINDOW bytes on, inside the code segment (R165, R166; log 10). -/
def State.offsetPrefetched (s : State) (o : Nat) : Bool :=
  decide ((if s.cur.rep.isSome then s.cur.ip else s.ip).toNat ≤ o) && decide (o ≤ s.cs.limit.toNat) &&
    decide (o < s.ip.toNat + Config.prefetchWindow)

/-- A physical address may already be in the prefetch queue; in real mode the address may be the one that bit 20 was
dropped from (R89). -/
def State.prefetched (s : State) (a : Phys) : Bool :=
  s.offsetPrefetched (a - s.cs.base).toNat ||
    (!s.msw.pe && decide (s.cs.base.toNat < 0x100000) && s.offsetPrefetched (a + 0x100000 - s.cs.base).toNat &&
      Config.realModeWraps)

/-- `PhysWrite(a, 1, v)` (R118): only RAM keeps the byte (R92); what a device does with it no read shows but its own (log 48). A
byte that may have been fetched already keeps its old value in `stale` (R166). -/
def State.store8 (s : State) (a : Phys) (v : Byte) : State :=
  { s with
    mem := if (s.memKind a).keeps then Memory.write s.mem a.toNat v else s.mem
    stale := if (s.memKind a).keeps && s.prefetched a then (a.toNat, s.load8 a) :: s.stale else s.stale }

/-- `PhysWrite(a, 2, v)`: low byte first (R80, R118). -/
def State.store16 (s : State) (a : Phys) (v : Word) : State := (s.store8 a (loByte v)).store8 (a + 1) (hiByte v)

end Sys2Proof.Machine
end

