-- ==== Sys2Proof/Machine/Regs.lean ====
section
/-! DEFINITION. Reading and writing registers: the word and byte registers by number (10_state.md R20, R21;
30_encoding.md R186), the segment registers (R24, R187), the stack pointer and the privilege level (R42). -/

namespace Sys2Proof.Machine

/-- The word register of a number. -/
def State.getW (s : State) : RegNum → Word
  | .r0 => s.regs.ax
  | .r1 => s.regs.cx
  | .r2 => s.regs.dx
  | .r3 => s.regs.bx
  | .r4 => s.regs.sp
  | .r5 => s.regs.bp
  | .r6 => s.regs.si
  | .r7 => s.regs.di

/-- Write the word register of a number. -/
def State.setW (s : State) (r : RegNum) (v : Word) : State :=
  match r with
  | .r0 => { s with regs := { s.regs with ax := v } }
  | .r1 => { s with regs := { s.regs with cx := v } }
  | .r2 => { s with regs := { s.regs with dx := v } }
  | .r3 => { s with regs := { s.regs with bx := v } }
  | .r4 => { s with regs := { s.regs with sp := v } }
  | .r5 => { s with regs := { s.regs with bp := v } }
  | .r6 => { s with regs := { s.regs with si := v } }
  | .r7 => { s with regs := { s.regs with di := v } }

/-- The word register that holds a byte register (R21). -/
def RegNum.home : RegNum → RegNum
  | .r0 => .r0
  | .r1 => .r1
  | .r2 => .r2
  | .r3 => .r3
  | .r4 => .r0
  | .r5 => .r1
  | .r6 => .r2
  | .r7 => .r3

/-- A byte register is the high half of its word register (R21). -/
def RegNum.isHigh : RegNum → Bool
  | .r0 => false
  | .r1 => false
  | .r2 => false
  | .r3 => false
  | .r4 => true
  | .r5 => true
  | .r6 => true
  | .r7 => true

/-- The byte register of a number: AL CL DL BL AH CH DH BH (R21). -/
def State.getB (s : State) (r : RegNum) : Byte :=
  if RegNum.isHigh r then hiByte (s.getW (RegNum.home r)) else loByte (s.getW (RegNum.home r))

/-- Write the byte register of a number; the other half of its word register stays (R21). -/
def State.setB (s : State) (r : RegNum) (v : Byte) : State :=
  s.setW (RegNum.home r)
    (if RegNum.isHigh r then wordOf (loByte (s.getW (RegNum.home r))) v
     else wordOf v (hiByte (s.getW (RegNum.home r))))

/-- The register of a number at a width (R186). -/
def State.getReg (s : State) (w : Width) (r : RegNum) : Val w :=
  match w with
  | .byte => s.getB r
  | .word => s.getW r

/-- Write the register of a number at a width. -/
def State.setReg (s : State) (w : Width) (r : RegNum) (v : Val w) : State :=
  match w, v with
  | .byte, v => s.setB r v
  | .word, v => s.setW r v

/-- AL, or AX. -/
def State.acc (s : State) (w : Width) : Val w := s.getReg w .r0

/-- Write AL, or AX. -/
def State.setAcc (s : State) (w : Width) (v : Val w) : State := s.setReg w .r0 v

/-- AL. -/
def State.al (s : State) : Byte := s.getB .r0

/-- AH. -/
def State.ah (s : State) : Byte := s.getB .r4

/-- CL. -/
def State.cl (s : State) : Byte := s.getB .r1

/-- A segment register. -/
def State.seg (s : State) : SReg → SegReg
  | .es => s.es
  | .cs => s.cs
  | .ss => s.ss
  | .ds => s.ds

/-- Write a segment register with its cache. -/
def State.setSeg (s : State) (x : SReg) (g : SegReg) : State :=
  match x with
  | .es => { s with es := g }
  | .cs => { s with cs := g }
  | .ss => { s with ss := g }
  | .ds => { s with ds := g }

/-- Write IP. -/
def State.setIp (s : State) (v : Word) : State := { s with ip := v }

/-- A taken control transfer: IP is written and the prefetch queue is emptied (20_memory.md R165). -/
def State.jump (s : State) (v : Word) : State := { s with ip := v, stale := [] }

/-- The prefetch queue is emptied (R165). -/
def State.flush (s : State) : State := { s with stale := [] }

/-- Write the stack pointer. -/
def State.setSp (s : State) (v : Word) : State := s.setW .r4 v

/-- Write FLAGS. -/
def State.setFlags (s : State) (f : Flags) : State := { s with flags := f }

/-- Count `n` free values as drawn (10_state.md R33). -/
def State.drawn (s : State) (n : Nat) : State := { s with draws := s.draws + n }

/-- The free bit of the `k`-th draw from here. -/
def State.freeBit (s : State) (k : Nat) : Bool := Config.freeBit (s.draws + k)

/-- The free word of the `k`-th draw from here. -/
def State.freeWord (s : State) (k : Nat) : Word := Config.freeWord (s.draws + k)

/-- The low two bits of a selector (20_memory.md R120). -/
def rpl (sel : Word) : Nat := (sel.extractLsb' 0 2).toNat

/-- CPL: the low bits of CS in protected mode, 0 in real mode (R42). -/
def State.cpl (s : State) : Nat := if s.msw.pe then rpl s.cs.sel else 0

/-- IOPL as a number. -/
def State.ioplNum (s : State) : Nat := s.flags.iopl.toNat

end Sys2Proof.Machine
end

