-- ==== Sys2Proof/Machine/Flags.lean ====
section
/-! DEFINITION. Every flag computation of the spec: the arithmetic flags (41_arithmetic.md R280), the logic flags
(42_logic.md R320), shifts and rotates (R330 to R337), multiplication, division and decimal adjust, and the 16-bit image
of FLAGS (10_state.md R30, R31). A flag the spec leaves undefined takes a free bit (R33, log 5). -/

namespace Sys2Proof.Machine

/-- PF: the low byte has an even number of 1 bits (R280). -/
def parityEven (b : Byte) : Bool :=
  !(b.getLsbD 0 ^^ b.getLsbD 1 ^^ b.getLsbD 2 ^^ b.getLsbD 3 ^^ b.getLsbD 4 ^^ b.getLsbD 5 ^^ b.getLsbD 6 ^^ b.getLsbD 7)

/-- `SZP(res, n)` (R280). -/
def Flags.szp (f : Flags) (w : Width) (res : Val w) : Flags :=
  { f with sf := res.msb, zf := decide (res = 0), pf := parityEven (res.setWidth 8) }

/-- The sum with carry-in, truncated (R280). -/
def addRes (w : Width) (a b : Val w) (c : Bool) : Val w := a + b + BitVec.ofNat w.bits (bit c)

/-- The flags of `AddFlags(a, b, c, n)` (R280). -/
def Flags.add (f : Flags) (w : Width) (a b : Val w) (c : Bool) : Flags :=
  { f.szp w (addRes w a b c) with
    cf := decide (2 ^ w.bits ≤ a.toNat + b.toNat + bit c)
    af := decide (16 ≤ a.toNat % 16 + b.toNat % 16 + bit c)
    of := (a.msb == b.msb) && ((addRes w a b c).msb != a.msb) }

/-- The difference with borrow-in, truncated (R280). -/
def subRes (w : Width) (a b : Val w) (c : Bool) : Val w := a - b - BitVec.ofNat w.bits (bit c)

/-- The flags of `SubFlags(a, b, c, n)` (R280). -/
def Flags.sub (f : Flags) (w : Width) (a b : Val w) (c : Bool) : Flags :=
  { f.szp w (subRes w a b c) with
    cf := decide (a.toNat < b.toNat + bit c)
    af := decide (a.toNat % 16 < b.toNat % 16 + bit c)
    of := (a.msb != b.msb) && ((subRes w a b c).msb != a.msb) }

/-- `LogicFlags(res, n)` (R320); `af` is the free bit AF takes. -/
def Flags.logic (f : Flags) (w : Width) (res : Val w) (af : Bool) : Flags :=
  { f.szp w res with of := false, cf := false, af := af }

/-- The flags after MUL and IMUL (R293 to R295): CF and OF say whether the high half matters, the rest is free. -/
def Flags.mul (f : Flags) (high sf zf af pf : Bool) : Flags :=
  { f with cf := high, of := high, sf := sf, zf := zf, af := af, pf := pf }

/-- The six status flags all free, after DIV and IDIV (R296, R297). -/
def Flags.undef (f : Flags) (of sf zf af pf cf : Bool) : Flags :=
  { f with of := of, sf := sf, zf := zf, af := af, pf := pf, cf := cf }

/-- A flag is written by an arithmetic operation of two operands: the result and the state with the flags. -/
abbrev AluOp := (w : Width) → State → Val w → Val w → Val w × State

/-- ADD (R281). -/
def aluAdd : AluOp := fun w s a b => (addRes w a b false, s.setFlags (s.flags.add w a b false))

/-- ADC (R282). -/
def aluAdc : AluOp := fun w s a b => (addRes w a b s.flags.cf, s.setFlags (s.flags.add w a b s.flags.cf))

/-- SUB and CMP (R284, R292). -/
def aluSub : AluOp := fun w s a b => (subRes w a b false, s.setFlags (s.flags.sub w a b false))

/-- SBB (R285). -/
def aluSbb : AluOp := fun w s a b => (subRes w a b s.flags.cf, s.setFlags (s.flags.sub w a b s.flags.cf))

/-- The logic operations: one free bit for AF is drawn. -/
def aluLogic (w : Width) (s : State) (res : Val w) : Val w × State :=
  (res, (s.setFlags (s.flags.logic w res (s.freeBit 0))).drawn 1)

/-- AND and TEST (R321, R324). -/
def aluAnd : AluOp := fun w s a b => aluLogic w s (a &&& b)

/-- OR (R322). -/
def aluOr : AluOp := fun w s a b => aluLogic w s (a ||| b)

/-- XOR (R323). -/
def aluXor : AluOp := fun w s a b => aluLogic w s (a ^^^ b)

/-- An operation of one operand. -/
abbrev UnOp := (w : Width) → State → Val w → Val w × State

/-- INC: CF stays (R283). -/
def unInc : UnOp := fun w s a =>
  (addRes w a 1 false, s.setFlags { s.flags.add w a 1 false with cf := s.flags.cf })

/-- DEC: CF stays (R286). -/
def unDec : UnOp := fun w s a =>
  (subRes w a 1 false, s.setFlags { s.flags.sub w a 1 false with cf := s.flags.cf })

/-- NEG: subtracted from zero (R287). -/
def unNeg : UnOp := fun w s a => (subRes w 0 a false, s.setFlags (s.flags.sub w 0 a false))

/-- NOT: no flag changes (R325). -/
def unNot : UnOp := fun _ s a => (~~~a, s)

/-- The seven shifts and rotates (R330). -/
inductive ShiftKind where
  | rol | ror | rcl | rcr | shl | shr | sar
deriving DecidableEq, Repr

/-- One step of a shift or rotate: the operand and CF after it (R331 to R337). -/
def shiftStep (k : ShiftKind) (w : Width) (x : Val w) (cf : Bool) : Val w × Bool :=
  match k with
  | .rol => (x <<< 1 ||| BitVec.ofNat w.bits (bit x.msb), x.msb)
  | .ror => (x >>> 1 ||| BitVec.ofNat w.bits (bit (x.getLsbD 0)) <<< (w.bits - 1), x.getLsbD 0)
  | .rcl => (x <<< 1 ||| BitVec.ofNat w.bits (bit cf), x.msb)
  | .rcr => (x >>> 1 ||| BitVec.ofNat w.bits (bit cf) <<< (w.bits - 1), x.getLsbD 0)
  | .shl => (x <<< 1, x.msb)
  | .shr => (x >>> 1, x.getLsbD 0)
  | .sar => (x.sshiftRight 1, x.getLsbD 0)

/-- The step repeated. -/
def shiftRun (k : ShiftKind) (w : Width) : Nat → Val w → Bool → Val w × Bool
  | 0, x, cf => (x, cf)
  | n + 1, x, cf => shiftRun k w n (shiftStep k w x cf).1 (shiftStep k w x cf).2

/-- OF after a single shift or rotate of `x` to `x'` (R331 to R337); `free` where the spec leaves it undefined (R332, 90
C6). -/
def shiftOf (k : ShiftKind) (w : Width) (x : Val w) (cf : Bool) (x' : Val w) (cf' free : Bool) : Bool :=
  match k with
  | .rol => cf' ^^ x'.msb
  | .ror => free
  | .rcl => cf' ^^ x'.msb
  | .rcr => cf ^^ x.msb
  | .shl => cf' ^^ x'.msb
  | .shr => x.msb
  | .sar => false

/-- The kinds that set SF, ZF and PF and leave AF undefined (R335 to R337); the rotates leave all four (R331). -/
def ShiftKind.isShift : ShiftKind → Bool
  | .rol => false
  | .ror => false
  | .rcl => false
  | .rcr => false
  | .shl => true
  | .shr => true
  | .sar => true

/-- A shift or rotate by `cnt`; `single` for the D0 and D1 forms. A count of zero changes nothing (R330). AF and OF take
the free bits 0 and 1 where undefined. -/
def shiftOp (k : ShiftKind) (single : Bool) (cnt : Nat) : UnOp := fun w s x =>
  if cnt = 0 then (x, s)
  else
    let r := shiftRun k w cnt x s.flags.cf
    let f := if k.isShift then { s.flags.szp w r.1 with af := s.freeBit 0 } else s.flags
    let o := if single then shiftOf k w x s.flags.cf r.1 r.2 (s.freeBit 1) else s.freeBit 1
    (r.1, (s.setFlags { f with cf := r.2, of := o }).drawn 2)

/-- The count of the immediate and CL forms: the bottom five bits (R330). -/
def shiftCount (b : Byte) : Nat := b.toNat % 32

/-- The 16 bits of FLAGS as they are stored (R30); `u` gives the undefined bits 15, 5, 3 and 1 (R31). -/
def Flags.image (f : Flags) (u : Word) : Word :=
  BitVec.ofBool (u.getLsbD 15) ++ BitVec.ofBool f.nt ++ f.iopl ++ BitVec.ofBool f.of ++ BitVec.ofBool f.df ++
    BitVec.ofBool f.ief ++ BitVec.ofBool f.tf ++ BitVec.ofBool f.sf ++ BitVec.ofBool f.zf ++
    BitVec.ofBool (u.getLsbD 5) ++ BitVec.ofBool f.af ++ BitVec.ofBool (u.getLsbD 3) ++ BitVec.ofBool f.pf ++
    BitVec.ofBool (u.getLsbD 1) ++ BitVec.ofBool f.cf

/-- What a read of FLAGS gives now: the undefined bits are drawn (R31). -/
def State.flagsWord (s : State) : Word := s.flags.image (s.freeWord 0)

/-- SF, ZF, AF, PF and CF from bits 7, 6, 4, 2 and 0 of a byte (40_data_transfer.md R265). -/
def Flags.setLow (f : Flags) (v : Byte) : Flags :=
  { f with sf := v.getLsbD 7, zf := v.getLsbD 6, af := v.getLsbD 4, pf := v.getLsbD 2, cf := v.getLsbD 0 }

/-- All of FLAGS from a word, as a task switch loads it (45_protected_transfer.md R440). -/
def Flags.ofWord (v : Word) : Flags :=
  { cf := v.getLsbD 0, pf := v.getLsbD 2, af := v.getLsbD 4, zf := v.getLsbD 6, sf := v.getLsbD 7, tf := v.getLsbD 8,
    ief := v.getLsbD 9, df := v.getLsbD 10, of := v.getLsbD 11, iopl := v.extractLsb' 12 2, nt := v.getLsbD 14 }

/-- FLAGS from a word as POPF and IRET load it. Real mode: IOPL and NT stay 0 (R35). Protected mode: IOPL only at CPL 0,
IF only when CPL <= IOPL, both with the values before (40_data_transfer.md R263, 45_protected_transfer.md R434). -/
def State.poppedFlags (s : State) (v : Word) : Flags :=
  if s.msw.pe then
    { Flags.ofWord v with
      iopl := if s.cpl = 0 then v.extractLsb' 12 2 else s.flags.iopl
      ief := if s.cpl ≤ s.ioplNum then v.getLsbD 9 else s.flags.ief }
  else { Flags.ofWord v with iopl := s.flags.iopl, nt := s.flags.nt }

end Sys2Proof.Machine
end

