-- ==== Sys2Proof/Machine/Segment.lean ====
section
/-! DEFINITION. Segments: which exception an instruction raises (60_exceptions.md R531), the checks of a memory access and
the address it reaches (20_memory.md R110 to R118), descriptors and their tables (R120 to R129), and loading DS, ES and SS
(R131 to R133). -/

namespace Sys2Proof.Machine

/-- An event to be delivered (60_exceptions.md R560): its vector, its error code, the EXT bit, whether an INT instruction. -/
structure Event where
  vector : Byte
  code : Option Word
  ext : Bool
  isInt : Bool
deriving DecidableEq, Repr

/-- Why an instruction did not complete. -/
inductive Stop where
  /-- An exception with the state before the instruction kept (R536). -/
  | exc (e : Event)
  /-- An exception in a state the instruction has already changed, with the offset to save: a task switch past its commit
  point (45_protected_transfer.md R448), PUSHA and POPA that wrap part way (R246, R249). -/
  | excIn (e : Event) (s : State) (ret : Word)
deriving DecidableEq, Repr

/-- What a part of an instruction answers. -/
abbrev M (α : Type) := Except Stop α

/-- An exception raised by an instruction's own checks: EXT is 0 (R565). -/
def Event.exn (vector : Byte) (code : Option Word) : Event := { vector := vector, code := code, ext := false, isInt := false }

/-- #DE, vector 0 (R532). -/
def divideError : Stop := .exc (.exn 0 none)
/-- BOUND range exceeded, vector 5 (R534). -/
def boundExceeded : Stop := .exc (.exn 5 none)
/-- #UD, vector 6 (R535). -/
def invalidOpcode : Stop := .exc (.exn 6 none)
/-- #NM, vector 7 (R537). -/
def extensionNotAvailable : Stop := .exc (.exn 7 none)
/-- #TS, vector 10 (R541). -/
def invalidTss (code : Word) : Stop := .exc (.exn 10 (some code))
/-- #NP, vector 11 (R542). -/
def notPresent (code : Word) : Stop := .exc (.exn 11 (some code))
/-- #SS, vector 12 (R543). -/
def stackFault (code : Word) : Stop := .exc (.exn 12 (some code))
/-- #GP, vector 13 (R549); in real mode the code is not pushed. -/
def protection (code : Word) : Stop := .exc (.exn 13 (some code))

/-- #MF, vector 16: delivered like an external event, EXT = 1 (R539, R560). -/
def extensionError : Stop := .exc { vector := 16, code := none, ext := true, isInt := false }

/-- The error code that names a selector: its low two bits replaced by 0 and EXT (R565). -/
def selCode (sel : Word) (ext : Bool) : Word := (sel &&& 0xFFFC) ||| BitVec.ofNat 16 (bit ext)

/-- Go on if the test holds, else stop. -/
def need (ok : Bool) (e : Stop) : M Unit := if ok then .ok () else .error e

/-- The privilege test of Table 13 on the level: CPL must be 0 (R590). -/
def needCpl0 (s : State) : M Unit := need (decide (s.cpl = 0)) (protection 0)

/-- The privilege test of Table 13 on IOPL: CPL <= IOPL in protected mode, none in real mode (R590). -/
def needIopl (s : State) : M Unit := need (!s.msw.pe || decide (s.cpl ≤ s.ioplNum)) (protection 0)

/-- The instructions that exist in protected mode only raise #UD in real mode (30_encoding.md R228). -/
def needProtected (s : State) : M Unit := need s.msw.pe invalidOpcode

/-- A memory access is a read or a write. -/
inductive Access where
  | read
  | write
deriving DecidableEq, Repr

/-- S of an access rights byte: a code or data segment (R122). -/
def arS (ar : Byte) : Bool := ar.getLsbD 4
/-- E: executable (R122). -/
def arE (ar : Byte) : Bool := ar.getLsbD 3
/-- ED of a data segment, C of a code segment (R122). -/
def arC (ar : Byte) : Bool := ar.getLsbD 2
/-- W of a data segment, R of a code segment (R122). -/
def arW (ar : Byte) : Bool := ar.getLsbD 1
/-- A: accessed (R122). -/
def arA (ar : Byte) : Bool := ar.getLsbD 0
/-- P: present (R122). -/
def arP (ar : Byte) : Bool := ar.getLsbD 7
/-- DPL (R122, R130). -/
def arDpl (ar : Byte) : Nat := (ar.extractLsb' 5 2).toNat
/-- TYPE of a system descriptor or gate (R123, R124). -/
def arType (ar : Byte) : Nat := (ar.extractLsb' 0 4).toNat
/-- A code segment. -/
def arCode (ar : Byte) : Bool := arS ar && arE ar
/-- A writable data segment. -/
def arWritable (ar : Byte) : Bool := arS ar && !arE ar && arW ar
/-- A data segment or a readable code segment. -/
def arReadable (ar : Byte) : Bool := arS ar && (!arE ar || arW ar)

/-- The access kind is allowed by the cached rights (R115). -/
def typeOk (ar : Byte) : Access → Bool
  | .read => !arE ar || arW ar
  | .write => !arE ar && arW ar

/-- The `n` bytes at offset `off` lie inside the segment: grow-up against the limit, grow-down above it (R116). -/
def limitOk (g : SegReg) (off n : Nat) : Bool :=
  if !arE g.ar && arC g.ar then decide (g.limit.toNat < off) && decide (off + n ≤ 0x10000)
  else decide (off + n ≤ g.limit.toNat + 1)

/-- The exception of a failed limit check: #SS(0) through SS, else #GP(0); exception 13 in real mode (R113, R117). -/
def limitStop (s : State) (x : SReg) : Stop := if s.msw.pe && decide (x = .ss) then stackFault 0 else protection 0

/-- The checks of an access of `n` bytes at `x:off` (R112 to R117). An offset above FFFFH arises in operands of several
words; it fails in protected mode and wraps in real mode (92 D17). -/
def memCheck (s : State) (x : SReg) (off n : Nat) (a : Access) : M Unit :=
  if s.msw.pe then do
    need (s.seg x).valid (protection 0)
    need (typeOk (s.seg x).ar a) (protection 0)
    need (decide (off ≤ 0xFFFF) && limitOk (s.seg x) off n) (limitStop s x)
  else need (decide (off % 0x10000 + n ≤ 0x10000)) (limitStop s x)

/-- The physical address of an offset in a segment: the sum, in protected mode modulo 2^24 (R118); in real mode bit 20 of a
sum that passes 100000H is dropped or kept as REAL_MODE_A20 says (R88 to R90). -/
def physAddr (pe : Bool) (g : SegReg) (off : Word) : Phys :=
  let a := g.base + off.setWidth 24
  if !pe && decide (g.base.toNat < 0x100000) && decide (0x100000 ≤ a.toNat) && Config.realModeWraps
  then a - 0x100000 else a

/-- The physical address of `x:off`. -/
def segAddr (s : State) (x : SReg) (off : Word) : Phys := physAddr s.msw.pe (s.seg x) off

/-- The byte at `x:off`, unchecked. -/
def peek8 (s : State) (x : SReg) (off : Word) : Byte := s.load8 (segAddr s x off)

/-- The word at `x:off`, unchecked (R80). -/
def peek16 (s : State) (x : SReg) (off : Word) : Word := wordOf (peek8 s x off) (peek8 s x (off + 1))

/-- Write the byte at `x:off`, unchecked. -/
def poke8 (s : State) (x : SReg) (off : Word) (v : Byte) : State := s.store8 (segAddr s x off) v

/-- Write the word at `x:off`, unchecked, low byte first (R80). -/
def poke16 (s : State) (x : SReg) (off : Word) (v : Word) : State :=
  poke8 (poke8 s x off (loByte v)) x (off + 1) (hiByte v)

/-- The value of a width at `x:off`, unchecked. -/
def peek (s : State) (w : Width) (x : SReg) (off : Word) : Val w :=
  match w with
  | .byte => peek8 s x off
  | .word => peek16 s x off

/-- Write a value of a width at `x:off`, unchecked. -/
def poke (s : State) (w : Width) (x : SReg) (off : Word) (v : Val w) : State :=
  match w, v with
  | .byte, v => poke8 s x off v
  | .word, v => poke16 s x off v

/-- `MemRead(X, off, n)` (R110). -/
def memRead (s : State) (w : Width) (x : SReg) (off : Word) : M (Val w) := do
  memCheck s x off.toNat w.bytes .read
  pure (peek s w x off)

/-- `MemWrite(X, off, n, v)` (R111). -/
def memWrite (s : State) (w : Width) (x : SReg) (off : Word) (v : Val w) : M State := do
  memCheck s x off.toNat w.bytes .write
  pure (poke s w x off v)

/-- The k-th word of an operand of several words: each is checked on its own (R110, 92 D17). -/
def memReadNth (s : State) (x : SReg) (off : Word) (k : Nat) : M Word := do
  memCheck s x (off.toNat + 2 * k) 2 .read
  pure (peek16 s x (off + BitVec.ofNat 16 (2 * k)))

/-- A descriptor: its first three words (R121, R123, R124). The fourth is not used (log 42). -/
structure Desc where
  w0 : Word
  w1 : Word
  w2 : Word
deriving DecidableEq, Repr

/-- The access rights byte (R121). -/
def Desc.ar (d : Desc) : Byte := hiByte d.w2
/-- LIMIT of a segment descriptor (R121). -/
def Desc.limit (d : Desc) : Word := d.w0
/-- BASE of a segment descriptor (R121). -/
def Desc.base (d : Desc) : Phys := loByte d.w2 ++ d.w1
/-- DESTINATION OFFSET of a gate (R124). -/
def Desc.offset (d : Desc) : Word := d.w0
/-- DESTINATION SELECTOR of a gate (R124). -/
def Desc.selector (d : Desc) : Word := d.w1
/-- WORD COUNT of a call gate (R124). -/
def Desc.wordCount (d : Desc) : Nat := (d.w2.extractLsb' 0 5).toNat
/-- A system descriptor or gate of one of the types. -/
def Desc.isType (d : Desc) (t : Nat) : Bool := !arS d.ar && decide (arType d.ar = t)

/-- Read the descriptor at a physical address (R121). -/
def descAt (s : State) (a : Phys) : Desc := { w0 := s.load16 a, w1 := s.load16 (a + 2), w2 := s.load16 (a + 4) }

/-- The selector names a local descriptor (R120). -/
def selLocal (sel : Word) : Bool := sel.getLsbD 2

/-- A null selector: 0000H to 0003H (R131). -/
def selNull (sel : Word) : Bool := decide (sel &&& 0xFFFC = 0)

/-- `FetchDescriptor(sel)`: where the descriptor lies and what it is; nothing when the selector is outside its table or
the LDT is not valid (R127, R128). -/
def fetchDescriptor (s : State) (sel : Word) : Option (Phys × Desc) :=
  let i := sel &&& 0xFFF8
  let base := if selLocal sel then s.ldtr.base else s.gdtr.base
  let limit := if selLocal sel then s.ldtr.limit else s.gdtr.limit
  if (!selLocal sel || s.ldtr.valid) && decide (i.toNat + 7 ≤ limit.toNat) then
    some (base + i.setWidth 24, descAt s (base + i.setWidth 24))
  else none

/-- `FetchDescriptor(sel) else e`. -/
def needDescriptor (s : State) (sel : Word) (e : Stop) : M (Phys × Desc) :=
  match fetchDescriptor s sel with
  | some d => .ok d
  | none => .error e

/-- Set the accessed bit of a descriptor in its table; written only when it was 0 (R129, 92 D12). -/
def setAccessed (s : State) (a : Phys) (d : Desc) : State :=
  if arA d.ar then s else s.store8 (a + 5) (d.ar ||| 1)

/-- The cache that a segment descriptor fills, the accessed bit set (R132). -/
def Desc.cache (d : Desc) (sel : Word) : SegReg :=
  { sel := sel, base := d.base, limit := d.limit, ar := d.ar ||| 1, valid := true }

/-- Load a segment register from a descriptor that has passed its checks, setting the accessed bit. -/
def loadCache (s : State) (x : SReg) (sel : Word) (p : Phys × Desc) : State :=
  (setAccessed s p.1 p.2).setSeg x (p.2.cache sel)

/-- A data segment load passes its privilege test: DPL >= CPL and DPL >= RPL, but for readable conforming code (R132). -/
def dataPrivOk (s : State) (ar : Byte) (sel : Word) : Bool :=
  (arE ar && arC ar) || (decide (s.cpl ≤ arDpl ar) && decide (rpl sel ≤ arDpl ar))

/-- `LoadDataSeg(X, sel)` for DS and ES (R132). `g` says how the read of the descriptor follows the instruction's others. -/
def loadDataSeg (s : State) (g : ReadGroup) (x : SReg) (sel : Word) : M State :=
  if !s.msw.pe then .ok (s.setSeg x (SegReg.real sel))
  else if selNull sel then .ok (s.setSeg x { s.seg x with sel := sel, valid := false })
  else do
    let p ← needDescriptor (s.later g) sel (protection (selCode sel false))
    need (arReadable p.2.ar) (protection (selCode sel false))
    need (dataPrivOk s p.2.ar sel) (protection (selCode sel false))
    need (arP p.2.ar) (notPresent (selCode sel false))
    pure (loadCache s x sel p)

/-- `LoadStackSeg(sel)` (R133). -/
def loadStackSeg (s : State) (g : ReadGroup) (sel : Word) : M State :=
  if !s.msw.pe then .ok (s.setSeg .ss (SegReg.real sel))
  else do
    need (!selNull sel) (protection 0)
    let p ← needDescriptor (s.later g) sel (protection (selCode sel false))
    need (decide (rpl sel = s.cpl)) (protection (selCode sel false))
    need (arWritable p.2.ar) (protection (selCode sel false))
    need (decide (arDpl p.2.ar = s.cpl)) (protection (selCode sel false))
    need (arP p.2.ar) (stackFault (selCode sel false))
    pure (loadCache s .ss sel p)

/-- `LoadCS(sel, d, cpl)` (45_protected_transfer.md R422) and the jump to an offset in the new segment. -/
def loadCs (s : State) (sel : Word) (p : Phys × Desc) (cpl : Nat) (off : Word) : State :=
  (loadCache s .cs ((sel &&& 0xFFFC) ||| BitVec.ofNat 16 cpl) p).jump off

end Sys2Proof.Machine
end

