-- ==== Sys2Proof/Machine/Task.lean ====
section
/-! DEFINITION. Tasks: the task state segment (45_protected_transfer.md R441), the stack of an inner level (R427) and the
task switch (R440, R448). The byte offsets and the order of the steps are the spec's general knowledge (log 20, 40). -/

namespace Sys2Proof.Machine

/-- Where the words of a task state segment lie: the parameter TSS_LAYOUT (00_scope.md R10). -/
structure TssLayout where
  backLink : Nat
  /-- SP for a privilege level. -/
  sp : Nat → Nat
  /-- SS for a privilege level. -/
  ss : Nat → Nat
  ip : Nat
  flags : Nat
  ax : Nat
  cx : Nat
  dx : Nat
  bx : Nat
  spNow : Nat
  bp : Nat
  si : Nat
  di : Nat
  es : Nat
  cs : Nat
  ssNow : Nat
  ds : Nat
  ldt : Nat

/-- TSS_LAYOUT as the table of R441 gives it (PRESUMED, log 20). -/
def tssLayout : TssLayout :=
  { backLink := 0, sp := fun p => 2 + 4 * p, ss := fun p => 4 + 4 * p, ip := 14, flags := 16, ax := 18, cx := 20, dx := 22,
    bx := 24, spNow := 26, bp := 28, si := 30, di := 32, es := 34, cs := 36, ssNow := 38, ds := 40, ldt := 42 }

/-- A word of a task state segment (R441). -/
def tssWord (s : State) (base : Phys) (k : Nat) : Word := s.load16 (base + BitVec.ofNat 24 k)

/-- Write words at offsets of a task state segment, in order. -/
def tssStore (s : State) (base : Phys) : List (Nat × Word) → State
  | [] => s
  | e :: rest => tssStore (s.store16 (base + BitVec.ofNat 24 e.1) e.2) base rest

/-- `InnerStack(p)`: SS and SP for privilege level `p` from the current TSS, with the descriptor of SS (R427). -/
def innerStack (s : State) (p : Nat) (ext : Bool) : M (Word × Word × Phys × Desc) := do
  need (decide (tssLayout.ss p + 1 ≤ s.tr.limit.toNat)) (invalidTss (selCode s.tr.sel ext))
  let nsp := tssWord (s.later .taskState) s.tr.base (tssLayout.sp p)
  let nss := tssWord (s.later .taskState) s.tr.base (tssLayout.ss p)
  need (!selNull nss) (protection (BitVec.ofNat 16 (bit ext)))
  let d ← needDescriptor (s.later .innerStack) nss (invalidTss (selCode nss ext))
  need (decide (rpl nss = p)) (invalidTss (selCode nss ext))
  need (decide (arDpl d.2.ar = p)) (invalidTss (selCode nss ext))
  need (arWritable d.2.ar) (invalidTss (selCode nss ext))
  need (arP d.2.ar) (stackFault (selCode nss ext))
  pure (nss, nsp, d.1, d.2)

/-- What asks for a task switch: JMP, a nesting CALL or interrupt, or IRET (R440). -/
inductive SwitchMode where
  | jmp
  | nest
  | iret
deriving DecidableEq, Repr

/-- Step 2 of R440: what the outgoing task's TSS receives; an IRET clears NT in the image (step 3). -/
def saveTask (s : State) (mode : SwitchMode) (ret : Word) : State :=
  let f := if mode = .iret then { s.flags with nt := false } else s.flags
  (tssStore s s.tr.base
    [(tssLayout.ip, ret), (tssLayout.flags, f.image (s.freeWord 0)), (tssLayout.ax, s.regs.ax),
     (tssLayout.cx, s.regs.cx), (tssLayout.dx, s.regs.dx), (tssLayout.bx, s.regs.bx), (tssLayout.spNow, s.regs.sp),
     (tssLayout.bp, s.regs.bp), (tssLayout.si, s.regs.si), (tssLayout.di, s.regs.di), (tssLayout.es, s.es.sel),
     (tssLayout.cs, s.cs.sel), (tssLayout.ssNow, s.ss.sel), (tssLayout.ds, s.ds.sel)]).drawn 1

/-- Step 3 of R440: the descriptor TR names becomes available, type 3 to 1. -/
def markOldAvailable (s : State) : State :=
  let a := s.gdtr.base + (s.tr.sel &&& 0xFFF8).setWidth 24 + 5
  s.store8 a ((s.later .taskState).load8 a &&& 0xFD)

/-- A TSS descriptor becomes busy, type 1 to 3 (R443). -/
def markBusy (s : State) (a : Phys) (d : Desc) : State := s.store8 (a + 5) (d.ar ||| 2)

/-- Step 8 of R440: the register image of the incoming TSS; every cache is marked invalid. -/
def loadTask (s : State) (base : Phys) (mode : SwitchMode) : State :=
  let word := tssWord (s.later .newTask) base
  let f := Flags.ofWord (word tssLayout.flags)
  { s with
    ip := word tssLayout.ip
    stale := []
    flags := if mode = .nest then { f with nt := true } else f
    regs :=
      { ax := word tssLayout.ax, cx := word tssLayout.cx, dx := word tssLayout.dx, bx := word tssLayout.bx,
        sp := word tssLayout.spNow, bp := word tssLayout.bp, si := word tssLayout.si, di := word tssLayout.di }
    es := { s.es with sel := word tssLayout.es, valid := false }
    cs := { s.cs with sel := word tssLayout.cs, valid := false }
    ss := { s.ss with sel := word tssLayout.ssNow, valid := false }
    ds := { s.ds with sel := word tssLayout.ds, valid := false }
    ldtr := { s.ldtr with sel := word tssLayout.ldt, valid := false } }

/-- Steps 2 to 8 of R440. -/
def commitSwitch (s : State) (tsel : Word) (a : Phys) (t : Desc) (mode : SwitchMode) (ret : Word) : State :=
  let s1 := saveTask s mode ret
  let s2 := if mode = .nest then s1.store16 (t.base + BitVec.ofNat 24 tssLayout.backLink) s.tr.sel else markOldAvailable s1
  let s3 := if mode = .iret then s2 else markBusy s2 a t
  let s4 := { s3 with tr := { sel := tsel, base := t.base, limit := t.limit }, msw := { s3.msw with ts := true } }
  loadTask s4 t.base mode

/-- A failing check past the commit point: the exception is taken in the new task as it then stands (R448). -/
def inTask {α : Type} (s : State) (r : M α) : M α :=
  match r with
  | .error (.exc e) => .error (.excIn e s s.ip)
  | .error (.excIn e s' ip) => .error (.excIn e s' ip)
  | .ok v => .ok v

/-- Step 9 of R440: the LDT of the new task. -/
def switchLdt (s : State) (ext : Bool) : M State :=
  if selNull s.ldtr.sel then .ok s
  else do
    need (!selLocal s.ldtr.sel) (invalidTss (selCode s.ldtr.sel ext))
    let p ← needDescriptor (s.later .newLdt) s.ldtr.sel (invalidTss (selCode s.ldtr.sel ext))
    need (p.2.isType 2 && arP p.2.ar) (invalidTss (selCode s.ldtr.sel ext))
    pure { s with ldtr := { sel := s.ldtr.sel, base := p.2.base, limit := p.2.limit, valid := true } }

/-- Step 10 of R440: the code segment of the new task. -/
def switchCs (s : State) (ext : Bool) : M State := do
  need (!selNull s.cs.sel) (invalidTss (selCode s.cs.sel ext))
  let p ← needDescriptor (s.later .newCs) s.cs.sel (invalidTss (selCode s.cs.sel ext))
  need (arCode p.2.ar) (invalidTss (selCode s.cs.sel ext))
  need (if arC p.2.ar then decide (arDpl p.2.ar ≤ rpl s.cs.sel) else decide (arDpl p.2.ar = rpl s.cs.sel))
    (invalidTss (selCode s.cs.sel ext))
  need (arP p.2.ar) (notPresent (selCode s.cs.sel ext))
  pure (loadCache s .cs s.cs.sel p)

/-- Step 11 of R440: the stack segment of the new task. -/
def switchSs (s : State) (ext : Bool) : M State := do
  need (!selNull s.ss.sel) (invalidTss (selCode s.ss.sel ext))
  let p ← needDescriptor (s.later .newSs) s.ss.sel (invalidTss (selCode s.ss.sel ext))
  need (arWritable p.2.ar) (invalidTss (selCode s.ss.sel ext))
  need (decide (rpl s.ss.sel = s.cpl) && decide (arDpl p.2.ar = s.cpl)) (invalidTss (selCode s.ss.sel ext))
  need (arP p.2.ar) (stackFault (selCode s.ss.sel ext))
  pure (loadCache s .ss s.ss.sel p)

/-- Step 12 of R440: DS or ES of the new task. A selector outside its table stays #GP(sel) (20_memory.md R132); a failing type
or privilege test is #TS(sel). -/
def switchData (s : State) (x : SReg) (ext : Bool) : M State :=
  if selNull (s.seg x).sel then .ok s
  else do
    let p ← needDescriptor (s.later (if x = .ds then .newDs else .newEs)) (s.seg x).sel (protection (selCode (s.seg x).sel ext))
    need (arReadable p.2.ar) (invalidTss (selCode (s.seg x).sel ext))
    need (dataPrivOk s p.2.ar (s.seg x).sel) (invalidTss (selCode (s.seg x).sel ext))
    need (arP p.2.ar) (notPresent (selCode (s.seg x).sel ext))
    pure (loadCache s x (s.seg x).sel p)

/-- "IP must be in code segment limit else #GP(0)", tested in the new task (step 13 of R440). -/
def checkIp (s : State) : M State := do
  need (decide (s.ip.toNat ≤ s.cs.limit.toNat)) (protection 0)
  pure s

/-- `SwitchTasks` (R440) with the IP test its callers make. `a` is where the descriptor `t` of the new TSS lies. -/
def switchTasks (s : State) (tsel : Word) (a : Phys) (t : Desc) (mode : SwitchMode) (ret : Word) (ext : Bool) :
    M State := do
  need (decide (0x2B ≤ t.limit.toNat)) (invalidTss (selCode tsel ext))
  let s1 := commitSwitch s tsel a t mode ret
  let s2 ← inTask s1 (switchLdt s1 ext)
  let s3 ← inTask s2 (switchCs s2 ext)
  let s4 ← inTask s3 (switchSs s3 ext)
  let s5 ← inTask s4 (switchData s4 .ds ext)
  let s6 ← inTask s5 (switchData s5 .es ext)
  pure s6.flush

end Sys2Proof.Machine
end

