-- ==== Sys2Proof/Machine/Ops.lean ====
section
/-! DEFINITION. The named operations that instructions share: the stack (40_data_transfer.md R243, R244), transfers of
control (44_control_transfer.md R370 to R372), TAKING AN EXCEPTION OR INTERRUPT (60_exceptions.md R560 to R565, R570, R585)
and the returns beside it (44 R386, R409; 45_protected_transfer.md R433 to R435, R442), and I/O (20_memory.md R94). -/

namespace Sys2Proof.Machine

/-! ### Stack -/

/-- `Push(v)` (R243). -/
def push (s : State) (v : Word) : M State := do
  let s' ← memWrite s .word .ss (s.regs.sp - 2) v
  pure (s'.setSp (s.regs.sp - 2))

/-- A push whose check has been made. -/
def pushRaw (s : State) (v : Word) : State := (poke16 s .ss (s.regs.sp - 2) v).setSp (s.regs.sp - 2)

/-- `Pop()`: the word and the new SP, which the instruction commits (R244). -/
def popWord (s : State) : M Word := memRead s .word .ss s.regs.sp

/-- The word pushed `k` pushes from now can be written (R243). -/
def checkPushAt (s : State) (k : Nat) : M Unit :=
  memCheck s .ss (s.regs.sp - BitVec.ofNat 16 (2 * k)).toNat 2 .write

/-- The stack can take `n` words: each is checked at its own offset modulo 65536 (R243), before any is pushed (R372), so that a
stack of 64K bytes may wrap from 0000H to FFFEH between two words (in protected mode DESIGN CHOICE, log 46). -/
def checkPush (s : State) : Nat → M Unit
  | 0 => .ok ()
  | n + 1 => do
    checkPush s n
    checkPushAt s (n + 1)

/-- A new stack has room for `n` words below `sp` (60_exceptions.md R563: "room for n bytes"). As in `checkPush`, each word is
tested at its own offset modulo 65536, so that a stack of 64K bytes may wrap (DESIGN CHOICE, log 46). -/
def roomBelow (g : SegReg) (sp : Word) (n : Nat) : Bool :=
  (List.range n).all fun k => limitOk g (sp - BitVec.ofNat 16 (2 * (k + 1))).toNat 2

/-! ### Transfers -/

/-- `SetIP(t)` (R370). -/
def setIP (s : State) (t : Word) : M State := do
  need (!s.msw.pe || decide (t.toNat ≤ s.cs.limit.toNat)) (protection 0)
  pure (s.jump t)

/-- `FarTransferReal(sel, off)` (R371). -/
def farReal (s : State) (sel off : Word) : State := (s.setSeg .cs (SegReg.real sel)).jump off

/-! ### Taking an exception or interrupt -/

/-- The state in which an instruction's exception is taken, the offset saved, and the event. -/
def Stop.context (st : Stop) (s : State) (ip : Word) : State × Word × Event :=
  match st with
  | .exc e => (s, ip, e)
  | .excIn e s' ip' => (s', ip', e)

/-- `DeliverReal` once the vector lies inside the table (R561); nothing when the stack cannot take three words (R585). -/
def realEntry (s : State) (n : Nat) (ret : Word) : Option State :=
  match checkPush s 3 with
  | .error _ => none
  | .ok _ =>
    let a := s.idtr.base + BitVec.ofNat 24 (4 * n)
    let off := s.load16 a
    let sel := s.load16 (a + 2)
    let s1 := pushRaw (pushRaw ((pushRaw s s.flagsWord).drawn 1) s.cs.sel) ret
    some (farReal (s1.setFlags { s.flags with ief := false, tf := false }) sel off)

/-- Enter shutdown: the registers keep their values (R585). -/
def enterShutdown (s : State) : State := { s with shutdown := true }

/-- `DeliverReal(n, ret_ip)`; `atIp` is the return address when vector 8 is raised instead (R561, R585). -/
def deliverReal (s : State) (n : Nat) (ret atIp : Word) : State :=
  if 4 * n + 3 ≤ s.idtr.limit.toNat then (realEntry s n ret).getD (enterShutdown s)
  else if n = 8 ∨ n = 13 then enterShutdown s
  else if 35 ≤ s.idtr.limit.toNat then (realEntry s 8 atIp).getD (enterShutdown s)
  else enterShutdown s

/-- The error code pushed last, if any. -/
def pushCode (s : State) (code : Option Word) : State :=
  match code with
  | some c => pushRaw s c
  | none => s

/-- How many words an error code takes. -/
def codeWords (code : Option Word) : Nat := if code.isSome then 1 else 0

/-- The flags after a gate: IF cleared by an interrupt gate, TF and NT always (R563). -/
def Flags.afterGate (f : Flags) (g : Desc) : Flags :=
  { f with ief := if g.isType 6 then false else f.ief, tf := false, nt := false }

/-- INTERRUPT TO INNER PRIVILEGE (R563): `c` is the target code segment. -/
def gateInner (s : State) (ev : Event) (g : Desc) (c : Phys × Desc) (ret : Word) : M State := do
  let (nss, nsp, sp) ← innerStack s (arDpl c.2.ar) ev.ext
  need (roomBelow (sp.2.cache nss) nsp (5 + codeWords ev.code)) (stackFault 0)
  need (decide (g.offset.toNat ≤ c.2.limit.toNat)) (protection 0)
  let s1 := (loadCache s .ss nss sp).setSp nsp
  let s2 := loadCs s1 g.selector c (arDpl c.2.ar) g.offset
  let s3 := pushRaw (pushRaw s2 s.ss.sel) s.regs.sp
  let s4 := pushRaw (pushRaw (pushRaw s3 s.flagsWord) s.cs.sel) ret
  pure (((pushCode s4 ev.code).setFlags (s.flags.afterGate g)).drawn 1)

/-- INTERRUPT TO SAME PRIVILEGE LEVEL (R563). -/
def gateSame (s : State) (ev : Event) (g : Desc) (c : Phys × Desc) (ret : Word) : M State := do
  checkPush s (3 + codeWords ev.code)
  need (decide (g.offset.toNat ≤ c.2.limit.toNat)) (protection 0)
  let s1 := pushRaw (pushRaw (pushRaw s s.flagsWord) s.cs.sel) ret
  let s2 := loadCs s1 g.selector c s.cpl g.offset
  pure (((pushCode s2 ev.code).setFlags (s.flags.afterGate g)).drawn 1)

/-- An interrupt or trap gate (R563). Conforming code must have DPL <= CPL, as for every target of a gate
(45_protected_transfer.md R421, R424; log 32). -/
def gateEntry (s : State) (ev : Event) (g : Desc) (ret : Word) : M State := do
  need (!selNull g.selector) (protection (BitVec.ofNat 16 (bit ev.ext)))
  let c ← needDescriptor (s.later .descriptor) g.selector (protection (selCode g.selector ev.ext))
  need (arCode c.2.ar) (protection (selCode g.selector ev.ext))
  need (arP c.2.ar) (notPresent (selCode g.selector ev.ext))
  if !arC c.2.ar && decide (arDpl c.2.ar < s.cpl) then gateInner s ev g c ret
  else if (arC c.2.ar && decide (arDpl c.2.ar ≤ s.cpl)) || decide (arDpl c.2.ar = s.cpl) then gateSame s ev g c ret
  else .error (protection (selCode g.selector ev.ext))

/-- A task gate in the IDT (R564). A null selector names no descriptor (20_memory.md R131, log 50). -/
def taskEntry (s : State) (ev : Event) (g : Desc) (ret : Word) : M State := do
  need (!selNull g.selector && !selLocal g.selector) (protection (selCode g.selector false))
  let t ← needDescriptor (s.later .target) g.selector (protection (selCode g.selector false))
  need (t.2.isType 1) (protection (selCode g.selector false))
  need (arP t.2.ar) (notPresent (selCode g.selector false))
  let s1 ← switchTasks s g.selector t.1 t.2 .nest ret ev.ext
  let s2 ← inTask s1 (match ev.code with
    | some c => push s1 c
    | none => .ok s1)
  inTask s2 (checkIp s2)

/-- The error code that names a gate of the IDT (R562, R565). -/
def idtCode (ev : Event) : Word := BitVec.ofNat 16 (ev.vector.toNat * 8 + 2 + bit ev.ext)

/-- `DeliverProt` (R562). -/
def protEntry (s : State) (ev : Event) (ret : Word) : M State := do
  need (decide (8 * ev.vector.toNat + 7 ≤ s.idtr.limit.toNat)) (protection (idtCode ev))
  let g := descAt s (s.idtr.base + BitVec.ofNat 24 (8 * ev.vector.toNat))
  need (g.isType 5 || g.isType 6 || g.isType 7) (protection (idtCode ev))
  need (!ev.isInt || decide (s.cpl ≤ arDpl g.ar)) (protection (idtCode ev))
  need (arP g.ar) (notPresent (idtCode ev))
  if g.isType 5 then taskEntry s ev g ret else gateEntry s ev g ret

/-- An internally generated exception, as against an INT instruction or an external event (R570). -/
def Event.isException (ev : Event) : Bool := !ev.ext && !ev.isInt

/-- The state, the offset saved and the event of the delivery that follows a failing one in the same step. Other masters may have
had the bus in between, so it reads the bus after every delivery before it, at a place of its own (20_memory.md R160, log 48). -/
def Stop.nextDelivery (st : Stop) (s : State) (ip : Word) : State × Word × Event :=
  ((st.context s ip).1.later .delivery, (st.context s ip).2)

/-- The double fault exception, vector 8, error code 0; a further exception is shutdown (R570). -/
def doubleFault (s : State) (ret : Word) : State :=
  match protEntry s (.exn 8 (some 0)) ret with
  | .ok s' => s'
  | .error st => enterShutdown (st.context s ret).1

/-- Deliver an exception as the first one: what it raises in turn is a double fault, unless its vector is in DF_BENIGN, a
parameter (R570). Then the second exception is delivered, and one that its delivery raises is always a double fault, even if
the second vector is in DF_BENIGN too (DESIGN CHOICE, log 19). -/
def deliverFirst (s : State) (ev : Event) (ret : Word) : State :=
  match protEntry s ev ret with
  | .ok s' => s'
  | .error st =>
    let c := st.nextDelivery s ret
    if Config.dfBenign ev.vector then
      match protEntry c.1 c.2.2 c.2.1 with
      | .ok s' => s'
      | .error st' => doubleFault (st'.nextDelivery c.1 c.2.1).1 (st'.nextDelivery c.1 c.2.1).2.1
    else doubleFault c.1 c.2.1

/-- Delivery in protected mode with the exceptions it may raise (R570). `atIp` is the instruction or boundary. -/
def deliverProt (s : State) (ev : Event) (ret atIp : Word) : State :=
  if ev.isException then deliverFirst s ev ret
  else
    match protEntry s ev ret with
    | .ok s' => s'
    | .error st =>
      let c := st.nextDelivery s atIp
      deliverFirst c.1 c.2.2 c.2.1

/-- `Deliver(n, err, ext, is_int, ret_ip)` (R560): the one way an INT instruction, an exception or an interrupt transfers
control. The prefixes noted so far are forgotten and the prefetch queue is emptied (20_memory.md R165). The reads of a delivery
come after all others of its step (log 48). -/
def deliver (s : State) (ev : Event) (ret atIp : Word) : State :=
  let s1 := { s.later .delivery with halted := false, cur := Cur.at s.cur.ip }
  let s2 := (if s.msw.pe then deliverProt s1 ev ret atIp else deliverReal s1 ev.vector.toNat ret atIp).flush
  { s2 with bus := s.bus }

/-- What a meaning answers. -/
abbrev Result := Host.Outcome State Fault Refusal

/-- The end of every meaning: the next state, or the exception taken. The return address is the instruction's first byte,
prefixes included (R536). -/
def finish (s : State) (r : M State) : Result :=
  match r with
  | .ok s' => .next s'
  | .error st =>
    let c := st.context s s.cur.ip
    .next (deliver c.1 c.2.2 c.2.1 c.2.1)

/-- INT n, INT 3 and INTO: no error code, EXT 0, return address after the instruction (44_control_transfer.md R400). -/
def softInt (s : State) (n : Byte) : State :=
  deliver s { vector := n, code := none, ext := false, isInt := true } s.ip s.cur.ip

/-! ### Returning -/

/-- The code segment of a return: non-null, code, at the level of the return selector, present (R433). -/
def returnCode (s : State) (sel : Word) : M (Phys × Desc) := do
  need (!selNull sel) (protection 0)
  let p ← needDescriptor (s.later .descriptor) sel (protection (selCode sel false))
  need (arCode p.2.ar) (protection (selCode sel false))
  need (if arC p.2.ar then decide (arDpl p.2.ar ≤ rpl sel) else decide (arDpl p.2.ar = rpl sel))
    (protection (selCode sel false))
  need (arP p.2.ar) (notPresent (selCode sel false))
  pure p

/-- The stack segment of a return to an outer level; not present is #NP (R433, 90 C16). -/
def returnStack (s : State) (sel csel : Word) : M (Phys × Desc) := do
  need (!selNull sel) (protection 0)
  let p ← needDescriptor (s.later .target) sel (protection (selCode sel false))
  need (decide (rpl sel = rpl csel)) (protection (selCode sel false))
  need (arWritable p.2.ar) (protection (selCode sel false))
  need (decide (arDpl p.2.ar = rpl csel)) (protection (selCode sel false))
  need (arP p.2.ar) (notPresent (selCode sel false))
  pure p

/-- `ValidateDataSeg(X)` (R435). -/
def validateDataSeg (s : State) (x : SReg) : State :=
  let g := s.seg x
  if g.valid && !(arReadable g.ar && dataPrivOk s g.ar g.sel) then
    s.setSeg x { g with sel := 0, ar := 0, valid := false }
  else s

/-- The top `n` bytes of the stack lie within the stack segment; a range that passes FFFFH does so only in a grow-up
segment of 64K bytes (R433, log 38). -/
def checkStackTop (s : State) (n : Nat) : M Unit := do
  need s.ss.valid (protection 0)
  need (limitOk s.ss s.regs.sp.toNat n ||
      (limitOk s.ss 0 0x10000 && decide (0x10000 < s.regs.sp.toNat + n))) (stackFault 0)

/-- A word of the stack, `k` bytes above SP modulo 65536. -/
def stackWord (s : State) (k : Word) : M Word := memRead s .word .ss (s.regs.sp + k)

/-- RET far and IRET with NT = 0 in protected mode (R433, R434). `fl` says whether a flags word lies above the return
address; `imm` bytes are released. The outer SS:SP are read by themselves: with bytes released up to 64K they may lie where the
return address does (log 48). -/
def farReturn (s : State) (fl : Bool) (imm : Word) : M State := do
  let k : Word := if fl then 6 else 4
  let csel ← stackWord s 2
  need (decide (s.cpl ≤ rpl csel)) (protection (selCode csel false))
  if rpl csel = s.cpl then
    if fl then checkStackTop s 6
    let c ← returnCode s csel
    let off ← stackWord s 0
    let f ← if fl then stackWord s 4 else pure 0
    need (decide (off.toNat ≤ c.2.limit.toNat)) (protection 0)
    let s1 := loadCs s csel c s.cpl off
    let s2 := if fl then s1.setFlags (s.poppedFlags f) else s1
    pure (s2.setSp (s.regs.sp + k + imm))
  else
    checkStackTop s (k.toNat + 4 + imm.toNat)
    let c ← returnCode s csel
    let ssel ← stackWord (s.later .outerPointer) (k + 2 + imm)
    let nsp ← stackWord (s.later .outerPointer) (k + imm)
    let sd ← returnStack s ssel csel
    let off ← stackWord s 0
    let f ← if fl then stackWord s 4 else pure 0
    need (decide (off.toNat ≤ c.2.limit.toNat)) (protection 0)
    let s1 := loadCs s csel c (rpl csel) off
    let s2 := if fl then s1.setFlags (s.poppedFlags f) else s1
    let s3 := (loadCache s2 .ss ssel sd).setSp (nsp + imm)
    pure (validateDataSeg (validateDataSeg s3 .es) .ds).flush

/-- RET far in real mode (44_control_transfer.md R386). -/
def farReturnReal (s : State) (imm : Word) : M State := do
  let off ← stackWord s 0
  let sel ← stackWord s 2
  pure ((farReal s sel off).setSp (s.regs.sp + 4 + imm))

/-- IRET in real mode (44_control_transfer.md R409). -/
def iretReal (s : State) : M State := do
  let off ← stackWord s 0
  let sel ← stackWord s 2
  let f ← stackWord s 4
  pure (((farReal s sel off).setFlags (s.poppedFlags f)).setSp (s.regs.sp + 6))

/-- IRET with NT = 1: return to the task the back link names (R442), which is none for a null one (20_memory.md R131, log 50). -/
def iretTask (s : State) : M State := do
  let bsel := tssWord s s.tr.base tssLayout.backLink
  need (!selNull bsel && !selLocal bsel) (invalidTss (selCode bsel false))
  let t ← needDescriptor (s.later .target) bsel (invalidTss (selCode bsel false))
  need (t.2.isType 3) (invalidTss (selCode bsel false))
  need (arP t.2.ar) (notPresent (selCode bsel false))
  let s1 ← switchTasks s bsel t.1 t.2 .iret s.ip false
  inTask s1 (checkIp s1)

/-- Returning from an exception or interrupt: IRET in all its forms, then NMI is open again (60_exceptions.md R566, R547). -/
def returnFromInterrupt (s : State) : M State := do
  let s' ← if !s.msw.pe then iretReal s
    else if s.flags.nt then iretTask s
    else farReturn s true 0
  pure { s' with nmiInService := false }

/-! ### I/O -/

/-- A port access is split: a word at an odd port (20_memory.md R94, R85). -/
def ioSplit (w : Width) (port : Word) : Bool := w == .word && port.getLsbD 0

/-- The bus operations of a port access, in their order: one, or for a word at an odd port two of a byte each, the low byte at
the port and then the high byte at the next one, which is port 0000H after FFFFH (20_memory.md R94, R85; log 11). -/
def ioOperations (output : Bool) (w : Width) (port v : Word) : List IoEvent :=
  if ioSplit w port then
    [{ output := output, port := port, width := .byte, value := zextByte (loByte v) },
      { output := output, port := port + 1, width := .byte, value := zextByte (hiByte v) }]
  else [{ output := output, port := port, width := w, value := v }]

/-- What the devices answer to a port read after `n` bus operations: of a word at an odd port each byte has an answer of its
own (20_memory.md R94; log 11). -/
def ioAnswer (n : Nat) (w : Width) (port : Word) : Val w :=
  if ioSplit w port then
    (wordOf (loByte (Config.ioIn n port)) (loByte (Config.ioIn (n + 1) (port + 1)))).setWidth w.bits
  else (Config.ioIn n port).setWidth w.bits

/-- `IoRead(port, n)`: what the devices answer is free; the bus operations are recorded (20_memory.md R94, R96). -/
def ioRead (s : State) (w : Width) (port : Word) : Val w × State :=
  let v := ioAnswer s.io.length w port
  (v, { s with io := (ioOperations false w port (v.setWidth 16)).reverse ++ s.io })

/-- `IoWrite(port, n, v)`: the bus operations are recorded (20_memory.md R94). -/
def ioWrite (s : State) (w : Width) (port : Word) (v : Val w) : State :=
  { s with io := (ioOperations true w port (v.setWidth 16)).reverse ++ s.io }

end Sys2Proof.Machine
end

