-- ==== Sys2Proof/Machine/Operands.lean ====
section
/-! DEFINITION. Operand forms: effective addresses (30_encoding.md R198, R199), the segment a memory operand uses
(20_memory.md R97), and reading, checking and writing the operand of the mod-reg-r/m byte (40_data_transfer.md R240). -/

namespace Sys2Proof.Machine

/-- The sum of base and index registers (R198). -/
def eaBase (s : State) : EaBase → Word
  | .bxsi => s.regs.bx + s.regs.si
  | .bxdi => s.regs.bx + s.regs.di
  | .bpsi => s.regs.bp + s.regs.si
  | .bpdi => s.regs.bp + s.regs.di
  | .si => s.regs.si
  | .di => s.regs.di
  | .bp => s.regs.bp
  | .bx => s.regs.bx

/-- The effective address: carries out of 16 bits are dropped (R198, 20_memory.md R98). -/
def ea (s : State) : MemOp → Word
  | .direct o => o
  | .based b => eaBase s b
  | .disp8 b d => eaBase s b + sextByte d
  | .disp16 b d => eaBase s b + d

/-- The default segment of a base: SS when BP is in it, else DS (R97). -/
def baseSeg : EaBase → SReg
  | .bxsi => .ds
  | .bxdi => .ds
  | .bpsi => .ss
  | .bpdi => .ss
  | .si => .ds
  | .di => .ds
  | .bp => .ss
  | .bx => .ds

/-- The default segment of a memory operand (R97). -/
def defaultSeg : MemOp → SReg
  | .direct _ => .ds
  | .based b => baseSeg b
  | .disp8 b _ => baseSeg b
  | .disp16 b _ => baseSeg b

/-- A segment register unless a prefix overrides it (R97). -/
def overridden (s : State) (x : SReg) : SReg := s.cur.seg.getD x

/-- The segment register of a memory operand. -/
def opSeg (s : State) (a : MemOp) : SReg := overridden s (defaultSeg a)

/-- Where an operand lies: a register, or an offset of a segment. -/
inductive Place where
  | reg (r : RegNum)
  | mem (x : SReg) (off : Word)
deriving DecidableEq, Repr

/-- Where the operand named by mod and r/m lies, from the registers as the instruction finds them. -/
def place (s : State) : RM → Place
  | .reg r => .reg r
  | .mem a => .mem (opSeg s a) (ea s a)

/-- Read an operand (`EA(n)`, R240). -/
def readPlace (s : State) (w : Width) : Place → M (Val w)
  | .reg r => .ok (s.getReg w r)
  | .mem x off => memRead s w x off

/-- The value of an operand, unchecked. -/
def peekPlace (s : State) (w : Width) : Place → Val w
  | .reg r => s.getReg w r
  | .mem x off => peek s w x off

/-- The check made before an operand is written (20_memory.md R111). -/
def checkWrite (s : State) (w : Width) : Place → M Unit
  | .reg _ => .ok ()
  | .mem x off => memCheck s x off.toNat w.bytes .write

/-- Write an operand whose check has been made. -/
def putPlace (s : State) (w : Width) (p : Place) (v : Val w) : State :=
  match p with
  | .reg r => s.setReg w r v
  | .mem x off => poke s w x off v

/-- Check and write an operand. -/
def writePlace (s : State) (w : Width) (p : Place) (v : Val w) : M State := do
  checkWrite s w p
  pure (putPlace s w p v)

/-- Read the operand of the mod-reg-r/m byte. -/
def readRm (s : State) (w : Width) (m : RM) : M (Val w) := readPlace s w (place s m)

/-- The word at a memory operand, and the word after it (20_memory.md R81): a long pointer, a pair of bounds. -/
def readPair (s : State) (a : MemOp) : M (Word × Word) := do
  let lo ← memReadNth s (opSeg s a) (ea s a) 0
  let hi ← memReadNth s (opSeg s a) (ea s a) 1
  pure (lo, hi)

/-- Read, compute, write back: the write check comes first, so that a fault leaves everything as it was (20_memory.md
R111). -/
def modifyRm (s : State) (w : Width) (m : RM) (f : State → Val w → Val w × State) : M State := do
  let p := place s m
  checkWrite s w p
  let v ← readPlace s w p
  pure (putPlace (f s v).2 w p (f s v).1)

/-- `dst <- dst op src` with the operand as destination. -/
def aluToRm (op : AluOp) (s : State) (w : Width) (m : RM) (src : Val w) : M State :=
  modifyRm s w m fun s' a => op w s' a src

/-- `reg <- reg op EA`. -/
def aluToReg (op : AluOp) (s : State) (w : Width) (r : RegNum) (m : RM) : M State := do
  let v ← readRm s w m
  let res := op w s (s.getReg w r) v
  pure (res.2.setReg w r res.1)

/-- `acc <- acc op imm`. -/
def aluToAcc (op : AluOp) (s : State) (v : Imm) : State :=
  let res := op v.width s (s.acc v.width) v.val
  res.2.setAcc v.width res.1

/-- Flags of `EA op src`, nothing else written. -/
def aluTest (op : AluOp) (s : State) (w : Width) (m : RM) (src : Val w) : M State := do
  let v ← readRm s w m
  pure (op w s v src).2

end Sys2Proof.Machine
end

