-- ==== Sys2Proof/Machine/Arithmetic.lean ====
section
/-! DEFINITION. The arithmetic instructions (41_arithmetic.md): ADD, ADC, INC, SUB, SBB, DEC, CMP, NEG, the adjust
instructions, MUL, IMUL, DIV, IDIV, CBW, CWD. -/

namespace Sys2Proof.Machine

/-- ADD eb,rb / ew,rw (R281). -/
def execAddRmReg (w : Width) (m : RM) (r : RegNum) (s : State) : Result := finish s (aluToRm aluAdd s w m (s.getReg w r))

/-- ADD rb,eb / rw,ew (R281). -/
def execAddRegRm (w : Width) (r : RegNum) (m : RM) (s : State) : Result := finish s (aluToReg aluAdd s w r m)

/-- ADD AL,db / AX,dw (R281). -/
def execAddAccImm (v : Imm) (s : State) : Result := finish s (.ok (aluToAcc aluAdd s v))

/-- ADD eb,db / ew,dw (R281). -/
def execAddRmImm (m : RM) (v : Imm) (s : State) : Result := finish s (aluToRm aluAdd s v.width m v.val)

/-- ADD eb,db, opcode 82: the same operation as 80 (R281, 30_encoding.md R203). -/
def execAddRm8Imm82 (m : RM) (v : Byte) (s : State) : Result := finish s (aluToRm aluAdd s .byte m v)

/-- ADD ew,db: the byte is sign-extended (R281). -/
def execAddRmSext (m : RM) (v : Byte) (s : State) : Result := finish s (aluToRm aluAdd s .word m (sextByte v))

/-- ADC eb,rb / ew,rw (R282). -/
def execAdcRmReg (w : Width) (m : RM) (r : RegNum) (s : State) : Result := finish s (aluToRm aluAdc s w m (s.getReg w r))

/-- ADC rb,eb / rw,ew (R282). -/
def execAdcRegRm (w : Width) (r : RegNum) (m : RM) (s : State) : Result := finish s (aluToReg aluAdc s w r m)

/-- ADC AL,db / AX,dw (R282). -/
def execAdcAccImm (v : Imm) (s : State) : Result := finish s (.ok (aluToAcc aluAdc s v))

/-- ADC eb,db / ew,dw (R282). -/
def execAdcRmImm (m : RM) (v : Imm) (s : State) : Result := finish s (aluToRm aluAdc s v.width m v.val)

/-- ADC eb,db, opcode 82: the same operation as 80 (R282, 30_encoding.md R203). -/
def execAdcRm8Imm82 (m : RM) (v : Byte) (s : State) : Result := finish s (aluToRm aluAdc s .byte m v)

/-- ADC ew,db: the byte is sign-extended (R282). -/
def execAdcRmSext (m : RM) (v : Byte) (s : State) : Result := finish s (aluToRm aluAdc s .word m (sextByte v))

/-- SUB eb,rb / ew,rw (R284). -/
def execSubRmReg (w : Width) (m : RM) (r : RegNum) (s : State) : Result := finish s (aluToRm aluSub s w m (s.getReg w r))

/-- SUB rb,eb / rw,ew (R284). -/
def execSubRegRm (w : Width) (r : RegNum) (m : RM) (s : State) : Result := finish s (aluToReg aluSub s w r m)

/-- SUB AL,db / AX,dw (R284). -/
def execSubAccImm (v : Imm) (s : State) : Result := finish s (.ok (aluToAcc aluSub s v))

/-- SUB eb,db / ew,dw (R284). -/
def execSubRmImm (m : RM) (v : Imm) (s : State) : Result := finish s (aluToRm aluSub s v.width m v.val)

/-- SUB eb,db, opcode 82: the same operation as 80 (R284, 30_encoding.md R203). -/
def execSubRm8Imm82 (m : RM) (v : Byte) (s : State) : Result := finish s (aluToRm aluSub s .byte m v)

/-- SUB ew,db: the byte is sign-extended (R284). -/
def execSubRmSext (m : RM) (v : Byte) (s : State) : Result := finish s (aluToRm aluSub s .word m (sextByte v))

/-- SBB eb,rb / ew,rw (R285). -/
def execSbbRmReg (w : Width) (m : RM) (r : RegNum) (s : State) : Result := finish s (aluToRm aluSbb s w m (s.getReg w r))

/-- SBB rb,eb / rw,ew (R285). -/
def execSbbRegRm (w : Width) (r : RegNum) (m : RM) (s : State) : Result := finish s (aluToReg aluSbb s w r m)

/-- SBB AL,db / AX,dw (R285). -/
def execSbbAccImm (v : Imm) (s : State) : Result := finish s (.ok (aluToAcc aluSbb s v))

/-- SBB eb,db / ew,dw (R285). -/
def execSbbRmImm (m : RM) (v : Imm) (s : State) : Result := finish s (aluToRm aluSbb s v.width m v.val)

/-- SBB eb,db, opcode 82: the same operation as 80 (R285, 30_encoding.md R203). -/
def execSbbRm8Imm82 (m : RM) (v : Byte) (s : State) : Result := finish s (aluToRm aluSbb s .byte m v)

/-- SBB ew,db: the byte is sign-extended (R285). -/
def execSbbRmSext (m : RM) (v : Byte) (s : State) : Result := finish s (aluToRm aluSbb s .word m (sextByte v))

/-- CMP eb,rb / ew,rw: EA - reg (R292). -/
def execCmpRmReg (w : Width) (m : RM) (r : RegNum) (s : State) : Result := finish s (aluTest aluSub s w m (s.getReg w r))

/-- CMP rb,eb / rw,ew: reg - EA (R292). -/
def execCmpRegRm (w : Width) (r : RegNum) (m : RM) (s : State) : Result :=
  finish s do
    let v ← readRm s w m
    pure (aluSub w s (s.getReg w r) v).2

/-- CMP AL,db / AX,dw (R292). -/
def execCmpAccImm (v : Imm) (s : State) : Result := finish s (.ok (aluSub v.width s (s.acc v.width) v.val).2)

/-- CMP eb,db / ew,dw (R292). -/
def execCmpRmImm (m : RM) (v : Imm) (s : State) : Result := finish s (aluTest aluSub s v.width m v.val)

/-- CMP eb,db, opcode 82 (R292). -/
def execCmpRm8Imm82 (m : RM) (v : Byte) (s : State) : Result := finish s (aluTest aluSub s .byte m v)

/-- CMP ew,db: the byte is sign-extended (R292). -/
def execCmpRmSext (m : RM) (v : Byte) (s : State) : Result := finish s (aluTest aluSub s .word m (sextByte v))

/-- INC rw (R283). -/
def execIncReg (r : RegNum) (s : State) : Result := finish s (modifyRm s .word (.reg r) (unInc .word))

/-- INC eb / ew (R283). -/
def execIncRm (w : Width) (m : RM) (s : State) : Result := finish s (modifyRm s w m (unInc w))

/-- DEC rw (R286). -/
def execDecReg (r : RegNum) (s : State) : Result := finish s (modifyRm s .word (.reg r) (unDec .word))

/-- DEC eb / ew (R286). -/
def execDecRm (w : Width) (m : RM) (s : State) : Result := finish s (modifyRm s w m (unDec w))

/-- NEG (R287). -/
def execNegRm (w : Width) (m : RM) (s : State) : Result := finish s (modifyRm s w m (unNeg w))

/-- The adjust condition: the low digit of AL exceeds 9, or AF (R288 to R291). -/
def adjusts (s : State) : Bool := decide (9 < s.al.toNat % 16) || s.flags.af

/-- The flags after AAA and AAS: AF and CF as given, OF, SF, ZF and PF free (R288, R290). -/
def asciiFlags (s : State) (c : Bool) : Flags :=
  { s.flags with of := s.freeBit 0, sf := s.freeBit 1, zf := s.freeBit 2, pf := s.freeBit 3, af := c, cf := c }

/-- AAA (R288). Whether the carry of AL + 6 reaches AH, which it can only when AL > F9H, is free (log 22). -/
def execAaa (s : State) : Result :=
  let carry : Byte := if 0xF9 < s.al.toNat then BitVec.ofNat 8 (bit (s.freeBit 4)) else 0
  let ax : Word := if adjusts s then wordOf ((s.al + 6) &&& 0x0F) (s.ah + 1 + carry) else wordOf (s.al &&& 0x0F) s.ah
  finish s (.ok (((s.setW .r0 ax).setFlags (asciiFlags s (adjusts s))).drawn 5))

/-- AAS (R290). Whether the borrow of AL - 6 reaches AH, which it can only when AL < 06H, is free (log 22). -/
def execAas (s : State) : Result :=
  let borrow : Byte := if s.al.toNat < 6 then BitVec.ofNat 8 (bit (s.freeBit 4)) else 0
  let ax : Word := if adjusts s then wordOf ((s.al - 6) &&& 0x0F) (s.ah - 1 - borrow) else wordOf (s.al &&& 0x0F) s.ah
  finish s (.ok (((s.setW .r0 ax).setFlags (asciiFlags s (adjusts s))).drawn 5))

/-- AL, AF and CF can be what an addition of two packed BCD bytes leaves (R289). -/
def bcdSum (al : Byte) (af cf : Bool) : Bool :=
  (!af || decide (al.toNat % 16 ≤ 3)) && (!cf || decide (al.toNat / 16 ≤ 2 + bit af)) &&
    (!(af && !cf) || decide (1 ≤ al.toNat / 16))

/-- AL, AF and CF can be what a subtraction of two packed BCD bytes leaves (R291). -/
def bcdDifference (al : Byte) (af cf : Bool) : Bool :=
  (af || decide (al.toNat % 16 ≤ 9)) && (!af || decide (6 ≤ al.toNat % 16)) &&
    (cf || decide (al.toNat / 16 + bit af ≤ 9)) && (!cf || decide (7 ≤ al.toNat / 16 + bit af))

/-- The end of DAA and DAS: AL, its flags, AF and CF; OF free. On inputs that are no BCD results AL, AF and CF are free and
SF, ZF and PF follow AL (log 23). -/
def decimalEnd (s : State) (ok : Bool) (al : Byte) (af cf : Bool) : State :=
  let al' := if ok then al else loByte (s.freeWord 3)
  let f := { s.flags.szp .byte al' with
    of := s.freeBit 0, af := if ok then af else s.freeBit 1, cf := if ok then cf else s.freeBit 2 }
  ((s.setB .r0 al').setFlags f).drawn 4

/-- The second half of DAA and DAS tests the old AL and CF (R289, R291). -/
def highAdjusts (s : State) : Bool := decide (0x99 < s.al.toNat) || s.flags.cf

/-- DAA (R289). -/
def execDaa (s : State) : Result :=
  let al1 := if adjusts s then s.al + 6 else s.al
  let al2 := if highAdjusts s then al1 + 0x60 else al1
  finish s (.ok (decimalEnd s (bcdSum s.al s.flags.af s.flags.cf) al2 (adjusts s) (highAdjusts s)))

/-- DAS (R291). -/
def execDas (s : State) : Result :=
  let al1 := if adjusts s then s.al - 6 else s.al
  let al2 := if highAdjusts s then al1 - 0x60 else al1
  finish s (.ok (decimalEnd s (bcdDifference s.al s.flags.af s.flags.cf) al2 (adjusts s) (highAdjusts s)))

/-- The double-width register of a width: AX for bytes, DX:AX for words (R293). -/
def wideAcc (s : State) (w : Width) : Nat :=
  match w with
  | .byte => s.regs.ax.toNat
  | .word => s.regs.dx.toNat * 0x10000 + s.regs.ax.toNat

/-- The same as a signed number (R297). -/
def wideAccInt (s : State) (w : Width) : Int :=
  match w with
  | .byte => s.regs.ax.toInt
  | .word => (s.regs.dx ++ s.regs.ax : BitVec 32).toInt

/-- Write low and high half: AL and AH, or AX and DX (R293, R296). -/
def setWide (s : State) (w : Width) (lo hi : Val w) : State :=
  match w, lo, hi with
  | .byte, lo, hi => s.setW .r0 (wordOf lo hi)
  | .word, lo, hi => (s.setW .r0 lo).setW .r2 hi

/-- CF and OF after a multiplication, the other four flags free (R293). -/
def mulFlags (s : State) (high : Bool) : State :=
  (s.setFlags (s.flags.mul high (s.freeBit 0) (s.freeBit 1) (s.freeBit 2) (s.freeBit 3))).drawn 4

/-- MUL (R293). -/
def execMulRm (w : Width) (m : RM) (s : State) : Result :=
  finish s do
    let v ← readRm s w m
    let p := (s.acc w).toNat * v.toNat
    pure (mulFlags (setWide s w (BitVec.ofNat _ p) (BitVec.ofNat _ (p / 2 ^ w.bits))) (decide (2 ^ w.bits ≤ p)))

/-- A signed number fits in `n` bits. -/
def fitsSigned (n : Nat) (p : Int) : Bool := decide (-(2 ^ (n - 1)) ≤ p) && decide (p < 2 ^ (n - 1))

/-- IMUL eb / ew (R294). -/
def execImulRm (w : Width) (m : RM) (s : State) : Result :=
  finish s do
    let v ← readRm s w m
    let p := (s.acc w).toInt * v.toInt
    pure (mulFlags (setWide s w (BitVec.ofInt _ p) (BitVec.ofInt _ (p / 2 ^ w.bits))) (!fitsSigned w.bits p))

/-- `rw <- EA * imm`, signed (R295). -/
def imulInto (s : State) (r : RegNum) (m : RM) (v : Word) : M State := do
  let a ← readRm s .word m
  let p := a.toInt * v.toInt
  pure (mulFlags (s.setW r (BitVec.ofInt 16 p)) (!fitsSigned 16 p))

/-- IMUL rw,ew,dw (R295). -/
def execImulRegRmImm16 (r : RegNum) (m : RM) (v : Word) (s : State) : Result := finish s (imulInto s r m v)

/-- IMUL rw,ew,db: the byte is sign-extended (R295). -/
def execImulRegRmImm8 (r : RegNum) (m : RM) (v : Byte) (s : State) : Result := finish s (imulInto s r m (sextByte v))

/-- All six status flags free (R296, R297). -/
def divFlags (s : State) : State :=
  (s.setFlags (s.flags.undef (s.freeBit 0) (s.freeBit 1) (s.freeBit 2) (s.freeBit 3) (s.freeBit 4) (s.freeBit 5))).drawn 6

/-- DIV (R296). -/
def execDivRm (w : Width) (m : RM) (s : State) : Result :=
  finish s do
    let v ← readRm s w m
    need (decide (v ≠ 0)) divideError
    let q := wideAcc s w / v.toNat
    need (decide (q < 2 ^ w.bits)) divideError
    pure (divFlags (setWide s w (BitVec.ofNat _ q) (BitVec.ofNat _ (wideAcc s w % v.toNat))))

/-- IDIV: truncation toward zero, the remainder with the sign of the dividend (R297). -/
def execIdivRm (w : Width) (m : RM) (s : State) : Result :=
  finish s do
    let v ← readRm s w m
    need (decide (v ≠ 0)) divideError
    let q := (wideAccInt s w).tdiv v.toInt
    need (fitsSigned w.bits q) divideError
    pure (divFlags (setWide s w (BitVec.ofInt _ q) (BitVec.ofInt _ ((wideAccInt s w).tmod v.toInt))))

/-- SF, ZF and PF of AL; OF, AF and CF free (R298, R299). -/
def adjustEnd (s : State) (al ah : Byte) : State :=
  let f := { s.flags.szp .byte al with of := s.freeBit 0, af := s.freeBit 1, cf := s.freeBit 2 }
  ((s.setW .r0 (wordOf al ah)).setFlags f).drawn 3

/-- AAM (R298). -/
def execAam (s : State) : Result :=
  finish s (.ok (adjustEnd s (BitVec.ofNat 8 (s.al.toNat % 10)) (BitVec.ofNat 8 (s.al.toNat / 10))))

/-- AAD (R299). -/
def execAad (s : State) : Result := finish s (.ok (adjustEnd s (s.ah * 10 + s.al) 0))

/-- CBW (R300). -/
def execCbw (s : State) : Result := finish s (.ok (s.setW .r0 (sextByte s.al)))

/-- CWD (R301). -/
def execCwd (s : State) : Result := finish s (.ok (s.setW .r2 (if s.regs.ax.msb then 0xFFFF else 0)))

end Sys2Proof.Machine
end

