-- ==== Sys2Proof/Machine/Control.lean ====
section
/-! DEFINITION. Transfers within the code segment, loops, the high level instructions BOUND, ENTER and LEAVE, INT and INTO
(44_control_transfer.md). -/

namespace Sys2Proof.Machine

/-- The target of a relative transfer: modulo 65536 from the next instruction (R373). -/
def relTarget (s : State) (d : Word) : Word := s.ip + d

/-- A short jump if the condition holds (R380). -/
def jumpIf (s : State) (c : Bool) (d : Byte) : M State :=
  if c then setIP s (relTarget s (sextByte d)) else .ok s

/-- JO (R380). -/
def execJo (d : Byte) (s : State) : Result := finish s (jumpIf s (s.flags.of) d)

/-- JNO (R380). -/
def execJno (d : Byte) (s : State) : Result := finish s (jumpIf s (!s.flags.of) d)

/-- JB (R380). -/
def execJb (d : Byte) (s : State) : Result := finish s (jumpIf s (s.flags.cf) d)

/-- JNB (R380). -/
def execJnb (d : Byte) (s : State) : Result := finish s (jumpIf s (!s.flags.cf) d)

/-- JE (R380). -/
def execJe (d : Byte) (s : State) : Result := finish s (jumpIf s (s.flags.zf) d)

/-- JNE (R380). -/
def execJne (d : Byte) (s : State) : Result := finish s (jumpIf s (!s.flags.zf) d)

/-- JBE (R380). -/
def execJbe (d : Byte) (s : State) : Result := finish s (jumpIf s (s.flags.cf || s.flags.zf) d)

/-- JNBE (R380). -/
def execJnbe (d : Byte) (s : State) : Result := finish s (jumpIf s (!s.flags.cf && !s.flags.zf) d)

/-- JS (R380). -/
def execJs (d : Byte) (s : State) : Result := finish s (jumpIf s (s.flags.sf) d)

/-- JNS (R380). -/
def execJns (d : Byte) (s : State) : Result := finish s (jumpIf s (!s.flags.sf) d)

/-- JP (R380). -/
def execJp (d : Byte) (s : State) : Result := finish s (jumpIf s (s.flags.pf) d)

/-- JNP (R380). -/
def execJnp (d : Byte) (s : State) : Result := finish s (jumpIf s (!s.flags.pf) d)

/-- JL (R380). -/
def execJl (d : Byte) (s : State) : Result := finish s (jumpIf s (s.flags.sf != s.flags.of) d)

/-- JNL (R380). -/
def execJnl (d : Byte) (s : State) : Result := finish s (jumpIf s (s.flags.sf == s.flags.of) d)

/-- JLE (R380). -/
def execJle (d : Byte) (s : State) : Result := finish s (jumpIf s (s.flags.zf || (s.flags.sf != s.flags.of)) d)

/-- JNLE (R380). -/
def execJnle (d : Byte) (s : State) : Result := finish s (jumpIf s (!s.flags.zf && (s.flags.sf == s.flags.of)) d)

/-- JCXZ (R381). -/
def execJcxz (d : Byte) (s : State) : Result := finish s (jumpIf s (decide (s.regs.cx = 0)) d)

/-- The LOOP forms: CX is decremented first, and the decrement is lost when the jump faults (R382). -/
def loopWhile (s : State) (c : Bool) (d : Byte) : M State :=
  jumpIf (s.setW .r1 (s.regs.cx - 1)) (decide (s.regs.cx ≠ 1) && c) d

/-- LOOP (R382). -/
def execLoop (d : Byte) (s : State) : Result := finish s (loopWhile s true d)

/-- LOOPE (R382). -/
def execLoope (d : Byte) (s : State) : Result := finish s (loopWhile s s.flags.zf d)

/-- LOOPNE (R382). -/
def execLoopne (d : Byte) (s : State) : Result := finish s (loopWhile s (!s.flags.zf) d)

/-- JMP short (R373). -/
def execJmpRel8 (d : Byte) (s : State) : Result := finish s (setIP s (relTarget s (sextByte d)))

/-- JMP near (R373). -/
def execJmpRel16 (d : Word) (s : State) : Result := finish s (setIP s (relTarget s d))

/-- JMP near indirect (R374). -/
def execJmpRm (m : RM) (s : State) : Result :=
  finish s do
    let t ← readRm s .word m
    setIP s t

/-- CALL near: the target is checked, then the return address is pushed (R372, R376). -/
def callNear (s : State) (t : Word) : M State := do
  let _ ← setIP s t
  let s' ← push s s.ip
  pure (s'.jump t)

/-- CALL cw (R376). -/
def execCallRel (d : Word) (s : State) : Result := finish s (callNear s (relTarget s d))

/-- CALL ew (R376). -/
def execCallRm (m : RM) (s : State) : Result :=
  finish s do
    let t ← readRm s .word m
    callNear s t

/-- RET near, releasing `imm` bytes (R385). -/
def retNear (s : State) (imm : Word) : M State := do
  let t ← popWord s
  let s' ← setIP s t
  pure (s'.setSp (s.regs.sp + 2 + imm))

/-- RET (R385). -/
def execRet (s : State) : Result := finish s (retNear s 0)

/-- RET dw (R385). -/
def execRetImm (v : Word) (s : State) : Result := finish s (retNear s v)

/-- The display copy of ENTER: BP steps down and the word it points at is pushed (R390). -/
def copyDisplay (s : State) : Nat → M State
  | 0 => .ok s
  | n + 1 => do
    let v ← memRead s .word .ss (s.regs.bp - 2)
    let s' ← push (s.setW .r5 (s.regs.bp - 2)) v
    copyDisplay s' n

/-- ENTER (R390). A fault part way leaves everything as it was (R536, log 25). -/
def execEnter (v : Word) (l : Byte) (s : State) : Result :=
  finish s do
    let level := l.toNat % 32
    let s1 ← push s s.regs.bp
    let frame := s1.regs.sp
    let s2 ← if level = 0 then pure s1 else do
      let s' ← copyDisplay s1 (level - 1)
      push s' frame
    pure ((s2.setW .r5 frame).setSp (s2.regs.sp - v))

/-- LEAVE (R391). -/
def execLeave (s : State) : Result :=
  finish s do
    let v ← memRead s .word .ss s.regs.bp
    pure ((s.setSp (s.regs.bp + 2)).setW .r5 v)

/-- BOUND: the bounds are inclusive and signed, the lower one first (R392). -/
def execBound (r : RegNum) (a : MemOp) (s : State) : Result :=
  finish s do
    let p ← readPair s a
    need (decide (p.1.toInt ≤ (s.getW r).toInt) && decide ((s.getW r).toInt ≤ p.2.toInt)) boundExceeded
    pure s

/-- INT 3 (R400). -/
def execInt3 (s : State) : Result := .next (softInt s 3)

/-- INT db (R400). -/
def execIntImm (v : Byte) (s : State) : Result := .next (softInt s v)

/-- INTO (R401). -/
def execInto (s : State) : Result := .next (if s.flags.of then softInt s 4 else s)

end Sys2Proof.Machine
end

