-- ==== Sys2Proof/Machine/DataTransfer.lean ====
section
/-! DEFINITION. The data transfer instructions (40_data_transfer.md): MOV, PUSH, PUSHA, POP, POPA, XCHG, IN, OUT, XLAT, LEA,
LDS, LES, LAHF, SAHF, PUSHF, POPF. -/

namespace Sys2Proof.Machine

/-- MOV eb,rb / ew,rw (R241). -/
def execMovRmReg (w : Width) (m : RM) (r : RegNum) (s : State) : Result :=
  finish s (writePlace s w (place s m) (s.getReg w r))

/-- MOV rb,eb / rw,ew (R241). -/
def execMovRegRm (w : Width) (r : RegNum) (m : RM) (s : State) : Result :=
  finish s do
    let v ← readRm s w m
    pure (s.setReg w r v)

/-- MOV AL,xb / AX,xw (R241). -/
def execMovAccMoffs (w : Width) (o : Word) (s : State) : Result :=
  finish s do
    let v ← memRead s w (overridden s .ds) o
    pure (s.setAcc w v)

/-- MOV xb,AL / xw,AX (R241). -/
def execMovMoffsAcc (w : Width) (o : Word) (s : State) : Result :=
  finish s (memWrite s w (overridden s .ds) o (s.acc w))

/-- MOV rb,db / rw,dw (R241). -/
def execMovRegImm (r : RegNum) (v : Imm) (s : State) : Result := finish s (.ok (s.setReg v.width r v.val))

/-- MOV eb,db / ew,dw (R241). -/
def execMovRmImm (m : RM) (v : Imm) (s : State) : Result := finish s (writePlace s v.width (place s m) v.val)

/-- MOV ew,sreg (R242). -/
def execMovRmSreg (m : RM) (g : SReg) (s : State) : Result :=
  finish s (writePlace s .word (place s m) (s.seg g).sel)

/-- A load of ES, SS or DS by MOV or POP: SS with its own checks, and all interrupts inhibited for one instruction (R242,
R247, 60_exceptions.md R546). `d` says how the read of the descriptor follows the instruction's others. -/
def loadSreg (s : State) (d : ReadGroup) (g : SReg) (sel : Word) : M State :=
  match g with
  | .ss => do
    let s' ← loadStackSeg s d sel
    pure { s' with inhibitInt := true }
  | .es => loadDataSeg s d .es sel
  | .ds => loadDataSeg s d .ds sel
  | .cs => .error invalidOpcode

/-- MOV's read of the descriptor: under LOCK no other master has had the bus since the operand was read (20_memory.md R152,
46_processor_control.md R480). -/
def State.movDescriptor (s : State) : ReadGroup := if s.cur.lock then .heldDescriptor else .descriptor

/-- MOV sreg,ew (R242); CS does not exist as a destination (30_encoding.md R226). -/
def execMovSregRm (g : SReg) (m : RM) (s : State) : Result :=
  finish s do
    let v ← readRm s .word m
    loadSreg s s.movDescriptor g v

/-- PUSH ES, CS, SS, DS (R245). -/
def execPushSreg (g : SReg) (s : State) : Result := finish s (push s (s.seg g).sel)

/-- PUSH rw; PUSH SP pushes the value SP had before (R245). -/
def execPushReg (r : RegNum) (s : State) : Result := finish s (push s (s.getW r))

/-- PUSH mw (R245). -/
def execPushRm (m : RM) (s : State) : Result :=
  finish s do
    let v ← readRm s .word m
    push s v

/-- PUSH dw (R245). -/
def execPushImm16 (v : Word) (s : State) : Result := finish s (push s v)

/-- PUSH db, sign-extended (R245). -/
def execPushImm8 (v : Byte) (s : State) : Result := finish s (push s (sextByte v))

/-- A part of an instruction whose exception is taken in the state reached so far (R246, R249). -/
def keepProgress (s : State) (r : M State) : M State :=
  match r with
  | .error (.exc e) => .error (.excIn e s s.cur.ip)
  | .error (.excIn e s' ip) => .error (.excIn e s' ip)
  | .ok s' => .ok s'

/-- A run of pushes; one that fails takes its exception with the earlier ones made (R246). -/
def pushAll (s : State) : List Word → M State
  | [] => .ok s
  | v :: rest => do
    let s' ← keepProgress s (push s v)
    pushAll s' rest

/-- PUSHA: both ends are checked first (R246). -/
def execPusha (s : State) : Result :=
  finish s do
    checkPushAt s 1
    checkPushAt s 8
    pushAll s [s.regs.ax, s.regs.cx, s.regs.dx, s.regs.bx, s.regs.sp, s.regs.bp, s.regs.si, s.regs.di]

/-- Pop into a register and move SP (R244). -/
def popInto (s : State) (r : RegNum) : M State := do
  let v ← popWord s
  pure ((s.setSp (s.regs.sp + 2)).setW r v)

/-- POP rw; POP SP leaves the popped value in SP (R247). -/
def execPopReg (r : RegNum) (s : State) : Result := finish s (popInto s r)

/-- Pop into ES, SS or DS (R247). -/
def popSreg (s : State) (g : SReg) : M State := do
  let v ← popWord s
  let s' ← loadSreg s .descriptor g v
  pure (s'.setSp (s.regs.sp + 2))

/-- POP ES (R247). -/
def execPopEs (s : State) : Result := finish s (popSreg s .es)

/-- POP SS (R247). -/
def execPopSs (s : State) : Result := finish s (popSreg s .ss)

/-- POP DS (R247). -/
def execPopDs (s : State) : Result := finish s (popSreg s .ds)

/-- POP mw; the effective address does not depend on SP. In the order of R248's listing the operand is written first and
then SP moves, so that 8F C4 (POP SP by this encoding) leaves the popped word plus 2 in SP (log 47). -/
def execPopRm (m : RM) (s : State) : Result :=
  finish s do
    let v ← popWord s
    checkWrite s .word (place s m)
    let t := putPlace s .word (place s m) v
    pure (t.setSp (t.regs.sp + 2))

/-- One pop of POPA: into a register, or discarded (R249). -/
def popStep (s : State) : Option RegNum → M State
  | some r => popInto s r
  | none => do
    let _ ← popWord s
    pure (s.setSp (s.regs.sp + 2))

/-- A run of pops; one that fails takes its exception with the earlier ones made (R249). -/
def popAll (s : State) : List (Option RegNum) → M State
  | [] => .ok s
  | r :: rest => do
    let s' ← keepProgress s (popStep s r)
    popAll s' rest

/-- POPA: both ends are checked first; the word for SP is discarded (R249). -/
def execPopa (s : State) : Result :=
  finish s do
    memCheck s .ss s.regs.sp.toNat 2 .read
    memCheck s .ss (s.regs.sp + 14).toNat 2 .read
    popAll s [some .r7, some .r6, some .r5, none, some .r3, some .r2, some .r1, some .r0]

/-- XCHG eb,rb / ew,rw: the write check comes before the read (R256). -/
def execXchgRmReg (w : Width) (m : RM) (r : RegNum) (s : State) : Result :=
  finish s (modifyRm s w m fun s' a => (s.getReg w r, s'.setReg w r a))

/-- XCHG AX,rw (R256). -/
def execXchgAxReg (r : RegNum) (s : State) : Result :=
  finish s (.ok ((s.setW r s.regs.ax).setW .r0 (s.getW r)))

/-- Read a port into the accumulator (R257). -/
def portIn (s : State) (w : Width) (port : Word) : M State := do
  needIopl s
  pure ((ioRead s w port).2.setAcc w (ioRead s w port).1)

/-- Write the accumulator to a port (R258). -/
def portOut (s : State) (w : Width) (port : Word) : M State := do
  needIopl s
  pure (ioWrite s w port (s.acc w))

/-- IN AL,db / AX,db (R257). -/
def execInImm (w : Width) (v : Byte) (s : State) : Result := finish s (portIn s w (zextByte v))

/-- IN AL,DX / AX,DX (R257). -/
def execInDx (w : Width) (s : State) : Result := finish s (portIn s w s.regs.dx)

/-- OUT db,AL / db,AX (R258). -/
def execOutImm (w : Width) (v : Byte) (s : State) : Result := finish s (portOut s w (zextByte v))

/-- OUT DX,AL / DX,AX (R258). -/
def execOutDx (w : Width) (s : State) : Result := finish s (portOut s w s.regs.dx)

/-- XLAT (R259). -/
def execXlat (s : State) : Result :=
  finish s do
    let v ← memRead s .byte (overridden s .ds) (s.regs.bx + zextByte s.al)
    pure (s.setB .r0 v)

/-- LEA rw,m: no memory access, no segment (R260). -/
def execLea (r : RegNum) (a : MemOp) (s : State) : Result := finish s (.ok (s.setW r (ea s a)))

/-- LDS and LES: the register is written only if the segment load succeeded (R261). -/
def loadPointer (s : State) (x : SReg) (r : RegNum) (a : MemOp) : M State := do
  let p ← readPair s a
  let s' ← loadDataSeg s .descriptor x p.2
  pure (s'.setW r p.1)

/-- LDS rw,ed (R261). -/
def execLds (r : RegNum) (a : MemOp) (s : State) : Result := finish s (loadPointer s .ds r a)

/-- LES rw,ed (R261). -/
def execLes (r : RegNum) (a : MemOp) (s : State) : Result := finish s (loadPointer s .es r a)

/-- PUSHF: the undefined bits are drawn (R262). -/
def execPushf (s : State) : Result :=
  finish s do
    let s' ← push s s.flagsWord
    pure (s'.drawn 1)

/-- POPF (R263). -/
def execPopf (s : State) : Result :=
  finish s do
    let v ← popWord s
    pure ((s.setFlags (s.poppedFlags v)).setSp (s.regs.sp + 2))

/-- LAHF: AH bits 5, 3 and 1 are drawn (R264). -/
def execLahf (s : State) : Result := finish s (.ok ((s.setB .r4 (loByte s.flagsWord)).drawn 1))

/-- SAHF (R265). -/
def execSahf (s : State) : Result := finish s (.ok (s.setFlags (s.flags.setLow s.ah)))

end Sys2Proof.Machine
end

