-- ==== Sys2Proof/Machine/FarTransfer.lean ====
section
/-! DEFINITION. Far JMP, CALL, RET and IRET (44_control_transfer.md R375, R377, R386, R409; 45_protected_transfer.md R420 to
R442). The returns themselves are shared operations of Ops.lean. -/

namespace Sys2Proof.Machine

/-- A code segment as the direct target of JMP or CALL (45 R423, R424). -/
def directCode (s : State) (sel : Word) (d : Desc) : M Unit := do
  need (if arC d.ar then decide (arDpl d.ar ≤ s.cpl) else decide (rpl sel ≤ s.cpl) && decide (arDpl d.ar = s.cpl))
    (protection (selCode sel false))
  need (arP d.ar) (notPresent (selCode sel false))

/-- A gate or TSS named by JMP or CALL is visible and present (45 R425). -/
def gateVisible (s : State) (sel : Word) (d : Desc) : M Unit := do
  need (decide (s.cpl ≤ arDpl d.ar) && decide (rpl sel ≤ arDpl d.ar)) (protection (selCode sel false))
  need (arP d.ar) (notPresent (selCode sel false))

/-- The code segment a call gate names; `same` when it must lie at CPL (45 R430, R431). -/
def gateCode (s : State) (g : Desc) (same : Bool) : M (Phys × Desc) := do
  need (!selNull g.selector) (protection 0)
  let c ← needDescriptor (s.later .target) g.selector (protection (selCode g.selector false))
  need (arCode c.2.ar) (protection (selCode g.selector false))
  need (if same && !arC c.2.ar then decide (arDpl c.2.ar = s.cpl) else decide (arDpl c.2.ar ≤ s.cpl))
    (protection (selCode g.selector false))
  need (arP c.2.ar) (notPresent (selCode g.selector false))
  pure c

/-- The task switch a task gate asks for (45 R430). A null selector names no descriptor (20_memory.md R131, log 50). -/
def throughTaskGate (s : State) (g : Desc) (mode : SwitchMode) : M State := do
  need (!selNull g.selector && !selLocal g.selector) (protection (selCode g.selector false))
  let t ← needDescriptor (s.later .target) g.selector (protection (selCode g.selector false))
  need (t.2.isType 1) (protection (selCode g.selector false))
  need (arP t.2.ar) (notPresent (selCode g.selector false))
  let s1 ← switchTasks s g.selector t.1 t.2 mode s.ip false
  inTask s1 (checkIp s1)

/-- JMP far in protected mode (45 R430). -/
def jmpFarProt (s : State) (sel off : Word) : M State := do
  need (!selNull sel) (protection 0)
  let d ← needDescriptor (s.later .descriptor) sel (protection (selCode sel false))
  if arCode d.2.ar then
    directCode s sel d.2
    need (decide (off.toNat ≤ d.2.limit.toNat)) (protection 0)
    pure (loadCs s sel d s.cpl off)
  else if d.2.isType 4 then
    gateVisible s sel d.2
    let c ← gateCode s d.2 true
    need (decide (d.2.offset.toNat ≤ c.2.limit.toNat)) (protection 0)
    pure (loadCs s d.2.selector c s.cpl d.2.offset)
  else if d.2.isType 5 then
    gateVisible s sel d.2
    throughTaskGate s d.2 .jmp
  else if d.2.isType 1 && !selLocal sel then
    gateVisible s sel d.2
    let s1 ← switchTasks s sel d.1 d.2 .jmp s.ip false
    inTask s1 (checkIp s1)
  else .error (protection (selCode sel false))

/-- JMP far in either mode. -/
def jmpFar (s : State) (sel off : Word) : M State :=
  if s.msw.pe then jmpFarProt s sel off else .ok (farReal s sel off)

/-- JMP cd (44 R375). -/
def execJmpFar (o c : Word) (s : State) : Result := finish s (jmpFar s c o)

/-- JMP md (44 R375). -/
def execJmpFarMem (a : MemOp) (s : State) : Result :=
  finish s do
    let p ← readPair s a
    jmpFar s p.2 p.1

/-- The return address of a far CALL: CS, then the offset of the next instruction (44 R377, 45 R431). -/
def pushReturn (s : State) : State := pushRaw (pushRaw s s.cs.sel) s.ip

/-- A far CALL that stays at its level: stack space, then the target's limit, then the pushes (45 R431). -/
def callSame (s : State) (sel : Word) (c : Phys × Desc) (off : Word) : M State := do
  checkPush s 2
  need (decide (off.toNat ≤ c.2.limit.toNat)) (protection 0)
  pure (loadCs (pushReturn s) sel c s.cpl off)

/-- The parameters a call gate copies: `n` words from the old stack (45 R432). Each is read at its own offset modulo 65536 and
checked there, so that on an old stack of 64K bytes they may wrap from FFFEH to 0000H; R432 does not say whether such words wrap
or are #SS(0) (DESIGN CHOICE, log 46). -/
def readParams (s : State) : Nat → M (List Word)
  | 0 => .ok []
  | n + 1 => do
    let ps ← readParams s n
    let v ← memRead (s.later .parameters) .word .ss (s.regs.sp + BitVec.ofNat 16 (2 * n))
    pure (v :: ps)

/-- CALL through a gate to a more privileged level (45 R432). -/
def callInner (s : State) (g : Desc) (c : Phys × Desc) : M State := do
  let (nss, nsp, sd) ← innerStack s (arDpl c.2.ar) false
  need (roomBelow (sd.2.cache nss) nsp (4 + g.wordCount)) (stackFault 0)
  let ps ← readParams s g.wordCount
  need (decide (g.offset.toNat ≤ c.2.limit.toNat)) (protection 0)
  let s1 := (loadCache s .ss nss sd).setSp nsp
  let s2 := loadCs s1 g.selector c (arDpl c.2.ar) g.offset
  let s3 := ps.foldl pushRaw (pushRaw (pushRaw s2 s.ss.sel) s.regs.sp)
  pure (pushRaw (pushRaw s3 s.cs.sel) s.ip).flush

/-- CALL far in protected mode (45 R431). -/
def callFarProt (s : State) (sel off : Word) : M State := do
  need (!selNull sel) (protection 0)
  let d ← needDescriptor (s.later .descriptor) sel (protection (selCode sel false))
  if arCode d.2.ar then
    directCode s sel d.2
    callSame s sel d off
  else if d.2.isType 4 then
    gateVisible s sel d.2
    let c ← gateCode s d.2 false
    if !arC c.2.ar && decide (arDpl c.2.ar < s.cpl) then callInner s d.2 c
    else callSame s d.2.selector c d.2.offset
  else if d.2.isType 5 then
    gateVisible s sel d.2
    throughTaskGate s d.2 .nest
  else if d.2.isType 1 && !selLocal sel then
    gateVisible s sel d.2
    let s1 ← switchTasks s sel d.1 d.2 .nest s.ip false
    inTask s1 (checkIp s1)
  else .error (protection (selCode sel false))

/-- CALL far in either mode (44 R377). -/
def callFarTo (s : State) (sel off : Word) : M State :=
  if s.msw.pe then callFarProt s sel off
  else do
    checkPush s 2
    pure (farReal (pushReturn s) sel off)

/-- CALL cd (44 R377). -/
def execCallFar (o c : Word) (s : State) : Result := finish s (callFarTo s c o)

/-- CALL md (44 R377). -/
def execCallFarMem (a : MemOp) (s : State) : Result :=
  finish s do
    let p ← readPair s a
    callFarTo s p.2 p.1

/-- RET far in either mode (44 R386). -/
def retFarTo (s : State) (imm : Word) : M State :=
  if s.msw.pe then farReturn s false imm else farReturnReal s imm

/-- RET far (44 R386, 45 R433). -/
def execRetFar (s : State) : Result := finish s (retFarTo s 0)

/-- RET far dw (44 R386, 45 R433). -/
def execRetFarImm (v : Word) (s : State) : Result := finish s (retFarTo s v)

/-- IRET (44 R409, 45 R434, R442). -/
def execIret (s : State) : Result := finish s (returnFromInterrupt s)

end Sys2Proof.Machine
end

