-- ==== Sys2Proof/Machine/Logic.lean ====
section
/-! DEFINITION. The logic instructions AND, OR, XOR, TEST, NOT (42_logic.md R320 to R325). -/

namespace Sys2Proof.Machine

/-- AND eb,rb / ew,rw (R321). -/
def execAndRmReg (w : Width) (m : RM) (r : RegNum) (s : State) : Result := finish s (aluToRm aluAnd s w m (s.getReg w r))

/-- AND rb,eb / rw,ew (R321). -/
def execAndRegRm (w : Width) (r : RegNum) (m : RM) (s : State) : Result := finish s (aluToReg aluAnd s w r m)

/-- AND AL,db / AX,dw (R321). -/
def execAndAccImm (v : Imm) (s : State) : Result := finish s (.ok (aluToAcc aluAnd s v))

/-- AND eb,db / ew,dw (R321). -/
def execAndRmImm (m : RM) (v : Imm) (s : State) : Result := finish s (aluToRm aluAnd s v.width m v.val)

/-- OR eb,rb / ew,rw (R322). -/
def execOrRmReg (w : Width) (m : RM) (r : RegNum) (s : State) : Result := finish s (aluToRm aluOr s w m (s.getReg w r))

/-- OR rb,eb / rw,ew (R322). -/
def execOrRegRm (w : Width) (r : RegNum) (m : RM) (s : State) : Result := finish s (aluToReg aluOr s w r m)

/-- OR AL,db / AX,dw (R322). -/
def execOrAccImm (v : Imm) (s : State) : Result := finish s (.ok (aluToAcc aluOr s v))

/-- OR eb,db / ew,dw (R322). -/
def execOrRmImm (m : RM) (v : Imm) (s : State) : Result := finish s (aluToRm aluOr s v.width m v.val)

/-- XOR eb,rb / ew,rw (R323). -/
def execXorRmReg (w : Width) (m : RM) (r : RegNum) (s : State) : Result := finish s (aluToRm aluXor s w m (s.getReg w r))

/-- XOR rb,eb / rw,ew (R323). -/
def execXorRegRm (w : Width) (r : RegNum) (m : RM) (s : State) : Result := finish s (aluToReg aluXor s w r m)

/-- XOR AL,db / AX,dw (R323). -/
def execXorAccImm (v : Imm) (s : State) : Result := finish s (.ok (aluToAcc aluXor s v))

/-- XOR eb,db / ew,dw (R323). -/
def execXorRmImm (m : RM) (v : Imm) (s : State) : Result := finish s (aluToRm aluXor s v.width m v.val)

/-- TEST eb,rb / ew,rw (R324). -/
def execTestRmReg (w : Width) (m : RM) (r : RegNum) (s : State) : Result := finish s (aluTest aluAnd s w m (s.getReg w r))

/-- TEST AL,db / AX,dw (R324). -/
def execTestAccImm (v : Imm) (s : State) : Result := finish s (.ok (aluAnd v.width s (s.acc v.width) v.val).2)

/-- TEST eb,db / ew,dw (R324). -/
def execTestRmImm (m : RM) (v : Imm) (s : State) : Result := finish s (aluTest aluAnd s v.width m v.val)

/-- NOT (R325). -/
def execNotRm (w : Width) (m : RM) (s : State) : Result := finish s (modifyRm s w m (unNot w))

end Sys2Proof.Machine
end

