-- ==== Sys2Proof/Machine/Processor.lean ====
section
/-! DEFINITION. Processor control: the flag instructions, NOP, HLT, CLTS, the prefixes, WAIT and ESC
(46_processor_control.md), and the operand transfers of the processor extension (20_memory.md R170). -/

namespace Sys2Proof.Machine

/-- CLC (R470). -/
def execClc (s : State) : Result := .next (s.setFlags { s.flags with cf := false })

/-- CMC (R471). -/
def execCmc (s : State) : Result := .next (s.setFlags { s.flags with cf := !s.flags.cf })

/-- STC (R472). -/
def execStc (s : State) : Result := .next (s.setFlags { s.flags with cf := true })

/-- CLD (R473). -/
def execCld (s : State) : Result := .next (s.setFlags { s.flags with df := false })

/-- STD (R474). -/
def execStd (s : State) : Result := .next (s.setFlags { s.flags with df := true })

/-- CLI (R475). -/
def execCli (s : State) : Result :=
  finish s do
    needIopl s
    pure (s.setFlags { s.flags with ief := false })

/-- STI: external interrupts wait for one more instruction (R479). -/
def execSti (s : State) : Result :=
  finish s do
    needIopl s
    pure { s.setFlags { s.flags with ief := true } with inhibitExt := true }

/-- NOP (R476). -/
def execNop (s : State) : Result := .next s

/-- CLTS (R477). -/
def execClts (s : State) : Result :=
  finish s do
    needCpl0 s
    pure { s with msw := { s.msw with ts := false } }

/-- HLT (R478). -/
def execHlt (s : State) : Result :=
  finish s do
    needCpl0 s
    pure { s with halted := true }

/-- A prefix is noted for the instruction that follows (30_encoding.md R190). -/
def note (s : State) (c : Cur) : State := { s with cur := { c with noted := s.cur.noted + 1 } }

/-- A segment override prefix; of two the last wins (R484, 92 D15). -/
def execSegPfx (g : SReg) (s : State) : Result := .next (note s { s.cur with seg := some g })

/-- The LOCK prefix: CPL <= IOPL in protected mode, whatever instruction follows (R480). -/
def execLockPfx (s : State) : Result :=
  finish s do
    needIopl s
    pure (note s { s.cur with lock := true })

/-- REPNE, REPNZ (43_string.md R360). -/
def execRepnePfx (s : State) : Result := .next (note s { s.cur with rep := some .repne })

/-- REP, REPE, REPZ (43_string.md R360). -/
def execRepPfx (s : State) : Result := .next (note s { s.cur with rep := some .repe })

/-- The instruction waits for BUSY: IP stays at its first byte and the next step looks again (R481, log 15). -/
def waitHere (s : State) : State := { s.setIp s.cur.ip with waiting := true }

/-- WAIT (R481). -/
def execWait (s : State) : Result :=
  finish s do
    need (!(s.msw.mp && s.msw.ts)) extensionNotAvailable
    if s.pins.busy then pure (waitHere s)
    else do
      need (!s.pins.error) extensionError
      pure s

/-- The check of the first word of an ESC operand, protected mode only (R483). -/
def escCheck (s : State) (op : BitVec 6) : Place → M Unit
  | .reg _ => .ok ()
  | .mem x off =>
    if s.msw.pe then memCheck s x off.toNat 2 (if Config.escWrites op then .write else .read) else .ok ()

/-- The ports of the processor extension (20_memory.md R95). -/
def extPort : Fin 3 → Word
  | 0 => 0x00F8
  | 1 => 0x00FA
  | 2 => 0x00FC

/-- The I/O bus operations by which an ESC opcode is handed to the extension, whatever IOPL and CPL are (20_memory.md R95;
which, log 12). -/
def escTransfers (s : State) (op : BitVec 6) : List IoEvent :=
  let l := Config.escBus op s.io.length
  (l.1 :: l.2).map fun e => { output := e.1, port := extPort e.2.1, width := .word, value := e.2.2 }

/-- The operand that an ESC with a memory operand gives the extension: its segment:offset and direction (R483). -/
def escOperand (s : State) (op : BitVec 6) : Place → Option ExtOperand
  | .reg _ => s.ext
  | .mem x off =>
    some { seg := s.seg x, pe := s.msw.pe, off := off.toNat, write := Config.escWrites op }

/-- The instruction is handed to the extension: its bus operations join the I/O record, and from now on PEREQ is answered for
its memory operand; a register form leaves an earlier operand open (R483, 20_memory.md R170, log 12). -/
def escIssue (s : State) (op : BitVec 6) (p : Place) : State :=
  { s with io := (escTransfers s op).reverse ++ s.io, ext := escOperand s op p }

/-- ESC (R483). -/
def execEsc (t l : BitVec 3) (m : RM) (s : State) : Result :=
  finish s do
    let op : BitVec 6 := t ++ l
    need (!(s.msw.em || s.msw.ts)) extensionNotAvailable
    escCheck s op (place s m)
    if s.pins.busy && Config.escWaits op then pure (waitHere s)
    else do
      need (!(s.pins.error && Config.escTestsError op)) extensionError
      pure (escIssue s op (place s m))

/-! ### Operand transfers of the processor extension -/

/-- The operand transfer that the extension asks for: PEREQ is active and an ESC has named an operand (20_memory.md R170). -/
def transferDue (s : State) : Option ExtOperand := if s.pins.pereq then s.ext else none

/-- The next word of the operand lies inside its segment: the limit in protected mode, offset FFFFH in real mode (R170,
60_exceptions.md R540). -/
def ExtOperand.fits (o : ExtOperand) : Bool :=
  if o.pe then limitOk o.seg o.off 2 else decide (o.off + 2 ≤ 0x10000)

/-- The physical address of a byte of the operand's next word. -/
def ExtOperand.addr (o : ExtOperand) (k : Nat) : Phys := physAddr o.pe o.seg (BitVec.ofNat 16 (o.off + k))

/-- A word from the extension goes to memory: an input from port 00FAH, then the store (R170). -/
def transferIn (s : State) (o : ExtOperand) : State :=
  let v := Config.ioIn s.io.length 0x00FA
  let t := (s.store8 (o.addr 0) (loByte v)).store8 (o.addr 1) (hiByte v)
  { t with io := { output := false, port := 0x00FA, width := .word, value := v } :: s.io }

/-- A word of memory goes to the extension: an output to port 00FAH (R170). -/
def transferOut (s : State) (o : ExtOperand) : State :=
  let v := wordOf (s.load8 (o.addr 0)) (s.load8 (o.addr 1))
  { s with io := { output := true, port := 0x00FA, width := .word, value := v } :: s.io }

/-- One operand transfer. One that would pass the end of the segment makes the segment overrun, event 9, pending instead, and
no further one is served (R170, 60_exceptions.md R540). -/
def extTransfer (s : State) (o : ExtOperand) : State :=
  if o.fits then
    { (if o.write then transferIn s o else transferOut s o) with ext := some { o with off := o.off + 2 } }
  else { s with mpPending := true, ext := none }

end Sys2Proof.Machine
end

