-- ==== Sys2Proof/Machine/Protection.lean ====
section
/-! DEFINITION. The protection control instructions (47_protection_control.md): the table registers, the machine status word,
the pointer testing instructions, ARPL. -/

namespace Sys2Proof.Machine

/-- The six bytes LGDT and LIDT load: limit, 24 bits of base, an ignored byte (R501). -/
def loadTable (s : State) (a : MemOp) : M TableReg := do
  needCpl0 s
  let lim ← memReadNth s (opSeg s a) (ea s a) 0
  let b0 ← memReadNth s (opSeg s a) (ea s a) 1
  let b1 ← memReadNth s (opSeg s a) (ea s a) 2
  pure { base := loByte b1 ++ b0, limit := lim }

/-- LGDT (R501). -/
def execLgdt (a : MemOp) (s : State) : Result :=
  finish s do
    let t ← loadTable s a
    pure { s with gdtr := t }

/-- LIDT (R502). -/
def execLidt (a : MemOp) (s : State) : Result :=
  finish s do
    let t ← loadTable s a
    pure { s with idtr := t }

/-- SGDT and SIDT: all six bytes are checked first; the last byte stored is free (R503). -/
def storeTable (s : State) (a : MemOp) (t : TableReg) : M State := do
  let x := opSeg s a
  let o := ea s a
  memCheck s x o.toNat 2 .write
  memCheck s x (o.toNat + 2) 2 .write
  memCheck s x (o.toNat + 4) 2 .write
  let s1 := poke16 s x o t.limit
  let s2 := poke16 s1 x (o + 2) (t.base.extractLsb' 0 16)
  let s3 := poke16 s2 x (o + 4) (wordOf (t.base.extractLsb' 16 8) (loByte (s.freeWord 0)))
  pure (s3.drawn 1)

/-- SGDT (R503). -/
def execSgdt (a : MemOp) (s : State) : Result := finish s (storeTable s a s.gdtr)

/-- SIDT (R504). -/
def execSidt (a : MemOp) (s : State) : Result := finish s (storeTable s a s.idtr)

/-- LLDT (R505). -/
def execLldt (m : RM) (s : State) : Result :=
  finish s do
    needProtected s
    needCpl0 s
    let sel ← readRm s .word m
    if selNull sel then pure { s with ldtr := { s.ldtr with sel := sel, valid := false } }
    else do
      need (!selLocal sel) (protection (selCode sel false))
      let d ← needDescriptor (s.later .descriptor) sel (protection (selCode sel false))
      need (d.2.isType 2) (protection (selCode sel false))
      need (arP d.2.ar) (notPresent (selCode sel false))
      pure { s with ldtr := { sel := sel, base := d.2.base, limit := d.2.limit, valid := true } }

/-- SLDT (R506). -/
def execSldt (m : RM) (s : State) : Result :=
  finish s do
    needProtected s
    writePlace s .word (place s m) s.ldtr.sel

/-- LTR: the TSS is marked busy, no task switch happens (R508). -/
def execLtr (m : RM) (s : State) : Result :=
  finish s do
    needProtected s
    needCpl0 s
    let sel ← readRm s .word m
    need (!selNull sel && !selLocal sel) (protection (selCode sel false))
    let d ← needDescriptor (s.later .descriptor) sel (protection (selCode sel false))
    need (d.2.isType 1) (protection (selCode sel false))
    need (arP d.2.ar) (notPresent (selCode sel false))
    pure { markBusy s d.1 d.2 with tr := { sel := sel, base := d.2.base, limit := d.2.limit } }

/-- STR (R509). -/
def execStr (m : RM) (s : State) : Result :=
  finish s do
    needProtected s
    writePlace s .word (place s m) s.tr.sel

/-- The 16 bits of MSW: bits 15 to 4 read FFFH until the first LMSW and are free after it (10_state.md R36, 92 D10). -/
def mswWord (s : State) : Word :=
  (if s.msw.hiKnown then 0xFFF else (s.freeWord 0).extractLsb' 4 12 : BitVec 12) ++ BitVec.ofBool s.msw.ts ++
    BitVec.ofBool s.msw.em ++ BitVec.ofBool s.msw.mp ++ BitVec.ofBool s.msw.pe

/-- LMSW: PE can be set, not cleared (R510). -/
def execLmsw (m : RM) (s : State) : Result :=
  finish s do
    needCpl0 s
    let v ← readRm s .word m
    pure { s with msw := { pe := s.msw.pe || v.getLsbD 0, mp := v.getLsbD 1, em := v.getLsbD 2, ts := v.getLsbD 3,
                           hiKnown := false } }

/-- SMSW (R511). -/
def execSmsw (m : RM) (s : State) : Result :=
  finish s do
    let s' ← writePlace s .word (place s m) (mswWord s)
    pure (s'.drawn 1)

/-- Only ZF changes (R514). -/
def setZf (s : State) (z : Bool) : State := s.setFlags { s.flags with zf := z }

/-- What TEST_SETS_ACCESSED leaves open: the accessed bit of a tested segment descriptor may be written (20_memory.md R129, 92
D13). A null selector is not looked up, so that entry 0 of the GDT stays (20_memory.md R131). -/
def testedState (s : State) (sel : Word) : State :=
  if selNull sel then s
  else match fetchDescriptor (s.later .descriptor) sel with
  | some d => if arS d.2.ar && !arA d.2.ar && Config.testSetsAccessed then setAccessed s d.1 d.2 else s
  | none => s

/-- DPL >= CPL and DPL >= RPL. -/
def visible (s : State) (ar : Byte) (sel : Word) : Bool := decide (s.cpl ≤ arDpl ar) && decide (rpl sel ≤ arDpl ar)

/-- The three cases in which the page of LAR is uncertain: conforming code that fails the privilege test, a null selector,
the undefined system types (R515, 93 U24). -/
def larUncertain (s : State) (ar : Byte) (sel : Word) : Bool :=
  (arCode ar && arC ar && !visible s ar sel) || selNull sel ||
    (!arS ar && (decide (arType ar = 0) || decide (8 ≤ arType ar)))

/-- LAR's result, if it loads: the page's rule, or a free choice in the uncertain cases (R515, log 24). -/
def larResult (s : State) (sel : Word) : Option Word :=
  match fetchDescriptor (s.later .descriptor) sel with
  | none => none
  | some d =>
    if (if larUncertain s d.2.ar sel then s.freeBit 0 else visible s d.2.ar sel) then some (wordOf 0 d.2.ar) else none

/-- LSL's result, if it loads (R516). -/
def lslResult (s : State) (sel : Word) : Option Word :=
  if selNull sel then none
  else
    match fetchDescriptor (s.later .descriptor) sel with
    | none => none
    | some d =>
      if (arS d.2.ar || d.2.isType 1 || d.2.isType 2 || d.2.isType 3) &&
          ((arCode d.2.ar && arC d.2.ar) || visible s d.2.ar sel) then some d.2.limit
      else none

/-- The end of LAR and LSL: the register is loaded and ZF set, or ZF cleared and the register unchanged (R514). -/
def selectorResult (s : State) (r : RegNum) (v : Option Word) : State :=
  match v with
  | some v => setZf (s.setW r v) true
  | none => setZf s false

/-- LAR (R515). -/
def execLar (r : RegNum) (m : RM) (s : State) : Result :=
  finish s do
    needProtected s
    let sel ← readRm s .word m
    pure ((selectorResult (testedState s sel) r (larResult s sel)).drawn 1)

/-- LSL (R516). -/
def execLsl (r : RegNum) (m : RM) (s : State) : Result :=
  finish s do
    needProtected s
    let sel ← readRm s .word m
    pure (selectorResult (testedState s sel) r (lslResult s sel))

/-- VERR's answer (R517). -/
def verifyRead (s : State) (sel : Word) : Bool :=
  match fetchDescriptor (s.later .descriptor) sel with
  | some d => !selNull sel && arReadable d.2.ar && dataPrivOk s d.2.ar sel
  | none => false

/-- VERW's answer (R518). -/
def verifyWrite (s : State) (sel : Word) : Bool :=
  match fetchDescriptor (s.later .descriptor) sel with
  | some d => !selNull sel && arWritable d.2.ar && visible s d.2.ar sel
  | none => false

/-- VERR (R517). -/
def execVerr (m : RM) (s : State) : Result :=
  finish s do
    needProtected s
    let sel ← readRm s .word m
    pure (setZf (testedState s sel) (verifyRead s sel))

/-- VERW (R518). -/
def execVerw (m : RM) (s : State) : Result :=
  finish s do
    needProtected s
    let sel ← readRm s .word m
    pure (setZf (testedState s sel) (verifyWrite s sel))

/-- ARPL: the destination must be writable even if it does not change (R519). -/
def execArpl (m : RM) (r : RegNum) (s : State) : Result :=
  finish s do
    needProtected s
    checkWrite s .word (place s m)
    let a ← readRm s .word m
    let b := s.getW r
    pure (if rpl a < rpl b then setZf (putPlace s .word (place s m) ((a &&& 0xFFFC) ||| (b &&& 3))) true
          else setZf s false)

end Sys2Proof.Machine
end

