-- ==== Sys2Proof/Machine/Shift.lean ====
section
/-! DEFINITION. The shifts and rotates in their six forms each (42_logic.md R330 to R337). -/

namespace Sys2Proof.Machine

/-- ROL eb,db / ew,db (R331). -/
def execRolImm (w : Width) (m : RM) (v : Byte) (s : State) : Result :=
  finish s (modifyRm s w m (shiftOp .rol false (shiftCount v) w))

/-- ROL eb,1 / ew,1 (R331). -/
def execRolOne (w : Width) (m : RM) (s : State) : Result := finish s (modifyRm s w m (shiftOp .rol true 1 w))

/-- ROL eb,CL / ew,CL (R331). -/
def execRolCl (w : Width) (m : RM) (s : State) : Result :=
  finish s (modifyRm s w m (shiftOp .rol false (shiftCount s.cl) w))

/-- ROR eb,db / ew,db (R332). -/
def execRorImm (w : Width) (m : RM) (v : Byte) (s : State) : Result :=
  finish s (modifyRm s w m (shiftOp .ror false (shiftCount v) w))

/-- ROR eb,1 / ew,1 (R332). -/
def execRorOne (w : Width) (m : RM) (s : State) : Result := finish s (modifyRm s w m (shiftOp .ror true 1 w))

/-- ROR eb,CL / ew,CL (R332). -/
def execRorCl (w : Width) (m : RM) (s : State) : Result :=
  finish s (modifyRm s w m (shiftOp .ror false (shiftCount s.cl) w))

/-- RCL eb,db / ew,db (R333). -/
def execRclImm (w : Width) (m : RM) (v : Byte) (s : State) : Result :=
  finish s (modifyRm s w m (shiftOp .rcl false (shiftCount v) w))

/-- RCL eb,1 / ew,1 (R333). -/
def execRclOne (w : Width) (m : RM) (s : State) : Result := finish s (modifyRm s w m (shiftOp .rcl true 1 w))

/-- RCL eb,CL / ew,CL (R333). -/
def execRclCl (w : Width) (m : RM) (s : State) : Result :=
  finish s (modifyRm s w m (shiftOp .rcl false (shiftCount s.cl) w))

/-- RCR eb,db / ew,db (R334). -/
def execRcrImm (w : Width) (m : RM) (v : Byte) (s : State) : Result :=
  finish s (modifyRm s w m (shiftOp .rcr false (shiftCount v) w))

/-- RCR eb,1 / ew,1 (R334). -/
def execRcrOne (w : Width) (m : RM) (s : State) : Result := finish s (modifyRm s w m (shiftOp .rcr true 1 w))

/-- RCR eb,CL / ew,CL (R334). -/
def execRcrCl (w : Width) (m : RM) (s : State) : Result :=
  finish s (modifyRm s w m (shiftOp .rcr false (shiftCount s.cl) w))

/-- SHL eb,db / ew,db (R335). -/
def execShlImm (w : Width) (m : RM) (v : Byte) (s : State) : Result :=
  finish s (modifyRm s w m (shiftOp .shl false (shiftCount v) w))

/-- SHL eb,1 / ew,1 (R335). -/
def execShlOne (w : Width) (m : RM) (s : State) : Result := finish s (modifyRm s w m (shiftOp .shl true 1 w))

/-- SHL eb,CL / ew,CL (R335). -/
def execShlCl (w : Width) (m : RM) (s : State) : Result :=
  finish s (modifyRm s w m (shiftOp .shl false (shiftCount s.cl) w))

/-- SHR eb,db / ew,db (R336). -/
def execShrImm (w : Width) (m : RM) (v : Byte) (s : State) : Result :=
  finish s (modifyRm s w m (shiftOp .shr false (shiftCount v) w))

/-- SHR eb,1 / ew,1 (R336). -/
def execShrOne (w : Width) (m : RM) (s : State) : Result := finish s (modifyRm s w m (shiftOp .shr true 1 w))

/-- SHR eb,CL / ew,CL (R336). -/
def execShrCl (w : Width) (m : RM) (s : State) : Result :=
  finish s (modifyRm s w m (shiftOp .shr false (shiftCount s.cl) w))

/-- SAR eb,db / ew,db (R337). -/
def execSarImm (w : Width) (m : RM) (v : Byte) (s : State) : Result :=
  finish s (modifyRm s w m (shiftOp .sar false (shiftCount v) w))

/-- SAR eb,1 / ew,1 (R337). -/
def execSarOne (w : Width) (m : RM) (s : State) : Result := finish s (modifyRm s w m (shiftOp .sar true 1 w))

/-- SAR eb,CL / ew,CL (R337). -/
def execSarCl (w : Width) (m : RM) (s : State) : Result :=
  finish s (modifyRm s w m (shiftOp .sar false (shiftCount s.cl) w))

end Sys2Proof.Machine
end

