-- ==== Sys2Proof/Machine/StringOps.lean ====
section
/-! DEFINITION. The string instructions and their repetition (43_string.md R350 to R362). One execution is one iteration: a
repeated instruction leaves IP at its first prefix until an exit condition holds (R361). -/

namespace Sys2Proof.Machine

/-- How far an index register moves: by the width, down when DF is set (R350). -/
def delta (s : State) (w : Width) : Word :=
  if s.flags.df then -(BitVec.ofNat 16 w.bytes) else BitVec.ofNat 16 w.bytes

/-- Advance SI (R350). -/
def stepSi (s : State) (w : Width) : State := s.setW .r6 (s.regs.si + delta s w)

/-- Advance DI (R350). -/
def stepDi (s : State) (w : Width) : State := s.setW .r7 (s.regs.di + delta s w)

/-- The segment of the string source: DS unless overridden (R350). -/
def srcSeg (s : State) : SReg := overridden s .ds

/-- The repeat condition of CMPS and SCAS fails (R360 step 5). -/
def repeatEnds (k : RepKind) (zf : Bool) : Bool :=
  match k with
  | .repe => !zf
  | .repne => zf

/-- One iteration of a string instruction under its prefix, or the instruction without one (R360). `compares` for CMPS and
SCAS. -/
def stringRun (s : State) (compares : Bool) (prim : M State) : M State :=
  match s.cur.rep with
  | none => prim
  | some k =>
    if s.regs.cx = 0 then .ok s
    else do
      let s1 ← prim
      let s2 := s1.setW .r1 (s.regs.cx - 1)
      pure (if s.regs.cx = 1 || (compares && repeatEnds k s1.flags.zf) then s2 else s2.setIp s.cur.ip)

/-- MOVS (R351). -/
def execMovs (w : Width) (s : State) : Result :=
  finish s (stringRun s false do
    let v ← memRead s w (srcSeg s) s.regs.si
    let s' ← memWrite s w .es s.regs.di v
    pure (stepDi (stepSi s' w) w))

/-- CMPS: [SI] minus ES:[DI] (R352). Between the two reads another master may have had the bus, LOCK or not: before CMPS the
prefix gives no atomicity (20_memory.md R160, 46_processor_control.md R480, 93 U31). -/
def execCmps (w : Width) (s : State) : Result :=
  finish s (stringRun s true do
    let a ← memRead s w (srcSeg s) s.regs.si
    let b ← memRead (s.later .second) w .es s.regs.di
    pure (stepDi (stepSi (aluSub w s a b).2 w) w))

/-- SCAS: accumulator minus ES:[DI] (R353). -/
def execScas (w : Width) (s : State) : Result :=
  finish s (stringRun s true do
    let b ← memRead s w .es s.regs.di
    pure (stepDi (aluSub w s (s.acc w) b).2 w))

/-- LODS (R354). -/
def execLods (w : Width) (s : State) : Result :=
  finish s (stringRun s false do
    let v ← memRead s w (srcSeg s) s.regs.si
    pure (stepSi (s.setAcc w v) w))

/-- STOS (R355). -/
def execStos (w : Width) (s : State) : Result :=
  finish s (stringRun s false do
    let s' ← memWrite s w .es s.regs.di (s.acc w)
    pure (stepDi s' w))

/-- INS: the destination is checked before the port is read (R356, 92 D18). -/
def execIns (w : Width) (s : State) : Result :=
  finish s (stringRun s false do
    needIopl s
    memCheck s .es s.regs.di.toNat w.bytes .write
    let r := ioRead s w s.regs.dx
    pure (stepDi (poke r.2 w .es s.regs.di r.1) w))

/-- OUTS (R357). -/
def execOuts (w : Width) (s : State) : Result :=
  finish s (stringRun s false do
    needIopl s
    let v ← memRead s w (srcSeg s) s.regs.si
    pure (stepSi (ioWrite s w s.regs.dx v) w))

end Sys2Proof.Machine
end

