-- ==== Sys2Proof/Machine/Dispatch.lean ====
section
/-! DEFINITION. One arm per constructor of Instr, each one direct call of the instruction's meaning. -/

namespace Sys2Proof.Machine

/-- The execution of one decoded instruction (or of one prefix byte), its prefixes noted in `s.cur`, `s.ip` already the
offset of the next instruction (10_state.md R28). An exception the instruction raises is taken (60_exceptions.md R560). -/
def exec (i : Instr) (s : State) : Host.Outcome State Fault Refusal :=
  match i with
  | .addRmReg w m r => Sys2Proof.Machine.execAddRmReg w m r s
  | .addRegRm w r m => Sys2Proof.Machine.execAddRegRm w r m s
  | .addAccImm v => Sys2Proof.Machine.execAddAccImm v s
  | .addRmImm m v => Sys2Proof.Machine.execAddRmImm m v s
  | .addRm8Imm82 m v => Sys2Proof.Machine.execAddRm8Imm82 m v s
  | .addRmSext m v => Sys2Proof.Machine.execAddRmSext m v s
  | .orRmReg w m r => Sys2Proof.Machine.execOrRmReg w m r s
  | .orRegRm w r m => Sys2Proof.Machine.execOrRegRm w r m s
  | .orAccImm v => Sys2Proof.Machine.execOrAccImm v s
  | .orRmImm m v => Sys2Proof.Machine.execOrRmImm m v s
  | .adcRmReg w m r => Sys2Proof.Machine.execAdcRmReg w m r s
  | .adcRegRm w r m => Sys2Proof.Machine.execAdcRegRm w r m s
  | .adcAccImm v => Sys2Proof.Machine.execAdcAccImm v s
  | .adcRmImm m v => Sys2Proof.Machine.execAdcRmImm m v s
  | .adcRm8Imm82 m v => Sys2Proof.Machine.execAdcRm8Imm82 m v s
  | .adcRmSext m v => Sys2Proof.Machine.execAdcRmSext m v s
  | .sbbRmReg w m r => Sys2Proof.Machine.execSbbRmReg w m r s
  | .sbbRegRm w r m => Sys2Proof.Machine.execSbbRegRm w r m s
  | .sbbAccImm v => Sys2Proof.Machine.execSbbAccImm v s
  | .sbbRmImm m v => Sys2Proof.Machine.execSbbRmImm m v s
  | .sbbRm8Imm82 m v => Sys2Proof.Machine.execSbbRm8Imm82 m v s
  | .sbbRmSext m v => Sys2Proof.Machine.execSbbRmSext m v s
  | .andRmReg w m r => Sys2Proof.Machine.execAndRmReg w m r s
  | .andRegRm w r m => Sys2Proof.Machine.execAndRegRm w r m s
  | .andAccImm v => Sys2Proof.Machine.execAndAccImm v s
  | .andRmImm m v => Sys2Proof.Machine.execAndRmImm m v s
  | .subRmReg w m r => Sys2Proof.Machine.execSubRmReg w m r s
  | .subRegRm w r m => Sys2Proof.Machine.execSubRegRm w r m s
  | .subAccImm v => Sys2Proof.Machine.execSubAccImm v s
  | .subRmImm m v => Sys2Proof.Machine.execSubRmImm m v s
  | .subRm8Imm82 m v => Sys2Proof.Machine.execSubRm8Imm82 m v s
  | .subRmSext m v => Sys2Proof.Machine.execSubRmSext m v s
  | .xorRmReg w m r => Sys2Proof.Machine.execXorRmReg w m r s
  | .xorRegRm w r m => Sys2Proof.Machine.execXorRegRm w r m s
  | .xorAccImm v => Sys2Proof.Machine.execXorAccImm v s
  | .xorRmImm m v => Sys2Proof.Machine.execXorRmImm m v s
  | .cmpRmReg w m r => Sys2Proof.Machine.execCmpRmReg w m r s
  | .cmpRegRm w r m => Sys2Proof.Machine.execCmpRegRm w r m s
  | .cmpAccImm v => Sys2Proof.Machine.execCmpAccImm v s
  | .cmpRmImm m v => Sys2Proof.Machine.execCmpRmImm m v s
  | .cmpRm8Imm82 m v => Sys2Proof.Machine.execCmpRm8Imm82 m v s
  | .cmpRmSext m v => Sys2Proof.Machine.execCmpRmSext m v s
  | .pushSreg g => Sys2Proof.Machine.execPushSreg g s
  | .popEs => Sys2Proof.Machine.execPopEs s
  | .popSs => Sys2Proof.Machine.execPopSs s
  | .popDs => Sys2Proof.Machine.execPopDs s
  | .segPfx g => Sys2Proof.Machine.execSegPfx g s
  | .lockPfx => Sys2Proof.Machine.execLockPfx s
  | .repnePfx => Sys2Proof.Machine.execRepnePfx s
  | .repPfx => Sys2Proof.Machine.execRepPfx s
  | .daa => Sys2Proof.Machine.execDaa s
  | .das => Sys2Proof.Machine.execDas s
  | .aaa => Sys2Proof.Machine.execAaa s
  | .aas => Sys2Proof.Machine.execAas s
  | .incReg r => Sys2Proof.Machine.execIncReg r s
  | .decReg r => Sys2Proof.Machine.execDecReg r s
  | .pushReg r => Sys2Proof.Machine.execPushReg r s
  | .popReg r => Sys2Proof.Machine.execPopReg r s
  | .pusha => Sys2Proof.Machine.execPusha s
  | .popa => Sys2Proof.Machine.execPopa s
  | .bound r a => Sys2Proof.Machine.execBound r a s
  | .arpl m r => Sys2Proof.Machine.execArpl m r s
  | .pushImm16 v => Sys2Proof.Machine.execPushImm16 v s
  | .imulRegRmImm16 r m v => Sys2Proof.Machine.execImulRegRmImm16 r m v s
  | .pushImm8 v => Sys2Proof.Machine.execPushImm8 v s
  | .imulRegRmImm8 r m v => Sys2Proof.Machine.execImulRegRmImm8 r m v s
  | .ins w => Sys2Proof.Machine.execIns w s
  | .outs w => Sys2Proof.Machine.execOuts w s
  | .jo d => Sys2Proof.Machine.execJo d s
  | .jno d => Sys2Proof.Machine.execJno d s
  | .jb d => Sys2Proof.Machine.execJb d s
  | .jnb d => Sys2Proof.Machine.execJnb d s
  | .je d => Sys2Proof.Machine.execJe d s
  | .jne d => Sys2Proof.Machine.execJne d s
  | .jbe d => Sys2Proof.Machine.execJbe d s
  | .jnbe d => Sys2Proof.Machine.execJnbe d s
  | .js d => Sys2Proof.Machine.execJs d s
  | .jns d => Sys2Proof.Machine.execJns d s
  | .jp d => Sys2Proof.Machine.execJp d s
  | .jnp d => Sys2Proof.Machine.execJnp d s
  | .jl d => Sys2Proof.Machine.execJl d s
  | .jnl d => Sys2Proof.Machine.execJnl d s
  | .jle d => Sys2Proof.Machine.execJle d s
  | .jnle d => Sys2Proof.Machine.execJnle d s
  | .testRmReg w m r => Sys2Proof.Machine.execTestRmReg w m r s
  | .xchgRmReg w m r => Sys2Proof.Machine.execXchgRmReg w m r s
  | .movRmReg w m r => Sys2Proof.Machine.execMovRmReg w m r s
  | .movRegRm w r m => Sys2Proof.Machine.execMovRegRm w r m s
  | .movRmSreg m g => Sys2Proof.Machine.execMovRmSreg m g s
  | .lea r a => Sys2Proof.Machine.execLea r a s
  | .movSregRm g m => Sys2Proof.Machine.execMovSregRm g m s
  | .popRm m => Sys2Proof.Machine.execPopRm m s
  | .nop => Sys2Proof.Machine.execNop s
  | .xchgAxReg r => Sys2Proof.Machine.execXchgAxReg r s
  | .cbw => Sys2Proof.Machine.execCbw s
  | .cwd => Sys2Proof.Machine.execCwd s
  | .callFar o c => Sys2Proof.Machine.execCallFar o c s
  | .wait => Sys2Proof.Machine.execWait s
  | .pushf => Sys2Proof.Machine.execPushf s
  | .popf => Sys2Proof.Machine.execPopf s
  | .sahf => Sys2Proof.Machine.execSahf s
  | .lahf => Sys2Proof.Machine.execLahf s
  | .movAccMoffs w o => Sys2Proof.Machine.execMovAccMoffs w o s
  | .movMoffsAcc w o => Sys2Proof.Machine.execMovMoffsAcc w o s
  | .movs w => Sys2Proof.Machine.execMovs w s
  | .cmps w => Sys2Proof.Machine.execCmps w s
  | .testAccImm v => Sys2Proof.Machine.execTestAccImm v s
  | .stos w => Sys2Proof.Machine.execStos w s
  | .lods w => Sys2Proof.Machine.execLods w s
  | .scas w => Sys2Proof.Machine.execScas w s
  | .movRegImm r v => Sys2Proof.Machine.execMovRegImm r v s
  | .rolImm w m v => Sys2Proof.Machine.execRolImm w m v s
  | .rolOne w m => Sys2Proof.Machine.execRolOne w m s
  | .rolCl w m => Sys2Proof.Machine.execRolCl w m s
  | .rorImm w m v => Sys2Proof.Machine.execRorImm w m v s
  | .rorOne w m => Sys2Proof.Machine.execRorOne w m s
  | .rorCl w m => Sys2Proof.Machine.execRorCl w m s
  | .rclImm w m v => Sys2Proof.Machine.execRclImm w m v s
  | .rclOne w m => Sys2Proof.Machine.execRclOne w m s
  | .rclCl w m => Sys2Proof.Machine.execRclCl w m s
  | .rcrImm w m v => Sys2Proof.Machine.execRcrImm w m v s
  | .rcrOne w m => Sys2Proof.Machine.execRcrOne w m s
  | .rcrCl w m => Sys2Proof.Machine.execRcrCl w m s
  | .shlImm w m v => Sys2Proof.Machine.execShlImm w m v s
  | .shlOne w m => Sys2Proof.Machine.execShlOne w m s
  | .shlCl w m => Sys2Proof.Machine.execShlCl w m s
  | .shrImm w m v => Sys2Proof.Machine.execShrImm w m v s
  | .shrOne w m => Sys2Proof.Machine.execShrOne w m s
  | .shrCl w m => Sys2Proof.Machine.execShrCl w m s
  | .sarImm w m v => Sys2Proof.Machine.execSarImm w m v s
  | .sarOne w m => Sys2Proof.Machine.execSarOne w m s
  | .sarCl w m => Sys2Proof.Machine.execSarCl w m s
  | .retImm v => Sys2Proof.Machine.execRetImm v s
  | .ret => Sys2Proof.Machine.execRet s
  | .les r a => Sys2Proof.Machine.execLes r a s
  | .lds r a => Sys2Proof.Machine.execLds r a s
  | .movRmImm m v => Sys2Proof.Machine.execMovRmImm m v s
  | .enter v l => Sys2Proof.Machine.execEnter v l s
  | .leave => Sys2Proof.Machine.execLeave s
  | .retFarImm v => Sys2Proof.Machine.execRetFarImm v s
  | .retFar => Sys2Proof.Machine.execRetFar s
  | .int3 => Sys2Proof.Machine.execInt3 s
  | .intImm v => Sys2Proof.Machine.execIntImm v s
  | .into => Sys2Proof.Machine.execInto s
  | .iret => Sys2Proof.Machine.execIret s
  | .aam => Sys2Proof.Machine.execAam s
  | .aad => Sys2Proof.Machine.execAad s
  | .xlat => Sys2Proof.Machine.execXlat s
  | .esc t l m => Sys2Proof.Machine.execEsc t l m s
  | .loopne d => Sys2Proof.Machine.execLoopne d s
  | .loope d => Sys2Proof.Machine.execLoope d s
  | .loop d => Sys2Proof.Machine.execLoop d s
  | .jcxz d => Sys2Proof.Machine.execJcxz d s
  | .inImm w v => Sys2Proof.Machine.execInImm w v s
  | .outImm w v => Sys2Proof.Machine.execOutImm w v s
  | .callRel d => Sys2Proof.Machine.execCallRel d s
  | .jmpRel16 d => Sys2Proof.Machine.execJmpRel16 d s
  | .jmpFar o c => Sys2Proof.Machine.execJmpFar o c s
  | .jmpRel8 d => Sys2Proof.Machine.execJmpRel8 d s
  | .inDx w => Sys2Proof.Machine.execInDx w s
  | .outDx w => Sys2Proof.Machine.execOutDx w s
  | .hlt => Sys2Proof.Machine.execHlt s
  | .cmc => Sys2Proof.Machine.execCmc s
  | .testRmImm m v => Sys2Proof.Machine.execTestRmImm m v s
  | .notRm w m => Sys2Proof.Machine.execNotRm w m s
  | .negRm w m => Sys2Proof.Machine.execNegRm w m s
  | .mulRm w m => Sys2Proof.Machine.execMulRm w m s
  | .imulRm w m => Sys2Proof.Machine.execImulRm w m s
  | .divRm w m => Sys2Proof.Machine.execDivRm w m s
  | .idivRm w m => Sys2Proof.Machine.execIdivRm w m s
  | .clc => Sys2Proof.Machine.execClc s
  | .stc => Sys2Proof.Machine.execStc s
  | .cli => Sys2Proof.Machine.execCli s
  | .sti => Sys2Proof.Machine.execSti s
  | .cld => Sys2Proof.Machine.execCld s
  | .std => Sys2Proof.Machine.execStd s
  | .incRm w m => Sys2Proof.Machine.execIncRm w m s
  | .decRm w m => Sys2Proof.Machine.execDecRm w m s
  | .callRm m => Sys2Proof.Machine.execCallRm m s
  | .callFarMem a => Sys2Proof.Machine.execCallFarMem a s
  | .jmpRm m => Sys2Proof.Machine.execJmpRm m s
  | .jmpFarMem a => Sys2Proof.Machine.execJmpFarMem a s
  | .pushRm m => Sys2Proof.Machine.execPushRm m s
  | .sldt m => Sys2Proof.Machine.execSldt m s
  | .str m => Sys2Proof.Machine.execStr m s
  | .lldt m => Sys2Proof.Machine.execLldt m s
  | .ltr m => Sys2Proof.Machine.execLtr m s
  | .verr m => Sys2Proof.Machine.execVerr m s
  | .verw m => Sys2Proof.Machine.execVerw m s
  | .sgdt a => Sys2Proof.Machine.execSgdt a s
  | .sidt a => Sys2Proof.Machine.execSidt a s
  | .lgdt a => Sys2Proof.Machine.execLgdt a s
  | .lidt a => Sys2Proof.Machine.execLidt a s
  | .smsw m => Sys2Proof.Machine.execSmsw m s
  | .lmsw m => Sys2Proof.Machine.execLmsw m s
  | .lar r m => Sys2Proof.Machine.execLar r m s
  | .lsl r m => Sys2Proof.Machine.execLsl r m s
  | .clts => Sys2Proof.Machine.execClts s

end Sys2Proof.Machine
end

