-- ==== Sys2Proof/Machine/Boundary.lean ====
section
/-! DEFINITION. What stands between two instructions: the events of an instruction boundary in their order
(60_exceptions.md R544 to R551), halt and shutdown (R584 to R595), RESET (70_reset_and_hazards.md R610), HOLD, and fetching,
beginning and ending an instruction (10_state.md R28, R29; 20_memory.md R165, R166; 30_encoding.md R181). -/

namespace Sys2Proof.Machine

/-! ### Events -/

/-- A step begins. The NMI input is edge triggered: a rise since it was last looked at is remembered (R547). Its reads are new
reads of the bus (log 48). -/
def beginStep (s : State) : State :=
  { s with
    nmiPending := s.nmiPending || (s.pins.nmi && !s.nmiLevel), nmiLevel := s.pins.nmi
    bus := { step := s.bus.step + 1, op := 0, gap := 0 } }

/-- An event from outside the program: no error code, EXT = 1 (R560). -/
def Event.external (vector : Byte) : Event := { vector := vector, code := none, ext := true, isInt := false }

/-- Deliver an event at the boundary: the offset saved is that of the next instruction (R531). -/
def deliverHere (s : State) (vector : Byte) : State := deliver s (.external vector) s.ip s.ip

/-- The boundary has passed an event. -/
def Phase.past : Phase → Phase → Bool
  | .singleStep, _ => false
  | .nmi, .singleStep => true
  | .nmi, _ => false
  | .mp, .singleStep => true
  | .mp, .nmi => true
  | .mp, _ => false
  | .intr, .intr => false
  | .intr, .done => false
  | .intr, _ => true
  | .done, .done => false
  | .done, _ => true

/-- Step 2 of R551: the single-step trap; not while halted (R595). -/
def stepDue (s : State) : Bool := !Phase.past s.phase .singleStep && s.stepTrap && !s.inhibitInt && !s.halted

/-- External events are looked at: neither NMI service nor an inhibited boundary (R546, R547). -/
def externalOpen (s : State) : Bool := !s.nmiInService && !s.inhibitInt && !s.inhibitExt

/-- Step 3 of R551. -/
def nmiDue (s : State) : Bool := !Phase.past s.phase .nmi && s.nmiPending && externalOpen s

/-- Step 4 of R551. -/
def mpDue (s : State) : Bool := !Phase.past s.phase .mp && s.mpPending && externalOpen s

/-- Step 5 of R551. -/
def intrDue (s : State) : Bool := !Phase.past s.phase .intr && s.pins.intr && s.flags.ief && externalOpen s

/-- Take an NMI (R547). -/
def takeNmi (s : State) : State :=
  { deliverHere { s with nmiPending := false, nmiInService := true } 2 with phase := .mp }

/-- The first event of Table 5 that is due from here on, delivered (R551). Each is taken at most once at a boundary. -/
def takeEvent (s : State) : Option State :=
  if stepDue s then some { deliverHere { s with stepTrap := false } 1 with phase := .nmi }
  else if nmiDue s then some (takeNmi s)
  else if mpDue s then some { deliverHere { s with mpPending := false } 9 with phase := .intr }
  else if intrDue s then some { deliverHere s s.pins.vector with phase := .done }
  else none

/-- A halted processor with nothing due: the boundary has been passed, nothing else happens (R595). -/
def haltTick (s : State) : State :=
  { s with inhibitInt := false, inhibitExt := false, stepTrap := false, phase := .singleStep }

/-- An NMI ends a shutdown: always in protected mode, in real mode when the table and the stack allow it (R586). -/
def nmiEndsShutdown (s : State) : Bool :=
  s.nmiPending && !s.nmiInService &&
    (s.msw.pe || (decide (0x0F ≤ s.idtr.limit.toNat) && decide (5 < s.regs.sp.toNat)))

/-- The CS:IP that this NMI saves is free; the low bits of CS, which are CPL in protected mode, stay (R586, 93 U27, log 33). -/
def freeReturn (s : State) : State :=
  { s with
    ip := s.freeWord 0
    cs := { s.cs with sel := (s.freeWord 1 &&& 0xFFFC) ||| (if s.msw.pe then s.cs.sel &&& 3 else s.freeWord 1 &&& 3) }
    draws := s.draws + 2 }

/-- A step in shutdown (R586). -/
def shutdownStep (s : State) : State :=
  if nmiEndsShutdown s then takeNmi (freeReturn { s with shutdown := false }) else s

/-! ### Fetching -/

/-- How many bytes of an instruction at IP lie inside the code segment, at most ten (10_state.md R29, 30_encoding.md
R181). -/
def bytesAtHand (s : State) : Nat := min maxLength (s.cs.limit.toNat + 1 - s.ip.toNat)

/-- A byte as the fetch sees it: the byte in memory or, where a store has fallen into the prefetch queue since the last
transfer, any value it has had since (20_memory.md R166, log 10). -/
def fetchByte (s : State) (a : Phys) : Byte :=
  let old := s.stale.filterMap fun c => if c.1 = a.toNat then some c.2 else none
  match old with
  | [] => s.load8 a
  | _ => (s.load8 a :: old).getD (Config.prefetchPick s.draws a.toNat % (old.length + 1)) (s.load8 a)

/-- The bytes of the instruction at IP (20_memory.md R82). -/
def fetchBytes (s : State) : List Byte :=
  (List.range (bytesAtHand s)).map fun k => fetchByte s (segAddr s .cs (s.ip + BitVec.ofNat 16 k))

/-- What a fetch that yields no instruction does: an exception of the instruction, or a refusal. An instruction that runs
out of its segment raises exception 13, one longer than ten bytes #UD (10_state.md R29, 30_encoding.md R181, R220 to
R224). -/
def fetchFault (s : State) : DecodeError → Stop ⊕ Refusal
  | .truncated => if bytesAtHand s < maxLength then .inl (protection 0) else .inl invalidOpcode
  | .undefinedOpcode => .inl invalidOpcode
  | .registerOperand => .inl invalidOpcode
  | .pushPopGroup => .inl (protection 0)
  | .unlistedGroup => .inr .unlistedGroup
  | .adjustBase => .inr .adjustBase

/-- A repeat prefix stands among the prefixes. -/
def hasRep (pfx : List Instr) : Bool := pfx.any fun i => decide (i = .repPfx) || decide (i = .repnePfx)

/-- An instruction begins: the prefixes of the last one are forgotten, the one-instruction inhibits end (R546). -/
def beginInstr (s : State) : State :=
  { s with cur := Cur.at s.ip, inhibitInt := false, inhibitExt := false, waiting := false, stepTrap := false }

/-- An instruction ends: `tf` is the trap flag it began with, and the boundary starts over (R548, R551). An instruction
that waits for BUSY has not ended. -/
def endInstr (tf : Bool) (s : State) : State :=
  { s with cur := Cur.at s.cur.ip, phase := .singleStep, stepTrap := tf && !s.waiting }

/-- The end of an instruction on the outcome of its execution. -/
def endOutcome (tf : Bool) : Result → Result
  | .next s => .next (endInstr tf s)
  | .fault f => .fault f
  | .refused r => .refused r

/-- Execute the prefixes, then the instruction. A prefix that took an exception (LOCK) leaves nothing noted, and the
instruction does not execute. -/
def runPrefixed (s : State) (i : Instr) : List Instr → Result
  | [] => exec i s
  | p :: rest =>
    match exec p s with
    | .next s' => if s'.cur.noted = 0 then .next s' else runPrefixed s' i rest
    | .fault f => .fault f
    | .refused r => .refused r

/-- IP is moved past the instruction and its prefixes; one more free value has been drawn (10_state.md R28), and its reads come
after those of the fetch. -/
def enterInstr (s : State) (len : Nat) : State :=
  (({ beginInstr s with ip := s.ip + BitVec.ofNat 16 len }).later .execution).drawn 1

/-- Fetch and execute the instruction at CS:IP; where the bytes are none, no byte is passed. -/
def runInstr (s : State) : Result :=
  match decodeSeq (fetchBytes s) with
  | .ok f =>
    if hasRep f.pfx && !f.instr.isString then .refused .repNonString
    else endOutcome s.flags.tf (runPrefixed (enterInstr s f.len) f.instr f.pfx)
  | .error e =>
    match fetchFault s e with
    | .inl st => endOutcome s.flags.tf (finish (enterInstr s 0) (.error st))
    | .inr r => .refused r

/-- One step of a processor that is neither in RESET nor in shutdown: the next event of the boundary, or a tick of a halted
processor, or an instruction (R551, R595). -/
def activeStep (s : State) : Result :=
  match takeEvent s with
  | some s' => .next s'
  | none => if s.halted then .next (haltTick s) else runInstr s

/-- HOLD is active: another bus master has the bus and makes its access, the processor waits (20_memory.md R162, R163; log
35). -/
def masterAccess (s : State) : State :=
  match s.pins.busWrite with
  | none => s
  | some b =>
    match b.width with
    | .byte => s.store8 b.addr (loByte b.value)
    | .word => s.store16 b.addr b.value

/-- RESET: memory and its map, the pins, the I/O record and the counts of free values and reads stay (70_reset_and_hazards.md R610,
R611). -/
def resetNow (s : State) : State := State.afterReset s.mem s.memMap s.pins s.io s.draws s.bus

end Sys2Proof.Machine
end

