-- ==== Sys2Proof/Machine/Step.lean ====
section
/-! DEFINITION. One step of the machine, and placing an instruction where the next step fetches. -/

namespace Sys2Proof.Machine

/-- One step: RESET while its pin is active; an access of another bus master while HOLD is, then an operand transfer that the
processor extension asks for, both in halt and shutdown too (20_memory.md R162, R163, R170, 60_exceptions.md R540, R584); a tick
in shutdown; else the boundary's next event or an instruction with its prefixes (one iteration, when repeated) (00_scope.md
R8). -/
def step (s : State) : Host.Outcome State Fault Refusal :=
  if s.pins.reset then .next (resetNow s)
  else if s.pins.hold then .next (masterAccess (beginStep s))
  else
    match transferDue s with
    | some o => .next (extTransfer (beginStep s) o)
    | none =>
      if s.shutdown then .next (shutdownStep (beginStep s))
      else activeStep (beginStep s)

/-- A byte put into memory from outside the machine; where nothing, a device or shared memory answered, the address becomes ROM,
so that the fetch sees this byte. -/
def State.placeByte (s : State) (a : Phys) (b : Byte) : State :=
  { s with
    mem := Memory.write s.mem a.toNat b
    memMap :=
      if s.memKind a = .ram ∨ s.memKind a = .rom then s.memMap
      else { base := a.toNat, size := 1, kind := .rom } :: s.memMap }

/-- Bytes put into memory from an offset of the code segment on. -/
def State.placeCode (s : State) (off : Word) : List Byte → State
  | [] => s
  | b :: rest => State.placeCode (s.placeByte (segAddr s .cs off) b) (off + 1) rest

/-- `s` with an instruction of opcode_table.json stored at CS:IP, where the next step fetches; nothing of it is taken as
prefetched (log 39). -/
def State.withFetchWord (s : State) (nbits w : Nat) : State :=
  (s.placeCode s.ip (tableBytes nbits w)).flush

end Sys2Proof.Machine
end

