-- ==== Sys2Proof/Safety.lean ====
section
/-! DEFINITION. The terms in which claims speak: invariants of states, what an access needs, and what an instruction leaves
unchanged. -/

namespace Sys2Proof.Machine

/-! ### States -/

/-- Memory has its canonical form (log 1). -/
def MemoryCanonical (s : State) : Prop := Memory.wf s.mem = true

/-- Every address is RAM of this processor's own (parameter PhysMem, 20_memory.md R92, log 1). -/
def AllRam (s : State) : Prop := s.memMap = []

/-- No address is a device's or written by other masters at any time, so that a byte reads as it was left (R154, R160, log 48). -/
def Steady (s : State) : Prop := ∀ r ∈ s.memMap, r.kind ≠ .shared ∧ r.kind ≠ .device

/-- Memory that keeps what is stored: in its canonical form, and RAM at every address. -/
def PlainMemory (s : State) : Prop := MemoryCanonical s ∧ AllRam s

/-- In real mode IOPL and NT are 0 (10_state.md R35). -/
def RealFlagsClear (s : State) : Prop := s.msw.pe = false → s.flags.iopl = 0 ∧ s.flags.nt = false

/-- In real mode every segment is 64K bytes, valid, readable and writable (10_state.md R26). -/
def RealSegments (s : State) : Prop :=
  s.msw.pe = false →
    ∀ x, (s.seg x).limit = 0xFFFF ∧ (s.seg x).valid = true ∧ arWritable (s.seg x).ar = true

/-- The processor extension asks for no operand transfer that the processor would serve (20_memory.md R170). -/
def NoTransferDue (s : State) : Prop := s.pins.pereq = false ∨ s.ext = none

/-- No one else has the bus: HOLD is inactive (20_memory.md R162) and there is no operand transfer to serve first. -/
def BusFree (s : State) : Prop := s.pins.hold = false ∧ NoTransferDue s

/-- The processor executes: not halted, not shut down, RESET inactive, the bus free. -/
def Executing (s : State) : Prop :=
  s.pins.reset = false ∧ s.shutdown = false ∧ s.halted = false ∧ BusFree s

/-- No event is due at this boundary (60_exceptions.md R551). -/
def QuietBoundary (s : State) : Prop := takeEvent (beginStep s) = none

/-- CPL <= IOPL in protected mode; no test in real mode (60_exceptions.md R590). -/
def IoAllowed (s : State) : Prop := s.msw.pe = true → s.cpl ≤ s.ioplNum

/-! ### Accesses -/

/-- The bytes `off` to `off + n - 1` lie inside the segment (20_memory.md R116): up to LIMIT, or, in a data segment that
expands down, from LIMIT + 1 to FFFFH. -/
def Within (g : SegReg) (off n : Nat) : Prop :=
  if arE g.ar = false ∧ arC g.ar = true then g.limit.toNat < off ∧ off + n ≤ 0x10000
  else off + n ≤ g.limit.toNat + 1

/-- The rights allow the access (20_memory.md R115): code is read only if readable and never written, data is written only
if writable. -/
def Permits (ar : Byte) : Access → Prop
  | .read => arE ar = true → arW ar = true
  | .write => arE ar = false ∧ arW ar = true

/-- An access of `n` bytes at `x:off` passes its checks (20_memory.md R112 to R117). -/
def Accessible (s : State) (x : SReg) (off n : Nat) (a : Access) : Prop :=
  if s.msw.pe = true then (s.seg x).valid = true ∧ Permits (s.seg x).ar a ∧ off ≤ 0xFFFF ∧ Within (s.seg x) off n
  else off % 0x10000 + n ≤ 0x10000

/-- The operand can be read. -/
def CanRead (s : State) (w : Width) : RM → Prop
  | .reg _ => True
  | .mem a => Accessible s (opSeg s a) (ea s a).toNat w.bytes .read

/-- The operand can be written. -/
def CanWrite (s : State) (w : Width) : RM → Prop
  | .reg _ => True
  | .mem a => Accessible s (opSeg s a) (ea s a).toNat w.bytes .write

/-- The stack takes `n` more words: each at its own offset (40_data_transfer.md R243). -/
def CanPush (s : State) (n : Nat) : Prop :=
  ∀ k, 1 ≤ k → k ≤ n → Accessible s .ss (s.regs.sp - BitVec.ofNat 16 (2 * k)).toNat 2 .write

/-- The word `k` bytes above the top of the stack can be read (40_data_transfer.md R244). -/
def CanPopAt (s : State) (k : Word) : Prop := Accessible s .ss (s.regs.sp + k).toNat 2 .read

/-- The value of an operand in a state, the operand located by the registers of the state `s`. -/
def valueIn (s t : State) (w : Width) (m : RM) : Val w := peekPlace t w (place s m)

/-- The value of an operand. -/
def valueOf (s : State) (w : Width) (m : RM) : Val w := valueIn s s w m

/-! ### What stays -/

/-- A physical address is one of the bytes of an operand of width `w` at `x:off`. -/
def Touches (s : State) (w : Width) (x : SReg) (off : Word) (p : Phys) : Prop :=
  p = segAddr s x off ∨ (w = .word ∧ p = segAddr s x (off + 1))

/-- Every byte of memory reads as before. -/
def SameMemory (s t : State) : Prop := ∀ p, t.load8 p = s.load8 p

/-- Every byte of memory outside an operand reads as before. -/
def MemoryBut (s t : State) (w : Width) (x : SReg) (off : Word) : Prop :=
  ∀ p, ¬ Touches s w x off p → t.load8 p = s.load8 p

/-- Every general register but those listed is unchanged. -/
def RegsBut (s t : State) (l : List RegNum) : Prop := ∀ r, r ∉ l → t.getW r = s.getW r

/-- Every register but one of a width is unchanged; a byte register leaves the other half of its word (10_state.md R21). -/
def OnlyReg (s t : State) (w : Width) (r : RegNum) : Prop :=
  match w with
  | .byte => RegsBut s t [RegNum.home r] ∧ ∀ q, q ≠ r → t.getB q = s.getB q
  | .word => RegsBut s t [r]

/-- All the rest of the processor is unchanged: segment registers with their caches, MSW, the table registers, LDTR, TR, the
conditions, the pins, the map of memory, the I/O record, the processor extension's operand, the instruction's start and
prefixes. -/
structure SameSystem (s t : State) : Prop where
  es : t.es = s.es
  cs : t.cs = s.cs
  ss : t.ss = s.ss
  ds : t.ds = s.ds
  msw : t.msw = s.msw
  gdtr : t.gdtr = s.gdtr
  idtr : t.idtr = s.idtr
  ldtr : t.ldtr = s.ldtr
  tr : t.tr = s.tr
  halted : t.halted = s.halted
  shutdown : t.shutdown = s.shutdown
  nmiInService : t.nmiInService = s.nmiInService
  nmiPending : t.nmiPending = s.nmiPending
  inhibitInt : t.inhibitInt = s.inhibitInt
  inhibitExt : t.inhibitExt = s.inhibitExt
  mpPending : t.mpPending = s.mpPending
  stepTrap : t.stepTrap = s.stepTrap
  waiting : t.waiting = s.waiting
  pins : t.pins = s.pins
  nmiLevel : t.nmiLevel = s.nmiLevel
  memMap : t.memMap = s.memMap
  io : t.io = s.io
  ext : t.ext = s.ext
  cur : t.cur = s.cur
  phase : t.phase = s.phase

/-- Nothing but the operand `m` (and flags, which are said apart) is written: the frame of an instruction with one
destination. IP stays at the next instruction. -/
def OnlyOperand (s t : State) (w : Width) (m : RM) : Prop :=
  SameSystem s t ∧ t.ip = s.ip ∧
    match m with
    | .reg r => OnlyReg s t w r ∧ SameMemory s t
    | .mem a => RegsBut s t [] ∧ MemoryBut s t w (opSeg s a) (ea s a)

/-- Nothing but flags is written. -/
def OnlyFlags (s t : State) : Prop := SameSystem s t ∧ t.ip = s.ip ∧ RegsBut s t [] ∧ SameMemory s t

/-- Nothing but the listed word registers (and flags) is written. -/
def OnlyRegs (s t : State) (l : List RegNum) : Prop := SameSystem s t ∧ t.ip = s.ip ∧ RegsBut s t l ∧ SameMemory s t

/-! ### Flags -/

/-- The control flags TF, IF, DF, IOPL and NT are unchanged. -/
def SameControlFlags (f g : Flags) : Prop :=
  g.tf = f.tf ∧ g.ief = f.ief ∧ g.df = f.df ∧ g.iopl = f.iopl ∧ g.nt = f.nt

/-- How many 1 bits a byte has. -/
def ones (b : Byte) : Nat := ((List.range 8).filter fun k => b.getLsbD k).length

/-- SF, ZF and PF follow a result (41_arithmetic.md R280): its top bit, whether it is 0, whether its low byte has an even
number of 1 bits. -/
def StatusOf (g : Flags) (w : Width) (v : Val w) : Prop :=
  g.sf = decide (2 ^ (w.bits - 1) ≤ v.toNat) ∧ g.zf = decide (v.toNat = 0) ∧
    g.pf = decide (ones (v.setWidth 8) % 2 = 0)

/-- A signed number does not fit in `n` bits. -/
def signedOverflow (n : Nat) (p : Int) : Bool := decide (p < -(2 ^ (n - 1)) ∨ 2 ^ (n - 1) ≤ p)

/-- An instruction takes an exception of its own: delivered with everything as it was, the address of its first byte saved, EXT
= 0 (60_exceptions.md R536, R560, R565). -/
def TakesException (i : Instr) (s : State) (vector : Byte) (code : Option Word) : Prop :=
  exec i s = .next (deliver s { vector := vector, code := code, ext := false, isInt := false } s.cur.ip s.cur.ip)

/-- The exception of an access that fails its checks (20_memory.md R113 to R117): 12 for an offset outside the stack segment in
protected mode, else 13. -/
def faultVector (s : State) (x : SReg) (a : Access) : Byte :=
  if s.msw.pe = true ∧ x = .ss ∧ (s.seg x).valid = true ∧ typeOk (s.seg x).ar a = true then 12 else 13

end Sys2Proof.Machine
end

