-- ==== Sys2Proof/Certificates/Slice0/Obligations.lean ====
section
/-! DEFINITION. The statements for the provers: what the rules of spec/ say that the machine and each instruction do. -/

namespace Sys2Proof.Machine

/-! ### Two-operand arithmetic and logic -/

/-- A two-operand instruction: its width, where its first operand lies (the destination), its second operand (a register or
memory operand, or an immediate), and whether the carry goes in. -/
structure TwoOp where
  w : Width
  dst : RM
  src : RM ⊕ Val w
  carry : Bool

/-- The second operand's value. -/
def TwoOp.second (o : TwoOp) (s : State) : Val o.w :=
  match o.src with
  | .inl m => valueOf s o.w m
  | .inr v => v

/-- The second operand can be read. -/
def TwoOp.SecondReadable (o : TwoOp) (s : State) : Prop :=
  match o.src with
  | .inl m => CanRead s o.w m
  | .inr _ => True

/-- The carry-in as a number. -/
def TwoOp.carryIn (o : TwoOp) (s : State) : Nat := if o.carry && s.flags.cf then 1 else 0

/-- The forms of ADD and ADC. -/
def additionForm : Instr → Option TwoOp
  | .addRmReg w m r => some ⟨w, m, .inl (.reg r), false⟩
  | .addRegRm w r m => some ⟨w, .reg r, .inl m, false⟩
  | .addAccImm v => some ⟨v.width, .reg .r0, .inr v.val, false⟩
  | .addRmImm m v => some ⟨v.width, m, .inr v.val, false⟩
  | .addRm8Imm82 m v => some ⟨.byte, m, .inr v, false⟩
  | .addRmSext m v => some ⟨.word, m, .inr (v.signExtend 16), false⟩
  | .adcRmReg w m r => some ⟨w, m, .inl (.reg r), true⟩
  | .adcRegRm w r m => some ⟨w, .reg r, .inl m, true⟩
  | .adcAccImm v => some ⟨v.width, .reg .r0, .inr v.val, true⟩
  | .adcRmImm m v => some ⟨v.width, m, .inr v.val, true⟩
  | .adcRm8Imm82 m v => some ⟨.byte, m, .inr v, true⟩
  | .adcRmSext m v => some ⟨.word, m, .inr (v.signExtend 16), true⟩
  | _ => none

/-- The forms of SUB and SBB. -/
def subtractionForm : Instr → Option TwoOp
  | .subRmReg w m r => some ⟨w, m, .inl (.reg r), false⟩
  | .subRegRm w r m => some ⟨w, .reg r, .inl m, false⟩
  | .subAccImm v => some ⟨v.width, .reg .r0, .inr v.val, false⟩
  | .subRmImm m v => some ⟨v.width, m, .inr v.val, false⟩
  | .subRm8Imm82 m v => some ⟨.byte, m, .inr v, false⟩
  | .subRmSext m v => some ⟨.word, m, .inr (v.signExtend 16), false⟩
  | .sbbRmReg w m r => some ⟨w, m, .inl (.reg r), true⟩
  | .sbbRegRm w r m => some ⟨w, .reg r, .inl m, true⟩
  | .sbbAccImm v => some ⟨v.width, .reg .r0, .inr v.val, true⟩
  | .sbbRmImm m v => some ⟨v.width, m, .inr v.val, true⟩
  | .sbbRm8Imm82 m v => some ⟨.byte, m, .inr v, true⟩
  | .sbbRmSext m v => some ⟨.word, m, .inr (v.signExtend 16), true⟩
  | _ => none

/-- The forms of CMP. -/
def compareForm : Instr → Option TwoOp
  | .cmpRmReg w m r => some ⟨w, m, .inl (.reg r), false⟩
  | .cmpRegRm w r m => some ⟨w, .reg r, .inl m, false⟩
  | .cmpAccImm v => some ⟨v.width, .reg .r0, .inr v.val, false⟩
  | .cmpRmImm m v => some ⟨v.width, m, .inr v.val, false⟩
  | .cmpRm8Imm82 m v => some ⟨.byte, m, .inr v, false⟩
  | .cmpRmSext m v => some ⟨.word, m, .inr (v.signExtend 16), false⟩
  | _ => none

/-- The forms of TEST. -/
def testForm : Instr → Option TwoOp
  | .testRmReg w m r => some ⟨w, m, .inl (.reg r), false⟩
  | .testAccImm v => some ⟨v.width, .reg .r0, .inr v.val, false⟩
  | .testRmImm m v => some ⟨v.width, m, .inr v.val, false⟩
  | _ => none

/-- A boolean operation on one bit of each operand. -/
inductive BitOp where
  | and
  | or
  | xor
deriving DecidableEq, Repr

/-- The bit it gives. -/
def BitOp.apply : BitOp → Bool → Bool → Bool
  | .and, a, b => a && b
  | .or, a, b => a || b
  | .xor, a, b => a != b

/-- The forms of AND, OR and XOR. -/
def logicForm : Instr → Option (BitOp × TwoOp)
  | .andRmReg w m r => some (.and, ⟨w, m, .inl (.reg r), false⟩)
  | .andRegRm w r m => some (.and, ⟨w, .reg r, .inl m, false⟩)
  | .andAccImm v => some (.and, ⟨v.width, .reg .r0, .inr v.val, false⟩)
  | .andRmImm m v => some (.and, ⟨v.width, m, .inr v.val, false⟩)
  | .orRmReg w m r => some (.or, ⟨w, m, .inl (.reg r), false⟩)
  | .orRegRm w r m => some (.or, ⟨w, .reg r, .inl m, false⟩)
  | .orAccImm v => some (.or, ⟨v.width, .reg .r0, .inr v.val, false⟩)
  | .orRmImm m v => some (.or, ⟨v.width, m, .inr v.val, false⟩)
  | .xorRmReg w m r => some (.xor, ⟨w, m, .inl (.reg r), false⟩)
  | .xorRegRm w r m => some (.xor, ⟨w, .reg r, .inl m, false⟩)
  | .xorAccImm v => some (.xor, ⟨v.width, .reg .r0, .inr v.val, false⟩)
  | .xorRmImm m v => some (.xor, ⟨v.width, m, .inr v.val, false⟩)
  | _ => none

/-- A subtraction's flags (41_arithmetic.md R280): borrow, digit borrow and signed overflow of `a - b - c`. -/
def SubtractionFlags (g : Flags) (w : Width) (a b : Val w) (c : Nat) : Prop :=
  g.cf = decide (a.toNat < b.toNat + c) ∧ g.af = decide (a.toNat % 16 < b.toNat % 16 + c) ∧
    g.of = signedOverflow w.bits (a.toInt - b.toInt - c)

end Sys2Proof.Machine

open Sys2Proof Sys2Proof.Machine

/-- ADD and ADC in all twelve forms (41_arithmetic.md R280 to R282): with a readable second operand and a writable destination the
instruction completes; the destination takes the sum modulo 2^n, the six status flags follow the exact sum, and nothing else
changes. The source has no pages of ADD and ADC: that they write these six flags and leave none undefined is the spec's own
inference, by analogy with the pages of SUB and SBB (the marks of R281 and R282, 91_not_in_source.md N1). -/
def Obligations.AdditionWritesSum : Prop :=
  ∀ (i : Instr) (o : TwoOp) (s : State), additionForm i = some o → PlainMemory s → CanWrite s o.w o.dst →
    o.SecondReadable s →
    ∃ t, exec i s = .next t ∧
      let a := valueOf s o.w o.dst
      let b := o.second s
      let c := o.carryIn s
      (valueIn s t o.w o.dst).toNat = (a.toNat + b.toNat + c) % 2 ^ o.w.bits ∧
      t.flags.cf = decide (2 ^ o.w.bits ≤ a.toNat + b.toNat + c) ∧
      t.flags.af = decide (16 ≤ a.toNat % 16 + b.toNat % 16 + c) ∧
      t.flags.of = signedOverflow o.w.bits (a.toInt + b.toInt + c) ∧
      StatusOf t.flags o.w (valueIn s t o.w o.dst) ∧ SameControlFlags s.flags t.flags ∧ OnlyOperand s t o.w o.dst

/-- SUB and SBB in all twelve forms (R280, R284, R285): the destination takes the difference modulo 2^n, the flags follow the
exact difference, and nothing else changes. -/
def Obligations.SubtractionWritesDifference : Prop :=
  ∀ (i : Instr) (o : TwoOp) (s : State), subtractionForm i = some o → PlainMemory s → CanWrite s o.w o.dst →
    o.SecondReadable s →
    ∃ t, exec i s = .next t ∧
      let a := valueOf s o.w o.dst
      let b := o.second s
      let c := o.carryIn s
      ((valueIn s t o.w o.dst).toNat + b.toNat + c) % 2 ^ o.w.bits = a.toNat ∧
      SubtractionFlags t.flags o.w a b c ∧
      StatusOf t.flags o.w (valueIn s t o.w o.dst) ∧ SameControlFlags s.flags t.flags ∧ OnlyOperand s t o.w o.dst

/-- CMP in its six forms (R292): the flags of first minus second, and no operand is written; both need only be readable. TEST in
its three forms (42_logic.md R324): the flags of the AND, CF and OF clear. The source has no page of CMP: which of its operands is
the first is the spec's own inference, from the d bit (30_encoding.md R182) and the page of SUB (R292's mark, 91_not_in_source.md
N1). TEST has its page. -/
def Obligations.CompareAndTestSetFlagsOnly : Prop :=
  (∀ (i : Instr) (o : TwoOp) (s : State), compareForm i = some o → CanRead s o.w o.dst → o.SecondReadable s →
    ∃ t, exec i s = .next t ∧ ∃ d : Val o.w,
      let a := valueOf s o.w o.dst
      let b := o.second s
      (d.toNat + b.toNat) % 2 ^ o.w.bits = a.toNat ∧ SubtractionFlags t.flags o.w a b 0 ∧
      StatusOf t.flags o.w d ∧ SameControlFlags s.flags t.flags ∧ OnlyFlags s t) ∧
  (∀ (i : Instr) (o : TwoOp) (s : State), testForm i = some o → CanRead s o.w o.dst → o.SecondReadable s →
    ∃ t, exec i s = .next t ∧ ∃ d : Val o.w,
      (∀ k, d.getLsbD k = ((valueOf s o.w o.dst).getLsbD k && (o.second s).getLsbD k)) ∧
      t.flags.cf = false ∧ t.flags.of = false ∧
      StatusOf t.flags o.w d ∧ SameControlFlags s.flags t.flags ∧ OnlyFlags s t)

/-- AND, OR and XOR in their twelve forms (42_logic.md R320 to R323): every bit of the destination becomes the operation of the
two operands' bits, CF and OF are cleared, SF, ZF and PF follow the result, AF is left open (log 5), nothing else changes. The
source has no page of AND: its operation is the spec's own inference from the page of TEST, and its flags are taken from the
boolean instructions that have a page, TEST, OR and XOR (R321's mark, R320, 91_not_in_source.md N1). -/
def Obligations.LogicWritesBitwiseResult : Prop :=
  ∀ (i : Instr) (f : BitOp) (o : TwoOp) (s : State), logicForm i = some (f, o) → PlainMemory s →
    CanWrite s o.w o.dst → o.SecondReadable s →
    ∃ t, exec i s = .next t ∧
      (∀ k, k < o.w.bits → (valueIn s t o.w o.dst).getLsbD k =
        f.apply ((valueOf s o.w o.dst).getLsbD k) ((o.second s).getLsbD k)) ∧
      t.flags.cf = false ∧ t.flags.of = false ∧
      StatusOf t.flags o.w (valueIn s t o.w o.dst) ∧ SameControlFlags s.flags t.flags ∧ OnlyOperand s t o.w o.dst

namespace Sys2Proof.Machine

/-! ### One-operand arithmetic -/

/-- INC, DEC, NEG and NOT. -/
inductive OneOp where
  | inc
  | dec
  | neg
  | not
deriving DecidableEq, Repr

/-- Their forms: the operation, the width and the operand. -/
def oneOperandForm : Instr → Option (OneOp × Width × RM)
  | .incReg r => some (.inc, .word, .reg r)
  | .incRm w m => some (.inc, w, m)
  | .decReg r => some (.dec, .word, .reg r)
  | .decRm w m => some (.dec, w, m)
  | .negRm w m => some (.neg, w, m)
  | .notRm w m => some (.not, w, m)
  | _ => none

/-- What the operand and the flags become (41_arithmetic.md R283, R286, R287; 42_logic.md R325). -/
def OneOp.Effect (o : OneOp) (w : Width) (a v : Val w) (f g : Flags) : Prop :=
  match o with
  | .inc => v.toNat = (a.toNat + 1) % 2 ^ w.bits ∧ g.cf = f.cf ∧ g.af = decide (a.toNat % 16 = 15) ∧
      g.of = signedOverflow w.bits (a.toInt + 1) ∧ StatusOf g w v
  | .dec => (v.toNat + 1) % 2 ^ w.bits = a.toNat ∧ g.cf = f.cf ∧ g.af = decide (a.toNat % 16 = 0) ∧
      g.of = signedOverflow w.bits (a.toInt - 1) ∧ StatusOf g w v
  | .neg => (v.toNat + a.toNat) % 2 ^ w.bits = 0 ∧ g.cf = decide (a.toNat ≠ 0) ∧ g.af = decide (a.toNat % 16 ≠ 0) ∧
      g.of = decide (a.toNat = 2 ^ (w.bits - 1)) ∧ StatusOf g w v
  | .not => v.toNat + a.toNat = 2 ^ w.bits - 1 ∧ g = f

/-- The register or registers that hold a product and a dividend: AX, or DX:AX. -/
def wideRegs : Width → List RegNum
  | .byte => [.r0]
  | .word => [.r0, .r2]

/-- AX, or DX:AX, as a number without sign. -/
def wideNat (s : State) : Width → Nat
  | .byte => s.regs.ax.toNat
  | .word => s.regs.dx.toNat * 65536 + s.regs.ax.toNat

/-- AX, or DX:AX, as a signed number. -/
def wideInt (s : State) : Width → Int
  | .byte => s.regs.ax.toInt
  | .word => s.regs.dx.toInt * 65536 + s.regs.ax.toNat

/-- The quotient's and the remainder's place: AL and AH, or AX and DX. -/
def quotientIn (t : State) : (w : Width) → Val w
  | .byte => t.getB .r0
  | .word => t.getW .r0

/-- The remainder's place. -/
def remainderIn (t : State) : (w : Width) → Val w
  | .byte => t.getB .r4
  | .word => t.getW .r2

/-- AF and CF, or a digit above 9 in AL, ask for an adjustment (41_arithmetic.md R288). -/
def lowDigitAdjusts (s : State) : Prop := 9 < s.al.toNat % 16 ∨ s.flags.af = true

/-- AL is what an addition of two packed BCD bytes `x` and `y` leaves, with AF and CF (R289). -/
def BcdSum (s : State) (x y c : Nat) : Prop :=
  x % 16 ≤ 9 ∧ x / 16 ≤ 9 ∧ y % 16 ≤ 9 ∧ y / 16 ≤ 9 ∧ c ≤ 1 ∧ s.al.toNat = (x + y + c) % 256 ∧
    s.flags.af = decide (16 ≤ x % 16 + y % 16 + c) ∧ s.flags.cf = decide (256 ≤ x + y + c)

/-- AL is what a subtraction of packed BCD bytes, `x - y - c`, leaves, with AF and CF (R291). -/
def BcdDifference (s : State) (x y c : Nat) : Prop :=
  x % 16 ≤ 9 ∧ x / 16 ≤ 9 ∧ y % 16 ≤ 9 ∧ y / 16 ≤ 9 ∧ c ≤ 1 ∧ s.al.toNat = (x + 256 - y - c) % 256 ∧
    s.flags.af = decide (x % 16 < y % 16 + c) ∧ s.flags.cf = decide (x < y + c)

/-- The decimal value of a packed BCD byte. -/
def bcdValue (n : Nat) : Nat := n / 16 * 10 + n % 16

/-! ### Shifts and rotates -/

/-- Where a shift takes its count from (42_logic.md R330). -/
inductive CountSource where
  | one
  | imm (v : Byte)
  | cl
deriving DecidableEq, Repr

/-- The count: 1, or the bottom five bits of the immediate or of CL (R330). -/
def CountSource.count (c : CountSource) (s : State) : Nat :=
  match c with
  | .one => 1
  | .imm v => v.toNat % 32
  | .cl => s.cl.toNat % 32

/-- The forms of the shifts and rotates. -/
def shiftForm : Instr → Option (ShiftKind × Width × RM × CountSource)
  | .rolImm w m v => some (.rol, w, m, .imm v)
  | .rolOne w m => some (.rol, w, m, .one)
  | .rolCl w m => some (.rol, w, m, .cl)
  | .rorImm w m v => some (.ror, w, m, .imm v)
  | .rorOne w m => some (.ror, w, m, .one)
  | .rorCl w m => some (.ror, w, m, .cl)
  | .rclImm w m v => some (.rcl, w, m, .imm v)
  | .rclOne w m => some (.rcl, w, m, .one)
  | .rclCl w m => some (.rcl, w, m, .cl)
  | .rcrImm w m v => some (.rcr, w, m, .imm v)
  | .rcrOne w m => some (.rcr, w, m, .one)
  | .rcrCl w m => some (.rcr, w, m, .cl)
  | .shlImm w m v => some (.shl, w, m, .imm v)
  | .shlOne w m => some (.shl, w, m, .one)
  | .shlCl w m => some (.shl, w, m, .cl)
  | .shrImm w m v => some (.shr, w, m, .imm v)
  | .shrOne w m => some (.shr, w, m, .one)
  | .shrCl w m => some (.shr, w, m, .cl)
  | .sarImm w m v => some (.sar, w, m, .imm v)
  | .sarOne w m => some (.sar, w, m, .one)
  | .sarCl w m => some (.sar, w, m, .cl)
  | _ => none

/-- What `n` steps of SHL, SHR or SAR make of `a`, in whole numbers, and the last bit shifted out (R335 to R337). -/
def ShiftResult (k : ShiftKind) (w : Width) (n : Nat) (a v : Val w) (cf : Bool) : Prop :=
  match k with
  | .shl => v.toNat = a.toNat * 2 ^ n % 2 ^ w.bits ∧ cf = decide (a.toNat * 2 ^ n / 2 ^ w.bits % 2 = 1)
  | .shr => v.toNat = a.toNat / 2 ^ n ∧ cf = decide (a.toNat / 2 ^ (n - 1) % 2 = 1)
  | .sar => v.toInt = a.toInt / 2 ^ n ∧ cf = decide (a.toInt / 2 ^ (n - 1) % 2 = 1)
  | _ => False

/-- OF after a single shift (R335 to R337). -/
def singleShiftOf (k : ShiftKind) (w : Width) (a v : Val w) (cf : Bool) : Bool :=
  match k with
  | .shl => cf != decide (2 ^ (w.bits - 1) ≤ v.toNat)
  | .shr => decide (2 ^ (w.bits - 1) ≤ a.toNat)
  | _ => false

/-- What `n` steps of a rotate make of `a` and CF: ROL and ROR turn the operand and CF receives the bit that went round; RCL
and RCR turn the operand with CF above it (R331 to R334). -/
def RotateResult (k : ShiftKind) (w : Width) (n : Nat) (a v : Val w) (cf cf' : Bool) : Prop :=
  match k with
  | .rol => v = a.rotateLeft n ∧ cf' = v.getLsbD 0
  | .ror => v = a.rotateRight n ∧ cf' = v.msb
  | .rcl => BitVec.ofBool cf' ++ v = (BitVec.ofBool cf ++ a).rotateLeft n
  | .rcr => BitVec.ofBool cf' ++ v = (BitVec.ofBool cf ++ a).rotateRight n
  | _ => False

/-- OF after a single rotate, where the spec defines it: not for ROR (R331 to R334, 90 C6). -/
def SingleRotateOf (k : ShiftKind) (w : Width) (a v : Val w) (cf cf' of' : Bool) : Prop :=
  match k with
  | .rol => of' = (cf' != v.msb)
  | .rcl => of' = (cf' != v.msb)
  | .rcr => of' = (cf != a.msb)
  | _ => True

end Sys2Proof.Machine

/-- INC, DEC, NEG and NOT in all forms: the operand becomes the result, the flags follow it (CF stays for INC and DEC, no flag
changes for NOT), nothing else changes (41_arithmetic.md R283, R286, R287; 42_logic.md R325). That DEC leaves CF alone is the
spec's general knowledge (R286's mark, G7), PRESUMED in log 40. -/
def Obligations.OneOperandArithmetic : Prop :=
  ∀ (i : Instr) (o : OneOp) (w : Width) (m : RM) (s : State), oneOperandForm i = some (o, w, m) → PlainMemory s →
    CanWrite s w m →
    ∃ t, exec i s = .next t ∧ o.Effect w (valueOf s w m) (valueIn s t w m) s.flags t.flags ∧
      SameControlFlags s.flags t.flags ∧ OnlyOperand s t w m

/-- MUL, IMUL and IMUL with an immediate (R293 to R295): AX, DX:AX or the register takes the product; CF and OF say whether
it needs more than the low half; SF, ZF, AF and PF are undefined, so nothing is said of them; nothing else changes. A
memory operand that cannot be read raises its exception with nothing changed. -/
def Obligations.MultiplicationWritesProduct : Prop :=
  (∀ (w : Width) (m : RM) (s : State), CanRead s w m →
    ∃ t, exec (.mulRm w m) s = .next t ∧ wideNat t w = (s.acc w).toNat * (valueOf s w m).toNat ∧
      t.flags.cf = decide (2 ^ w.bits ≤ (s.acc w).toNat * (valueOf s w m).toNat) ∧ t.flags.of = t.flags.cf ∧
      SameControlFlags s.flags t.flags ∧ OnlyRegs s t (wideRegs w)) ∧
  (∀ (w : Width) (m : RM) (s : State), CanRead s w m →
    ∃ t, exec (.imulRm w m) s = .next t ∧ wideInt t w = (s.acc w).toInt * (valueOf s w m).toInt ∧
      t.flags.cf = signedOverflow w.bits ((s.acc w).toInt * (valueOf s w m).toInt) ∧ t.flags.of = t.flags.cf ∧
      SameControlFlags s.flags t.flags ∧ OnlyRegs s t (wideRegs w)) ∧
  (∀ (r : RegNum) (m : RM) (v : Word) (i : Instr) (s : State),
    (i = .imulRegRmImm16 r m v ∨ ∃ b : Byte, v = b.signExtend 16 ∧ i = .imulRegRmImm8 r m b) → CanRead s .word m →
    ∃ t, exec i s = .next t ∧ (t.getW r).toInt = ((valueOf s .word m).toInt * v.toInt).bmod 65536 ∧
      t.flags.cf = signedOverflow 16 ((valueOf s .word m).toInt * v.toInt) ∧ t.flags.of = t.flags.cf ∧
      SameControlFlags s.flags t.flags ∧ OnlyRegs s t [r]) ∧
  (∀ (i : Instr) (w : Width) (a : MemOp) (s : State),
    (i = .mulRm w (.mem a) ∨ i = .imulRm w (.mem a) ∨
      (w = .word ∧ ∃ r, (∃ v, i = .imulRegRmImm16 r (.mem a) v) ∨ ∃ b, i = .imulRegRmImm8 r (.mem a) b)) →
    ¬ CanRead s w (.mem a) → TakesException i s (faultVector s (opSeg s a) .read) (some 0))

/-- DIV and IDIV (R296, R297; 60_exceptions.md R532). With a divisor that is not zero and a quotient that fits, quotient and
remainder go to AL and AH, or AX and DX; IDIV truncates toward zero and the remainder has the dividend's sign; the most
negative quotient is a result; the status flags are left open (log 5). Else exception 0 is raised at the instruction with no
register changed. The operation of both is the spec's general knowledge (R296, R297, G6), PRESUMED in log 40. -/
def Obligations.DivisionResultsAndErrors : Prop :=
(∀ (w : Width) (m : RM) (s : State), CanRead s w m → (valueOf s w m).toNat ≠ 0 →
    wideNat s w / (valueOf s w m).toNat < 2 ^ w.bits →
    ∃ t, exec (.divRm w m) s = .next t ∧ (quotientIn t w).toNat = wideNat s w / (valueOf s w m).toNat ∧
      (remainderIn t w).toNat = wideNat s w % (valueOf s w m).toNat ∧
      SameControlFlags s.flags t.flags ∧ OnlyRegs s t (wideRegs w)) ∧
  (∀ (w : Width) (m : RM) (s : State), CanRead s w m → (valueOf s w m).toInt ≠ 0 →
    signedOverflow w.bits ((wideInt s w).tdiv (valueOf s w m).toInt) = false →
    ∃ t, exec (.idivRm w m) s = .next t ∧ (quotientIn t w).toInt = (wideInt s w).tdiv (valueOf s w m).toInt ∧
      (remainderIn t w).toInt = (wideInt s w).tmod (valueOf s w m).toInt ∧
      SameControlFlags s.flags t.flags ∧ OnlyRegs s t (wideRegs w)) ∧
(∀ (w : Width) (m : RM) (s : State), CanRead s w m →
    ((valueOf s w m).toNat = 0 ∨ 2 ^ w.bits ≤ wideNat s w / (valueOf s w m).toNat) →
    TakesException (.divRm w m) s 0 none) ∧
  (∀ (w : Width) (m : RM) (s : State), CanRead s w m →
    ((valueOf s w m).toInt = 0 ∨ signedOverflow w.bits ((wideInt s w).tdiv (valueOf s w m).toInt) = true) →
    TakesException (.idivRm w m) s 0 none)

/-- AAA, AAS, AAM, AAD, DAA and DAS (R288 to R291, R298, R299), all six the spec's general knowledge (G5), PRESUMED in log 40.
AAA, AAS, AAM and AAD: the adjusted AL and AH, the flags the spec defines, only AX written; for AAA with AL above F9H and AAS
with AL below 06H, where an adjustment is due, AH is left open (log 22). DAA and DAS are decimal arithmetic: after an addition
or subtraction of packed BCD bytes, AL is the packed BCD sum or difference modulo 100, CF the decimal carry or borrow and AF
that of the low digit; SF, ZF and PF follow AL; only AL is written; on any other inputs both still complete (log 23). -/
def Obligations.AdjustInstructions : Prop :=
  (∀ s : State, ∃ t, exec .aaa s = .next t ∧
    (lowDigitAdjusts s → t.al.toNat = (s.al.toNat + 6) % 16 ∧ (s.al.toNat ≤ 0xF9 → t.ah = s.ah + 1) ∧
      t.flags.af = true ∧ t.flags.cf = true) ∧
    (¬ lowDigitAdjusts s → t.al.toNat = s.al.toNat % 16 ∧ t.ah = s.ah ∧ t.flags.af = false ∧ t.flags.cf = false) ∧
    SameControlFlags s.flags t.flags ∧ OnlyRegs s t [.r0]) ∧
  (∀ s : State, ∃ t, exec .aas s = .next t ∧
    (lowDigitAdjusts s → t.al.toNat = (s.al.toNat + 250) % 16 ∧ (6 ≤ s.al.toNat → t.ah = s.ah - 1) ∧
      t.flags.af = true ∧ t.flags.cf = true) ∧
    (¬ lowDigitAdjusts s → t.al.toNat = s.al.toNat % 16 ∧ t.ah = s.ah ∧ t.flags.af = false ∧ t.flags.cf = false) ∧
    SameControlFlags s.flags t.flags ∧ OnlyRegs s t [.r0]) ∧
  (∀ s : State, ∃ t, exec .aam s = .next t ∧ t.ah.toNat = s.al.toNat / 10 ∧ t.al.toNat = s.al.toNat % 10 ∧
    StatusOf t.flags .byte t.al ∧ SameControlFlags s.flags t.flags ∧ OnlyRegs s t [.r0]) ∧
  (∀ s : State, ∃ t, exec .aad s = .next t ∧ t.ah = 0 ∧ t.al.toNat = (s.ah.toNat * 10 + s.al.toNat) % 256 ∧
    StatusOf t.flags .byte t.al ∧ SameControlFlags s.flags t.flags ∧ OnlyRegs s t [.r0]) ∧
  (∀ s : State, ∃ t, exec .daa s = .next t ∧
    (∀ x y c, BcdSum s x y c →
      bcdValue t.al.toNat = (bcdValue x + bcdValue y + c) % 100 ∧ t.al.toNat % 16 ≤ 9 ∧
        t.flags.cf = decide (100 ≤ bcdValue x + bcdValue y + c) ∧
        t.flags.af = decide (10 ≤ x % 16 + y % 16 + c)) ∧
    StatusOf t.flags .byte t.al ∧ SameControlFlags s.flags t.flags ∧
    SameSystem s t ∧ t.ip = s.ip ∧ OnlyReg s t .byte .r0 ∧ SameMemory s t) ∧
  (∀ s : State, ∃ t, exec .das s = .next t ∧
    (∀ x y c, BcdDifference s x y c →
      bcdValue t.al.toNat = (bcdValue x + 100 - bcdValue y - c) % 100 ∧ t.al.toNat % 16 ≤ 9 ∧
        t.flags.cf = decide (bcdValue x < bcdValue y + c) ∧
        t.flags.af = decide (x % 16 < y % 16 + c)) ∧
    StatusOf t.flags .byte t.al ∧ SameControlFlags s.flags t.flags ∧
    SameSystem s t ∧ t.ip = s.ip ∧ OnlyReg s t .byte .r0 ∧ SameMemory s t)

/-- SHL, SHR and SAR by 1, by CL and by an immediate, with a count that is not zero (42_logic.md R330, R335 to R337): the
operand times or divided by the power of two, CF the last bit shifted out, SF, ZF and PF of the result; OF in the single form;
AF, and OF in the count forms, are left open (log 5); nothing else changes. Any shift or rotate by CL or an immediate whose
count is zero changes no operand and no flag, which is the spec's general knowledge (R330's mark, G8), PRESUMED in log 40. -/
def Obligations.ShiftsMultiplyAndDivide : Prop :=
  (∀ (i : Instr) (k : ShiftKind) (w : Width) (m : RM) (c : CountSource) (s : State),
    shiftForm i = some (k, w, m, c) → (k = .shl ∨ k = .shr ∨ k = .sar) → c.count s ≠ 0 → PlainMemory s →
    CanWrite s w m →
    ∃ t, exec i s = .next t ∧ ShiftResult k w (c.count s) (valueOf s w m) (valueIn s t w m) t.flags.cf ∧
      StatusOf t.flags w (valueIn s t w m) ∧
      (c = .one → t.flags.of = singleShiftOf k w (valueOf s w m) (valueIn s t w m) t.flags.cf) ∧
      SameControlFlags s.flags t.flags ∧ OnlyOperand s t w m) ∧
  (∀ (i : Instr) (k : ShiftKind) (w : Width) (m : RM) (c : CountSource) (s : State),
    shiftForm i = some (k, w, m, c) → c.count s = 0 → PlainMemory s → CanWrite s w m →
    ∃ t, exec i s = .next t ∧ t.flags = s.flags ∧ OnlyFlags s t)

/-- ROL, ROR, RCL and RCR by 1, by CL and by an immediate, with a count that is not zero (R330 to R334): the operand, for RCL
and RCR with CF as an extra bit, turned by the count; OF in the single form of ROL, RCL and RCR; SF, ZF, AF and PF stay;
nothing else changes. -/
def Obligations.RotatesTurnBits : Prop :=
  ∀ (i : Instr) (k : ShiftKind) (w : Width) (m : RM) (c : CountSource) (s : State),
    shiftForm i = some (k, w, m, c) → (k = .rol ∨ k = .ror ∨ k = .rcl ∨ k = .rcr) → c.count s ≠ 0 →
    PlainMemory s → CanWrite s w m →
    ∃ t, exec i s = .next t ∧
      RotateResult k w (c.count s) (valueOf s w m) (valueIn s t w m) s.flags.cf t.flags.cf ∧
      (c = .one → SingleRotateOf k w (valueOf s w m) (valueIn s t w m) s.flags.cf t.flags.cf t.flags.of) ∧
      t.flags.sf = s.flags.sf ∧ t.flags.zf = s.flags.zf ∧ t.flags.af = s.flags.af ∧ t.flags.pf = s.flags.pf ∧
      SameControlFlags s.flags t.flags ∧ OnlyOperand s t w m

namespace Sys2Proof.Machine

/-! ### Data transfer -/

/-- A move: its width and destination, the value moved, and what its source needs. -/
structure Move where
  w : Width
  dst : RM
  value : State → Val w
  Ready : State → Prop

/-- The instructions that write one operand and no flag: MOV but to a segment register, LEA, XLAT, CBW, CWD, SLDT and STR. -/
def moveForm : Instr → Option Move
  | .movRmReg w m r => some ⟨w, m, fun s => s.getReg w r, fun _ => True⟩
  | .movRegRm w r m => some ⟨w, .reg r, fun s => valueOf s w m, fun s => CanRead s w m⟩
  | .movAccMoffs w o =>
    some ⟨w, .reg .r0, fun s => valueOf s w (.mem (.direct o)), fun s => CanRead s w (.mem (.direct o))⟩
  | .movMoffsAcc w o => some ⟨w, .mem (.direct o), fun s => s.acc w, fun _ => True⟩
  | .movRegImm r v => some ⟨v.width, .reg r, fun _ => v.val, fun _ => True⟩
  | .movRmImm m v => some ⟨v.width, m, fun _ => v.val, fun _ => True⟩
  | .movRmSreg m g => some ⟨.word, m, fun s => (s.seg g).sel, fun _ => True⟩
  | .lea r a => some ⟨.word, .reg r, fun s => ea s a, fun _ => True⟩
  | .xlat =>
    some ⟨.byte, .reg .r0, fun s => peek8 s (overridden s .ds) (s.regs.bx + s.al.setWidth 16),
      fun s => Accessible s (overridden s .ds) (s.regs.bx + s.al.setWidth 16).toNat 1 .read⟩
  | .cbw => some ⟨.word, .reg .r0, fun s => s.al.signExtend 16, fun _ => True⟩
  | .cwd => some ⟨.word, .reg .r2, fun s => (s.regs.ax.signExtend 32).extractLsb' 16 16, fun _ => True⟩
  | .sldt m => some ⟨.word, m, fun s => s.ldtr.sel, fun s => s.msw.pe = true⟩
  | .str m => some ⟨.word, m, fun s => s.tr.sel, fun s => s.msw.pe = true⟩
  | _ => none

/-- The frame of XCHG: only the register and the other operand are written. -/
def OnlyExchanged (s t : State) (w : Width) (m : RM) (r : RegNum) : Prop :=
  SameSystem s t ∧ t.ip = s.ip ∧ t.flags = s.flags ∧
    match m with
    | .mem a => OnlyReg s t w r ∧ MemoryBut s t w (opSeg s a) (ea s a)
    | .reg q => SameMemory s t ∧
        match w with
        | .byte => RegsBut s t [RegNum.home r, RegNum.home q] ∧ ∀ x, x ≠ r → x ≠ q → t.getB x = s.getB x
        | .word => RegsBut s t [r, q]

/-- A push: the word pushed, and what its source needs. -/
structure Pushed where
  value : State → Word
  Ready : State → Prop

/-- The forms of PUSH. -/
def pushForm : Instr → Option Pushed
  | .pushSreg g => some ⟨fun s => (s.seg g).sel, fun _ => True⟩
  | .pushReg r => some ⟨fun s => s.getW r, fun _ => True⟩
  | .pushRm m => some ⟨fun s => valueOf s .word m, fun s => CanRead s .word m⟩
  | .pushImm16 v => some ⟨fun _ => v, fun _ => True⟩
  | .pushImm8 v => some ⟨fun _ => v.signExtend 16, fun _ => True⟩
  | _ => none

/-- The forms of POP to a general register or memory: the destination. -/
def popForm : Instr → Option RM
  | .popReg r => some (.reg r)
  | .popRm m => some m
  | _ => none

/-- The top word of the stack. -/
def stackTop (s : State) : Word := peek16 s .ss s.regs.sp

/-- The forms of IN and OUT: whether it is OUT, the width and the port. -/
def portForm (s : State) : Instr → Option (Bool × Width × Word)
  | .inImm w v => some (false, w, v.setWidth 16)
  | .inDx w => some (false, w, s.regs.dx)
  | .outImm w v => some (true, w, v.setWidth 16)
  | .outDx w => some (true, w, s.regs.dx)
  | _ => none

/-- A word at an odd port is two byte bus operations (20_memory.md R94). -/
def OddPortWord (w : Width) (port : Word) : Prop := w = .word ∧ port.toNat % 2 = 1

/-- The I/O record `new` is `old` and, newest first, the bus operations of one access to a port (20_memory.md R94): one, or for a
word at an odd port the low byte at the port, then the high byte at the next one. -/
def PortAccess (old new : List IoEvent) (output : Bool) (w : Width) (port v : Word) : Prop :=
  (¬ OddPortWord w port → new = ⟨output, port, w, v⟩ :: old) ∧
  (OddPortWord w port → ∃ lo hi, new = ⟨output, port + 1, .byte, hi⟩ :: ⟨output, port, .byte, lo⟩ :: old ∧
    lo.toNat = v.toNat % 256 ∧ hi.toNat = v.toNat / 256)

/-- The value `v` is what the devices answer, free as it is, to one read of a port (20_memory.md R94; log 11): a word at an odd
port is the low bytes of two answers. -/
def PortAnswers (s : State) (w : Width) (port : Word) (v : Val w) : Prop :=
  (¬ OddPortWord w port → v = (Config.ioIn s.io.length port).setWidth w.bits) ∧
  (OddPortWord w port → v.toNat = (Config.ioIn s.io.length port).toNat % 256 +
    256 * ((Config.ioIn (s.io.length + 1) (port + 1)).toNat % 256))

/-- All but the I/O record is as `SameSystem` says. -/
def SameButIo (s t : State) : Prop := SameSystem { s with io := t.io } t

/-- All but one segment register, and the interrupt inhibition, is as `SameSystem` says. -/
def SameButSeg (s t : State) (x : SReg) : Prop :=
  SameSystem { s.setSeg x (t.seg x) with inhibitInt := t.inhibitInt } t

/-- A segment register as real mode loads it (10_state.md R26). -/
def LoadedReal (g : SegReg) (sel : Word) : Prop :=
  g.sel = sel ∧ g.base.toNat = sel.toNat * 16 ∧ g.limit = 0xFFFF ∧ g.valid = true

/-- The word a load of a segment register takes, and what its source needs: MOV and POP. -/
def segmentSource : Instr → Option (SReg × (State → Word) × (State → Prop))
  | .movSregRm g m => if g = .cs then none else some (g, fun s => valueOf s .word m, fun s => CanRead s .word m)
  | .popEs => some (.es, stackTop, fun s => CanPopAt s 0)
  | .popSs => some (.ss, stackTop, fun s => CanPopAt s 0)
  | .popDs => some (.ds, stackTop, fun s => CanPopAt s 0)
  | _ => none

/-- The instruction pops. -/
def isPop : Instr → Bool
  | .popEs => true
  | .popSs => true
  | .popDs => true
  | _ => false

/-- The two words of a far pointer in memory can be read. -/
def CanReadPair (s : State) (a : MemOp) : Prop :=
  Accessible s (opSeg s a) (ea s a).toNat 2 .read ∧ Accessible s (opSeg s a) ((ea s a).toNat + 2) 2 .read

/-- The first word of a memory operand. -/
def firstWord (s : State) (a : MemOp) : Word := peek16 s (opSeg s a) (ea s a)

/-- The second word of a memory operand. -/
def secondWord (s : State) (a : MemOp) : Word := peek16 s (opSeg s a) (ea s a + 2)

/-- What loading a selector into DS or ES raises in protected mode, if anything (20_memory.md R132): the selector must name a
descriptor inside its table, of readable type, with enough privilege, present. -/
def dataLoadFault (s : State) (sel : Word) : Option (Byte × Word) :=
  match fetchDescriptor s sel with
  | none => some (13, sel &&& 0xFFFC)
  | some (_, d) =>
    if arReadable d.ar = false then some (13, sel &&& 0xFFFC)
    else if ¬ (arE d.ar = true ∧ arC d.ar = true) ∧ (arDpl d.ar < s.cpl ∨ arDpl d.ar < rpl sel) then
      some (13, sel &&& 0xFFFC)
    else if arP d.ar = false then some (11, sel &&& 0xFFFC)
    else none

/-- What loading a selector into SS raises in protected mode, if anything (20_memory.md R133). -/
def stackLoadFault (s : State) (sel : Word) : Option (Byte × Word) :=
  if sel.toNat < 4 then some (13, 0)
  else
    match fetchDescriptor s sel with
    | none => some (13, sel &&& 0xFFFC)
    | some (_, d) =>
      if rpl sel ≠ s.cpl ∨ arDpl d.ar ≠ s.cpl ∨ arWritable d.ar = false then some (13, sel &&& 0xFFFC)
      else if arP d.ar = false then some (12, sel &&& 0xFFFC)
      else none

/-- The cache holds the descriptor, marked accessed, and the descriptor's accessed bit is set in memory; no other byte
changes. -/
def LoadedFrom (s t : State) (x : SReg) (sel : Word) (a : Phys) (d : Desc) : Prop :=
  t.seg x = { sel := sel, base := d.base, limit := d.limit, ar := d.ar ||| 1, valid := true } ∧
    t.load8 (a + 5) = d.ar ||| 1 ∧ ∀ p, p ≠ a + 5 → t.load8 p = s.load8 p

end Sys2Proof.Machine

/-- The instructions that move one value into one operand (40_data_transfer.md R241, R242, R259, R260; 41_arithmetic.md R300,
R301; 47_protection_control.md R506, R509): the destination takes the value, no flag and nothing else changes. XCHG in both
forms (R256): the two operands change places, nothing else changes. CBW and CWD are the spec's general knowledge in part
(R300, R301, G7), PRESUMED in log 40. -/
def Obligations.MovesAndExchanges : Prop :=
  (∀ (i : Instr) (o : Move) (s : State), moveForm i = some o → PlainMemory s → CanWrite s o.w o.dst → o.Ready s →
    ∃ t, exec i s = .next t ∧ valueIn s t o.w o.dst = o.value s ∧ t.flags = s.flags ∧ OnlyOperand s t o.w o.dst) ∧
  (∀ (w : Width) (m : RM) (r : RegNum) (s : State), PlainMemory s → CanWrite s w m →
    ∃ t, exec (.xchgRmReg w m r) s = .next t ∧ valueIn s t w m = s.getReg w r ∧ t.getReg w r = valueOf s w m ∧
      OnlyExchanged s t w m r) ∧
  (∀ (r : RegNum) (s : State), ∃ t, exec (.xchgAxReg r) s = .next t ∧ t.getW .r0 = s.getW r ∧ t.getW r = s.getW .r0 ∧
      OnlyExchanged s t .word (.reg r) .r0)

/-- PUSH in its five forms and PUSHF (R243, R245, R262): SP falls by 2, the word lies at the new top of the stack (PUSH SP
pushes the old SP; PUSHF a word with the defined flags in their places, bits 15, 5, 3 and 1 left open, log 6). POP to a
register or memory word (R244, R247, R248): the destination takes the top of the stack, its address computed before SP moves;
SP rises by 2. POP SP by 5C leaves the popped word in SP: general knowledge (R247's mark, G4), PRESUMED in log 40. By 8F C4 the
word is written to SP before SP rises by 2, the order of R248's listing (log 47). No flag and nothing else changes. -/
def Obligations.PushAndPopMoveOneWord : Prop :=
  (∀ (i : Instr) (o : Pushed) (s : State), pushForm i = some o → PlainMemory s → o.Ready s → CanPush s 1 →
    ∃ t, exec i s = .next t ∧ stackTop t = o.value s ∧ t.regs.sp = s.regs.sp - 2 ∧ t.flags = s.flags ∧
      SameSystem s t ∧ t.ip = s.ip ∧ RegsBut s t [.r4] ∧ MemoryBut s t .word .ss (s.regs.sp - 2)) ∧
  (∀ s : State, PlainMemory s → CanPush s 1 →
    ∃ t, exec .pushf s = .next t ∧ Flags.ofWord (stackTop t) = s.flags ∧ t.regs.sp = s.regs.sp - 2 ∧
      t.flags = s.flags ∧ SameSystem s t ∧ t.ip = s.ip ∧ RegsBut s t [.r4] ∧
      MemoryBut s t .word .ss (s.regs.sp - 2)) ∧
  (∀ (i : Instr) (m : RM) (s : State), popForm i = some m → PlainMemory s → CanPopAt s 0 → CanWrite s .word m →
    ∃ t, exec i s = .next t ∧
      (i ≠ .popRm (.reg .r4) → valueIn s t .word m = stackTop s) ∧
      (i = .popRm (.reg .r4) → t.regs.sp = stackTop s + 2) ∧ (m ≠ .reg .r4 → t.regs.sp = s.regs.sp + 2) ∧
      t.flags = s.flags ∧ SameSystem s t ∧ t.ip = s.ip ∧
      match m with
      | .reg r => RegsBut s t [.r4, r] ∧ SameMemory s t
      | .mem a => RegsBut s t [.r4] ∧ MemoryBut s t .word (opSeg s a) (ea s a))

/-- PUSHA and POPA (R246, R249): the eight registers go to the stack in the order of their numbers, SP as it was before; they
come back in the reverse order, the word for SP skipped; nothing else changes. -/
def Obligations.PushAllAndPopAll : Prop :=
  (∀ s : State, PlainMemory s → CanPush s 8 →
    ∃ t, exec .pusha s = .next t ∧
      (∀ r, peek16 t .ss (s.regs.sp - BitVec.ofNat 16 (2 * r.bits.toNat + 2)) = s.getW r) ∧
      t.regs.sp = s.regs.sp - 16 ∧ t.flags = s.flags ∧ SameSystem s t ∧ t.ip = s.ip ∧ RegsBut s t [.r4] ∧
      ∀ p, (∀ k, k < 16 → p ≠ segAddr s .ss (s.regs.sp - BitVec.ofNat 16 (k + 1))) → t.load8 p = s.load8 p) ∧
  (∀ s : State, (∀ k, k < 8 → CanPopAt s (BitVec.ofNat 16 (2 * k))) →
    ∃ t, exec .popa s = .next t ∧
      (∀ r, r ≠ .r4 → t.getW r = peek16 s .ss (s.regs.sp + BitVec.ofNat 16 (14 - 2 * r.bits.toNat))) ∧
      t.regs.sp = s.regs.sp + 16 ∧ t.flags = s.flags ∧ SameSystem s t ∧ t.ip = s.ip ∧ SameMemory s t)

/-- POPF (R263) loads the flags, IOPL only at CPL 0 in protected mode, IF only when CPL <= IOPL, NT and IOPL
not at all in real mode; too little privilege raises no exception; SP rises by 2; nothing else changes. A stack whose top word
cannot be read raises its exception with nothing changed. -/
def Obligations.PopfLoadsFlags : Prop :=
  (∀ s : State, ¬ CanPopAt s 0 → TakesException .popf s (faultVector s .ss .read) (some 0)) ∧
  (∀ s : State, CanPopAt s 0 →
    ∃ t, exec .popf s = .next t ∧
      (let v := Flags.ofWord (stackTop s)
       t.flags = { v with
         iopl := if s.msw.pe = true ∧ s.cpl = 0 then v.iopl else s.flags.iopl
         nt := if s.msw.pe = true then v.nt else s.flags.nt
         ief := if s.msw.pe = false ∨ s.cpl ≤ s.ioplNum then v.ief else s.flags.ief }) ∧
      t.regs.sp = s.regs.sp + 2 ∧ OnlyRegs s t [.r4])

/-- LAHF and SAHF (R264, R265), in both modes: LAHF copies SF, ZF, AF, PF and CF into bits 7, 6, 4, 2 and 0 of AH, whose bits 5,
3 and 1 are any value; SAHF loads these five flags from the same bits, ignores the others and leaves OF and the control flags;
nothing else changes. -/
def Obligations.FlagsMoveThroughAh : Prop :=
  (∀ s : State, ∃ t, exec .lahf s = .next t ∧
    t.ah.getLsbD 7 = s.flags.sf ∧ t.ah.getLsbD 6 = s.flags.zf ∧ t.ah.getLsbD 4 = s.flags.af ∧
    t.ah.getLsbD 2 = s.flags.pf ∧ t.ah.getLsbD 0 = s.flags.cf ∧ t.flags = s.flags ∧
    OnlyOperand s t .byte (.reg .r4)) ∧
  (∀ s : State, ∃ t, exec .sahf s = .next t ∧
    t.flags.sf = s.ah.getLsbD 7 ∧ t.flags.zf = s.ah.getLsbD 6 ∧ t.flags.af = s.ah.getLsbD 4 ∧
    t.flags.pf = s.ah.getLsbD 2 ∧ t.flags.cf = s.ah.getLsbD 0 ∧ t.flags.of = s.flags.of ∧
    SameControlFlags s.flags t.flags ∧ OnlyFlags s t)

/-- MOV, POP, LDS and LES into a segment register in real mode (10_state.md R26; R242, R247, R261): the base becomes sixteen
times the selector, the limit FFFFH; a load of SS inhibits interrupts for one instruction; POP moves SP, LDS and LES load their
register; nothing else changes. -/
def Obligations.RealModeSegmentLoads : Prop :=
  (∀ (i : Instr) (x : SReg) (v : State → Word) (Ready : State → Prop) (s : State),
    segmentSource i = some (x, v, Ready) → s.msw.pe = false → Ready s →
    ∃ t, exec i s = .next t ∧ LoadedReal (t.seg x) (v s) ∧
      t.inhibitInt = (s.inhibitInt || decide (x = .ss)) ∧ t.flags = s.flags ∧ SameButSeg s t x ∧ t.ip = s.ip ∧
      SameMemory s t ∧ t.regs = { s.regs with sp := if isPop i then s.regs.sp + 2 else s.regs.sp }) ∧
  (∀ (i : Instr) (x : SReg) (r : RegNum) (a : MemOp) (s : State),
    (i = .lds r a ∧ x = .ds ∨ i = .les r a ∧ x = .es) → s.msw.pe = false → CanReadPair s a →
    ∃ t, exec i s = .next t ∧ LoadedReal (t.seg x) (secondWord s a) ∧ t.getW r = firstWord s a ∧
      t.inhibitInt = s.inhibitInt ∧ t.flags = s.flags ∧ SameButSeg s t x ∧ t.ip = s.ip ∧ SameMemory s t ∧
      RegsBut s t [r])

/-- MOV and POP into DS, ES or SS, and LDS and LES, in protected mode (20_memory.md R131 to R133; R242, R247, R261): a null
selector makes DS or ES invalid; a selector whose descriptor fails a check raises the exception of that check with nothing
changed; else the cache takes the descriptor and its accessed bit is set. -/
def Obligations.ProtectedModeSegmentLoads : Prop :=
  (∀ (i : Instr) (x : SReg) (v : State → Word) (Ready : State → Prop) (s : State),
    segmentSource i = some (x, v, Ready) → s.msw.pe = true → PlainMemory s → Ready s →
    let fault := if x = .ss then stackLoadFault s (v s) else dataLoadFault s (v s)
    let Moved := fun t : State => t.flags = s.flags ∧ SameButSeg s t x ∧
      t.inhibitInt = (s.inhibitInt || decide (x = .ss)) ∧ t.ip = s.ip ∧
      t.regs = { s.regs with sp := if isPop i then s.regs.sp + 2 else s.regs.sp }
    (x ≠ .ss → (v s).toNat < 4 →
      ∃ t, exec i s = .next t ∧ t.seg x = { s.seg x with sel := v s, valid := false } ∧ SameMemory s t ∧ Moved t) ∧
    ((x = .ss ∨ 4 ≤ (v s).toNat) → ∀ n c, fault = some (n, c) → TakesException i s n (some c)) ∧
    ((x = .ss ∨ 4 ≤ (v s).toNat) → fault = none → ∀ a d, fetchDescriptor s (v s) = some (a, d) →
      ∃ t, exec i s = .next t ∧ LoadedFrom s t x (v s) a d ∧ Moved t)) ∧
  (∀ (i : Instr) (x : SReg) (r : RegNum) (p : MemOp) (s : State),
    (i = .lds r p ∧ x = .ds ∨ i = .les r p ∧ x = .es) → s.msw.pe = true → PlainMemory s → CanReadPair s p →
    let sel := secondWord s p
    let Moved := fun t : State => t.getW r = firstWord s p ∧ t.flags = s.flags ∧ SameButSeg s t x ∧
      t.inhibitInt = s.inhibitInt ∧ t.ip = s.ip ∧ RegsBut s t [r]
    (sel.toNat < 4 → ∃ t, exec i s = .next t ∧ t.seg x = { s.seg x with sel := sel, valid := false } ∧
      SameMemory s t ∧ Moved t) ∧
    (4 ≤ sel.toNat → ∀ n c, dataLoadFault s sel = some (n, c) → TakesException i s n (some c)) ∧
    (4 ≤ sel.toNat → dataLoadFault s sel = none → ∀ a d, fetchDescriptor s sel = some (a, d) →
      ∃ t, exec i s = .next t ∧ LoadedFrom s t x sel a d ∧ Moved t))

namespace Sys2Proof.Machine

/-! ### Strings -/

/-- How far SI and DI move: by the width, down when DF is set (43_string.md R350). -/
def stringStep (s : State) (w : Width) : Word :=
  if s.flags.df = true then -(BitVec.ofNat 16 w.bytes) else BitVec.ofNat 16 w.bytes

/-- The string instruction does something: it is not repeated, or CX is not 0 (R360). -/
def Iterates (s : State) : Prop := s.cur.rep = none ∨ s.regs.cx ≠ 0

/-- The prefix's condition on ZF ends a repeated comparison (R360). -/
def ComparisonEnds (k : RepKind) (zf : Bool) : Prop := (k = .repe ∧ zf = false) ∨ (k = .repne ∧ zf = true)

/-- One iteration's end (R360, R361): without a prefix CX stays and IP moves on; with one, CX falls by 1 and IP goes back to
the first prefix unless CX is 0 or, for CMPS and SCAS, the comparison ends it. -/
def IterationEnds (s t : State) (compares : Bool) : Prop :=
  match s.cur.rep with
  | none => t.regs.cx = s.regs.cx ∧ t.ip = s.ip
  | some k => t.regs.cx = s.regs.cx - 1 ∧
      ((s.regs.cx = 1 ∨ (compares = true ∧ ComparisonEnds k t.flags.zf)) → t.ip = s.ip) ∧
      (¬ (s.regs.cx = 1 ∨ (compares = true ∧ ComparisonEnds k t.flags.zf)) → t.ip = s.cur.ip)

/-- The source of a string instruction can be read: `DS:SI`, or the segment a prefix names. -/
def SourceReadable (s : State) (w : Width) : Prop :=
  Accessible s (overridden s .ds) s.regs.si.toNat w.bytes .read

/-- The source's value. -/
def stringSource (s : State) (w : Width) : Val w := peek s w (overridden s .ds) s.regs.si

/-- The string instructions. -/
def stringForms (w : Width) : List Instr := [.movs w, .cmps w, .scas w, .lods w, .stos w, .ins w, .outs w]

end Sys2Proof.Machine

/-- MOVS, STOS and LODS, alone or as one iteration under a prefix (43_string.md R350, R351, R354, R355, R360): the value goes
to ES:DI or to AL or AX, SI and DI move by the width in the direction DF says, no flag and nothing else changes. Any string
instruction under a prefix with CX = 0 does nothing at all. F2 before MOVS, STOS and LODS repeats as F3 does (30_encoding.md
R193, D16, DESIGN CHOICE in log 30). -/
def Obligations.StringMovesTransferOneElement : Prop :=
  (∀ (i : Instr) (w : Width) (k : RepKind) (s : State), i ∈ stringForms w → s.cur.rep = some k → s.regs.cx = 0 →
    exec i s = .next s) ∧
  (∀ (w : Width) (s : State), PlainMemory s → Iterates s → SourceReadable s w →
    Accessible s .es s.regs.di.toNat w.bytes .write →
    ∃ t, exec (.movs w) s = .next t ∧ peek t w .es s.regs.di = stringSource s w ∧
      t.regs.si = s.regs.si + stringStep s w ∧ t.regs.di = s.regs.di + stringStep s w ∧ IterationEnds s t false ∧
      t.flags = s.flags ∧ SameSystem s t ∧ RegsBut s t [.r1, .r6, .r7] ∧ MemoryBut s t w .es s.regs.di) ∧
  (∀ (w : Width) (s : State), PlainMemory s → Iterates s → Accessible s .es s.regs.di.toNat w.bytes .write →
    ∃ t, exec (.stos w) s = .next t ∧ peek t w .es s.regs.di = s.acc w ∧
      t.regs.di = s.regs.di + stringStep s w ∧ IterationEnds s t false ∧
      t.flags = s.flags ∧ SameSystem s t ∧ RegsBut s t [.r1, .r7] ∧ MemoryBut s t w .es s.regs.di) ∧
  (∀ (w : Width) (s : State), Iterates s → SourceReadable s w →
    ∃ t, exec (.lods w) s = .next t ∧ t.acc w = stringSource s w ∧ (w = .byte → t.ah = s.ah) ∧
      t.regs.si = s.regs.si + stringStep s w ∧ IterationEnds s t false ∧
      t.flags = s.flags ∧ SameSystem s t ∧ RegsBut s t [.r0, .r1, .r6] ∧ SameMemory s t)

/-- CMPS and SCAS, alone or as one iteration under a prefix (R350, R352, R353, R360): the flags of source minus ES:DI, or of AL
or AX minus ES:DI; only SI, DI and CX move. CMPS is the spec's general knowledge (R352, G10), PRESUMED in log 40. Between
its two reads another bus master may have written memory, LOCK or not (20_memory.md R160, 46_processor_control.md R480, 93 U31,
log 48). -/
def Obligations.StringComparesSetFlags : Prop :=
  (∀ (w : Width) (s : State), Iterates s → SourceReadable s w → Accessible s .es s.regs.di.toNat w.bytes .read →
    let second := peek (s.later .second) w .es s.regs.di
    ∃ t, exec (.cmps w) s = .next t ∧
      (∃ d : Val w, (d.toNat + second.toNat) % 2 ^ w.bits = (stringSource s w).toNat ∧ StatusOf t.flags w d) ∧
      SubtractionFlags t.flags w (stringSource s w) second 0 ∧
      t.regs.si = s.regs.si + stringStep s w ∧ t.regs.di = s.regs.di + stringStep s w ∧ IterationEnds s t true ∧
      SameControlFlags s.flags t.flags ∧ SameSystem s t ∧ RegsBut s t [.r1, .r6, .r7] ∧ SameMemory s t) ∧
  (∀ (w : Width) (s : State), Iterates s → Accessible s .es s.regs.di.toNat w.bytes .read →
    ∃ t, exec (.scas w) s = .next t ∧
      (∃ d : Val w, (d.toNat + (peek s w .es s.regs.di).toNat) % 2 ^ w.bits = (s.acc w).toNat ∧
        StatusOf t.flags w d) ∧
      SubtractionFlags t.flags w (s.acc w) (peek s w .es s.regs.di) 0 ∧
      t.regs.di = s.regs.di + stringStep s w ∧ IterationEnds s t true ∧
      SameControlFlags s.flags t.flags ∧ SameSystem s t ∧ RegsBut s t [.r1, .r7] ∧ SameMemory s t)

/-- IN and OUT in their four forms, INS and OUTS, alone or as one iteration under a prefix (R257, R258; 43_string.md R350, R356,
R357, R360; 60_exceptions.md R590): with CPL <= IOPL, or in real mode, IN loads AL or AX with what the device answers and OUT
hands AL or AX to it, INS stores the answer at ES:DI and OUTS hands over the source; the access joins the I/O record, a word at
an odd port as two byte bus operations, low byte first (20_memory.md R94); without the privilege, #GP(0). What the device answers
is free, and every port, a reserved one and a word at FFFFH, whose high byte goes to port 0000H, too, is treated alike (log 11).
 F2 repeats INS and OUTS as F3 does (30_encoding.md R193, D16, DESIGN CHOICE in log 30). -/
def Obligations.PortTransfers : Prop :=
  (∀ (i : Instr) (out : Bool) (w : Width) (port : Word) (s : State), portForm s i = some (out, w, port) →
    (¬ IoAllowed s → TakesException i s 13 (some 0)) ∧
    (IoAllowed s → ∃ t, exec i s = .next t ∧ t.flags = s.flags ∧ SameButIo s t ∧ t.ip = s.ip ∧ SameMemory s t ∧
      (out = true → PortAccess s.io t.io true w port ((s.acc w).setWidth 16) ∧ RegsBut s t []) ∧
      (out = false → PortAnswers s w port (t.acc w) ∧ PortAccess s.io t.io false w port ((t.acc w).setWidth 16) ∧
        OnlyReg s t w .r0))) ∧
  (∀ (w : Width) (s : State), Iterates s → ¬ IoAllowed s →
    TakesException (.ins w) s 13 (some 0) ∧ TakesException (.outs w) s 13 (some 0)) ∧
  (∀ (w : Width) (s : State), PlainMemory s → Iterates s → IoAllowed s →
    Accessible s .es s.regs.di.toNat w.bytes .write →
    ∃ t, exec (.ins w) s = .next t ∧
      PortAnswers s w s.regs.dx (peek t w .es s.regs.di) ∧
      PortAccess s.io t.io false w s.regs.dx ((peek t w .es s.regs.di).setWidth 16) ∧
      t.regs.di = s.regs.di + stringStep s w ∧ IterationEnds s t false ∧
      t.flags = s.flags ∧ SameButIo s t ∧ RegsBut s t [.r1, .r7] ∧ MemoryBut s t w .es s.regs.di) ∧
  (∀ (w : Width) (s : State), Iterates s → IoAllowed s → SourceReadable s w →
    ∃ t, exec (.outs w) s = .next t ∧ PortAccess s.io t.io true w s.regs.dx ((stringSource s w).setWidth 16) ∧
      t.regs.si = s.regs.si + stringStep s w ∧ IterationEnds s t false ∧
      t.flags = s.flags ∧ SameButIo s t ∧ RegsBut s t [.r1, .r6] ∧ SameMemory s t)

namespace Sys2Proof.Machine

/-! ### Transfers within a segment -/

/-- The short jumps: the condition and the displacement (44_control_transfer.md R380 to R382). For the LOOP forms the condition
looks at CX before it is decremented. -/
def shortJumpForm (s : State) : Instr → Option (Prop × Byte)
  | .jo d => some (s.flags.of = true, d)
  | .jno d => some (s.flags.of = false, d)
  | .jb d => some (s.flags.cf = true, d)
  | .jnb d => some (s.flags.cf = false, d)
  | .je d => some (s.flags.zf = true, d)
  | .jne d => some (s.flags.zf = false, d)
  | .jbe d => some (s.flags.cf = true ∨ s.flags.zf = true, d)
  | .jnbe d => some (s.flags.cf = false ∧ s.flags.zf = false, d)
  | .js d => some (s.flags.sf = true, d)
  | .jns d => some (s.flags.sf = false, d)
  | .jp d => some (s.flags.pf = true, d)
  | .jnp d => some (s.flags.pf = false, d)
  | .jl d => some (s.flags.sf ≠ s.flags.of, d)
  | .jnl d => some (s.flags.sf = s.flags.of, d)
  | .jle d => some (s.flags.zf = true ∨ s.flags.sf ≠ s.flags.of, d)
  | .jnle d => some (s.flags.zf = false ∧ s.flags.sf = s.flags.of, d)
  | .jcxz d => some (s.regs.cx.toNat = 0, d)
  | .loop d => some (s.regs.cx.toNat ≠ 1, d)
  | .loope d => some (s.regs.cx.toNat ≠ 1 ∧ s.flags.zf = true, d)
  | .loopne d => some (s.regs.cx.toNat ≠ 1 ∧ s.flags.zf = false, d)
  | _ => none

/-- The instruction decrements CX. -/
def isLoop : Instr → Bool
  | .loop _ => true
  | .loope _ => true
  | .loopne _ => true
  | _ => false

/-- A transfer target lies inside the code segment; tested in protected mode only (R370). -/
def TargetOk (s : State) (ip : Word) : Prop := s.msw.pe = true → ip.toNat ≤ s.cs.limit.toNat

/-- Only IP is written. -/
def OnlyIp (s t : State) (ip : Word) : Prop :=
  t.ip = ip ∧ t.flags = s.flags ∧ SameSystem s t ∧ RegsBut s t [] ∧ SameMemory s t

/-- The near jumps: the target and what reading it needs (R373, R374). -/
def nearJumpForm (s : State) : Instr → Option (Word × Prop)
  | .jmpRel8 d => some (s.ip + d.signExtend 16, True)
  | .jmpRel16 d => some (s.ip + d, True)
  | .jmpRm m => some (valueOf s .word m, CanRead s .word m)
  | _ => none

/-- The near calls: the target and what reading it needs (R376). -/
def nearCallForm (s : State) : Instr → Option (Word × Prop)
  | .callRel d => some (s.ip + d, True)
  | .callRm m => some (valueOf s .word m, CanRead s .word m)
  | _ => none

/-- The near returns: how many bytes they release (R385). -/
def nearReturnForm : Instr → Option Word
  | .ret => some 0
  | .retImm v => some v
  | _ => none

/-- A byte of the `n` words below the top of the stack. -/
def BelowTop (s : State) (n : Nat) (p : Phys) : Prop :=
  ∃ k, k < 2 * n ∧ p = segAddr s .ss (s.regs.sp - BitVec.ofNat 16 (k + 1))

/-- A word of the display that ENTER copies from (R390). -/
def displayWord (s : State) (j : Nat) : Word := s.regs.bp - BitVec.ofNat 16 (2 * j)

end Sys2Proof.Machine

/-- Jcc, JCXZ and the LOOP forms (R380 to R382): the jump is taken exactly when its condition holds, to IP plus the
sign-extended displacement; not taken, IP stays at the next instruction; the LOOP forms decrement CX; nothing else changes. A
target outside the code segment raises #GP(0) (R370) with nothing changed: that the decrement of CX is then not committed, and
that CX = 0 becomes FFFFH, are the spec's own inferences (R382's marks, from 60_exceptions.md R536). -/
def Obligations.ShortJumpsFollowTheirConditions : Prop :=
  ∀ (i : Instr) (c : Prop) (d : Byte) (s : State), shortJumpForm s i = some (c, d) →
    let target := s.ip + d.signExtend 16
    let Done := fun t : State => t.flags = s.flags ∧ SameSystem s t ∧ SameMemory s t ∧
      t.regs = { s.regs with cx := if isLoop i then s.regs.cx - 1 else s.regs.cx }
    (¬ c → ∃ t, exec i s = .next t ∧ t.ip = s.ip ∧ Done t) ∧
    (c → TargetOk s target → ∃ t, exec i s = .next t ∧ t.ip = target ∧ Done t) ∧
    (c → ¬ TargetOk s target → TakesException i s 13 (some 0))

/-- Near JMP, CALL and RET (R370 to R376, R385): the target becomes IP if it lies in the code segment, else #GP(0) with nothing
changed; CALL pushes the address of the next instruction; RET takes its target from the stack and releases its operand's bytes;
nothing else changes. The source has no page of CALL: that CALL tests its target before the stack, so that a target outside is
#GP(0) even where the stack has no room, and that nothing is changed when a test fails, are the spec's own inferences from the
listings of INT and RET and from 60_exceptions.md R536, as is that RET tests its target before SP moves (R372's mark,
91_not_in_source.md N1). -/
def Obligations.NearTransfers : Prop :=
  (∀ (i : Instr) (ip : Word) (Ready : Prop) (s : State), nearJumpForm s i = some (ip, Ready) → Ready →
    (TargetOk s ip → ∃ t, exec i s = .next t ∧ OnlyIp s t ip) ∧
    (¬ TargetOk s ip → TakesException i s 13 (some 0))) ∧
  (∀ (i : Instr) (ip : Word) (Ready : Prop) (s : State), nearCallForm s i = some (ip, Ready) → Ready →
    PlainMemory s →
    (TargetOk s ip → CanPush s 1 → ∃ t, exec i s = .next t ∧ t.ip = ip ∧ stackTop t = s.ip ∧
      t.regs.sp = s.regs.sp - 2 ∧ t.flags = s.flags ∧ SameSystem s t ∧ RegsBut s t [.r4] ∧
      MemoryBut s t .word .ss (s.regs.sp - 2)) ∧
    (¬ TargetOk s ip → TakesException i s 13 (some 0))) ∧
  (∀ (i : Instr) (n : Word) (s : State), nearReturnForm i = some n → CanPopAt s 0 →
    (TargetOk s (stackTop s) → ∃ t, exec i s = .next t ∧ t.ip = stackTop s ∧ t.regs.sp = s.regs.sp + 2 + n ∧
      t.flags = s.flags ∧ SameSystem s t ∧ RegsBut s t [.r4] ∧ SameMemory s t) ∧
    (¬ TargetOk s (stackTop s) → TakesException i s 13 (some 0)))

/-- ENTER, LEAVE and BOUND (R390 to R392): ENTER with nesting level L (modulo 32) pushes BP, then L - 1 words of the old display
and the new frame's address, makes BP the new frame and lowers SP by its operand; where the old display does not overlap the
words pushed, the words copied are the old display's. LEAVE undoes it. BOUND with the register between the two signed words,
bounds included, changes nothing, and raises exception 5 outside. Nothing else changes. ENTER (with L modulo 32) and BOUND are
the spec's general knowledge (R390, R392, G11, G12), PRESUMED in log 40; an ENTER that faults part way (log 25) is left out. -/
def Obligations.HighLevelInstructions : Prop :=
(∀ (v : Word) (l : Byte) (s : State),
    let n := l.toNat % 32
    let frame := s.regs.sp - 2
    PlainMemory s → CanPush s (n + 1) →
    (∀ j, 1 ≤ j → j < n → Accessible s .ss (displayWord s j).toNat 2 .read) →
    ∃ t, exec (.enter v l) s = .next t ∧ t.regs.bp = frame ∧
      t.regs.sp = frame - BitVec.ofNat 16 (2 * n) - v ∧ peek16 t .ss frame = s.regs.bp ∧
      (n ≠ 0 → peek16 t .ss (frame - BitVec.ofNat 16 (2 * n)) = frame) ∧
      ((∀ j p, 1 ≤ j → j < n → Touches s .word .ss (displayWord s j) p → ¬ BelowTop s (n + 1) p) →
        ∀ j, 1 ≤ j → j < n → peek16 t .ss (frame - BitVec.ofNat 16 (2 * j)) = peek16 s .ss (displayWord s j)) ∧
      t.flags = s.flags ∧ SameSystem s t ∧ t.ip = s.ip ∧ RegsBut s t [.r4, .r5] ∧
      ∀ p, ¬ BelowTop s (n + 1) p → t.load8 p = s.load8 p) ∧
  (∀ s : State, Accessible s .ss s.regs.bp.toNat 2 .read →
    ∃ t, exec .leave s = .next t ∧ t.regs.bp = peek16 s .ss s.regs.bp ∧ t.regs.sp = s.regs.bp + 2 ∧
      t.flags = s.flags ∧ OnlyRegs s t [.r4, .r5]) ∧
  (∀ (r : RegNum) (a : MemOp) (s : State), CanReadPair s a →
    ((firstWord s a).toInt ≤ (s.getW r).toInt ∧ (s.getW r).toInt ≤ (secondWord s a).toInt →
      exec (.bound r a) s = .next s) ∧
    ((s.getW r).toInt < (firstWord s a).toInt ∨ (secondWord s a).toInt < (s.getW r).toInt →
      TakesException (.bound r a) s 5 none))

namespace Sys2Proof.Machine

/-! ### Far transfers and interrupts in real mode -/

/-- The far jumps and calls: whether it is a call, the target's selector and offset, and what reading them needs (44 R375,
R377). -/
def farForm (s : State) : Instr → Option (Bool × Word × Word × Prop)
  | .jmpFar o c => some (false, c, o, True)
  | .jmpFarMem a => some (false, secondWord s a, firstWord s a, CanReadPair s a)
  | .callFar o c => some (true, c, o, True)
  | .callFarMem a => some (true, secondWord s a, firstWord s a, CanReadPair s a)
  | _ => none

/-- The far returns: how many bytes they release (44 R386). -/
def farReturnForm : Instr → Option Word
  | .retFar => some 0
  | .retFarImm v => some v
  | _ => none

/-- The word `k` bytes above the top of the stack. -/
def stackAt (s : State) (k : Word) : Word := peek16 s .ss (s.regs.sp + k)

/-- The processor but for CS is as it was. -/
def SameButCs (s t : State) : Prop := SameSystem { s with cs := t.cs } t

/-- The flags as IRET and POPF take them from a word (R263, R434; 10_state.md R35). -/
def loadedFlags (s : State) (v : Word) : Flags :=
  { Flags.ofWord v with
    iopl := if s.msw.pe = true ∧ s.cpl = 0 then (Flags.ofWord v).iopl else s.flags.iopl
    nt := if s.msw.pe = true then (Flags.ofWord v).nt else s.flags.nt
    ief := if s.msw.pe = false ∨ s.cpl ≤ s.ioplNum then (Flags.ofWord v).ief else s.flags.ief }

/-- The INT instructions: the vector (44 R400, R401). -/
def interruptForm : Instr → Option Byte
  | .int3 => some 3
  | .intImm v => some v
  | .into => some 4
  | _ => none

/-- Vector `n` is entered in real mode (60_exceptions.md R561): FLAGS, CS and the return offset are pushed, IF and TF
cleared, CS:IP loaded from the table; the halt ends, no prefix stays noted; nothing else changes. -/
def EntersReal (s t : State) (n : Nat) (ret : Word) : Prop :=
  let e := s.idtr.base + BitVec.ofNat 24 (4 * n)
  t.ip = s.load16 e ∧ LoadedReal t.cs (s.load16 (e + 2)) ∧
    Flags.ofWord (peek16 t .ss (s.regs.sp - 2)) = s.flags ∧ peek16 t .ss (s.regs.sp - 4) = s.cs.sel ∧
    peek16 t .ss (s.regs.sp - 6) = ret ∧ t.regs = { s.regs with sp := s.regs.sp - 6 } ∧
    t.flags = { s.flags with ief := false, tf := false } ∧ t.halted = false ∧ t.shutdown = s.shutdown ∧
    (∀ p, ¬ BelowTop s 3 p → t.load8 p = s.load8 p) ∧ t.es = s.es ∧ t.ss = s.ss ∧ t.ds = s.ds ∧ t.msw = s.msw ∧
    t.gdtr = s.gdtr ∧ t.idtr = s.idtr ∧ t.ldtr = s.ldtr ∧ t.tr = s.tr ∧ t.pins = s.pins ∧ t.memMap = s.memMap ∧
    t.io = s.io ∧ t.ext = s.ext ∧ t.cur = Cur.at s.cur.ip

end Sys2Proof.Machine

/-- JMP, CALL, RET far and IRET in real mode (44 R371, R375, R377, R386, R409): CS and IP take the target; CALL first pushes CS
and the next instruction's offset, and raises exception 13 if the stack cannot take them; RET and IRET take IP and CS, IRET
also FLAGS but IOPL and NT, from the stack, and SP rises past them and past the bytes RET releases; IRET opens NMI again;
nothing else changes. -/
def Obligations.RealModeFarTransfers : Prop :=
  (∀ (i : Instr) (call : Bool) (sel off : Word) (Ready : Prop) (s : State),
    farForm s i = some (call, sel, off, Ready) → s.msw.pe = false → PlainMemory s → Ready →
    (call = false → ∃ t, exec i s = .next t ∧ LoadedReal t.cs sel ∧ t.ip = off ∧ t.flags = s.flags ∧ SameButCs s t ∧
      RegsBut s t [] ∧ SameMemory s t) ∧
    (call = true → CanPush s 2 → ∃ t, exec i s = .next t ∧ LoadedReal t.cs sel ∧ t.ip = off ∧
      stackAt t 0 = s.ip ∧ stackAt t 2 = s.cs.sel ∧ t.regs = { s.regs with sp := s.regs.sp - 4 } ∧
      t.flags = s.flags ∧ SameButCs s t ∧ ∀ p, ¬ BelowTop s 2 p → t.load8 p = s.load8 p) ∧
    (call = true → ¬ CanPush s 2 → TakesException i s 13 (some 0))) ∧
  (∀ (i : Instr) (n : Word) (s : State), farReturnForm i = some n → s.msw.pe = false → CanPopAt s 0 → CanPopAt s 2 →
    ∃ t, exec i s = .next t ∧ t.ip = stackAt s 0 ∧ LoadedReal t.cs (stackAt s 2) ∧
      t.regs = { s.regs with sp := s.regs.sp + 4 + n } ∧ t.flags = s.flags ∧ SameButCs s t ∧ SameMemory s t) ∧
  (∀ s : State, s.msw.pe = false → CanPopAt s 0 → CanPopAt s 2 → CanPopAt s 4 →
    ∃ t, exec .iret s = .next t ∧ t.ip = stackAt s 0 ∧ LoadedReal t.cs (stackAt s 2) ∧
      t.flags = loadedFlags s (stackAt s 4) ∧ t.regs = { s.regs with sp := s.regs.sp + 6 } ∧
      SameButCs { s with nmiInService := false } t ∧ SameMemory s t)

/-- INT 3, INT n and INTO in real mode (44 R400, R401; 60_exceptions.md R561, R585): the vector is entered with the next
instruction as return address when the table holds it and the stack takes three words; without stack room the processor shuts
down with its registers as they were; INTO with OF clear does nothing. That every vector clears TF, and the test 4n + 3 <=
limit, are the spec's general knowledge (R561's marks, G19), PRESUMED in log 40. A vector outside the table is
UndeliverableExceptionsShutDown's matter (log 45). -/
def Obligations.RealModeSoftwareInterrupts : Prop :=
  (∀ s : State, s.flags.of = false → exec .into s = .next s) ∧
  (∀ (i : Instr) (n : Byte) (s : State), interruptForm i = some n → (i = .into → s.flags.of = true) →
    s.msw.pe = false → PlainMemory s → 4 * n.toNat + 3 ≤ s.idtr.limit.toNat →
    (CanPush s 3 → ∃ t, exec i s = .next t ∧ EntersReal s t n.toNat s.ip ∧
      SameButCs { s with halted := false, cur := Cur.at s.cur.ip } t) ∧
    (¬ CanPush s 3 → ∃ t, exec i s = .next t ∧ t.shutdown = true ∧ t.regs = s.regs ∧ t.flags = s.flags ∧
      t.ip = s.ip ∧ SameSystem { s with shutdown := true, halted := false, cur := Cur.at s.cur.ip } t ∧
      SameMemory s t))

/-- An interrupt and the IRET that answers it, in real mode (44 R400, R409; 60_exceptions.md R561, R566): from the state that
INT n leaves, IRET comes back to the next instruction with every general register, every flag, every segment selector and
every byte of memory outside the three pushed words as before. -/
def Obligations.InterruptReturnUndoesInterrupt : Prop :=
  ∀ (n : Byte) (s t : State), s.msw.pe = false → PlainMemory s → 4 * n.toNat + 3 ≤ s.idtr.limit.toNat →
    CanPush s 3 → exec (.intImm n) s = .next t →
    ∃ u, exec .iret t = .next u ∧ u.ip = s.ip ∧ u.regs = s.regs ∧ u.flags = s.flags ∧ LoadedReal u.cs s.cs.sel ∧
      u.es = s.es ∧ u.ss = s.ss ∧ u.ds = s.ds ∧ u.msw = s.msw ∧ u.nmiInService = false ∧
      ∀ p, ¬ BelowTop s 3 p → u.load8 p = s.load8 p

namespace Sys2Proof.Machine

/-! ### Protected mode transfers -/

/-- A code segment that the level may enter directly by JMP or CALL (45_protected_transfer.md R423, R424). -/
def DirectEnterable (s : State) (sel : Word) (d : Desc) : Prop :=
  arCode d.ar = true ∧
    ((arC d.ar = true ∧ arDpl d.ar ≤ s.cpl) ∨ (arC d.ar = false ∧ rpl sel ≤ s.cpl ∧ arDpl d.ar = s.cpl))

/-- It is also present. -/
def DirectTarget (s : State) (sel : Word) (d : Desc) : Prop := DirectEnterable s sel d ∧ arP d.ar = true

/-- CS as a transfer loads it: the selector with the privilege level in its low bits, the descriptor marked accessed
(R422). -/
def codeCache (sel : Word) (d : Desc) (cpl : Nat) : SegReg :=
  { sel := (sel &&& 0xFFFC) ||| BitVec.ofNat 16 cpl, base := d.base, limit := d.limit, ar := d.ar ||| 1, valid := true }

/-- The descriptor is one that a far JMP or CALL goes through: a call gate, a task gate, or an available task state segment of
the GDT (R430). -/
def IndirectTarget (sel : Word) (d : Desc) : Prop :=
  d.isType 4 = true ∨ d.isType 5 = true ∨ (d.isType 1 = true ∧ selLocal sel = false)

/-- The selector of a far JMP or CALL fails the checks that come before those of the stack and the offset (R423, R424, R430,
R431): it is null, names no descriptor, names neither code nor a gate nor an available task state segment, or names code that
the level may not enter or that is not present. The vector and the error code raised. -/
def DirectFault (s : State) (sel : Word) (n : Byte) (c : Word) : Prop :=
  (sel.toNat < 4 ∧ n = 13 ∧ c = 0) ∨
  (4 ≤ sel.toNat ∧ c = sel &&& 0xFFFC ∧
    ((fetchDescriptor s sel = none ∧ n = 13) ∨
      ∃ a d, fetchDescriptor s sel = some (a, d) ∧
        ((arCode d.ar = false ∧ ¬ IndirectTarget sel d ∧ n = 13) ∨
          (arCode d.ar = true ∧
            ((arC d.ar = true ∧ s.cpl < arDpl d.ar ∨ arC d.ar = false ∧ (s.cpl < rpl sel ∨ arDpl d.ar ≠ s.cpl)) ∧
              n = 13)) ∨
          (DirectEnterable s sel d ∧ arP d.ar = false ∧ n = 11))))

/-- The code segment is entered at an offset after `n` words have been pushed on the current stack: CS takes the descriptor
with the level, the accessed bit is set, SP is lowered; no other register, flag or byte changes (R422). -/
def EntersCode (s t : State) (sel : Word) (a : Phys) (d : Desc) (off : Word) (cpl n : Nat) : Prop :=
  t.cs = codeCache sel d cpl ∧ t.ip = off ∧ t.flags = s.flags ∧
    t.regs = { s.regs with sp := s.regs.sp - BitVec.ofNat 16 (2 * n) } ∧ t.load8 (a + 5) = d.ar ||| 1 ∧
    (∀ p, p ≠ a + 5 → ¬ BelowTop s n p → t.load8 p = s.load8 p) ∧ SameButCs s t

/-- SS:SP for level `p` as the current task state segment gives them, with the descriptor of SS, all checks passed (R427). -/
def InnerStackIs (s : State) (p : Nat) (ss sp : Word) (a : Phys) (d : Desc) : Prop :=
  4 * p + 5 ≤ s.tr.limit.toNat ∧ sp = s.load16 (s.tr.base + BitVec.ofNat 24 (2 + 4 * p)) ∧
    ss = s.load16 (s.tr.base + BitVec.ofNat 24 (4 + 4 * p)) ∧ 4 ≤ ss.toNat ∧ fetchDescriptor s ss = some (a, d) ∧
    rpl ss = p ∧ arDpl d.ar = p ∧ arWritable d.ar = true ∧ arP d.ar = true

/-- SS:SP for level `p` fails its checks (R427): the current task state segment is too short, the selector is null, names no
descriptor, has the wrong privilege or type, or is not present. `ext` joins the error codes. The first case is the spec's general
knowledge (G13, PRESUMED in log 40). -/
def InnerStackFault (s : State) (p : Nat) (ext : Bool) (n : Byte) (c : Word) : Prop :=
  let ss := s.load16 (s.tr.base + BitVec.ofNat 24 (4 + 4 * p))
  let e := if ext then 1 else 0
  (s.tr.limit.toNat < 4 * p + 5 ∧ n = 10 ∧ c = (s.tr.sel &&& 0xFFFC) + e) ∨
  (4 * p + 5 ≤ s.tr.limit.toNat ∧ ss.toNat < 4 ∧ n = 13 ∧ c = e) ∨
  (4 * p + 5 ≤ s.tr.limit.toNat ∧ 4 ≤ ss.toNat ∧ c = (ss &&& 0xFFFC) + e ∧
    ((fetchDescriptor s ss = none ∧ n = 10) ∨
      ∃ a d, fetchDescriptor s ss = some (a, d) ∧
        ((¬ (rpl ss = p ∧ arDpl d.ar = p ∧ arWritable d.ar = true) ∧ n = 10) ∨
          (rpl ss = p ∧ arDpl d.ar = p ∧ arWritable d.ar = true ∧ arP d.ar = false ∧ n = 12))))

/-- The cache of a segment whose descriptor is `d`. -/
def segmentCache (sel : Word) (d : Desc) : SegReg :=
  { sel := sel, base := d.base, limit := d.limit, ar := d.ar ||| 1, valid := true }

/-- A stack segment has room for `n` words below `sp` (60_exceptions.md R563). -/
def RoomBelow (g : SegReg) (sp : Word) (n : Nat) : Prop :=
  ∀ k, k < n → Within g (sp - BitVec.ofNat 16 (2 * (k + 1))).toNat 2

/-- A gate a JMP or CALL may use: a present call gate, visible at the level and at the selector's (R425). -/
def UsableCallGate (s : State) (sel : Word) (g : Desc) : Prop :=
  g.isType 4 = true ∧ s.cpl ≤ arDpl g.ar ∧ rpl sel ≤ arDpl g.ar ∧ arP g.ar = true

/-- The gate names a present code segment and an offset inside it. -/
def GateTarget (s : State) (g : Desc) (a : Phys) (d : Desc) : Prop :=
  4 ≤ g.selector.toNat ∧ fetchDescriptor s g.selector = some (a, d) ∧ arCode d.ar = true ∧ arP d.ar = true ∧
    g.offset.toNat ≤ d.limit.toNat

/-- A gate or task state segment named by JMP or CALL is not visible, or not present (R425). -/
def GateHidden (s : State) (sel : Word) (g : Desc) (n : Byte) (c : Word) : Prop :=
  c = sel &&& 0xFFFC ∧
    (((arDpl g.ar < s.cpl ∨ arDpl g.ar < rpl sel) ∧ n = 13) ∨
      (s.cpl ≤ arDpl g.ar ∧ rpl sel ≤ arDpl g.ar ∧ arP g.ar = false ∧ n = 11))

/-- The level may enter the code segment that a call gate names: conforming, or for JMP at the same level, for CALL at the same
or an inner one (R421, R430, R431). -/
def GateEnterable (s : State) (call : Bool) (d : Desc) : Prop :=
  arDpl d.ar ≤ s.cpl ∧ (call = false → arC d.ar = false → arDpl d.ar = s.cpl)

/-- What a call gate names fails its checks: null, no descriptor, no code, privilege, not present (R430, R431). -/
def GateTargetFault (s : State) (call : Bool) (g : Desc) (n : Byte) (c : Word) : Prop :=
  (g.selector.toNat < 4 ∧ n = 13 ∧ c = 0) ∨
  (4 ≤ g.selector.toNat ∧ c = g.selector &&& 0xFFFC ∧
    ((fetchDescriptor s g.selector = none ∧ n = 13) ∨
      ∃ a d, fetchDescriptor s g.selector = some (a, d) ∧
        ((¬ (arCode d.ar = true ∧ GateEnterable s call d) ∧ n = 13) ∨
          (arCode d.ar = true ∧ GateEnterable s call d ∧ arP d.ar = false ∧ n = 11))))

/-- The task state segment that a task gate names fails its checks: null (20_memory.md R131, log 50), local, no descriptor, not
available, not present, shorter than 44 bytes (R430, R440 step 1, R564). `ext` joins the last one's code alone, as the listings
have it. -/
def TaskGateFault (s : State) (sel : Word) (ext : Bool) (n : Byte) (c : Word) : Prop :=
  ((sel.toNat < 4 ∨ selLocal sel = true ∨ fetchDescriptor s sel = none) ∧ n = 13 ∧ c = sel &&& 0xFFFC) ∨
  ∃ a d, 4 ≤ sel.toNat ∧ selLocal sel = false ∧ fetchDescriptor s sel = some (a, d) ∧
    ((d.isType 1 = false ∧ n = 13 ∧ c = sel &&& 0xFFFC) ∨
      (d.isType 1 = true ∧ arP d.ar = false ∧ n = 11 ∧ c = sel &&& 0xFFFC) ∨
      (d.isType 1 = true ∧ arP d.ar = true ∧ d.limit.toNat < 0x2B ∧ n = 10 ∧
        c = (sel &&& 0xFFFC) + (if ext then 1 else 0)))

/-! ### Task switches -/

/-- A task about to be entered: the selector of its task state segment, where that descriptor lies and what it is, and what
LDTR, CS, SS, DS and ES of the task will hold: the descriptors their selectors name, none for a null one. -/
structure Incoming where
  sel : Word
  addr : Phys
  desc : Desc
  ldtr : Ldtr
  cs : Phys × Desc
  ss : Phys × Desc
  ds : Option (Phys × Desc)
  es : Option (Phys × Desc)

/-- The word at an offset of the incoming task state segment (R441). -/
def Incoming.word (n : Incoming) (s : State) (k : Nat) : Word := s.load16 (n.desc.base + BitVec.ofNat 24 k)

/-- The descriptor a selector names under the incoming task's LDT. -/
def Incoming.fetch (n : Incoming) (s : State) (sel : Word) : Option (Phys × Desc) :=
  fetchDescriptor { s with ldtr := n.ldtr } sel

/-- LDTR of the incoming task: null, or a present LDT of the GDT (R440 step 9). -/
def Incoming.LdtOk (n : Incoming) (s : State) : Prop :=
  let sel := n.word s 42
  (sel.toNat < 4 ∧ n.ldtr = { s.ldtr with sel := sel, valid := false }) ∨
  (4 ≤ sel.toNat ∧ selLocal sel = false ∧ ∃ a d, fetchDescriptor s sel = some (a, d) ∧ d.isType 2 = true ∧
    arP d.ar = true ∧ n.ldtr = { sel := sel, base := d.base, limit := d.limit, valid := true })

/-- DS or ES of the incoming task at privilege level `p` (R440 step 12). -/
def Incoming.DataOk (n : Incoming) (s : State) (p : Nat) (sel : Word) (x : Option (Phys × Desc)) : Prop :=
  (sel.toNat < 4 ∧ x = none) ∨
  (4 ≤ sel.toNat ∧ ∃ a d, x = some (a, d) ∧ n.fetch s sel = some (a, d) ∧ arReadable d.ar = true ∧ arP d.ar = true ∧
    ((arE d.ar = true ∧ arC d.ar = true) ∨ (p ≤ arDpl d.ar ∧ rpl sel ≤ arDpl d.ar)))

/-- The incoming task passes every check of R440: the limit of its task state segment, LDT, CS, SS, DS, ES. -/
def Incoming.Loadable (n : Incoming) (s : State) : Prop :=
  let p := rpl (n.word s 36)
  0x2B ≤ n.desc.limit.toNat ∧ n.LdtOk s ∧
    (4 ≤ (n.word s 36).toNat ∧ n.fetch s (n.word s 36) = some n.cs ∧ arCode n.cs.2.ar = true ∧ arP n.cs.2.ar = true ∧
      (if arC n.cs.2.ar = true then arDpl n.cs.2.ar ≤ p else arDpl n.cs.2.ar = p)) ∧
    (4 ≤ (n.word s 38).toNat ∧ n.fetch s (n.word s 38) = some n.ss ∧ arWritable n.ss.2.ar = true ∧
      arP n.ss.2.ar = true ∧ rpl (n.word s 38) = p ∧ arDpl n.ss.2.ar = p) ∧
    n.DataOk s p (n.word s 40) n.ds ∧ n.DataOk s p (n.word s 34) n.es

/-- Two ranges of memory have no byte in common. -/
def Apart (a : Phys) (m : Nat) (b : Phys) (n : Nat) : Prop :=
  ∀ j k, j < m → k < n → a + BitVec.ofNat 24 j ≠ b + BitVec.ofNat 24 k

/-- The two task state segments, the GDT and the incoming task's LDT have no byte in common, and TR names a busy task state
segment of the GDT that is not the incoming one: what any system that switches tasks sets up. -/
def Incoming.Separate (n : Incoming) (s : State) : Prop :=
  Apart s.tr.base 44 n.desc.base 44 ∧ Apart s.tr.base 44 s.gdtr.base (s.gdtr.limit.toNat + 1) ∧
    Apart n.desc.base 44 s.gdtr.base (s.gdtr.limit.toNat + 1) ∧
    (n.ldtr.valid = true → Apart s.tr.base 44 n.ldtr.base (n.ldtr.limit.toNat + 1) ∧
      Apart n.desc.base 44 n.ldtr.base (n.ldtr.limit.toNat + 1) ∧
      Apart s.gdtr.base (s.gdtr.limit.toNat + 1) n.ldtr.base (n.ldtr.limit.toNat + 1)) ∧
    selLocal s.tr.sel = false ∧
    ∃ a d, fetchDescriptor s s.tr.sel = some (a, d) ∧ d.isType 3 = true ∧ a ≠ n.addr

/-- The access byte of the descriptor that TR names. -/
def oldTaskByte (s : State) : Phys := s.gdtr.base + (s.tr.sel &&& 0xFFF8).setWidth 24 + 5

/-- DS or ES as a task switch leaves it: the descriptor's, or the null selector marked invalid. -/
def switchedData (g : SegReg) (sel : Word) (x : Option (Phys × Desc)) : SegReg :=
  match x with
  | some p => segmentCache sel p.2
  | none => { g with sel := sel, valid := false }

/-- The words that the outgoing task state segment receives, at the offsets of R441. -/
def savedWords (s : State) (ret : Word) : List (Nat × Word) :=
  [(14, ret), (18, s.regs.ax), (20, s.regs.cx), (22, s.regs.dx), (24, s.regs.bx), (26, s.regs.sp), (28, s.regs.bp),
   (30, s.regs.si), (32, s.regs.di), (34, s.es.sel), (36, s.cs.sel), (38, s.ss.sel), (40, s.ds.sel)]

/-- Memory after a task switch (R440, R441, R443): the outgoing image, the back link of a nested task, the busy bits, the
accessed bits, and no other byte. -/
def SwitchedMemory (s t : State) (n : Incoming) (mode : SwitchMode) (ret : Word) : Prop :=
  (∀ e ∈ savedWords s ret, t.load16 (s.tr.base + BitVec.ofNat 24 e.1) = e.2) ∧
    Flags.ofWord (t.load16 (s.tr.base + 16)) = (if mode = .iret then { s.flags with nt := false } else s.flags) ∧
    (mode = .nest → t.load16 n.desc.base = s.tr.sel) ∧
    t.load8 (n.addr + 5) = (if mode = .iret then n.desc.ar else n.desc.ar ||| 2) ∧
    t.load8 (oldTaskByte s) =
      (if mode = .nest then s.load8 (oldTaskByte s) else s.load8 (oldTaskByte s) &&& 0xFD) ∧
    t.load8 (n.cs.1 + 5) = n.cs.2.ar ||| 1 ∧ t.load8 (n.ss.1 + 5) = n.ss.2.ar ||| 1 ∧
    (∀ x, n.ds = some x ∨ n.es = some x → t.load8 (x.1 + 5) = x.2.ar ||| 1) ∧
    ∀ p, (∀ k, 14 ≤ k → k < 42 → p ≠ s.tr.base + BitVec.ofNat 24 k) →
      (mode = .nest → p ≠ n.desc.base ∧ p ≠ n.desc.base + 1) → p ≠ n.addr + 5 → p ≠ oldTaskByte s →
      p ≠ n.cs.1 + 5 → p ≠ n.ss.1 + 5 → (∀ x, n.ds = some x ∨ n.es = some x → p ≠ x.1 + 5) →
      t.load8 p = s.load8 p

/-- The whole effect of a task switch (R440): every register from the incoming image, NT set when it nests, the segment
registers with their descriptors, LDTR, TR, TS set, and the memory; nothing else. -/
def TaskSwitched (s t : State) (n : Incoming) (mode : SwitchMode) (ret : Word) : Prop :=
  let w := n.word s
  t.ip = w 14 ∧
    t.flags = (if mode = .nest then { Flags.ofWord (w 16) with nt := true } else Flags.ofWord (w 16)) ∧
    t.regs = { ax := w 18, cx := w 20, dx := w 22, bx := w 24, sp := w 26, bp := w 28, si := w 30, di := w 32 } ∧
    t.cs = segmentCache (w 36) n.cs.2 ∧ t.ss = segmentCache (w 38) n.ss.2 ∧ t.ds = switchedData s.ds (w 40) n.ds ∧
    t.es = switchedData s.es (w 34) n.es ∧ SwitchedMemory s t n mode ret ∧
    SameSystem
      { s with
        cs := t.cs, ss := t.ss, ds := t.ds, es := t.es, ldtr := n.ldtr
        tr := { sel := n.sel, base := n.desc.base, limit := n.desc.limit }, msw := { s.msw with ts := true }
        nmiInService := t.nmiInService } t

/-- The instruction asks for a switch to the task (R430, R431, R442): a JMP or CALL to its task state segment or through a task
gate, available, visible and present; or IRET with NT = 1 and a busy one in the back link. Its selector is not null. -/
def AsksForTask (s : State) (i : Instr) (mode : SwitchMode) (n : Incoming) : Prop :=
  4 ≤ n.sel.toNat ∧ selLocal n.sel = false ∧ fetchDescriptor s n.sel = some (n.addr, n.desc) ∧ arP n.desc.ar = true ∧
    ((mode = .iret ∧ i = .iret ∧ s.flags.nt = true ∧ n.sel = s.load16 s.tr.base ∧ n.desc.isType 3 = true) ∨
      (n.desc.isType 1 = true ∧ ∃ call sel off Ready, farForm s i = some (call, sel, off, Ready) ∧ Ready ∧
        mode = (if call then .nest else .jmp) ∧ 4 ≤ sel.toNat ∧
        ∃ a g, fetchDescriptor s sel = some (a, g) ∧ s.cpl ≤ arDpl g.ar ∧ rpl sel ≤ arDpl g.ar ∧ arP g.ar = true ∧
          (sel = n.sel ∨ (g.isType 5 = true ∧ g.selector = n.sel))))

/-! ### Gates of the interrupt descriptor table -/

/-- The gate of a vector in the interrupt descriptor table. -/
def idtGate (s : State) (n : Byte) : Desc := descAt s (s.idtr.base + BitVec.ofNat 24 (8 * n.toNat))

/-- The vector's gate can be used by an INT instruction: inside the table, an interrupt or trap gate, present, its DPL at
least CPL (60_exceptions.md R562, R563). -/
def UsableInterruptGate (s : State) (n : Byte) : Prop :=
  8 * n.toNat + 7 ≤ s.idtr.limit.toNat ∧ ((idtGate s n).isType 6 = true ∨ (idtGate s n).isType 7 = true) ∧
    arP (idtGate s n).ar = true ∧ s.cpl ≤ arDpl (idtGate s n).ar

/-- The processor is shut down with everything else as it was; the delivery that failed has ended a halt (60_exceptions.md R585,
R560). -/
def ShutDown (s t : State) : Prop :=
  t.regs = s.regs ∧ t.flags = s.flags ∧ t.ip = s.ip ∧ SameMemory s t ∧
    SameSystem { s with shutdown := true, halted := false, cur := Cur.at s.cur.ip } t

/-- The flags after a gate: TF and NT cleared, IF cleared by an interrupt gate (R563). -/
def gateFlags (f : Flags) (g : Desc) : Flags :=
  { f with tf := false, nt := false, ief := if g.isType 6 then false else f.ief }

/-- An event passes the checks on its gate: inside the table, present, and for an INT instruction visible (R562). -/
def GateUsable (s : State) (ev : Event) : Prop :=
  8 * ev.vector.toNat + 7 ≤ s.idtr.limit.toNat ∧ arP (idtGate s ev.vector).ar = true ∧
    (ev.isInt = true → s.cpl ≤ arDpl (idtGate s ev.vector).ar)

/-- The gate is an interrupt or trap gate. -/
def InterruptOrTrap (g : Desc) : Prop := g.isType 6 = true ∨ g.isType 7 = true

/-- Code that an interrupt or trap gate enters at the same level: conforming with DPL <= CPL, or DPL = CPL (45 R421, R424; R563,
log 32). -/
def SameLevelTarget (s : State) (d : Desc) : Prop := (arC d.ar = true ∧ arDpl d.ar ≤ s.cpl) ∨ arDpl d.ar = s.cpl

/-- Code that it enters at an inner level (R563). -/
def InnerTarget (s : State) (d : Desc) : Prop := arC d.ar = false ∧ arDpl d.ar < s.cpl

/-- The number of words that an error code takes. -/
def codeLength (code : Option Word) : Nat := if code.isSome then 1 else 0

/-- The error code, if there is one, lies at the top of the stack. -/
def CodeOnTop (t : State) (code : Option Word) : Prop := ∀ c, code = some c → stackAt t 0 = c

/-- An event is delivered at the same level through an interrupt or trap gate to the code `c` (R563): FLAGS, CS, the return
offset and the error code on the current stack, CS:IP from the gate, TF and NT cleared, IF by an interrupt gate. -/
def EntersSameLevel (s t : State) (ev : Event) (ret : Word) (a : Phys) (c : Desc) : Prop :=
  let g := idtGate s ev.vector
  let k : Nat := 3 + codeLength ev.code
  let e : Word := BitVec.ofNat 16 (2 * codeLength ev.code)
  t.cs = codeCache g.selector c s.cpl ∧ t.ip = g.offset ∧ CodeOnTop t ev.code ∧ stackAt t e = ret ∧
    stackAt t (e + 2) = s.cs.sel ∧ Flags.ofWord (stackAt t (e + 4)) = s.flags ∧
    t.regs = { s.regs with sp := s.regs.sp - BitVec.ofNat 16 (2 * k) } ∧ t.flags = gateFlags s.flags g ∧
    t.load8 (a + 5) = c.ar ||| 1 ∧ (∀ p, p ≠ a + 5 → ¬ BelowTop s k p → t.load8 p = s.load8 p) ∧
    SameButCs { s with halted := false, cur := Cur.at s.cur.ip } t

/-- An event is delivered at an inner level (R563): the stack `ss`:`sp` of that level takes the old SS:SP, FLAGS, CS, the return
offset and the error code. -/
def EntersInnerLevel (s t : State) (ev : Event) (ret : Word) (a : Phys) (c : Desc) (ss sp : Word) (b : Phys) (d : Desc) :
    Prop :=
  let g := idtGate s ev.vector
  let k : Nat := 5 + codeLength ev.code
  let e : Word := BitVec.ofNat 16 (2 * codeLength ev.code)
  t.cs = codeCache g.selector c (arDpl c.ar) ∧ t.cpl = arDpl c.ar ∧ t.ip = g.offset ∧ t.ss = segmentCache ss d ∧
    CodeOnTop t ev.code ∧ stackAt t e = ret ∧ stackAt t (e + 2) = s.cs.sel ∧
    Flags.ofWord (stackAt t (e + 4)) = s.flags ∧ stackAt t (e + 6) = s.regs.sp ∧ stackAt t (e + 8) = s.ss.sel ∧
    t.regs = { s.regs with sp := sp - BitVec.ofNat 16 (2 * k) } ∧ t.flags = gateFlags s.flags g ∧
    (∀ p, p ≠ a + 5 → p ≠ b + 5 → (∀ j, j < 2 * k → p ≠ segAddr t .ss (sp - BitVec.ofNat 16 (j + 1))) →
      t.load8 p = s.load8 p) ∧
    SameSystem { s with cs := t.cs, ss := t.ss, halted := false, cur := Cur.at s.cur.ip } t

/-- The delivery of an event through the IDT raises an exception of its own, with this vector and error code (R562 to R565,
45 R427): the gate outside the table, of another type, hidden from an INT, or not present (codes n * 8 + 2 + EXT); of an
interrupt or trap gate the selector, its code segment, the stack or the offset; of a task gate the task state segment. -/
def DeliveryFails (s : State) (ev : Event) (n : Byte) (c : Word) : Prop :=
  let g := idtGate s ev.vector
  let e : Word := if ev.ext then 1 else 0
  let own : Word := BitVec.ofNat 16 (8 * ev.vector.toNat + 2) + e
  let inside : Prop := 8 * ev.vector.toNat + 7 ≤ s.idtr.limit.toNat
  let typed : Prop := g.isType 5 = true ∨ InterruptOrTrap g
  let seen : Prop := ev.isInt = true → s.cpl ≤ arDpl g.ar
  (¬ (inside ∧ typed ∧ seen) ∧ n = 13 ∧ c = own) ∨
  (inside ∧ typed ∧ seen ∧ arP g.ar = false ∧ n = 11 ∧ c = own) ∨
  (GateUsable s ev ∧ g.isType 5 = true ∧ TaskGateFault s g.selector ev.ext n c) ∨
  (GateUsable s ev ∧ InterruptOrTrap g ∧
    ((g.selector.toNat < 4 ∧ n = 13 ∧ c = e) ∨
      (4 ≤ g.selector.toNat ∧ fetchDescriptor s g.selector = none ∧ n = 13 ∧ c = (g.selector &&& 0xFFFC) + e) ∨
      (4 ≤ g.selector.toNat ∧ ∃ a d, fetchDescriptor s g.selector = some (a, d) ∧
        ((arCode d.ar = false ∧ n = 13 ∧ c = (g.selector &&& 0xFFFC) + e) ∨
          (arCode d.ar = true ∧ arP d.ar = false ∧ n = 11 ∧ c = (g.selector &&& 0xFFFC) + e) ∨
          (arCode d.ar = true ∧ arP d.ar = true ∧ ¬ SameLevelTarget s d ∧ ¬ InnerTarget s d ∧ n = 13 ∧
            c = (g.selector &&& 0xFFFC) + e) ∨
          (arCode d.ar = true ∧ arP d.ar = true ∧ SameLevelTarget s d ∧
            ((¬ CanPush s (3 + codeLength ev.code) ∧ n = faultVector s .ss .write ∧ c = 0) ∨
              (CanPush s (3 + codeLength ev.code) ∧ d.limit.toNat < g.offset.toNat ∧ n = 13 ∧ c = 0))) ∨
          (arCode d.ar = true ∧ arP d.ar = true ∧ InnerTarget s d ∧
            (InnerStackFault s (arDpl d.ar) ev.ext n c ∨
              ∃ ss sp b x, InnerStackIs s (arDpl d.ar) ss sp b x ∧
                ((¬ RoomBelow (segmentCache ss x) sp (5 + codeLength ev.code) ∧ n = 12 ∧ c = 0) ∨
                  (RoomBelow (segmentCache ss x) sp (5 + codeLength ev.code) ∧ d.limit.toNat < g.offset.toNat ∧
                    n = 13 ∧ c = 0))))))))

/-- Code whose privilege a return to the return selector's level may take (R433). -/
def ReturnLevel (sel : Word) (d : Desc) : Prop :=
  arCode d.ar = true ∧ (if arC d.ar = true then arDpl d.ar ≤ rpl sel else arDpl d.ar = rpl sel)

/-- The return selector names present code that its level may take (R433). -/
def ReturnCode (s : State) (sel : Word) (a : Phys) (d : Desc) : Prop :=
  4 ≤ sel.toNat ∧ fetchDescriptor s sel = some (a, d) ∧ ReturnLevel sel d ∧ arP d.ar = true

/-- What the return selector names fails its checks: null, no descriptor, no code or another level, not present (R433). -/
def ReturnCodeFault (s : State) (sel : Word) (v : Byte) (c : Word) : Prop :=
  (sel.toNat < 4 ∧ v = 13 ∧ c = 0) ∨
  (4 ≤ sel.toNat ∧ c = sel &&& 0xFFFC ∧
    ((fetchDescriptor s sel = none ∧ v = 13) ∨
      ∃ a d, fetchDescriptor s sel = some (a, d) ∧
        ((¬ ReturnLevel sel d ∧ v = 13) ∨ (ReturnLevel sel d ∧ arP d.ar = false ∧ v = 11))))

/-- A stack segment that a return to the outer level `p` may load, its presence apart (R433). -/
def ReturnStackLevel (sel : Word) (p : Nat) (d : Desc) : Prop := rpl sel = p ∧ arWritable d.ar = true ∧ arDpl d.ar = p

/-- The outer stack selector names a present stack segment of level `p` (R433). -/
def ReturnStack (s : State) (sel : Word) (p : Nat) (a : Phys) (d : Desc) : Prop :=
  4 ≤ sel.toNat ∧ fetchDescriptor s sel = some (a, d) ∧ ReturnStackLevel sel p d ∧ arP d.ar = true

/-- It fails its checks: null, no descriptor, another level or type, not present, which is vector 11 (R433, 90 C16). -/
def ReturnStackFault (s : State) (sel : Word) (p : Nat) (v : Byte) (c : Word) : Prop :=
  (sel.toNat < 4 ∧ v = 13 ∧ c = 0) ∨
  (4 ≤ sel.toNat ∧ c = sel &&& 0xFFFC ∧
    ((fetchDescriptor s sel = none ∧ v = 13) ∨
      ∃ a d, fetchDescriptor s sel = some (a, d) ∧
        ((¬ ReturnStackLevel sel p d ∧ v = 13) ∨ (ReturnStackLevel sel p d ∧ arP d.ar = false ∧ v = 11))))

/-- The `n` bytes at the top of the stack lie in its segment: as one piece, or past offset FFFFH in a segment of all 64K bytes
(R433, log 38). -/
def StackRange (s : State) (n : Nat) : Prop :=
  Within s.ss s.regs.sp.toNat n ∨ (Within s.ss 0 0x10000 ∧ 0x10000 < s.regs.sp.toNat + n)

/-- The protected mode returns: whether FLAGS is popped, and the bytes released (R433, R434). -/
def protectedReturnForm : Instr → Option (Bool × Word)
  | .retFar => some (false, 0)
  | .retFarImm v => some (false, v)
  | .iret => some (true, 0)
  | _ => none

/-- How many bytes of return address, and flags, a return takes. -/
def returnBytes (fl : Bool) : Nat := if fl then 6 else 4

/-- ES or DS after a return to an outer level: invalid if the new level may not use it (R435). -/
def revalidated (g : SegReg) (cpl : Nat) : SegReg :=
  if g.valid = true ∧ ¬ (arReadable g.ar = true ∧
      ((arE g.ar = true ∧ arC g.ar = true) ∨ (cpl ≤ arDpl g.ar ∧ rpl g.sel ≤ arDpl g.ar))) then
    { g with sel := 0, ar := 0, valid := false }
  else g

end Sys2Proof.Machine

/-- JMP and CALL to a code segment in protected mode (45 R420 to R424, R430, R431): CS takes the descriptor with the level kept
and the accessed bit set, IP the offset; CALL pushes CS and the next offset. Each failing check raises its exception with nothing
changed: those of the selector and its descriptor first, data segments and the other types that are no target among them; then,
for CALL, the stack, which each word must fit at its own offset (log 46); last the offset. The return address is stated where the
descriptor does not lie in the stack. The source has no page of CALL: its checks, their order, the stack and then the offset, and
what it pushes are the spec's own inference from the listings of JMP and RET and the data sheet (R431's mark, 91_not_in_source.md
N1, N16); only that each word is tested at its own offset is the model's choice (log 46). -/
def Obligations.ProtectedFarJumpsAndCalls : Prop :=
  ∀ (i : Instr) (call : Bool) (sel off : Word) (Ready : Prop) (s : State),
    farForm s i = some (call, sel, off, Ready) → s.msw.pe = true → PlainMemory s → Ready →
    (∀ n c, DirectFault s sel n c → TakesException i s n (some c)) ∧
    (∀ a d, 4 ≤ sel.toNat → fetchDescriptor s sel = some (a, d) → DirectTarget s sel d →
      (call = true → ¬ CanPush s 2 → TakesException i s (faultVector s .ss .write) (some 0)) ∧
      ((call = true → CanPush s 2) → d.limit.toNat < off.toNat → TakesException i s 13 (some 0)) ∧
      (call = false → off.toNat ≤ d.limit.toNat →
        ∃ t, exec i s = .next t ∧ t.cs = codeCache sel d s.cpl ∧ t.ip = off ∧ t.flags = s.flags ∧
          t.load8 (a + 5) = d.ar ||| 1 ∧ (∀ p, p ≠ a + 5 → t.load8 p = s.load8 p) ∧ SameButCs s t ∧ RegsBut s t []) ∧
      (call = true → CanPush s 2 → off.toNat ≤ d.limit.toNat → ¬ BelowTop s 2 (a + 5) →
        ∃ t, exec i s = .next t ∧ EntersCode s t sel a d off s.cpl 2 ∧ stackAt t 0 = s.ip ∧ stackAt t 2 = s.cs.sel))

/-- CALL through a call gate to an inner level (45 R425, R427, R431, R432): the stack of that level from the task state segment;
on it the old SS:SP, the gate's count of words from the old stack in their order, then the old CS:IP; CS at the new level;
no flag and no other register changes. Where SS:SP lie in the task state segment (2 + 4p and 4 + 4p) is the spec's general
knowledge (R441, G14), PRESUMED in log 20. That the new stack, and the words copied from the old one, may wrap at 64K between two
words is the model's choice (DESIGN CHOICE, log 46). -/
def Obligations.CallGateSwitchesStacks : Prop :=
  ∀ (i : Instr) (sel off : Word) (Ready : Prop) (s : State) (ga : Phys) (g : Desc) (ca : Phys) (c : Desc) (nss nsp : Word)
    (sa : Phys) (sd : Desc),
    farForm s i = some (true, sel, off, Ready) → Ready → s.msw.pe = true → PlainMemory s → 4 ≤ sel.toNat →
    fetchDescriptor s sel = some (ga, g) → UsableCallGate s sel g → GateTarget s g ca c → arC c.ar = false →
    arDpl c.ar < s.cpl → InnerStackIs s (arDpl c.ar) nss nsp sa sd →
    RoomBelow (segmentCache nss sd) nsp (4 + g.wordCount) →
    (∀ k, k < g.wordCount → CanPopAt s (BitVec.ofNat 16 (2 * k))) →
    ∃ t, exec i s = .next t ∧ t.cs = codeCache g.selector c (arDpl c.ar) ∧ t.ip = g.offset ∧
      t.ss = segmentCache nss sd ∧ t.regs = { s.regs with sp := nsp - BitVec.ofNat 16 (8 + 2 * g.wordCount) } ∧
      stackAt t 0 = s.ip ∧ stackAt t 2 = s.cs.sel ∧
      (∀ k, k < g.wordCount → stackAt t (4 + BitVec.ofNat 16 (2 * k)) = stackAt s (BitVec.ofNat 16 (2 * k))) ∧
      stackAt t (4 + BitVec.ofNat 16 (2 * g.wordCount)) = s.regs.sp ∧
      stackAt t (6 + BitVec.ofNat 16 (2 * g.wordCount)) = s.ss.sel ∧ t.cpl = arDpl c.ar ∧
      (∀ p, p ≠ ca + 5 → p ≠ sa + 5 → (∀ k, k < 8 + 2 * g.wordCount →
        p ≠ segAddr t .ss (nsp - BitVec.ofNat 16 (k + 1))) → t.load8 p = s.load8 p) ∧
      t.flags = s.flags ∧ SameSystem { s with cs := t.cs, ss := t.ss } t

/-- JMP and CALL through a call gate in protected mode (45 R421, R425, R427, R430 to R432): a gate that is hidden or not present,
and a target that fails its checks, raise their exceptions with nothing changed. JMP, and CALL to conforming code or to code of
the same level, enter the gate's target at its own offset with the level kept, CALL after pushing CS and the next offset; the
offset of the instruction is ignored. For CALL the stack is checked before the target's offset. A CALL to an inner level fails on
the stack of that level, on the words it copies, or on the offset. Of that the spec's general knowledge are #TS with TR's selector
for a stack beyond TR.limit (R427, G13) and the order new stack, words copied, offset (R432, G16), both PRESUMED in log 40, and
the stack's place in the task state segment (R441, G14), PRESUMED in log 20. That the stacks, and the words copied from the old
one, are checked word by word, each at its own offset modulo 65536, is the model's choice (DESIGN CHOICE, log 46). The source has
no page of CALL: that CALL makes the checks of JMP but for the target's privilege level, and that at the same level it checks the
stack and then the offset, is the spec's own inference from the listings of JMP and RET and the data sheet (R431's mark,
91_not_in_source.md N1, N16). -/
def Obligations.CallGatesCheckAndKeepLevel : Prop :=
  ∀ (i : Instr) (call : Bool) (sel off : Word) (Ready : Prop) (s : State) (ga : Phys) (g : Desc),
    farForm s i = some (call, sel, off, Ready) → Ready → s.msw.pe = true → PlainMemory s → 4 ≤ sel.toNat →
    fetchDescriptor s sel = some (ga, g) → g.isType 4 = true →
    (∀ n c, GateHidden s sel g n c → TakesException i s n (some c)) ∧
    (UsableCallGate s sel g →
      (∀ n c, GateTargetFault s call g n c → TakesException i s n (some c)) ∧
      ∀ a d, 4 ≤ g.selector.toNat → fetchDescriptor s g.selector = some (a, d) → arCode d.ar = true →
        GateEnterable s call d → arP d.ar = true →
        (call = false →
          (d.limit.toNat < g.offset.toNat → TakesException i s 13 (some 0)) ∧
          (g.offset.toNat ≤ d.limit.toNat → ∃ t, exec i s = .next t ∧ EntersCode s t g.selector a d g.offset s.cpl 0)) ∧
        (call = true → ¬ InnerTarget s d →
          (¬ CanPush s 2 → TakesException i s (faultVector s .ss .write) (some 0)) ∧
          (CanPush s 2 → d.limit.toNat < g.offset.toNat → TakesException i s 13 (some 0)) ∧
          (CanPush s 2 → g.offset.toNat ≤ d.limit.toNat → ¬ BelowTop s 2 (a + 5) →
            ∃ t, exec i s = .next t ∧ EntersCode s t g.selector a d g.offset s.cpl 2 ∧ stackAt t 0 = s.ip ∧
              stackAt t 2 = s.cs.sel)) ∧
        (call = true → InnerTarget s d →
          (∀ n c, InnerStackFault s (arDpl d.ar) false n c → TakesException i s n (some c)) ∧
          ∀ nss nsp b x, InnerStackIs s (arDpl d.ar) nss nsp b x →
            (¬ RoomBelow (segmentCache nss x) nsp (4 + g.wordCount) → TakesException i s 12 (some 0)) ∧
            (RoomBelow (segmentCache nss x) nsp (4 + g.wordCount) →
              ((∃ k, k < g.wordCount ∧ ¬ CanPopAt s (BitVec.ofNat 16 (2 * k))) →
                TakesException i s (faultVector s .ss .read) (some 0)) ∧
              ((∀ k, k < g.wordCount → CanPopAt s (BitVec.ofNat 16 (2 * k))) → d.limit.toNat < g.offset.toNat →
                TakesException i s 13 (some 0)))))

/-- Task switches (45 R430, R431, R440 to R443; 60_exceptions.md R564; 10_state.md R36): JMP, CALL and IRET with NT = 1 to a task
that passes the checks save every register in the outgoing task state segment, load every register of the incoming one, set TS,
mark the incoming task busy (JMP, CALL) and the outgoing one available (JMP, IRET), link the nested task back (CALL) and set its
NT; an offset outside the new code segment is #GP(0) in the new task. A gate or task state segment that fails a check before the
switch raises its exception in the old task. An event through a task gate of the IDT switches as CALL does and pushes its error
code on the new stack. Any instruction but LTR that changes TR ends with TS = 1. The layout of the task state segment, the order
of the steps and NT cleared by IRET are the spec's general knowledge (R440, R441, G14, G15), PRESUMED in log 20 and 40; that a
null selector in a task gate or a back link names no task follows from 20_memory.md R131 (DEDUCED, log 50). The outgoing task
state segment is written without a test of TR.limit, which is the model's choice (DESIGN CHOICE, log 44). The two task state
segments, the GDT and the LDT are taken to lie apart, in memory that reads as it was left (log 48). -/
def Obligations.TaskSwitchesExchangeTasks : Prop :=
  (∀ (i : Instr) (mode : SwitchMode) (n : Incoming) (s : State), s.msw.pe = true → PlainMemory s →
    AsksForTask s i mode n → n.Loadable s → n.Separate s →
    ∃ u, TaskSwitched s u n mode s.ip ∧ u.nmiInService = s.nmiInService ∧
      ((n.word s 14).toNat ≤ n.cs.2.limit.toNat →
        exec i s = .next (if mode = .iret then { u with nmiInService := false } else u)) ∧
      (n.cs.2.limit.toNat < (n.word s 14).toNat →
        exec i s = .next (deliver u { vector := 13, code := some 0, ext := false, isInt := false } u.ip u.ip))) ∧
  (∀ (i : Instr) (call : Bool) (sel off : Word) (Ready : Prop) (s : State) (a : Phys) (g : Desc),
    farForm s i = some (call, sel, off, Ready) → Ready → s.msw.pe = true → Steady s → 4 ≤ sel.toNat →
    fetchDescriptor s sel = some (a, g) → (g.isType 5 = true ∨ (g.isType 1 = true ∧ selLocal sel = false)) →
    (∀ v c, GateHidden s sel g v c → TakesException i s v (some c)) ∧
    (s.cpl ≤ arDpl g.ar → rpl sel ≤ arDpl g.ar → arP g.ar = true →
      (g.isType 5 = true → ∀ v c, TaskGateFault s g.selector false v c → TakesException i s v (some c)) ∧
      (g.isType 1 = true → g.limit.toNat < 0x2B → TakesException i s 10 (some (sel &&& 0xFFFC))))) ∧
  (∀ (s : State) (v : Byte), s.msw.pe = true → Steady s → s.flags.nt = true →
    let sel := s.load16 s.tr.base
    ((sel.toNat < 4 ∨ selLocal sel = true ∨ fetchDescriptor s sel = none ∨ ∃ a d, fetchDescriptor s sel = some (a, d) ∧
        (d.isType 3 = false ∨ (d.isType 3 = true ∧ arP d.ar = true ∧ d.limit.toNat < 0x2B))) ∧ v = 10 ∨
      (4 ≤ sel.toNat ∧ selLocal sel = false ∧ ∃ a d, fetchDescriptor s sel = some (a, d) ∧ d.isType 3 = true ∧ arP d.ar = false ∧
        v = 11)) → TakesException .iret s v (some (sel &&& 0xFFFC))) ∧
  (∀ (s : State) (ev : Event) (n : Incoming) (ret at' : Word), s.msw.pe = true → PlainMemory s → GateUsable s ev →
    (idtGate s ev.vector).isType 5 = true → (idtGate s ev.vector).selector = n.sel → 4 ≤ n.sel.toNat →
    selLocal n.sel = false →
    fetchDescriptor s n.sel = some (n.addr, n.desc) → n.desc.isType 1 = true → arP n.desc.ar = true → n.Loadable s →
    n.Separate s → (n.word s 14).toNat ≤ n.cs.2.limit.toNat →
    ∃ u, TaskSwitched { s with halted := false, cur := Cur.at s.cur.ip } u n .nest ret ∧
      u.nmiInService = s.nmiInService ∧
      (ev.code = none → deliver s ev ret at' = u) ∧
      (∀ c, ev.code = some c → CanPush u 1 →
        let t := deliver s ev ret at'
        stackTop t = c ∧ t.regs = { u.regs with sp := u.regs.sp - 2 } ∧ t.flags = u.flags ∧ t.ip = u.ip ∧
          SameSystem u t ∧ MemoryBut u t .word .ss (u.regs.sp - 2))) ∧
  (∀ (i : Instr) (s t : State), exec i s = .next t → t.tr ≠ s.tr → (∀ m, i ≠ .ltr m) → t.msw.ts = true)

/-- INT n and INT 3 through an interrupt or trap gate in protected mode (60_exceptions.md R562, R563; 44 R400). At the same level
FLAGS, CS and the next offset go to the current stack; at an inner level the stack of that level takes the old SS:SP, FLAGS
and CS:IP. TF and NT are cleared, IF by an interrupt gate only; no other register changes. The same-level stack is stated
where the code descriptor does not lie in it. The inner stack's place in the task state segment (45 R427, R441) is the spec's
general knowledge (G14), PRESUMED in log 20. Each pushed word is tested for room at its own offset, so that a stack of 64K bytes
may wrap from offset 0000H to FFFEH between two of them: the model's choice (DESIGN CHOICE, log 46; R563 says only room for the
bytes). Gates that fail a check, conforming code with DPL above CPL among them (log 32), are ProtectedEventDelivery's matter, task
gates TaskSwitchesExchangeTasks'. -/
def Obligations.ProtectedInterruptGates : Prop :=
  ∀ (i : Instr) (n : Byte) (s : State) (ca : Phys) (c : Desc),
    interruptForm i = some n → (i = .into → s.flags.of = true) → s.msw.pe = true → PlainMemory s →
    UsableInterruptGate s n → GateTarget s (idtGate s n) ca c →
    ((arC c.ar = true ∧ arDpl c.ar ≤ s.cpl) ∨ arDpl c.ar = s.cpl → CanPush s 3 → ¬ BelowTop s 3 (ca + 5) →
      ∃ t, exec i s = .next t ∧ t.cs = codeCache (idtGate s n).selector c s.cpl ∧ t.ip = (idtGate s n).offset ∧
        stackAt t 0 = s.ip ∧ stackAt t 2 = s.cs.sel ∧ Flags.ofWord (stackAt t 4) = s.flags ∧
        t.regs = { s.regs with sp := s.regs.sp - 6 } ∧ t.flags = gateFlags s.flags (idtGate s n) ∧
        (∀ p, p ≠ ca + 5 → ¬ BelowTop s 3 p → t.load8 p = s.load8 p) ∧
        SameButCs { s with halted := false, cur := Cur.at s.cur.ip } t) ∧
    (arC c.ar = false → arDpl c.ar < s.cpl → ∀ nss nsp sa sd, InnerStackIs s (arDpl c.ar) nss nsp sa sd →
      RoomBelow (segmentCache nss sd) nsp 5 →
      ∃ t, exec i s = .next t ∧ t.cs = codeCache (idtGate s n).selector c (arDpl c.ar) ∧ t.cpl = arDpl c.ar ∧
        t.ip = (idtGate s n).offset ∧ t.ss = segmentCache nss sd ∧
        stackAt t 0 = s.ip ∧ stackAt t 2 = s.cs.sel ∧ Flags.ofWord (stackAt t 4) = s.flags ∧
        stackAt t 6 = s.regs.sp ∧ stackAt t 8 = s.ss.sel ∧ t.regs = { s.regs with sp := nsp - 10 } ∧
        t.flags = gateFlags s.flags (idtGate s n) ∧
        (∀ p, p ≠ ca + 5 → p ≠ sa + 5 → (∀ k, k < 10 → p ≠ segAddr t .ss (nsp - BitVec.ofNat 16 (k + 1))) →
          t.load8 p = s.load8 p) ∧
        SameSystem { s with cs := t.cs, ss := t.ss, halted := false, cur := Cur.at s.cur.ip } t)

/-- The delivery of exceptions and external events in protected mode (60_exceptions.md R562, R563, R565, R570): through an
interrupt or trap gate the state is saved as for INT, and the error code, if there is one, lies on top; the gate's DPL is not
tested. A delivery that fails a check of its own, with the error codes of R565 (EXT in bit 0, n * 8 + 2 for the gate), is, for an
INT instruction or an external event, the first exception; for an exception it is a double fault, vector 8 with error code 0
(unless the platform names the vector benign, log 19; the code 0 is the spec's general knowledge, G19, log 40); a double fault
that fails too is shutdown with every register as it was. The limit test 8n + 7 (R562, G19) and #TS with TR's selector for a stack
beyond TR.limit (45 R427, G13) are the spec's general knowledge, PRESUMED in log 40. The stack is stated where the code descriptor
does not lie in it; wrapping stacks are log 46, the inner stack's place log 20, conforming code with DPL above CPL log 32, a null
selector in a task gate log 50. The tables lie in memory that reads as it was left (log 48). That an error code lies on top of an
inner stack too, which must then have room for 12 bytes where the listing says 10, is the spec's own inference from the branch of
the same level and Table 14 (R563's mark); that every internally generated exception can be the first of a double fault is its own
decision (R570's mark, 92_eei_decisions.md D24). -/
def Obligations.ProtectedEventDelivery : Prop :=
  (∀ (s : State) (ev : Event) (ret at' : Word) (a : Phys) (d : Desc), s.msw.pe = true → PlainMemory s → GateUsable s ev →
    InterruptOrTrap (idtGate s ev.vector) → GateTarget s (idtGate s ev.vector) a d →
    (SameLevelTarget s d → CanPush s (3 + codeLength ev.code) → ¬ BelowTop s (3 + codeLength ev.code) (a + 5) →
      EntersSameLevel s (deliver s ev ret at') ev ret a d) ∧
    (InnerTarget s d → ∀ ss sp b x, InnerStackIs s (arDpl d.ar) ss sp b x →
      RoomBelow (segmentCache ss x) sp (5 + codeLength ev.code) →
      EntersInnerLevel s (deliver s ev ret at') ev ret a d ss sp b x)) ∧
  (∀ (s : State) (ev : Event) (ret at' : Word) (n : Byte) (c : Word), s.msw.pe = true → Steady s → DeliveryFails s ev n c →
    (ev.ext = true ∨ ev.isInt = true →
      deliver s ev ret at' = deliver s { vector := n, code := some c, ext := false, isInt := false } at' at') ∧
    (ev.ext = false → ev.isInt = false → Config.dfBenign ev.vector = false →
      let double : Event := { vector := 8, code := some 0, ext := false, isInt := false }
      (∀ a d, PlainMemory s → GateUsable s double → InterruptOrTrap (idtGate s 8) → GateTarget s (idtGate s 8) a d →
        SameLevelTarget s d → CanPush s 4 → ¬ BelowTop s 4 (a + 5) →
        EntersSameLevel s (deliver s ev ret at') double ret a d) ∧
      (∀ m k, DeliveryFails s double m k → ShutDown s (deliver s ev ret at'))))

/-- RET far and, with NT = 0, IRET in protected mode (45 R433 to R435), every check in its order: the return selector's word; a
return to an inner level is #GP with that selector; to the same level, CS:IP, for IRET FLAGS, and SP; to an outer level also
SS:SP from the old stack, and ES and DS made invalid where the new level may not use them. Each failing check raises its
exception with nothing changed. That RET n releases n bytes of the outer stack too is the spec's general knowledge (R433, G16),
PRESUMED in log 40; ES and DS are judged by their caches, D19; which stack ranges may wrap is log 38. -/
def Obligations.ProtectedFarReturns : Prop :=
  ∀ (i : Instr) (fl : Bool) (n : Word) (s : State), protectedReturnForm i = some (fl, n) → s.msw.pe = true →
    PlainMemory s → (i = .iret → s.flags.nt = false) →
    let k : Word := BitVec.ofNat 16 (returnBytes fl)
    let off := stackAt s 0
    let sel := stackAt s 2
    let flags := if fl then loadedFlags s (stackAt s 4) else s.flags
    let nmi := if fl then false else s.nmiInService
    let TopRead : Prop := CanPopAt s 0 ∧ (fl = true → CanPopAt s 4)
    let StackStop : Prop := TakesException i s (faultVector s .ss .read) (some 0)
    (¬ CanPopAt s 2 → StackStop) ∧
    (CanPopAt s 2 → rpl sel < s.cpl → TakesException i s 13 (some (sel &&& 0xFFFC))) ∧
    (CanPopAt s 2 → rpl sel = s.cpl →
      (fl = true → ¬ StackRange s 6 → TakesException i s 12 (some 0)) ∧
      ((fl = true → StackRange s 6) →
        (∀ v c, ReturnCodeFault s sel v c → TakesException i s v (some c)) ∧
        ∀ a d, ReturnCode s sel a d →
          (¬ TopRead → StackStop) ∧
          (TopRead → d.limit.toNat < off.toNat → TakesException i s 13 (some 0)) ∧
          (TopRead → off.toNat ≤ d.limit.toNat →
            ∃ t, exec i s = .next t ∧ t.cs = codeCache sel d s.cpl ∧ t.ip = off ∧ t.flags = flags ∧
              t.regs = { s.regs with sp := s.regs.sp + k + n } ∧
              t.load8 (a + 5) = d.ar ||| 1 ∧ (∀ p, p ≠ a + 5 → t.load8 p = s.load8 p) ∧
              SameButCs { s with nmiInService := nmi } t))) ∧
    (CanPopAt s 2 → s.cpl < rpl sel →
      let nsp := stackAt s (k + n)
      let nss := stackAt s (k + n + 2)
      let PointerRead : Prop := CanPopAt s (k + n) ∧ CanPopAt s (k + n + 2)
      (¬ StackRange s (returnBytes fl + 4 + n.toNat) → TakesException i s 12 (some 0)) ∧
      (StackRange s (returnBytes fl + 4 + n.toNat) →
        (∀ v c, ReturnCodeFault s sel v c → TakesException i s v (some c)) ∧
        ∀ a d, ReturnCode s sel a d →
          (¬ PointerRead → StackStop) ∧
          (PointerRead → ∀ v c, ReturnStackFault s nss (rpl sel) v c → TakesException i s v (some c)) ∧
          (PointerRead → ∀ b e, ReturnStack s nss (rpl sel) b e →
            (¬ TopRead → StackStop) ∧
            (TopRead → d.limit.toNat < off.toNat → TakesException i s 13 (some 0)) ∧
            (TopRead → off.toNat ≤ d.limit.toNat →
              ∃ t, exec i s = .next t ∧ t.cs = codeCache sel d (rpl sel) ∧ t.cpl = rpl sel ∧ t.ip = off ∧
                t.flags = flags ∧ t.ss = segmentCache nss e ∧ t.regs = { s.regs with sp := nsp + n } ∧
                t.es = revalidated s.es (rpl sel) ∧ t.ds = revalidated s.ds (rpl sel) ∧
                t.load8 (a + 5) = d.ar ||| 1 ∧ t.load8 (b + 5) = e.ar ||| 1 ∧
                (∀ p, p ≠ a + 5 → p ≠ b + 5 → t.load8 p = s.load8 p) ∧
                SameSystem { s with cs := t.cs, ss := t.ss, es := t.es, ds := t.ds, nmiInService := nmi } t))))

namespace Sys2Proof.Machine

/-! ### Processor and protection control -/

/-- The flag instructions that need no privilege, and what they do (46_processor_control.md R470 to R474). -/
def flagInstruction : Instr → Option (Flags → Flags)
  | .clc => some fun f => { f with cf := false }
  | .cmc => some fun f => { f with cf := !f.cf }
  | .stc => some fun f => { f with cf := true }
  | .cld => some fun f => { f with df := false }
  | .std => some fun f => { f with df := true }
  | _ => none

/-- The instruction and its prefixes but for the prefix just noted. -/
def NotesOnly (s t : State) : Prop :=
  SameSystem { s with cur := t.cur } t ∧ t.cur.ip = s.cur.ip ∧ t.ip = s.ip ∧ t.flags = s.flags ∧ t.regs = s.regs ∧
    SameMemory s t

/-- The instruction waits for the processor extension: it will be looked at again, nothing else changes (R481). -/
def Waits (i : Instr) (s : State) : Prop :=
  ∃ t, exec i s = .next t ∧ t.ip = s.cur.ip ∧ t.waiting = true ∧ t.flags = s.flags ∧ t.regs = s.regs ∧
    SameSystem { s with waiting := true } t ∧ SameMemory s t

/-- The processor extension error is taken: vector 16, EXT = 1 (R481, 60_exceptions.md R539). -/
def TakesExtensionError (i : Instr) (s : State) : Prop :=
  exec i s = .next (deliver s { vector := 16, code := none, ext := true, isInt := false } s.cur.ip s.cur.ip)

/-- The operand that PEREQ moves after an ESC has been handed over: its own memory operand; a register form leaves the earlier
one (R170, R483, log 12). -/
def escTarget (s : State) (op : BitVec 6) : RM → Option ExtOperand
  | .reg _ => s.ext
  | .mem a =>
    some { seg := s.seg (opSeg s a), pe := s.msw.pe, off := (ea s a).toNat, write := Config.escWrites op }

/-- The operand of an ESC passes the check made before it is issued: the first word, in protected mode (R483). -/
def EscOperandOk (s : State) (op : BitVec 6) : RM → Prop
  | .reg _ => True
  | .mem a => s.msw.pe = true →
      Accessible s (opSeg s a) (ea s a).toNat 2 (if Config.escWrites op then .write else .read)

/-- `n` words from a memory operand on can be accessed. -/
def WordsAccessible (s : State) (a : MemOp) (n : Nat) (k : Access) : Prop :=
  ∀ j, j < n → Accessible s (opSeg s a) ((ea s a).toNat + 2 * j) 2 k

/-- A byte of the `n` words from a memory operand on. -/
def OperandByte (s : State) (a : MemOp) (n : Nat) (p : Phys) : Prop :=
  ∃ k, k < 2 * n ∧ p = segAddr s (opSeg s a) (ea s a + BitVec.ofNat 16 k)

/-- LGDT and LIDT (false), with the table register they load. -/
def tableLoadForm : Instr → Option (Bool × MemOp)
  | .lgdt a => some (false, a)
  | .lidt a => some (true, a)
  | _ => none

/-- SGDT and SIDT, with the table register they store. -/
def tableStoreForm (s : State) : Instr → Option (TableReg × MemOp)
  | .sgdt a => some (s.gdtr, a)
  | .sidt a => some (s.idtr, a)
  | _ => none

/-- What LLDT of a selector that is not null raises, if anything (47_protection_control.md R505). -/
def ldtFault (s : State) (sel : Word) : Option (Byte × Word) :=
  if selLocal sel = true then some (13, sel &&& 0xFFFC)
  else
    match fetchDescriptor s sel with
    | none => some (13, sel &&& 0xFFFC)
    | some (_, d) =>
      if d.isType 2 = false then some (13, sel &&& 0xFFFC)
      else if arP d.ar = false then some (11, sel &&& 0xFFFC)
      else none

/-- What LTR raises, if anything (R508). -/
def tssFault (s : State) (sel : Word) : Option (Byte × Word) :=
  if sel.toNat < 4 ∨ selLocal sel = true then some (13, sel &&& 0xFFFC)
  else
    match fetchDescriptor s sel with
    | none => some (13, sel &&& 0xFFFC)
    | some (_, d) =>
      if d.isType 1 = false then some (13, sel &&& 0xFFFC)
      else if arP d.ar = false then some (11, sel &&& 0xFFFC)
      else none

/-- A descriptor is visible: DPL >= CPL and DPL >= RPL (R514). -/
def VisibleAt (s : State) (sel : Word) (d : Desc) : Prop := s.cpl ≤ arDpl d.ar ∧ rpl sel ≤ arDpl d.ar

/-- A conforming code segment. -/
def Conforming (d : Desc) : Prop := arCode d.ar = true ∧ arC d.ar = true

/-- The selector's segment can be read at the current level (R517). -/
def SegmentReadable (s : State) (sel : Word) : Prop :=
  4 ≤ sel.toNat ∧ ∃ a d, fetchDescriptor s sel = some (a, d) ∧ arReadable d.ar = true ∧
    (Conforming d ∨ VisibleAt s sel d)

/-- The selector's segment can be written at the current level (R518). -/
def SegmentWritable (s : State) (sel : Word) : Prop :=
  4 ≤ sel.toNat ∧ ∃ a d, fetchDescriptor s sel = some (a, d) ∧ arWritable d.ar = true ∧ VisibleAt s sel d

/-- The selector's limit can be seen at the current level: segments, task state segments and LDTs (R516). -/
def LimitVisible (s : State) (sel : Word) (d : Desc) : Prop :=
  4 ≤ sel.toNat ∧ (∃ a, fetchDescriptor s sel = some (a, d)) ∧
    (arS d.ar = true ∨ d.isType 1 = true ∨ d.isType 2 = true ∨ d.isType 3 = true) ∧ (Conforming d ∨ VisibleAt s sel d)

/-- The selector names no descriptor. -/
def NoDescriptor (s : State) (sel : Word) : Prop := fetchDescriptor s sel = none

/-- The frame of the selector tests: ZF and the listed register, and at most the accessed bit of the tested descriptor, which
the platform decides (20_memory.md R129, log 9); none for a null selector (R131). -/
def OnlyTested (s t : State) (sel : Word) (l : List RegNum) : Prop :=
  SameSystem s t ∧ t.ip = s.ip ∧ RegsBut s t l ∧ t.flags = { s.flags with zf := t.flags.zf } ∧
    ∀ p, t.load8 p = s.load8 p ∨
      (4 ≤ sel.toNat ∧ t.load8 p = s.load8 p ||| 1 ∧ ∃ a d, fetchDescriptor s sel = some (a, d) ∧ p = a + 5)

/-- The instructions that need CPL 0 (60_exceptions.md R590, Table 13). -/
def needsLevel0 : Instr → Bool
  | .lgdt _ => true
  | .lidt _ => true
  | .lldt _ => true
  | .ltr _ => true
  | .lmsw _ => true
  | .clts => true
  | .hlt => true
  | _ => false

/-- The instructions that need CPL <= IOPL (R590, Table 13); IN, OUT, INS and OUTS have statements of their own. -/
def needsIoPrivilege : Instr → Bool
  | .cli => true
  | .sti => true
  | .lockPfx => true
  | _ => false

/-- The instructions that exist in protected mode only (60_exceptions.md R535). -/
def protectedOnly : Instr → Bool
  | .sldt _ => true
  | .str _ => true
  | .lldt _ => true
  | .ltr _ => true
  | .lar _ _ => true
  | .lsl _ _ => true
  | .verr _ => true
  | .verw _ => true
  | .arpl _ _ => true
  | _ => false

end Sys2Proof.Machine

/-- CLC, CMC, STC, CLD and STD (46_processor_control.md R470 to R474): each changes its one flag and nothing else, in both
modes. The source's pages of CLC, CMC and CLD are missing: what these three do is the spec's own inference from STC, STD and the
summary (R470's mark, 91_not_in_source.md N1). STC and STD have their pages (R472, R474). -/
def Obligations.FlagInstructionsChangeOneFlag : Prop :=
  ∀ (i : Instr) (f : Flags → Flags) (s : State), flagInstruction i = some f →
  ∃ t, exec i s = .next t ∧ t.flags = f s.flags ∧ OnlyFlags s t

/-- NOP, CLI, STI, HLT, CLTS and the prefixes (46_processor_control.md R475 to R480, R484; 30_encoding.md R190, R191; 43_string.md
R360): NOP does nothing; CLI and STI change IF, and STI also holds external interrupts off for one instruction (60_exceptions.md
R546); HLT halts; CLTS clears TS; a prefix is noted for the instruction that follows; nothing else changes. That of two segment
overrides, or of two repeat prefixes, the last wins is the model's choice (D15 for the overrides; for repeat prefixes the spec
says nothing; log 30). That STI holds them off also when IF was 1 before is the spec's own decision (R479's mark,
92_eei_decisions.md D20); that CLI has no such delay is its own inference (R475's mark). -/
def Obligations.ControlInstructionsAndPrefixes : Prop :=
  (∀ s : State, exec .nop s = .next s) ∧
  (∀ s : State, IoAllowed s →
    (∃ t, exec .cli s = .next t ∧ t.flags = { s.flags with ief := false } ∧ OnlyFlags s t) ∧
    (∃ t, exec .sti s = .next t ∧ t.flags = { s.flags with ief := true } ∧
      OnlyFlags { s with inhibitExt := true } t)) ∧
  (∀ s : State, s.cpl = 0 →
    (∃ t, exec .hlt s = .next t ∧ t.flags = s.flags ∧ OnlyFlags { s with halted := true } t) ∧
    (∃ t, exec .clts s = .next t ∧ t.flags = s.flags ∧ OnlyFlags { s with msw := { s.msw with ts := false } } t)) ∧
  (∀ (g : SReg) (s : State), ∃ t, exec (.segPfx g) s = .next t ∧ NotesOnly s t ∧ t.cur.seg = some g ∧
    t.cur.rep = s.cur.rep ∧ t.cur.lock = s.cur.lock ∧ t.cur.noted = s.cur.noted + 1) ∧
  (∀ s : State, IoAllowed s → ∃ t, exec .lockPfx s = .next t ∧ NotesOnly s t ∧ t.cur.lock = true ∧
    t.cur.rep = s.cur.rep ∧ t.cur.seg = s.cur.seg ∧ t.cur.noted = s.cur.noted + 1) ∧
  (∀ s : State, ∃ t, exec .repPfx s = .next t ∧ NotesOnly s t ∧ t.cur.rep = some .repe ∧
    t.cur.seg = s.cur.seg ∧ t.cur.lock = s.cur.lock ∧ t.cur.noted = s.cur.noted + 1) ∧
  (∀ s : State, ∃ t, exec .repnePfx s = .next t ∧ NotesOnly s t ∧ t.cur.rep = some .repne ∧
    t.cur.seg = s.cur.seg ∧ t.cur.lock = s.cur.lock ∧ t.cur.noted = s.cur.noted + 1)

/-- WAIT and ESC (46_processor_control.md R481 to R483; 20_memory.md R95, R170): exception 7 when the processor extension is not
available to the task; a wait while BUSY is active; the extension error while ERROR is active; else WAIT does nothing and ESC is
handed over by word transfers at ports 00F8H, 00FAH and 00FCH, whatever IOPL is, and a memory operand is from then on the one that
PEREQ moves; no register, flag or memory of the processor changes. Which ESC opcodes wait, test ERROR and write, and which
transfers hand them over, is the extension's own (93_implementation_defined.md U29; log 12). That a waiting instruction goes back
to its first byte is the spec's general knowledge (R481's mark, G17), PRESUMED in log 15; the address that interrupt 16 saves is
the spec's own decision D21, log 41. Exception 7 for TS, MP, EM = 1, 0, 0 (on ESC), 0, 1, 1 (on ESC) and 1, 1, 1 (on ESC and WAIT)
is the spec's own inference from the meaning of the three bits, since Table 8 lists the other five combinations only (the three
derived rows of R482). -/
def Obligations.WaitAndEscFollowExtension : Prop :=
  (∀ s : State,
    (s.msw.mp = true ∧ s.msw.ts = true → TakesException .wait s 7 none) ∧
    (¬ (s.msw.mp = true ∧ s.msw.ts = true) → s.pins.busy = true → Waits .wait s) ∧
    (¬ (s.msw.mp = true ∧ s.msw.ts = true) → s.pins.busy = false → s.pins.error = true → TakesExtensionError .wait s) ∧
    (¬ (s.msw.mp = true ∧ s.msw.ts = true) → s.pins.busy = false → s.pins.error = false → exec .wait s = .next s)) ∧
  (∀ (a b : BitVec 3) (m : RM) (s : State),
    (s.msw.em = true ∨ s.msw.ts = true → TakesException (.esc a b m) s 7 none) ∧
    (s.msw.em = false → s.msw.ts = false → EscOperandOk s (a ++ b) m →
      (s.pins.busy = true → Config.escWaits (a ++ b) = true → Waits (.esc a b m) s) ∧
      (¬ (s.pins.busy = true ∧ Config.escWaits (a ++ b) = true) →
        (s.pins.error = true → Config.escTestsError (a ++ b) = true → TakesExtensionError (.esc a b m) s) ∧
        (¬ (s.pins.error = true ∧ Config.escTestsError (a ++ b) = true) →
          ∃ t l, exec (.esc a b m) s = .next t ∧ t.flags = s.flags ∧ l ≠ [] ∧ t.io = l ++ s.io ∧
            (∀ e, e ∈ l → e.width = .word ∧ (e.port = 0x00F8 ∨ e.port = 0x00FA ∨ e.port = 0x00FC)) ∧
            t.ext = escTarget s (a ++ b) m ∧ OnlyFlags { s with io := t.io, ext := t.ext } t))))

/-- LGDT, LIDT, SGDT, SIDT, LMSW and SMSW (47_protection_control.md R501 to R504, R510, R511; 10_state.md R36): a table
register is the limit word, then 24 bits of base, then a byte that loading ignores and storing leaves open (log 5); LMSW
loads TS, EM and MP and can set PE but not clear it; SMSW stores them, and in bits 15 to 4 FFFH until the first LMSW, which is
a choice (D10, DESIGN CHOICE in log 7: the source gives only the value after RESET); nothing else changes. -/
def Obligations.SystemRegisterTransfers : Prop :=
(∀ (i : Instr) (idt : Bool) (a : MemOp) (s : State), tableLoadForm i = some (idt, a) → s.cpl = 0 →
    WordsAccessible s a 3 .read →
    ∃ t, exec i s = .next t ∧
      (let v := if idt then t.idtr else t.gdtr
       v.limit = peek16 s (opSeg s a) (ea s a) ∧
        v.base.toNat = (peek16 s (opSeg s a) (ea s a + 2)).toNat + (peek16 s (opSeg s a) (ea s a + 4)).toNat % 256 * 65536) ∧
      t.flags = s.flags ∧
      OnlyFlags (if idt then { s with idtr := t.idtr } else { s with gdtr := t.gdtr }) t) ∧
  (∀ (i : Instr) (v : TableReg) (a : MemOp) (s : State), tableStoreForm s i = some (v, a) → PlainMemory s →
    WordsAccessible s a 3 .write →
    ∃ t, exec i s = .next t ∧ peek16 t (opSeg s a) (ea s a) = v.limit ∧
      (peek16 t (opSeg s a) (ea s a + 2)).toNat + (peek8 t (opSeg s a) (ea s a + 4)).toNat * 65536 = v.base.toNat ∧
      t.flags = s.flags ∧ SameSystem s t ∧ t.ip = s.ip ∧ RegsBut s t [] ∧
      ∀ p, ¬ OperandByte s a 3 p → t.load8 p = s.load8 p) ∧
(∀ (m : RM) (s : State), s.cpl = 0 → CanRead s .word m →
    ∃ t, exec (.lmsw m) s = .next t ∧
      (let v := valueOf s .word m
       t.msw.pe = (s.msw.pe || v.getLsbD 0) ∧ t.msw.mp = v.getLsbD 1 ∧ t.msw.em = v.getLsbD 2 ∧
        t.msw.ts = v.getLsbD 3) ∧ t.flags = s.flags ∧ OnlyFlags { s with msw := t.msw } t) ∧
  (∀ (m : RM) (s : State), PlainMemory s → CanWrite s .word m →
    ∃ t, exec (.smsw m) s = .next t ∧
      (let v := valueIn s t .word m
       v.getLsbD 0 = s.msw.pe ∧ v.getLsbD 1 = s.msw.mp ∧ v.getLsbD 2 = s.msw.em ∧ v.getLsbD 3 = s.msw.ts ∧
        (s.msw.hiKnown = true → v.toNat / 16 = 0xFFF)) ∧ t.flags = s.flags ∧ OnlyOperand s t .word m)

/-- LLDT and LTR in protected mode at CPL 0 (R505, R508): a null selector makes LDTR invalid; a selector that fails a check
raises that check's exception; else the register takes the descriptor, and LTR marks the task state segment busy; nothing
else changes. That LTR of a null selector is #GP with that selector is the spec's general knowledge (R508's mark, G18), PRESUMED
in log 40. The descriptors lie in memory that reads as it was left, no device's and no other master's (log 48). -/
def Obligations.SystemSegmentLoads : Prop :=
  (∀ (m : RM) (s : State), s.msw.pe = true → Steady s → s.cpl = 0 → CanRead s .word m →
    let sel := valueOf s .word m
    (sel.toNat < 4 → ∃ t, exec (.lldt m) s = .next t ∧ t.ldtr.sel = sel ∧ t.ldtr.valid = false ∧ t.flags = s.flags ∧
      OnlyFlags { s with ldtr := t.ldtr } t) ∧
    (4 ≤ sel.toNat → ∀ n c, ldtFault s sel = some (n, c) → TakesException (.lldt m) s n (some c)) ∧
    (4 ≤ sel.toNat → ldtFault s sel = none → ∀ a d, fetchDescriptor s sel = some (a, d) →
      ∃ t, exec (.lldt m) s = .next t ∧ t.ldtr = { sel := sel, base := d.base, limit := d.limit, valid := true } ∧
        t.flags = s.flags ∧ OnlyFlags { s with ldtr := t.ldtr } t)) ∧
  (∀ (m : RM) (s : State), s.msw.pe = true → s.cpl = 0 → PlainMemory s → CanRead s .word m →
    let sel := valueOf s .word m
    (∀ n c, tssFault s sel = some (n, c) → TakesException (.ltr m) s n (some c)) ∧
    (tssFault s sel = none → ∀ a d, fetchDescriptor s sel = some (a, d) →
      ∃ t, exec (.ltr m) s = .next t ∧ t.tr = { sel := sel, base := d.base, limit := d.limit } ∧
        t.load8 (a + 5) = d.ar ||| 2 ∧ (∀ p, p ≠ a + 5 → t.load8 p = s.load8 p) ∧ t.flags = s.flags ∧
        SameSystem { s with tr := t.tr } t ∧ t.ip = s.ip ∧ RegsBut s t []))

/-- VERR, VERW, LSL, LAR and ARPL in protected mode (R514 to R519): ZF says whether the selector passes its test, LSL and LAR
then load the limit or the access byte, ARPL raises the selector's RPL; a selector that fails raises nothing and leaves the
register. In the cases where the spec leaves LAR open, its two outcomes are both allowed; that LSL clears ZF for the system types
0 and 8 to 15 is the model's choice where the spec allows a refusal (93 U10; both log 24). The descriptors lie in memory that reads as it was left
(log 48). -/
def Obligations.SelectorTestsReportThroughZeroFlag : Prop :=
  (∀ (m : RM) (s : State), s.msw.pe = true → Steady s → CanRead s .word m →
    (∃ t, exec (.verr m) s = .next t ∧ (t.flags.zf = true ↔ SegmentReadable s (valueOf s .word m)) ∧
      OnlyTested s t (valueOf s .word m) []) ∧
    (∃ t, exec (.verw m) s = .next t ∧ (t.flags.zf = true ↔ SegmentWritable s (valueOf s .word m)) ∧
      OnlyTested s t (valueOf s .word m) [])) ∧
  (∀ (r : RegNum) (m : RM) (s : State), s.msw.pe = true → Steady s → CanRead s .word m →
    let sel := valueOf s .word m
    (∃ t, exec (.lsl r m) s = .next t ∧ (t.flags.zf = true ↔ ∃ d, LimitVisible s sel d) ∧
      (∀ d, LimitVisible s sel d → t.getW r = d.limit) ∧ (t.flags.zf = false → t.getW r = s.getW r) ∧
      OnlyTested s t sel [r]) ∧
    (∃ t, exec (.lar r m) s = .next t ∧ (NoDescriptor s sel → t.flags.zf = false) ∧
      (∀ a d, 4 ≤ sel.toNat → fetchDescriptor s sel = some (a, d) → (¬ Conforming d ∨ VisibleAt s sel d) →
        (arS d.ar = true ∨ (arType d.ar ≠ 0 ∧ arType d.ar < 8)) → (t.flags.zf = true ↔ VisibleAt s sel d)) ∧
      (∀ a d, fetchDescriptor s sel = some (a, d) → t.flags.zf = true → (t.getW r).toNat = d.ar.toNat * 256) ∧
      (t.flags.zf = false → t.getW r = s.getW r) ∧ OnlyTested s t sel [r])) ∧
  (∀ (m : RM) (r : RegNum) (s : State), s.msw.pe = true → PlainMemory s → CanWrite s .word m →
    ∃ t, exec (.arpl m r) s = .next t ∧
      (let a := valueOf s .word m
       let b := s.getW r
       (a.toNat % 4 < b.toNat % 4 → t.flags.zf = true ∧ (valueIn s t .word m).toNat = a.toNat / 4 * 4 + b.toNat % 4) ∧
        (b.toNat % 4 ≤ a.toNat % 4 → t.flags.zf = false ∧ valueIn s t .word m = a)) ∧
      t.flags = { s.flags with zf := t.flags.zf } ∧ OnlyOperand s t .word m)

/-- The privilege rules (60_exceptions.md R535, R590): outside CPL 0 the instructions of Table 13 raise #GP(0), and so do CLI,
STI and LOCK when CPL > IOPL; in real mode the protected-mode instructions raise exception 6. All with nothing changed. -/
def Obligations.PrivilegeViolationsTrap : Prop :=
  (∀ (i : Instr) (s : State), needsLevel0 i = true → s.msw.pe = true → s.cpl ≠ 0 → TakesException i s 13 (some 0)) ∧
  (∀ (i : Instr) (s : State), needsIoPrivilege i = true → ¬ IoAllowed s → TakesException i s 13 (some 0)) ∧
  (∀ (i : Instr) (s : State), protectedOnly i = true → s.msw.pe = false → TakesException i s 6 none)

namespace Sys2Proof.Machine

/-! ### Encoding, fetching, reset -/

/-- Words of the spec's encodings and the instructions they are. -/
def encodingSamples : List (List Byte × Instr) :=
  [([0x04, 0x01], .addAccImm (.b 1)),
   ([0x15, 0x34, 0x12], .adcAccImm (.w 0x1234)),
   ([0x83, 0xC3, 0xFF], .addRmSext (.reg .r3) 0xFF),
   ([0x29, 0xD8], .subRmReg .word (.reg .r0) .r3),
   ([0x8B, 0x46, 0xFE], .movRegRm .word .r0 (.mem (.disp8 .bp 0xFE))),
   ([0x8E, 0xD8], .movSregRm .ds (.reg .r0)),
   ([0xC7, 0x06, 0x00, 0x20, 0x34, 0x12], .movRmImm (.mem (.direct 0x2000)) (.w 0x1234)),
   ([0xD0, 0xC0], .rolOne .byte (.reg .r0)),
   ([0xF7, 0xBF, 0x02, 0x01], .idivRm .word (.mem (.disp16 .bx 0x0102))),
   ([0xA4], .movs .byte),
   ([0xF3], .repPfx),
   ([0x75, 0x0C], .jne 0x0C),
   ([0xEA, 0x00, 0x10, 0x00, 0xF0], .jmpFar 0x1000 0xF000),
   ([0xC8, 0x10, 0x00, 0x02], .enter 0x0010 0x02),
   ([0xD9, 0xC1], .esc 1 0 (.reg .r1)),
   ([0x0F, 0x01, 0x16, 0x00, 0x10], .lgdt (.direct 0x1000)),
   ([0x0F, 0x03, 0xC3], .lsl .r0 (.reg .r3))]

/-- The state as a step begins: a rise of the NMI input is remembered (60_exceptions.md R547), and the step's reads are new reads of
the bus (20_memory.md R154, R160, log 48). -/
def Latched (s : State) : State :=
  { s with
    nmiPending := s.nmiPending || (s.pins.nmi && !s.nmiLevel), nmiLevel := s.pins.nmi
    bus := { step := s.bus.step + 1, op := 0, gap := 0 } }

/-- The bytes that the next step finds at CS:IP in memory are `bs`, inside the code segment. -/
def CodeAt (s : State) (bs : List Byte) : Prop :=
  s.ip.toNat + bs.length ≤ s.cs.limit.toNat + 1 ∧
    ∀ k b, bs[k]? = some b → (Latched s).load8 (segAddr s .cs (s.ip + BitVec.ofNat 16 k)) = b

/-- The state in which an instruction of `len` bytes (prefixes included) at CS:IP executes: IP past it, its start remembered,
no prefix noted yet, the one-instruction inhibits and the pending trap spent (10_state.md R28; 60_exceptions.md R546), its own
reads the first after the fetch (log 48). -/
def Entered (s : State) (len : Nat) : State :=
  { s with
    ip := s.ip + BitVec.ofNat 16 len, cur := Cur.at s.ip, inhibitInt := false, inhibitExt := false, waiting := false,
    stepTrap := false, draws := s.draws + 1, nmiPending := s.nmiPending || (s.pins.nmi && !s.nmiLevel),
    nmiLevel := s.pins.nmi, bus := { step := s.bus.step + 1, op := 1, gap := 1 } }

/-- The bytes of a sequence of prefixes and of the instruction after them. -/
def encodeAll (pfx : List Instr) (i : Instr) : List Byte := pfx.flatMap encode ++ encode i

/-- A register, table and status word value that RESET gives (10_state.md R45, Table 6). -/
def ResetValues (s : State) : Prop :=
  s.flags = { cf := false, pf := false, af := false, zf := false, sf := false, tf := false, ief := false, df := false,
              of := false, iopl := 0, nt := false } ∧
    mswWord s = 0xFFF0 ∧ s.ip = 0xFFF0 ∧ s.cs.sel = 0xF000 ∧ s.cs.base = 0xFF0000 ∧ s.ds.sel = 0 ∧ s.es.sel = 0 ∧
    s.ss.sel = 0 ∧ s.ds.base = 0 ∧ s.es.base = 0 ∧ s.ss.base = 0 ∧ (∀ x, (s.seg x).limit = 0xFFFF) ∧
    (∀ x, (s.seg x).valid = true) ∧ s.idtr.base = 0 ∧ s.idtr.limit = 0x03FF ∧ s.halted = false ∧ s.shutdown = false ∧
    s.nmiInService = false ∧ s.nmiPending = false ∧ s.inhibitInt = false ∧ s.inhibitExt = false

/-- An invariant of the machine: the canonical memory, and what real mode guarantees (log 1; 10_state.md R26, R35). -/
def RealModeInvariant (s : State) : Prop := RealFlagsClear s ∧ RealSegments s

/-! ### Events -/

/-- External events are looked at (60_exceptions.md R546, R547). -/
def ExternalOpen (s : State) : Prop := s.nmiInService = false ∧ s.inhibitInt = false ∧ s.inhibitExt = false

/-- An NMI is pending or has just been signalled (R547). -/
def NmiPending (s : State) : Prop := s.nmiPending = true ∨ (s.pins.nmi = true ∧ s.nmiLevel = false)

/-- The single-step trap is due (R548, R551). -/
def StepDue (s : State) : Prop := s.stepTrap = true ∧ s.inhibitInt = false ∧ s.halted = false

/-- An instruction boundary: no RESET, no shutdown, the bus free. -/
def AtBoundary (s : State) : Prop := s.pins.reset = false ∧ s.shutdown = false ∧ BusFree s

/-- The first phase of a real mode boundary at which every vector can be delivered. -/
def RealBoundary (s : State) : Prop :=
  AtBoundary s ∧ s.phase = .singleStep ∧ s.msw.pe = false ∧ PlainMemory s ∧ 0x3FF ≤ s.idtr.limit.toNat ∧ CanPush s 3

/-- How many of the steps 2 to 5 of R551 a boundary has passed. -/
def stepsPassed : Phase → Nat
  | .singleStep => 0
  | .nmi => 1
  | .mp => 2
  | .intr => 3
  | .done => 4

/-- Step 2 of R551 is due. -/
def TrapDue (s : State) : Prop := stepsPassed s.phase = 0 ∧ StepDue s

/-- Step 3 of R551 is due. -/
def NmiDue (s : State) : Prop := stepsPassed s.phase ≤ 1 ∧ NmiPending s ∧ ExternalOpen s

/-- Step 4 of R551 is due. -/
def OverrunDue (s : State) : Prop := stepsPassed s.phase ≤ 2 ∧ s.mpPending = true ∧ ExternalOpen s

/-- Step 5 of R551 is due. -/
def IntrDue (s : State) : Prop :=
  stepsPassed s.phase ≤ 3 ∧ s.pins.intr = true ∧ s.flags.ief = true ∧ ExternalOpen s

/-- An event of the boundary delivered: no error code, EXT = 1, the boundary's own address saved; then the next steps of R551. -/
def Served (s : State) (vector : Byte) (next : Phase) : State :=
  { deliver s { vector := vector, code := none, ext := true, isInt := false } s.ip s.ip with phase := next }

/-- An NMI ends a shutdown: in protected mode always, in real mode with IDTR.limit >= 000FH and SP > 0005H; not during NMI
service (R586). -/
def NmiEndsShutdown (s : State) : Prop :=
  NmiPending s ∧ s.nmiInService = false ∧ (s.msw.pe = true ∨ (0x0F ≤ s.idtr.limit.toNat ∧ 5 < s.regs.sp.toNat))

/-! ### Bytes that are no instruction -/

/-- The bytes raise #UD, vector 6 (30_encoding.md R220, R221, R226): an undefined opcode of one or two bytes, MOV CS, which its
first two bytes tell, or a register operand where memory is required. -/
inductive UndefinedBytes : List Byte → Prop where
  | opcode (b : Byte) : b ∈ [0x64, 0x65, 0x66, 0x67, 0xD6, 0xF1] → UndefinedBytes [b]
  | twoByte (b : Byte) : b = 4 ∨ b = 5 ∨ 7 ≤ b.toNat → UndefinedBytes [0x0F, b]
  | movCs (b : Byte) : b.toNat / 8 % 8 = 1 → UndefinedBytes [0x8E, b]
  | registerOperand (b : Byte) (r q : RegNum) : b ∈ [0x8D, 0xC4, 0xC5, 0x62] → UndefinedBytes (b :: modRM r.bits (.reg q))
  | farRegister (k : BitVec 3) (q : RegNum) : k = 3 ∨ k = 5 → UndefinedBytes (0xFF :: modRM k (.reg q))
  | tableRegister (k : BitVec 3) (q : RegNum) : k.toNat < 4 → UndefinedBytes (0x0F :: 0x01 :: modRM k (.reg q))

/-- The bytes raise exception 13 (R222): the members of the POP and PUSH memory groups that are neither. -/
inductive UndefinedPushPop : List Byte → Prop where
  | pop (k : BitVec 3) (m : RM) : k ≠ 0 → m.wf = true → UndefinedPushPop (0x8F :: modRM k m)
  | push (m : RM) : m.wf = true → UndefinedPushPop (0xFF :: modRM 7 m)

/-- The bytes that the next step finds from CS:IP on are `bs`, wherever the code segment ends. -/
def BytesAt (s : State) (bs : List Byte) : Prop :=
  ∀ k b, bs[k]? = some b → (Latched s).load8 (segAddr s .cs (s.ip + BitVec.ofNat 16 k)) = b

/-- The step takes an exception for the bytes at CS:IP: the address saved is that of the first prefix, and the boundary
follows as after an instruction. -/
def FetchRaises (s : State) (vector : Byte) (code : Option Word) : Prop :=
  step s = endOutcome s.flags.tf
    (.next (deliver (Entered s 0) { vector := vector, code := code, ext := false, isInt := false } s.ip s.ip))

/-! ### Where an operand lies -/

/-- The sum of base and index registers that r/m names (30_encoding.md R198). -/
def baseSum (s : State) : EaBase → Nat
  | .bxsi => s.regs.bx.toNat + s.regs.si.toNat
  | .bxdi => s.regs.bx.toNat + s.regs.di.toNat
  | .bpsi => s.regs.bp.toNat + s.regs.si.toNat
  | .bpdi => s.regs.bp.toNat + s.regs.di.toNat
  | .si => s.regs.si.toNat
  | .di => s.regs.di.toNat
  | .bp => s.regs.bp.toNat
  | .bx => s.regs.bx.toNat

/-- The segment register used when no override names another: SS where BP is in the sum (20_memory.md R98). -/
def baseSegment : EaBase → SReg
  | .bpsi => .ss
  | .bpdi => .ss
  | .bp => .ss
  | .bxsi => .ds
  | .bxdi => .ds
  | .si => .ds
  | .di => .ds
  | .bx => .ds

/-! ### Memory operands that fail their checks -/

/-- The instructions that access one memory operand and nothing else: the width, the operand and the access. -/
def checkedOperand : Instr → Option (Width × MemOp × Access)
  | .addRmReg w (.mem a) _ => some (w, a, .write)
  | .addRegRm w _ (.mem a) => some (w, a, .read)
  | .addRmImm (.mem a) v => some (v.width, a, .write)
  | .addRm8Imm82 (.mem a) _ => some (.byte, a, .write)
  | .addRmSext (.mem a) _ => some (.word, a, .write)
  | .orRmReg w (.mem a) _ => some (w, a, .write)
  | .orRegRm w _ (.mem a) => some (w, a, .read)
  | .orRmImm (.mem a) v => some (v.width, a, .write)
  | .adcRmReg w (.mem a) _ => some (w, a, .write)
  | .adcRegRm w _ (.mem a) => some (w, a, .read)
  | .adcRmImm (.mem a) v => some (v.width, a, .write)
  | .adcRm8Imm82 (.mem a) _ => some (.byte, a, .write)
  | .adcRmSext (.mem a) _ => some (.word, a, .write)
  | .sbbRmReg w (.mem a) _ => some (w, a, .write)
  | .sbbRegRm w _ (.mem a) => some (w, a, .read)
  | .sbbRmImm (.mem a) v => some (v.width, a, .write)
  | .sbbRm8Imm82 (.mem a) _ => some (.byte, a, .write)
  | .sbbRmSext (.mem a) _ => some (.word, a, .write)
  | .andRmReg w (.mem a) _ => some (w, a, .write)
  | .andRegRm w _ (.mem a) => some (w, a, .read)
  | .andRmImm (.mem a) v => some (v.width, a, .write)
  | .subRmReg w (.mem a) _ => some (w, a, .write)
  | .subRegRm w _ (.mem a) => some (w, a, .read)
  | .subRmImm (.mem a) v => some (v.width, a, .write)
  | .subRm8Imm82 (.mem a) _ => some (.byte, a, .write)
  | .subRmSext (.mem a) _ => some (.word, a, .write)
  | .xorRmReg w (.mem a) _ => some (w, a, .write)
  | .xorRegRm w _ (.mem a) => some (w, a, .read)
  | .xorRmImm (.mem a) v => some (v.width, a, .write)
  | .cmpRmReg w (.mem a) _ => some (w, a, .read)
  | .cmpRegRm w _ (.mem a) => some (w, a, .read)
  | .cmpRmImm (.mem a) v => some (v.width, a, .read)
  | .cmpRm8Imm82 (.mem a) _ => some (.byte, a, .read)
  | .cmpRmSext (.mem a) _ => some (.word, a, .read)
  | .testRmReg w (.mem a) _ => some (w, a, .read)
  | .testRmImm (.mem a) v => some (v.width, a, .read)
  | .incRm w (.mem a) => some (w, a, .write)
  | .decRm w (.mem a) => some (w, a, .write)
  | .negRm w (.mem a) => some (w, a, .write)
  | .notRm w (.mem a) => some (w, a, .write)
  | .mulRm w (.mem a) => some (w, a, .read)
  | .imulRm w (.mem a) => some (w, a, .read)
  | .divRm w (.mem a) => some (w, a, .read)
  | .idivRm w (.mem a) => some (w, a, .read)
  | .imulRegRmImm16 _ (.mem a) _ => some (.word, a, .read)
  | .imulRegRmImm8 _ (.mem a) _ => some (.word, a, .read)
  | .rolImm w (.mem a) _ => some (w, a, .write)
  | .rolOne w (.mem a) => some (w, a, .write)
  | .rolCl w (.mem a) => some (w, a, .write)
  | .rorImm w (.mem a) _ => some (w, a, .write)
  | .rorOne w (.mem a) => some (w, a, .write)
  | .rorCl w (.mem a) => some (w, a, .write)
  | .rclImm w (.mem a) _ => some (w, a, .write)
  | .rclOne w (.mem a) => some (w, a, .write)
  | .rclCl w (.mem a) => some (w, a, .write)
  | .rcrImm w (.mem a) _ => some (w, a, .write)
  | .rcrOne w (.mem a) => some (w, a, .write)
  | .rcrCl w (.mem a) => some (w, a, .write)
  | .shlImm w (.mem a) _ => some (w, a, .write)
  | .shlOne w (.mem a) => some (w, a, .write)
  | .shlCl w (.mem a) => some (w, a, .write)
  | .shrImm w (.mem a) _ => some (w, a, .write)
  | .shrOne w (.mem a) => some (w, a, .write)
  | .shrCl w (.mem a) => some (w, a, .write)
  | .sarImm w (.mem a) _ => some (w, a, .write)
  | .sarOne w (.mem a) => some (w, a, .write)
  | .sarCl w (.mem a) => some (w, a, .write)
  | .movRmReg w (.mem a) _ => some (w, a, .write)
  | .movRegRm w _ (.mem a) => some (w, a, .read)
  | .movRmImm (.mem a) v => some (v.width, a, .write)
  | .movRmSreg (.mem a) _ => some (.word, a, .write)
  | .movSregRm _ (.mem a) => some (.word, a, .read)
  | .movAccMoffs w o => some (w, .direct o, .read)
  | .movMoffsAcc w o => some (w, .direct o, .write)
  | .xchgRmReg w (.mem a) _ => some (w, a, .write)
  | .jmpRm (.mem a) => some (.word, a, .read)
  | .smsw (.mem a) => some (.word, a, .write)
  | _ => none

/-- What an instruction tests on its way: a condition whose failure is another statement's matter, or an access through a
segment. -/
inductive OperandCheck where
  | condition (p : Prop)
  | access (x : SReg) (off n : Nat) (a : Access)

/-- The test passes. -/
def OperandCheck.Passes (s : State) : OperandCheck → Prop
  | .condition p => p
  | .access x off n a => Accessible s x off n a

/-- The access to an operand in memory; a register has none. -/
def accessRm (s : State) (w : Width) (k : Access) : RM → List OperandCheck
  | .reg _ => []
  | .mem a => [.access (opSeg s a) (ea s a).toNat w.bytes k]

/-- The accesses to `n` words from a memory operand on (20_memory.md R81, D17). -/
def accessWords (s : State) (a : MemOp) (n : Nat) (k : Access) : List OperandCheck :=
  (List.range n).map fun j => .access (opSeg s a) ((ea s a).toNat + 2 * j) 2 k

/-- The `k`-th word pushed (40_data_transfer.md R243). -/
def accessPush (s : State) (k : Nat) : OperandCheck := .access .ss (s.regs.sp - BitVec.ofNat 16 (2 * k)).toNat 2 .write

/-- The word `k` bytes above the top of the stack (R244). -/
def accessPop (s : State) (k : Word) : OperandCheck := .access .ss (s.regs.sp + k).toNat 2 .read

/-- The source element of a string instruction (43_string.md R350). -/
def accessSource (s : State) (w : Width) : OperandCheck := .access (overridden s .ds) s.regs.si.toNat w.bytes .read

/-- The element at ES:DI (43_string.md R350). -/
def accessEsDi (s : State) (w : Width) (k : Access) : OperandCheck := .access .es s.regs.di.toNat w.bytes k

/-- The tests of an instruction in their order, as far as they lead to accesses. -/
def operandChecks (s : State) (i : Instr) : List OperandCheck :=
  match i with
  | .xlat => [.access (overridden s .ds) (s.regs.bx + s.al.setWidth 16).toNat 1 .read]
  | .lds _ a => accessWords s a 2 .read
  | .les _ a => accessWords s a 2 .read
  | .bound _ a => accessWords s a 2 .read
  | .jmpFarMem a => accessWords s a 2 .read
  | .callFarMem a => accessWords s a 2 .read ++ [.condition (s.msw.pe = false), accessPush s 1, accessPush s 2]
  | .callFar _ _ => [.condition (s.msw.pe = false), accessPush s 1, accessPush s 2]
  | .callRel d => [.condition (TargetOk s (s.ip + d)), accessPush s 1]
  | .callRm m => accessRm s .word .read m ++ [.condition (TargetOk s (valueOf s .word m)), accessPush s 1]
  | .ret => [accessPop s 0]
  | .retImm _ => [accessPop s 0]
  | .retFar => [.condition (s.msw.pe = false), accessPop s 0, accessPop s 2]
  | .retFarImm _ => [.condition (s.msw.pe = false), accessPop s 0, accessPop s 2]
  | .iret => [.condition (s.msw.pe = false), accessPop s 0, accessPop s 2, accessPop s 4]
  | .lgdt a => .condition (s.cpl = 0) :: accessWords s a 3 .read
  | .lidt a => .condition (s.cpl = 0) :: accessWords s a 3 .read
  | .sgdt a => accessWords s a 3 .write
  | .sidt a => accessWords s a 3 .write
  | .lmsw m => .condition (s.cpl = 0) :: accessRm s .word .read m
  | .lldt m => .condition (s.msw.pe = true ∧ s.cpl = 0) :: accessRm s .word .read m
  | .ltr m => .condition (s.msw.pe = true ∧ s.cpl = 0) :: accessRm s .word .read m
  | .sldt m => .condition (s.msw.pe = true) :: accessRm s .word .write m
  | .str m => .condition (s.msw.pe = true) :: accessRm s .word .write m
  | .lar _ m => .condition (s.msw.pe = true) :: accessRm s .word .read m
  | .lsl _ m => .condition (s.msw.pe = true) :: accessRm s .word .read m
  | .verr m => .condition (s.msw.pe = true) :: accessRm s .word .read m
  | .verw m => .condition (s.msw.pe = true) :: accessRm s .word .read m
  | .arpl m _ => .condition (s.msw.pe = true) :: accessRm s .word .write m
  | .esc t l m =>
    .condition (s.msw.em = false ∧ s.msw.ts = false ∧ s.msw.pe = true) ::
      accessRm s .word (if Config.escWrites (t ++ l) then .write else .read) m
  | .popRm m => accessPop s 0 :: accessRm s .word .write m
  | .popReg _ => [accessPop s 0]
  | .popEs => [accessPop s 0]
  | .popSs => [accessPop s 0]
  | .popDs => [accessPop s 0]
  | .popf => [accessPop s 0]
  | .popa => [accessPop s 0, accessPop s 14]
  | .leave => [.access .ss s.regs.bp.toNat 2 .read]
  | .pushRm m => accessRm s .word .read m ++ [accessPush s 1]
  | .pushReg _ => [accessPush s 1]
  | .pushSreg _ => [accessPush s 1]
  | .pushImm16 _ => [accessPush s 1]
  | .pushImm8 _ => [accessPush s 1]
  | .pushf => [accessPush s 1]
  | .pusha => [accessPush s 1, accessPush s 8]
  | .enter _ l =>
    accessPush s 1 ::
      if l.toNat % 32 = 0 then []
      else
        (List.range (l.toNat % 32 - 1)).flatMap
            (fun j => [.access .ss (displayWord s (j + 1)).toNat 2 .read, accessPush s (j + 2)]) ++
          [accessPush s (l.toNat % 32 + 1)]
  | .movs w => [.condition (Iterates s), accessSource s w, accessEsDi s w .write]
  | .cmps w => [.condition (Iterates s), accessSource s w, accessEsDi s w .read]
  | .scas w => [.condition (Iterates s), accessEsDi s w .read]
  | .lods w => [.condition (Iterates s), accessSource s w]
  | .stos w => [.condition (Iterates s), accessEsDi s w .write]
  | .ins w => [.condition (Iterates s ∧ IoAllowed s), accessEsDi s w .write]
  | .outs w => [.condition (Iterates s ∧ IoAllowed s), accessSource s w]
  | i =>
    match checkedOperand i with
    | some (w, a, k) => [.access (opSeg s a) (ea s a).toNat w.bytes k]
    | none => []

/-! ### Steps that switch no task -/

/-- No vector of the IDT has a task gate (60_exceptions.md R562). -/
def NoTaskGates (s : State) : Prop :=
  ∀ v : Byte, 8 * v.toNat + 7 ≤ s.idtr.limit.toNat → (idtGate s v).isType 5 = false

/-- The instruction asks for no task switch of its own: no IRET with NT = 1, no far JMP or CALL to a task gate or an available
task state segment (45_protected_transfer.md R430, R431, R442); and PUSHA has its room. -/
def AsksForNoTask (s : State) (i : Instr) : Prop :=
  (i = .iret → s.flags.nt = false) ∧
    (∀ call sel off Ready, farForm s i = some (call, sel, off, Ready) → ∀ a d, fetchDescriptor s sel = some (a, d) →
      d.isType 5 = false ∧ d.isType 1 = false) ∧
    (i = .pusha → CanPush s 8)

end Sys2Proof.Machine

/-- Decoding undoes encoding (30_encoding.md R180 to R228): the bytes of any well-formed instruction, whatever follows them,
decode to that instruction, and what follows is left. -/
def Obligations.DecodeUndoesEncode : Prop :=
  ∀ (i : Instr) (rest : List Byte), i.WellFormed → decode (encode i ++ rest) = .ok (i, rest)

/-- Encoding undoes decoding: whatever bytes decode, the instruction is well-formed and its encoding is exactly the bytes read,
so that no bit of an encoding is ignored and no two byte strings decode to one instruction. -/
def Obligations.EncodeUndoesDecode : Prop :=
  ∀ (bs : List Byte) (i : Instr) (rest : List Byte), decode bs = .ok (i, rest) →
    i.WellFormed ∧ encode i ++ rest = bs

/-- A few words written out from the encodings of spec/ decode to their instructions. -/
def Obligations.SampleWordsDecode : Prop := ∀ e ∈ encodingSamples, decode e.1 = .ok (e.2, [])

/-- A step runs the decoded instruction: when no event is due and the bytes at CS:IP, not overtaken by a store, are the encoding
of a well-formed instruction that is no prefix, the step is that instruction's meaning with IP already past it, followed by
the end of the instruction (its trap flag and the next boundary). -/
def Obligations.StepRunsDecodedInstruction : Prop :=
  ∀ (s : State) (i : Instr), Executing s → QuietBoundary s → i.WellFormed → i.isPrefix = false → s.stale = [] →
    CodeAt s (encode i) → step s = endOutcome s.flags.tf (exec i (Entered s (encode i).length))

/-- A step runs an instruction with its prefixes (30_encoding.md R190, R191): at most ten bytes in all, the prefixes take
effect in their order in front of the instruction, IP is past all of them, and the address that an exception saves is that
of the first prefix. -/
def Obligations.StepRunsPrefixedInstruction : Prop :=
  ∀ (s : State) (pfx : List Instr) (i : Instr), Executing s → QuietBoundary s → i.WellFormed → i.isPrefix = false →
    (∀ p ∈ pfx, p.isPrefix = true) → s.stale = [] → (encodeAll pfx i).length ≤ 10 → CodeAt s (encodeAll pfx i) →
    ((.repPfx ∈ pfx ∨ .repnePfx ∈ pfx) → i.isString = true) →
    step s = endOutcome s.flags.tf (runPrefixed (Entered s (encodeAll pfx i).length) i pfx)

/-- The reset state holds the values of Table 6 (10_state.md R27, R45; 70_reset_and_hazards.md R611), the first instruction is
fetched from physical address FFFFF0H (R613), and the invariants of the other statements hold. While the RESET pin is active a
step resets the processor from any state, protected mode, halt and shutdown included (R610, R611). That RESET leaves memory
untouched is the model's inference (log 37); that all of memory is RAM in the reset state is its choice (log 1). -/
def Obligations.ResetGivesTableValues : Prop :=
  (ResetValues State.reset ∧ segAddr State.reset .cs State.reset.ip = 0xFFFFF0 ∧ PlainMemory State.reset ∧
    RealModeInvariant State.reset) ∧
  (∀ s : State, s.pins.reset = true →
    ∃ t, step s = .next t ∧ ResetValues t ∧ t.cpl = 0 ∧ SameMemory s t ∧ t.pins = s.pins ∧ t.memMap = s.memMap)

/-- Every step keeps memory in its canonical form, in which equal memories are equal data, keeps the map of what answers where
(20_memory.md R92, log 1), and changes no byte of ROM or of an address that nothing answers. Each step but that of RESET is a
new one for memory that other masters write and for devices, so that no read of theirs repeats an earlier step's (R154, R160;
the count is the model's own, log 48). -/
def Obligations.StepKeepsMemoryCanonical : Prop :=
  ∀ s t : State, step s = .next t →
    (MemoryCanonical s → MemoryCanonical t) ∧ t.memMap = s.memMap ∧
      (∀ p, s.memKind p = .rom ∨ s.memKind p = .absent → t.load8 p = s.load8 p) ∧
      (s.pins.reset = false → t.bus.step = s.bus.step + 1)

/-- Every step keeps what real mode guarantees: IOPL and NT are 0 and every segment is 64K bytes, valid and writable (10_state.md
R26, R35). -/
def Obligations.StepKeepsRealModeInvariant : Prop :=
  ∀ s t : State, RealModeInvariant s → step s = .next t → RealModeInvariant t

/-- Protected mode is left by RESET alone (47_protection_control.md R510; 60_exceptions.md R588): whatever the instruction, event
or shutdown, a step from a protected mode state without RESET ends in protected mode. -/
def Obligations.OnlyResetLeavesProtectedMode : Prop :=
  ∀ s t : State, s.msw.pe = true → s.pins.reset = false → step s = .next t → t.msw.pe = true

/-- What unprivileged code cannot change (60_exceptions.md R590, Table 13): a step begun outside CPL 0 leaves GDTR, IDTR and
MSW's PE, MP and EM alone and does not clear TS; and it leaves LDTR, TR and IOPL alone unless it switches tasks, which ends with
TS = 1. Whatever TS is, an instruction that asks for no task switch leaves them alone, and so does a delivery, when no vector has
a task gate and tables are read as they were left (R160). (A PUSHA that faults between its words is left out of the last: it may have written a gate, log 26.) -/
def Obligations.UnprivilegedStepKeepsSystemState : Prop :=
  (∀ s t : State, s.msw.pe = true → s.cpl ≠ 0 → s.pins.reset = false → step s = .next t →
    t.gdtr = s.gdtr ∧ t.idtr = s.idtr ∧ t.msw.pe = true ∧ t.msw.mp = s.msw.mp ∧ t.msw.em = s.msw.em ∧
      (s.msw.ts = true → t.msw.ts = true) ∧
      (t.msw.ts = false → t.ldtr = s.ldtr ∧ t.tr = s.tr ∧ t.flags.iopl = s.flags.iopl)) ∧
  (∀ (i : Instr) (s t : State), s.msw.pe = true → s.cpl ≠ 0 → Steady s → NoTaskGates s → AsksForNoTask s i → exec i s = .next t →
    t.ldtr = s.ldtr ∧ t.tr = s.tr ∧ t.flags.iopl = s.flags.iopl ∧ t.msw = s.msw) ∧
  (∀ (s : State) (ev : Event) (ret at' : Word), s.msw.pe = true → Steady s → NoTaskGates s →
    let t := deliver s ev ret at'
    t.ldtr = s.ldtr ∧ t.tr = s.tr ∧ t.flags.iopl = s.flags.iopl ∧ t.msw = s.msw ∧ t.gdtr = s.gdtr ∧ t.idtr = s.idtr)

/-- Memory is little-endian and bytes are independent (20_memory.md R80, R83): a word stored at any address, odd or even, lies
low byte first, reads back, and leaves every other byte. That through a segment the second byte's offset wraps at 64K and is
translated by itself is the model's choice for its unchecked accesses (log 8). A store where there is no RAM changes no byte, and
an address that nothing answers reads as the platform's byte (R92, log 1). In memory that other bus masters write at any time a
read finds a byte of theirs or, if there is none, this processor's own, the last one it stored there; a device answers each read
as it likes (R151, R154, R160): which byte, and where in a step a read may differ from an earlier one, is open (log 48). -/
def Obligations.WordsAreStoredLowByteFirst : Prop :=
  (∀ (s : State) (a : Phys) (v : Word), PlainMemory s →
    ((s.store16 a v).load8 a).toNat = v.toNat % 256 ∧ ((s.store16 a v).load8 (a + 1)).toNat = v.toNat / 256 ∧
      (s.store16 a v).load16 a = v ∧ ∀ p, p ≠ a → p ≠ a + 1 → (s.store16 a v).load8 p = s.load8 p) ∧
  (∀ (s : State) (x : SReg) (o v : Word), PlainMemory s →
    (peek8 (poke16 s x o v) x o).toNat = v.toNat % 256 ∧ (peek8 (poke16 s x o v) x (o + 1)).toNat = v.toNat / 256 ∧
      peek16 (poke16 s x o v) x o = v ∧ MemoryBut s (poke16 s x o v) .word x o) ∧
  (∀ (s : State) (a p : Phys) (v : Byte), s.memKind a = .rom ∨ s.memKind a = .device ∨ s.memKind a = .absent →
    (s.store8 a v).load8 p = s.load8 p) ∧
  (∀ (s : State) (a : Phys), s.memKind a = .absent → s.load8 a = Config.emptyByte a.toNat) ∧
  (∀ (s : State) (a : Phys) (v : Byte), MemoryCanonical s → s.memKind a = .shared →
    (s.store8 a v).load8 a = (Config.otherWrote s.bus.step s.bus.gap a.toNat).getD v ∧
      ∀ p, p ≠ a → (s.store8 a v).load8 p = s.load8 p) ∧
  (∀ (s : State) (a : Phys), s.memKind a = .device → s.load8 a = Config.deviceByte s.bus.step s.bus.op a.toNat)

/-- The checks of an access (20_memory.md R112 to R117): it is allowed exactly when, in real mode, it does not run past offset
FFFFH, and, in protected mode, the segment is valid, its rights permit the access and the bytes lie inside it; a refused
access is exception 13, or 12 for an offset outside the stack segment in protected mode, with error code 0. Offsets above FFFFH,
which wrap in real mode and fail in protected mode, are the spec's own decision (D17, log 31); in real mode `some 0` is the
model's notation for a code that is never pushed (R113). -/
def Obligations.AccessChecksFollowSegmentRules : Prop :=
  ∀ (s : State) (x : SReg) (off n : Nat) (a : Access),
    (Accessible s x off n a → memCheck s x off n a = .ok ()) ∧
    (¬ Accessible s x off n a →
      memCheck s x off n a =
        .error (.exc { vector := faultVector s x a, code := some 0, ext := false, isInt := false }))

/-- An instruction that accesses memory through a segment checks its accesses in its order, and the first one that fails raises
its exception, 12 or 13 with code 0, at the instruction with nothing changed (20_memory.md R110, R111, R117; 60_exceptions.md
R536, R550): memory operands of one and of several words, string elements, the words of pushes and pops, the first word of an
ESC's operand. PUSHA and POPA check their first and last word first (a fault between them is log 26); an ENTER that faults part
way leaves everything (log 25). That ARPL checks its operand for writing even where nothing would be written is the spec's
general knowledge (47 R519, G18), PRESUMED in log 40; that INS checks its destination before it reads the port is the spec's own
decision (43 R356, 92 D18). The stacks of far transfers in protected mode, and of deliveries, have statements of their own. -/
def Obligations.RefusedOperandsLeaveStateUnchanged : Prop :=
  ∀ (i : Instr) (s : State) (before after : List OperandCheck) (x : SReg) (off n : Nat) (a : Access),
    operandChecks s i = before ++ .access x off n a :: after → (∀ c ∈ before, c.Passes s) → ¬ Accessible s x off n a →
    TakesException i s (faultVector s x a) (some 0)

/-- Where an operand lies (20_memory.md R88, R97, R98, R118; 30_encoding.md R198): the effective address is the sum of base,
index and sign-extended displacement modulo 64K; BP in it selects SS; the physical address is the segment's base plus it,
modulo 2^24 in protected mode, which is the spec's own decision (92 D11, R118's reading of "24-bit"); in real mode a sum below 1M
is the address, and at 1M and above the address is left open (R89, log 8). -/
def Obligations.OperandAddresses : Prop :=
  (∀ (s : State) (b : EaBase) (d : Byte) (e : Word),
    (ea s (.based b)).toNat = baseSum s b % 65536 ∧
      (ea s (.disp8 b d)).toNat = (baseSum s b + (if d.toNat < 128 then d.toNat else d.toNat + 65280)) % 65536 ∧
      (ea s (.disp16 b e)).toNat = (baseSum s b + e.toNat) % 65536 ∧ ea s (.direct e) = e) ∧
  (∀ (s : State) (b : EaBase) (d : Byte) (e : Word), s.cur.seg = none →
    opSeg s (.based b) = baseSegment b ∧ opSeg s (.disp8 b d) = baseSegment b ∧ opSeg s (.disp16 b e) = baseSegment b ∧
      opSeg s (.direct e) = .ds) ∧
  (∀ (s : State) (a : MemOp) (g : SReg), s.cur.seg = some g → opSeg s a = g) ∧
  (∀ (s : State) (x : SReg) (o : Word), s.msw.pe = true →
    (segAddr s x o).toNat = ((s.seg x).base.toNat + o.toNat) % 2 ^ 24) ∧
  (∀ (s : State) (x : SReg) (o : Word), s.msw.pe = false → (s.seg x).base.toNat + o.toNat < 0x100000 →
    (segAddr s x o).toNat = (s.seg x).base.toNat + o.toNat)

/-- FetchDescriptor (20_memory.md R120, R121, R127, R128): a selector names the descriptor at index times 8 in the GDT or, with
TI, in a valid LDT, if its eight bytes lie within the table's limit; limit, base and access byte come from its bytes. The form of
the limit test, index * 8 + 7 <= limit, is the spec's general knowledge (R127's mark, G2), PRESUMED in log 40. -/
def Obligations.DescriptorsComeFromTheirTables : Prop :=
  ∀ (s : State) (sel : Word),
    let base := if sel.getLsbD 2 then s.ldtr.base else s.gdtr.base
    let limit := if sel.getLsbD 2 then s.ldtr.limit else s.gdtr.limit
    let i := sel.toNat / 8
    (((sel.getLsbD 2 = true → s.ldtr.valid = true) ∧ i * 8 + 7 ≤ limit.toNat) ↔ fetchDescriptor s sel ≠ none) ∧
    ∀ a d, fetchDescriptor s sel = some (a, d) →
      a.toNat = (base.toNat + i * 8) % 2 ^ 24 ∧
        d.limit.toNat = (s.load8 a).toNat + (s.load8 (a + 1)).toNat * 256 ∧
        d.base.toNat = (s.load8 (a + 2)).toNat + (s.load8 (a + 3)).toNat * 256 + (s.load8 (a + 4)).toNat * 65536 ∧
        d.ar = s.load8 (a + 5)

/-- Simultaneous events at the first phase of a real mode boundary are taken in the order of Table 5 (60_exceptions.md R544 to
R548, R551): single step (vector 1), NMI (vector 2), processor extension overrun (vector 9), INTR with its vector when IF is set;
each saves the next instruction's address. With none due a halted processor stays as it is (R595). That a halted processor takes
no single-step trap is read from R595 (DEDUCED, log 34); TF cleared by every delivery is the spec's general knowledge (R561,
G19), PRESUMED in log 40. -/
def Obligations.EventsFollowTheirPriority : Prop :=
  ∀ s : State, RealBoundary s →
    (StepDue s → ∃ t, step s = .next t ∧ EntersReal s t 1 s.ip) ∧
    (¬ StepDue s → ExternalOpen s → NmiPending s →
      ∃ t, step s = .next t ∧ EntersReal s t 2 s.ip ∧ t.nmiInService = true ∧ t.nmiPending = false) ∧
    (¬ StepDue s → ExternalOpen s → ¬ NmiPending s → s.mpPending = true →
      ∃ t, step s = .next t ∧ EntersReal s t 9 s.ip ∧ t.mpPending = false) ∧
    (¬ StepDue s → ExternalOpen s → ¬ NmiPending s → s.mpPending = false → s.pins.intr = true → s.flags.ief = true →
      ∃ t, step s = .next t ∧ EntersReal s t s.pins.vector.toNat s.ip) ∧
    (¬ StepDue s →
      (ExternalOpen s → ¬ NmiPending s ∧ s.mpPending = false ∧ ¬ (s.pins.intr = true ∧ s.flags.ief = true)) →
      s.halted = true →
      ∃ t, step s = .next t ∧ t.halted = true ∧ t.ip = s.ip ∧ t.regs = s.regs ∧ t.flags = s.flags ∧ SameMemory s t)

/-- The single-step trap and the steps of a boundary (60_exceptions.md R544, R547, R548, R551), in both modes: an instruction that
began with TF = 1 leaves the trap due at the boundary behind it, whatever it did to TF, and no instruction else; of the events due
at a boundary the first in the order of Table 5 is delivered, with EXT = 1 and the boundary's address, and the boundary goes on
behind it, so that NMI, overrun and INTR can follow a trap before an instruction runs; with none due the next instruction runs.
Choices: each event and each instruction is a step of its own (DESIGN CHOICE, log 14). A WAIT or an ESC that goes back to wait for
BUSY has not ended, so it leaves no trap due (PRESUMED, log 15). One iteration of a repeated string instruction is a step and
leaves the trap due like an instruction, which is the spec's own decision (92_eei_decisions.md D23). A halted processor takes no
trap (DEDUCED, log 34). That an instruction which clears TF is still followed by the trap is the spec's own inference (R548's
mark, "the source does not spell this case out"; 91_not_in_source.md N24), and so is that one which sets TF is not (R548's mark).
-/
def Obligations.EventsOfABoundaryFollowEachOther : Prop :=
  (∀ s t : State, Executing s → QuietBoundary s → step s = .next t →
    t.phase = .singleStep ∧ t.stepTrap = (s.flags.tf && !t.waiting)) ∧
  (∀ s : State, AtBoundary s →
    (TrapDue s → step s = .next (Served { Latched s with stepTrap := false } 1 .nmi)) ∧
    (¬ TrapDue s → NmiDue s →
      step s = .next (Served { Latched s with nmiPending := false, nmiInService := true } 2 .mp)) ∧
    (¬ TrapDue s → ¬ NmiDue s → OverrunDue s →
      step s = .next (Served { Latched s with mpPending := false } 9 .intr)) ∧
    (¬ TrapDue s → ¬ NmiDue s → ¬ OverrunDue s → IntrDue s → step s = .next (Served (Latched s) s.pins.vector .done)) ∧
    (¬ TrapDue s → ¬ NmiDue s → ¬ OverrunDue s → ¬ IntrDue s → QuietBoundary s))

/-- What is not an instruction (30_encoding.md R181, R220 to R222, R226; 10_state.md R29): undefined opcodes and register operands
where memory is required raise #UD, the undefined members of the POP and PUSH groups exception 13, an instruction of more than
ten bytes #UD, one that runs past the end of its segment exception 13 with code 0; each with the address of the first byte,
prefixes included. Bytes that do not decode raise their exception before a LOCK prefix in front of them is executed (log 30).
That an instruction both too long and across the end of its segment raises exception 13 where fewer than ten bytes lie before
the end, #UD else, is the model's reading of R181 and 60_exceptions.md R550 (e), which put the length limit first (DEDUCED,
log 43). MOV CS is #UD by its first two bytes, wherever a displacement behind them would lie; the undefined members of the POP and
PUSH groups are told after their displacement (log 43). -/
def Obligations.BytesThatAreNoInstruction : Prop :=
  (∀ (s : State) (pfx : List Instr) (bs : List Byte), Executing s → QuietBoundary s → s.stale = [] →
    (∀ p ∈ pfx, p.isPrefix = true) → (pfx.flatMap encode ++ bs).length ≤ 10 → CodeAt s (pfx.flatMap encode ++ bs) →
    (UndefinedBytes bs → FetchRaises s 6 none) ∧ (UndefinedPushPop bs → FetchRaises s 13 (some 0))) ∧
  (∀ (s : State) (pfx : List Instr) (i : Instr), Executing s → QuietBoundary s → s.stale = [] →
    (∀ p ∈ pfx, p.isPrefix = true) → i.WellFormed → i.isPrefix = false →
    let bs := encodeAll pfx i
    let room := s.cs.limit.toNat + 1 - s.ip.toNat
    (10 < bs.length → 10 ≤ room → BytesAt s (bs.take 10) → FetchRaises s 6 none) ∧
    (room < bs.length → room < 10 → BytesAt s (bs.take room) → FetchRaises s 13 (some 0)))

/-- The other agents on the bus (20_memory.md R162, R163, R170; 60_exceptions.md R540, R584). While HOLD is active each step is
the other master's: its write, if it makes one, lands in memory, low byte first, and the processor waits. While PEREQ is active
after an ESC with a memory operand, each step moves the operand's next word between memory and port 00FAH; a word that would
pass the end of the operand's segment makes the overrun, vector 9, pending and is not moved. In both cases no register or flag
changes, in halt and shutdown too. That such an access is a step of its own, taken before the next event or instruction, is the
model's choice (log 13, log 35); what the other master writes and the extension sends is open (log 12, log 35). -/
def Obligations.OtherBusAgentsAccessMemory : Prop :=
  (∀ s : State, s.pins.reset = false → s.pins.hold = true →
    ∃ t, step s = .next t ∧ t.flags = s.flags ∧ t.regs = s.regs ∧ t.ip = s.ip ∧ SameSystem (Latched s) t ∧
      (s.pins.busWrite = none → SameMemory (Latched s) t) ∧
      ∀ b, s.pins.busWrite = some b → PlainMemory s →
        (t.load8 b.addr).toNat = b.value.toNat % 256 ∧
          (b.width = .word → (t.load8 (b.addr + 1)).toNat = b.value.toNat / 256) ∧
          ∀ p, p ≠ b.addr → (b.width = .word → p ≠ b.addr + 1) → t.load8 p = s.load8 p) ∧
  (∀ (s : State) (o : ExtOperand), s.pins.reset = false → s.pins.hold = false → s.pins.pereq = true → s.ext = some o →
    let fits := if o.pe = true then Within o.seg o.off 2 else o.off + 2 ≤ 0x10000
    let lo := physAddr o.pe o.seg (BitVec.ofNat 16 o.off)
    let hi := physAddr o.pe o.seg (BitVec.ofNat 16 (o.off + 1))
    ∃ t, step s = .next t ∧ t.flags = s.flags ∧ t.regs = s.regs ∧ t.ip = s.ip ∧
      SameSystem { Latched s with io := t.io, ext := t.ext, mpPending := t.mpPending } t ∧
      (¬ fits → t.mpPending = true ∧ t.ext = none ∧ t.io = s.io ∧ SameMemory (Latched s) t) ∧
      (fits → t.mpPending = s.mpPending ∧ t.ext = some { o with off := o.off + 2 } ∧ ∃ e, t.io = e :: s.io ∧
        e.port = 0x00FA ∧ e.width = .word ∧
        (o.write = false → e.output = true ∧
          e.value.toNat = ((Latched s).load8 lo).toNat + 256 * ((Latched s).load8 hi).toNat ∧ SameMemory (Latched s) t) ∧
        (o.write = true → e.output = false ∧
          (PlainMemory s → (t.load8 lo).toNat = e.value.toNat % 256 ∧ (t.load8 hi).toNat = e.value.toNat / 256 ∧
            ∀ p, p ≠ lo → p ≠ hi → t.load8 p = s.load8 p))))

/-- Shutdown (60_exceptions.md R538, R561, R570, R585, R586). Protected mode: an event whose vector and whose double fault vector
both lie outside the IDT. Real mode: vector 8 or 13 outside the table, another vector outside a table too small for vector 8
too, and any delivery without room for its three words; another vector outside the table is delivered as vector 8, with the
address of the instruction or event (log 45). All registers and memory stay as they were. A shut-down processor stays so until
RESET or an NMI that can end it; the CS:IP which that NMI saves is open (R586, 93 U27, log 33). The limit tests 8n + 7 and 4n + 3
are the spec's general knowledge (G19), PRESUMED in log 40. -/
def Obligations.UndeliverableExceptionsShutDown : Prop :=
  (∀ (s : State) (ev : Event) (ret at' : Word), s.msw.pe = true → s.idtr.limit.toNat < 71 →
    s.idtr.limit.toNat < 8 * ev.vector.toNat + 7 → ShutDown s (deliver s ev ret at')) ∧
  (∀ (s : State) (ev : Event) (ret at' : Word), s.msw.pe = false →
    let n := ev.vector.toNat
    let outside := s.idtr.limit.toNat < 4 * n + 3
    (outside → n = 8 ∨ n = 13 ∨ s.idtr.limit.toNat < 35 → ShutDown s (deliver s ev ret at')) ∧
    (¬ CanPush s 3 → ShutDown s (deliver s ev ret at')) ∧
    (outside → n ≠ 8 → n ≠ 13 → 35 ≤ s.idtr.limit.toNat → PlainMemory s → CanPush s 3 →
      EntersReal s (deliver s ev ret at') 8 at')) ∧
  (∀ s : State, s.shutdown = true → s.pins.reset = false → BusFree s →
    (¬ NmiEndsShutdown s → step s = .next (Latched s)) ∧
    (NmiEndsShutdown s → ∃ ret sel : Word, (s.msw.pe = true → rpl sel = rpl s.cs.sel) ∧
      let u : State :=
        { Latched s with
          shutdown := false, nmiPending := false, nmiInService := true, ip := ret, cs := { s.cs with sel := sel }
          draws := s.draws + 2 }
      step s = .next (Served u 2 .mp) ∧ (s.msw.pe = false → PlainMemory s → EntersReal u (Served u 2 .mp) 2 ret)))
end

