-- ==== Sys2Proof/Laws/State.lean ====
section
/-! SUPPORT. What each update of the state does to each field: one lemma per field per update, so that no proof unfolds a
record update. -/

namespace Sys2Proof.Machine

/-! ### State.setFlags -/

@[simp] theorem State.setFlags_regs (s : State) (f : Flags) : (s.setFlags f).regs = s.regs := rfl
@[simp] theorem State.setFlags_es (s : State) (f : Flags) : (s.setFlags f).es = s.es := rfl
@[simp] theorem State.setFlags_cs (s : State) (f : Flags) : (s.setFlags f).cs = s.cs := rfl
@[simp] theorem State.setFlags_ss (s : State) (f : Flags) : (s.setFlags f).ss = s.ss := rfl
@[simp] theorem State.setFlags_ds (s : State) (f : Flags) : (s.setFlags f).ds = s.ds := rfl
@[simp] theorem State.setFlags_ip (s : State) (f : Flags) : (s.setFlags f).ip = s.ip := rfl
@[simp] theorem State.setFlags_flags (s : State) (f : Flags) : (s.setFlags f).flags = f := rfl
@[simp] theorem State.setFlags_msw (s : State) (f : Flags) : (s.setFlags f).msw = s.msw := rfl
@[simp] theorem State.setFlags_gdtr (s : State) (f : Flags) : (s.setFlags f).gdtr = s.gdtr := rfl
@[simp] theorem State.setFlags_idtr (s : State) (f : Flags) : (s.setFlags f).idtr = s.idtr := rfl
@[simp] theorem State.setFlags_ldtr (s : State) (f : Flags) : (s.setFlags f).ldtr = s.ldtr := rfl
@[simp] theorem State.setFlags_tr (s : State) (f : Flags) : (s.setFlags f).tr = s.tr := rfl
@[simp] theorem State.setFlags_halted (s : State) (f : Flags) : (s.setFlags f).halted = s.halted := rfl
@[simp] theorem State.setFlags_shutdown (s : State) (f : Flags) : (s.setFlags f).shutdown = s.shutdown := rfl
@[simp] theorem State.setFlags_nmiInService (s : State) (f : Flags) : (s.setFlags f).nmiInService = s.nmiInService := rfl
@[simp] theorem State.setFlags_nmiPending (s : State) (f : Flags) : (s.setFlags f).nmiPending = s.nmiPending := rfl
@[simp] theorem State.setFlags_inhibitInt (s : State) (f : Flags) : (s.setFlags f).inhibitInt = s.inhibitInt := rfl
@[simp] theorem State.setFlags_inhibitExt (s : State) (f : Flags) : (s.setFlags f).inhibitExt = s.inhibitExt := rfl
@[simp] theorem State.setFlags_mpPending (s : State) (f : Flags) : (s.setFlags f).mpPending = s.mpPending := rfl
@[simp] theorem State.setFlags_stepTrap (s : State) (f : Flags) : (s.setFlags f).stepTrap = s.stepTrap := rfl
@[simp] theorem State.setFlags_waiting (s : State) (f : Flags) : (s.setFlags f).waiting = s.waiting := rfl
@[simp] theorem State.setFlags_pins (s : State) (f : Flags) : (s.setFlags f).pins = s.pins := rfl
@[simp] theorem State.setFlags_nmiLevel (s : State) (f : Flags) : (s.setFlags f).nmiLevel = s.nmiLevel := rfl
@[simp] theorem State.setFlags_stale (s : State) (f : Flags) : (s.setFlags f).stale = s.stale := rfl
@[simp] theorem State.setFlags_mem (s : State) (f : Flags) : (s.setFlags f).mem = s.mem := rfl
@[simp] theorem State.setFlags_io (s : State) (f : Flags) : (s.setFlags f).io = s.io := rfl
@[simp] theorem State.setFlags_cur (s : State) (f : Flags) : (s.setFlags f).cur = s.cur := rfl
@[simp] theorem State.setFlags_memMap (s : State) (f : Flags) : (s.setFlags f).memMap = s.memMap := rfl
@[simp] theorem State.setFlags_ext (s : State) (f : Flags) : (s.setFlags f).ext = s.ext := rfl
@[simp] theorem State.setFlags_phase (s : State) (f : Flags) : (s.setFlags f).phase = s.phase := rfl
@[simp] theorem State.setFlags_draws (s : State) (f : Flags) : (s.setFlags f).draws = s.draws := rfl
@[simp] theorem State.setFlags_bus (s : State) (f : Flags) : (s.setFlags f).bus = s.bus := rfl

/-! ### State.later -/

@[simp] theorem State.later_regs (s : State) (g : ReadGroup) : (s.later g).regs = s.regs := rfl
@[simp] theorem State.later_es (s : State) (g : ReadGroup) : (s.later g).es = s.es := rfl
@[simp] theorem State.later_cs (s : State) (g : ReadGroup) : (s.later g).cs = s.cs := rfl
@[simp] theorem State.later_ss (s : State) (g : ReadGroup) : (s.later g).ss = s.ss := rfl
@[simp] theorem State.later_ds (s : State) (g : ReadGroup) : (s.later g).ds = s.ds := rfl
@[simp] theorem State.later_ip (s : State) (g : ReadGroup) : (s.later g).ip = s.ip := rfl
@[simp] theorem State.later_flags (s : State) (g : ReadGroup) : (s.later g).flags = s.flags := rfl
@[simp] theorem State.later_msw (s : State) (g : ReadGroup) : (s.later g).msw = s.msw := rfl
@[simp] theorem State.later_gdtr (s : State) (g : ReadGroup) : (s.later g).gdtr = s.gdtr := rfl
@[simp] theorem State.later_idtr (s : State) (g : ReadGroup) : (s.later g).idtr = s.idtr := rfl
@[simp] theorem State.later_ldtr (s : State) (g : ReadGroup) : (s.later g).ldtr = s.ldtr := rfl
@[simp] theorem State.later_tr (s : State) (g : ReadGroup) : (s.later g).tr = s.tr := rfl
@[simp] theorem State.later_halted (s : State) (g : ReadGroup) : (s.later g).halted = s.halted := rfl
@[simp] theorem State.later_shutdown (s : State) (g : ReadGroup) : (s.later g).shutdown = s.shutdown := rfl
@[simp] theorem State.later_nmiInService (s : State) (g : ReadGroup) : (s.later g).nmiInService = s.nmiInService := rfl
@[simp] theorem State.later_nmiPending (s : State) (g : ReadGroup) : (s.later g).nmiPending = s.nmiPending := rfl
@[simp] theorem State.later_inhibitInt (s : State) (g : ReadGroup) : (s.later g).inhibitInt = s.inhibitInt := rfl
@[simp] theorem State.later_inhibitExt (s : State) (g : ReadGroup) : (s.later g).inhibitExt = s.inhibitExt := rfl
@[simp] theorem State.later_mpPending (s : State) (g : ReadGroup) : (s.later g).mpPending = s.mpPending := rfl
@[simp] theorem State.later_stepTrap (s : State) (g : ReadGroup) : (s.later g).stepTrap = s.stepTrap := rfl
@[simp] theorem State.later_waiting (s : State) (g : ReadGroup) : (s.later g).waiting = s.waiting := rfl
@[simp] theorem State.later_pins (s : State) (g : ReadGroup) : (s.later g).pins = s.pins := rfl
@[simp] theorem State.later_nmiLevel (s : State) (g : ReadGroup) : (s.later g).nmiLevel = s.nmiLevel := rfl
@[simp] theorem State.later_stale (s : State) (g : ReadGroup) : (s.later g).stale = s.stale := rfl
@[simp] theorem State.later_mem (s : State) (g : ReadGroup) : (s.later g).mem = s.mem := rfl
@[simp] theorem State.later_io (s : State) (g : ReadGroup) : (s.later g).io = s.io := rfl
@[simp] theorem State.later_cur (s : State) (g : ReadGroup) : (s.later g).cur = s.cur := rfl
@[simp] theorem State.later_memMap (s : State) (g : ReadGroup) : (s.later g).memMap = s.memMap := rfl
@[simp] theorem State.later_ext (s : State) (g : ReadGroup) : (s.later g).ext = s.ext := rfl
@[simp] theorem State.later_phase (s : State) (g : ReadGroup) : (s.later g).phase = s.phase := rfl
@[simp] theorem State.later_draws (s : State) (g : ReadGroup) : (s.later g).draws = s.draws := rfl
@[simp] theorem State.later_bus (s : State) (g : ReadGroup) : (s.later g).bus = { s.bus with op := s.bus.op + g.rank, gap := s.bus.gap + g.gaps } := rfl

/-! ### State.drawn -/

@[simp] theorem State.drawn_regs (s : State) (n : Nat) : (s.drawn n).regs = s.regs := rfl
@[simp] theorem State.drawn_es (s : State) (n : Nat) : (s.drawn n).es = s.es := rfl
@[simp] theorem State.drawn_cs (s : State) (n : Nat) : (s.drawn n).cs = s.cs := rfl
@[simp] theorem State.drawn_ss (s : State) (n : Nat) : (s.drawn n).ss = s.ss := rfl
@[simp] theorem State.drawn_ds (s : State) (n : Nat) : (s.drawn n).ds = s.ds := rfl
@[simp] theorem State.drawn_ip (s : State) (n : Nat) : (s.drawn n).ip = s.ip := rfl
@[simp] theorem State.drawn_flags (s : State) (n : Nat) : (s.drawn n).flags = s.flags := rfl
@[simp] theorem State.drawn_msw (s : State) (n : Nat) : (s.drawn n).msw = s.msw := rfl
@[simp] theorem State.drawn_gdtr (s : State) (n : Nat) : (s.drawn n).gdtr = s.gdtr := rfl
@[simp] theorem State.drawn_idtr (s : State) (n : Nat) : (s.drawn n).idtr = s.idtr := rfl
@[simp] theorem State.drawn_ldtr (s : State) (n : Nat) : (s.drawn n).ldtr = s.ldtr := rfl
@[simp] theorem State.drawn_tr (s : State) (n : Nat) : (s.drawn n).tr = s.tr := rfl
@[simp] theorem State.drawn_halted (s : State) (n : Nat) : (s.drawn n).halted = s.halted := rfl
@[simp] theorem State.drawn_shutdown (s : State) (n : Nat) : (s.drawn n).shutdown = s.shutdown := rfl
@[simp] theorem State.drawn_nmiInService (s : State) (n : Nat) : (s.drawn n).nmiInService = s.nmiInService := rfl
@[simp] theorem State.drawn_nmiPending (s : State) (n : Nat) : (s.drawn n).nmiPending = s.nmiPending := rfl
@[simp] theorem State.drawn_inhibitInt (s : State) (n : Nat) : (s.drawn n).inhibitInt = s.inhibitInt := rfl
@[simp] theorem State.drawn_inhibitExt (s : State) (n : Nat) : (s.drawn n).inhibitExt = s.inhibitExt := rfl
@[simp] theorem State.drawn_mpPending (s : State) (n : Nat) : (s.drawn n).mpPending = s.mpPending := rfl
@[simp] theorem State.drawn_stepTrap (s : State) (n : Nat) : (s.drawn n).stepTrap = s.stepTrap := rfl
@[simp] theorem State.drawn_waiting (s : State) (n : Nat) : (s.drawn n).waiting = s.waiting := rfl
@[simp] theorem State.drawn_pins (s : State) (n : Nat) : (s.drawn n).pins = s.pins := rfl
@[simp] theorem State.drawn_nmiLevel (s : State) (n : Nat) : (s.drawn n).nmiLevel = s.nmiLevel := rfl
@[simp] theorem State.drawn_stale (s : State) (n : Nat) : (s.drawn n).stale = s.stale := rfl
@[simp] theorem State.drawn_mem (s : State) (n : Nat) : (s.drawn n).mem = s.mem := rfl
@[simp] theorem State.drawn_io (s : State) (n : Nat) : (s.drawn n).io = s.io := rfl
@[simp] theorem State.drawn_cur (s : State) (n : Nat) : (s.drawn n).cur = s.cur := rfl
@[simp] theorem State.drawn_memMap (s : State) (n : Nat) : (s.drawn n).memMap = s.memMap := rfl
@[simp] theorem State.drawn_ext (s : State) (n : Nat) : (s.drawn n).ext = s.ext := rfl
@[simp] theorem State.drawn_phase (s : State) (n : Nat) : (s.drawn n).phase = s.phase := rfl
@[simp] theorem State.drawn_draws (s : State) (n : Nat) : (s.drawn n).draws = s.draws + n := rfl
@[simp] theorem State.drawn_bus (s : State) (n : Nat) : (s.drawn n).bus = s.bus := rfl

/-! ### State.setIp -/

@[simp] theorem State.setIp_regs (s : State) (v : Word) : (s.setIp v).regs = s.regs := rfl
@[simp] theorem State.setIp_es (s : State) (v : Word) : (s.setIp v).es = s.es := rfl
@[simp] theorem State.setIp_cs (s : State) (v : Word) : (s.setIp v).cs = s.cs := rfl
@[simp] theorem State.setIp_ss (s : State) (v : Word) : (s.setIp v).ss = s.ss := rfl
@[simp] theorem State.setIp_ds (s : State) (v : Word) : (s.setIp v).ds = s.ds := rfl
@[simp] theorem State.setIp_ip (s : State) (v : Word) : (s.setIp v).ip = v := rfl
@[simp] theorem State.setIp_flags (s : State) (v : Word) : (s.setIp v).flags = s.flags := rfl
@[simp] theorem State.setIp_msw (s : State) (v : Word) : (s.setIp v).msw = s.msw := rfl
@[simp] theorem State.setIp_gdtr (s : State) (v : Word) : (s.setIp v).gdtr = s.gdtr := rfl
@[simp] theorem State.setIp_idtr (s : State) (v : Word) : (s.setIp v).idtr = s.idtr := rfl
@[simp] theorem State.setIp_ldtr (s : State) (v : Word) : (s.setIp v).ldtr = s.ldtr := rfl
@[simp] theorem State.setIp_tr (s : State) (v : Word) : (s.setIp v).tr = s.tr := rfl
@[simp] theorem State.setIp_halted (s : State) (v : Word) : (s.setIp v).halted = s.halted := rfl
@[simp] theorem State.setIp_shutdown (s : State) (v : Word) : (s.setIp v).shutdown = s.shutdown := rfl
@[simp] theorem State.setIp_nmiInService (s : State) (v : Word) : (s.setIp v).nmiInService = s.nmiInService := rfl
@[simp] theorem State.setIp_nmiPending (s : State) (v : Word) : (s.setIp v).nmiPending = s.nmiPending := rfl
@[simp] theorem State.setIp_inhibitInt (s : State) (v : Word) : (s.setIp v).inhibitInt = s.inhibitInt := rfl
@[simp] theorem State.setIp_inhibitExt (s : State) (v : Word) : (s.setIp v).inhibitExt = s.inhibitExt := rfl
@[simp] theorem State.setIp_mpPending (s : State) (v : Word) : (s.setIp v).mpPending = s.mpPending := rfl
@[simp] theorem State.setIp_stepTrap (s : State) (v : Word) : (s.setIp v).stepTrap = s.stepTrap := rfl
@[simp] theorem State.setIp_waiting (s : State) (v : Word) : (s.setIp v).waiting = s.waiting := rfl
@[simp] theorem State.setIp_pins (s : State) (v : Word) : (s.setIp v).pins = s.pins := rfl
@[simp] theorem State.setIp_nmiLevel (s : State) (v : Word) : (s.setIp v).nmiLevel = s.nmiLevel := rfl
@[simp] theorem State.setIp_stale (s : State) (v : Word) : (s.setIp v).stale = s.stale := rfl
@[simp] theorem State.setIp_mem (s : State) (v : Word) : (s.setIp v).mem = s.mem := rfl
@[simp] theorem State.setIp_io (s : State) (v : Word) : (s.setIp v).io = s.io := rfl
@[simp] theorem State.setIp_cur (s : State) (v : Word) : (s.setIp v).cur = s.cur := rfl
@[simp] theorem State.setIp_memMap (s : State) (v : Word) : (s.setIp v).memMap = s.memMap := rfl
@[simp] theorem State.setIp_ext (s : State) (v : Word) : (s.setIp v).ext = s.ext := rfl
@[simp] theorem State.setIp_phase (s : State) (v : Word) : (s.setIp v).phase = s.phase := rfl
@[simp] theorem State.setIp_draws (s : State) (v : Word) : (s.setIp v).draws = s.draws := rfl
@[simp] theorem State.setIp_bus (s : State) (v : Word) : (s.setIp v).bus = s.bus := rfl

/-! ### State.jump -/

@[simp] theorem State.jump_regs (s : State) (v : Word) : (s.jump v).regs = s.regs := rfl
@[simp] theorem State.jump_es (s : State) (v : Word) : (s.jump v).es = s.es := rfl
@[simp] theorem State.jump_cs (s : State) (v : Word) : (s.jump v).cs = s.cs := rfl
@[simp] theorem State.jump_ss (s : State) (v : Word) : (s.jump v).ss = s.ss := rfl
@[simp] theorem State.jump_ds (s : State) (v : Word) : (s.jump v).ds = s.ds := rfl
@[simp] theorem State.jump_ip (s : State) (v : Word) : (s.jump v).ip = v := rfl
@[simp] theorem State.jump_flags (s : State) (v : Word) : (s.jump v).flags = s.flags := rfl
@[simp] theorem State.jump_msw (s : State) (v : Word) : (s.jump v).msw = s.msw := rfl
@[simp] theorem State.jump_gdtr (s : State) (v : Word) : (s.jump v).gdtr = s.gdtr := rfl
@[simp] theorem State.jump_idtr (s : State) (v : Word) : (s.jump v).idtr = s.idtr := rfl
@[simp] theorem State.jump_ldtr (s : State) (v : Word) : (s.jump v).ldtr = s.ldtr := rfl
@[simp] theorem State.jump_tr (s : State) (v : Word) : (s.jump v).tr = s.tr := rfl
@[simp] theorem State.jump_halted (s : State) (v : Word) : (s.jump v).halted = s.halted := rfl
@[simp] theorem State.jump_shutdown (s : State) (v : Word) : (s.jump v).shutdown = s.shutdown := rfl
@[simp] theorem State.jump_nmiInService (s : State) (v : Word) : (s.jump v).nmiInService = s.nmiInService := rfl
@[simp] theorem State.jump_nmiPending (s : State) (v : Word) : (s.jump v).nmiPending = s.nmiPending := rfl
@[simp] theorem State.jump_inhibitInt (s : State) (v : Word) : (s.jump v).inhibitInt = s.inhibitInt := rfl
@[simp] theorem State.jump_inhibitExt (s : State) (v : Word) : (s.jump v).inhibitExt = s.inhibitExt := rfl
@[simp] theorem State.jump_mpPending (s : State) (v : Word) : (s.jump v).mpPending = s.mpPending := rfl
@[simp] theorem State.jump_stepTrap (s : State) (v : Word) : (s.jump v).stepTrap = s.stepTrap := rfl
@[simp] theorem State.jump_waiting (s : State) (v : Word) : (s.jump v).waiting = s.waiting := rfl
@[simp] theorem State.jump_pins (s : State) (v : Word) : (s.jump v).pins = s.pins := rfl
@[simp] theorem State.jump_nmiLevel (s : State) (v : Word) : (s.jump v).nmiLevel = s.nmiLevel := rfl
@[simp] theorem State.jump_stale (s : State) (v : Word) : (s.jump v).stale = [] := rfl
@[simp] theorem State.jump_mem (s : State) (v : Word) : (s.jump v).mem = s.mem := rfl
@[simp] theorem State.jump_io (s : State) (v : Word) : (s.jump v).io = s.io := rfl
@[simp] theorem State.jump_cur (s : State) (v : Word) : (s.jump v).cur = s.cur := rfl
@[simp] theorem State.jump_memMap (s : State) (v : Word) : (s.jump v).memMap = s.memMap := rfl
@[simp] theorem State.jump_ext (s : State) (v : Word) : (s.jump v).ext = s.ext := rfl
@[simp] theorem State.jump_phase (s : State) (v : Word) : (s.jump v).phase = s.phase := rfl
@[simp] theorem State.jump_draws (s : State) (v : Word) : (s.jump v).draws = s.draws := rfl
@[simp] theorem State.jump_bus (s : State) (v : Word) : (s.jump v).bus = s.bus := rfl

/-! ### State.flush -/

@[simp] theorem State.flush_regs (s : State) : (s.flush).regs = s.regs := rfl
@[simp] theorem State.flush_es (s : State) : (s.flush).es = s.es := rfl
@[simp] theorem State.flush_cs (s : State) : (s.flush).cs = s.cs := rfl
@[simp] theorem State.flush_ss (s : State) : (s.flush).ss = s.ss := rfl
@[simp] theorem State.flush_ds (s : State) : (s.flush).ds = s.ds := rfl
@[simp] theorem State.flush_ip (s : State) : (s.flush).ip = s.ip := rfl
@[simp] theorem State.flush_flags (s : State) : (s.flush).flags = s.flags := rfl
@[simp] theorem State.flush_msw (s : State) : (s.flush).msw = s.msw := rfl
@[simp] theorem State.flush_gdtr (s : State) : (s.flush).gdtr = s.gdtr := rfl
@[simp] theorem State.flush_idtr (s : State) : (s.flush).idtr = s.idtr := rfl
@[simp] theorem State.flush_ldtr (s : State) : (s.flush).ldtr = s.ldtr := rfl
@[simp] theorem State.flush_tr (s : State) : (s.flush).tr = s.tr := rfl
@[simp] theorem State.flush_halted (s : State) : (s.flush).halted = s.halted := rfl
@[simp] theorem State.flush_shutdown (s : State) : (s.flush).shutdown = s.shutdown := rfl
@[simp] theorem State.flush_nmiInService (s : State) : (s.flush).nmiInService = s.nmiInService := rfl
@[simp] theorem State.flush_nmiPending (s : State) : (s.flush).nmiPending = s.nmiPending := rfl
@[simp] theorem State.flush_inhibitInt (s : State) : (s.flush).inhibitInt = s.inhibitInt := rfl
@[simp] theorem State.flush_inhibitExt (s : State) : (s.flush).inhibitExt = s.inhibitExt := rfl
@[simp] theorem State.flush_mpPending (s : State) : (s.flush).mpPending = s.mpPending := rfl
@[simp] theorem State.flush_stepTrap (s : State) : (s.flush).stepTrap = s.stepTrap := rfl
@[simp] theorem State.flush_waiting (s : State) : (s.flush).waiting = s.waiting := rfl
@[simp] theorem State.flush_pins (s : State) : (s.flush).pins = s.pins := rfl
@[simp] theorem State.flush_nmiLevel (s : State) : (s.flush).nmiLevel = s.nmiLevel := rfl
@[simp] theorem State.flush_stale (s : State) : (s.flush).stale = [] := rfl
@[simp] theorem State.flush_mem (s : State) : (s.flush).mem = s.mem := rfl
@[simp] theorem State.flush_io (s : State) : (s.flush).io = s.io := rfl
@[simp] theorem State.flush_cur (s : State) : (s.flush).cur = s.cur := rfl
@[simp] theorem State.flush_memMap (s : State) : (s.flush).memMap = s.memMap := rfl
@[simp] theorem State.flush_ext (s : State) : (s.flush).ext = s.ext := rfl
@[simp] theorem State.flush_phase (s : State) : (s.flush).phase = s.phase := rfl
@[simp] theorem State.flush_draws (s : State) : (s.flush).draws = s.draws := rfl
@[simp] theorem State.flush_bus (s : State) : (s.flush).bus = s.bus := rfl

/-! ### State.setW -/

@[simp] theorem State.setW_es (s : State) (r : RegNum) (v : Word) : (s.setW r v).es = s.es := by cases r <;> rfl
@[simp] theorem State.setW_cs (s : State) (r : RegNum) (v : Word) : (s.setW r v).cs = s.cs := by cases r <;> rfl
@[simp] theorem State.setW_ss (s : State) (r : RegNum) (v : Word) : (s.setW r v).ss = s.ss := by cases r <;> rfl
@[simp] theorem State.setW_ds (s : State) (r : RegNum) (v : Word) : (s.setW r v).ds = s.ds := by cases r <;> rfl
@[simp] theorem State.setW_ip (s : State) (r : RegNum) (v : Word) : (s.setW r v).ip = s.ip := by cases r <;> rfl
@[simp] theorem State.setW_flags (s : State) (r : RegNum) (v : Word) : (s.setW r v).flags = s.flags := by cases r <;> rfl
@[simp] theorem State.setW_msw (s : State) (r : RegNum) (v : Word) : (s.setW r v).msw = s.msw := by cases r <;> rfl
@[simp] theorem State.setW_gdtr (s : State) (r : RegNum) (v : Word) : (s.setW r v).gdtr = s.gdtr := by cases r <;> rfl
@[simp] theorem State.setW_idtr (s : State) (r : RegNum) (v : Word) : (s.setW r v).idtr = s.idtr := by cases r <;> rfl
@[simp] theorem State.setW_ldtr (s : State) (r : RegNum) (v : Word) : (s.setW r v).ldtr = s.ldtr := by cases r <;> rfl
@[simp] theorem State.setW_tr (s : State) (r : RegNum) (v : Word) : (s.setW r v).tr = s.tr := by cases r <;> rfl
@[simp] theorem State.setW_halted (s : State) (r : RegNum) (v : Word) : (s.setW r v).halted = s.halted := by cases r <;> rfl
@[simp] theorem State.setW_shutdown (s : State) (r : RegNum) (v : Word) : (s.setW r v).shutdown = s.shutdown := by cases r <;> rfl
@[simp] theorem State.setW_nmiInService (s : State) (r : RegNum) (v : Word) : (s.setW r v).nmiInService = s.nmiInService := by cases r <;> rfl
@[simp] theorem State.setW_nmiPending (s : State) (r : RegNum) (v : Word) : (s.setW r v).nmiPending = s.nmiPending := by cases r <;> rfl
@[simp] theorem State.setW_inhibitInt (s : State) (r : RegNum) (v : Word) : (s.setW r v).inhibitInt = s.inhibitInt := by cases r <;> rfl
@[simp] theorem State.setW_inhibitExt (s : State) (r : RegNum) (v : Word) : (s.setW r v).inhibitExt = s.inhibitExt := by cases r <;> rfl
@[simp] theorem State.setW_mpPending (s : State) (r : RegNum) (v : Word) : (s.setW r v).mpPending = s.mpPending := by cases r <;> rfl
@[simp] theorem State.setW_stepTrap (s : State) (r : RegNum) (v : Word) : (s.setW r v).stepTrap = s.stepTrap := by cases r <;> rfl
@[simp] theorem State.setW_waiting (s : State) (r : RegNum) (v : Word) : (s.setW r v).waiting = s.waiting := by cases r <;> rfl
@[simp] theorem State.setW_pins (s : State) (r : RegNum) (v : Word) : (s.setW r v).pins = s.pins := by cases r <;> rfl
@[simp] theorem State.setW_nmiLevel (s : State) (r : RegNum) (v : Word) : (s.setW r v).nmiLevel = s.nmiLevel := by cases r <;> rfl
@[simp] theorem State.setW_stale (s : State) (r : RegNum) (v : Word) : (s.setW r v).stale = s.stale := by cases r <;> rfl
@[simp] theorem State.setW_mem (s : State) (r : RegNum) (v : Word) : (s.setW r v).mem = s.mem := by cases r <;> rfl
@[simp] theorem State.setW_io (s : State) (r : RegNum) (v : Word) : (s.setW r v).io = s.io := by cases r <;> rfl
@[simp] theorem State.setW_cur (s : State) (r : RegNum) (v : Word) : (s.setW r v).cur = s.cur := by cases r <;> rfl
@[simp] theorem State.setW_memMap (s : State) (r : RegNum) (v : Word) : (s.setW r v).memMap = s.memMap := by cases r <;> rfl
@[simp] theorem State.setW_ext (s : State) (r : RegNum) (v : Word) : (s.setW r v).ext = s.ext := by cases r <;> rfl
@[simp] theorem State.setW_phase (s : State) (r : RegNum) (v : Word) : (s.setW r v).phase = s.phase := by cases r <;> rfl
@[simp] theorem State.setW_draws (s : State) (r : RegNum) (v : Word) : (s.setW r v).draws = s.draws := by cases r <;> rfl
@[simp] theorem State.setW_bus (s : State) (r : RegNum) (v : Word) : (s.setW r v).bus = s.bus := by cases r <;> rfl

/-! ### State.setSp -/

@[simp] theorem State.setSp_regs (s : State) (v : Word) : (s.setSp v).regs = { s.regs with sp := v } := rfl
@[simp] theorem State.setSp_es (s : State) (v : Word) : (s.setSp v).es = s.es := rfl
@[simp] theorem State.setSp_cs (s : State) (v : Word) : (s.setSp v).cs = s.cs := rfl
@[simp] theorem State.setSp_ss (s : State) (v : Word) : (s.setSp v).ss = s.ss := rfl
@[simp] theorem State.setSp_ds (s : State) (v : Word) : (s.setSp v).ds = s.ds := rfl
@[simp] theorem State.setSp_ip (s : State) (v : Word) : (s.setSp v).ip = s.ip := rfl
@[simp] theorem State.setSp_flags (s : State) (v : Word) : (s.setSp v).flags = s.flags := rfl
@[simp] theorem State.setSp_msw (s : State) (v : Word) : (s.setSp v).msw = s.msw := rfl
@[simp] theorem State.setSp_gdtr (s : State) (v : Word) : (s.setSp v).gdtr = s.gdtr := rfl
@[simp] theorem State.setSp_idtr (s : State) (v : Word) : (s.setSp v).idtr = s.idtr := rfl
@[simp] theorem State.setSp_ldtr (s : State) (v : Word) : (s.setSp v).ldtr = s.ldtr := rfl
@[simp] theorem State.setSp_tr (s : State) (v : Word) : (s.setSp v).tr = s.tr := rfl
@[simp] theorem State.setSp_halted (s : State) (v : Word) : (s.setSp v).halted = s.halted := rfl
@[simp] theorem State.setSp_shutdown (s : State) (v : Word) : (s.setSp v).shutdown = s.shutdown := rfl
@[simp] theorem State.setSp_nmiInService (s : State) (v : Word) : (s.setSp v).nmiInService = s.nmiInService := rfl
@[simp] theorem State.setSp_nmiPending (s : State) (v : Word) : (s.setSp v).nmiPending = s.nmiPending := rfl
@[simp] theorem State.setSp_inhibitInt (s : State) (v : Word) : (s.setSp v).inhibitInt = s.inhibitInt := rfl
@[simp] theorem State.setSp_inhibitExt (s : State) (v : Word) : (s.setSp v).inhibitExt = s.inhibitExt := rfl
@[simp] theorem State.setSp_mpPending (s : State) (v : Word) : (s.setSp v).mpPending = s.mpPending := rfl
@[simp] theorem State.setSp_stepTrap (s : State) (v : Word) : (s.setSp v).stepTrap = s.stepTrap := rfl
@[simp] theorem State.setSp_waiting (s : State) (v : Word) : (s.setSp v).waiting = s.waiting := rfl
@[simp] theorem State.setSp_pins (s : State) (v : Word) : (s.setSp v).pins = s.pins := rfl
@[simp] theorem State.setSp_nmiLevel (s : State) (v : Word) : (s.setSp v).nmiLevel = s.nmiLevel := rfl
@[simp] theorem State.setSp_stale (s : State) (v : Word) : (s.setSp v).stale = s.stale := rfl
@[simp] theorem State.setSp_mem (s : State) (v : Word) : (s.setSp v).mem = s.mem := rfl
@[simp] theorem State.setSp_io (s : State) (v : Word) : (s.setSp v).io = s.io := rfl
@[simp] theorem State.setSp_cur (s : State) (v : Word) : (s.setSp v).cur = s.cur := rfl
@[simp] theorem State.setSp_memMap (s : State) (v : Word) : (s.setSp v).memMap = s.memMap := rfl
@[simp] theorem State.setSp_ext (s : State) (v : Word) : (s.setSp v).ext = s.ext := rfl
@[simp] theorem State.setSp_phase (s : State) (v : Word) : (s.setSp v).phase = s.phase := rfl
@[simp] theorem State.setSp_draws (s : State) (v : Word) : (s.setSp v).draws = s.draws := rfl
@[simp] theorem State.setSp_bus (s : State) (v : Word) : (s.setSp v).bus = s.bus := rfl

/-! ### State.setB -/

@[simp] theorem State.setB_es (s : State) (r : RegNum) (v : Byte) : (s.setB r v).es = s.es := by simp [State.setB]
@[simp] theorem State.setB_cs (s : State) (r : RegNum) (v : Byte) : (s.setB r v).cs = s.cs := by simp [State.setB]
@[simp] theorem State.setB_ss (s : State) (r : RegNum) (v : Byte) : (s.setB r v).ss = s.ss := by simp [State.setB]
@[simp] theorem State.setB_ds (s : State) (r : RegNum) (v : Byte) : (s.setB r v).ds = s.ds := by simp [State.setB]
@[simp] theorem State.setB_ip (s : State) (r : RegNum) (v : Byte) : (s.setB r v).ip = s.ip := by simp [State.setB]
@[simp] theorem State.setB_flags (s : State) (r : RegNum) (v : Byte) : (s.setB r v).flags = s.flags := by simp [State.setB]
@[simp] theorem State.setB_msw (s : State) (r : RegNum) (v : Byte) : (s.setB r v).msw = s.msw := by simp [State.setB]
@[simp] theorem State.setB_gdtr (s : State) (r : RegNum) (v : Byte) : (s.setB r v).gdtr = s.gdtr := by simp [State.setB]
@[simp] theorem State.setB_idtr (s : State) (r : RegNum) (v : Byte) : (s.setB r v).idtr = s.idtr := by simp [State.setB]
@[simp] theorem State.setB_ldtr (s : State) (r : RegNum) (v : Byte) : (s.setB r v).ldtr = s.ldtr := by simp [State.setB]
@[simp] theorem State.setB_tr (s : State) (r : RegNum) (v : Byte) : (s.setB r v).tr = s.tr := by simp [State.setB]
@[simp] theorem State.setB_halted (s : State) (r : RegNum) (v : Byte) : (s.setB r v).halted = s.halted := by simp [State.setB]
@[simp] theorem State.setB_shutdown (s : State) (r : RegNum) (v : Byte) : (s.setB r v).shutdown = s.shutdown := by simp [State.setB]
@[simp] theorem State.setB_nmiInService (s : State) (r : RegNum) (v : Byte) : (s.setB r v).nmiInService = s.nmiInService := by simp [State.setB]
@[simp] theorem State.setB_nmiPending (s : State) (r : RegNum) (v : Byte) : (s.setB r v).nmiPending = s.nmiPending := by simp [State.setB]
@[simp] theorem State.setB_inhibitInt (s : State) (r : RegNum) (v : Byte) : (s.setB r v).inhibitInt = s.inhibitInt := by simp [State.setB]
@[simp] theorem State.setB_inhibitExt (s : State) (r : RegNum) (v : Byte) : (s.setB r v).inhibitExt = s.inhibitExt := by simp [State.setB]
@[simp] theorem State.setB_mpPending (s : State) (r : RegNum) (v : Byte) : (s.setB r v).mpPending = s.mpPending := by simp [State.setB]
@[simp] theorem State.setB_stepTrap (s : State) (r : RegNum) (v : Byte) : (s.setB r v).stepTrap = s.stepTrap := by simp [State.setB]
@[simp] theorem State.setB_waiting (s : State) (r : RegNum) (v : Byte) : (s.setB r v).waiting = s.waiting := by simp [State.setB]
@[simp] theorem State.setB_pins (s : State) (r : RegNum) (v : Byte) : (s.setB r v).pins = s.pins := by simp [State.setB]
@[simp] theorem State.setB_nmiLevel (s : State) (r : RegNum) (v : Byte) : (s.setB r v).nmiLevel = s.nmiLevel := by simp [State.setB]
@[simp] theorem State.setB_stale (s : State) (r : RegNum) (v : Byte) : (s.setB r v).stale = s.stale := by simp [State.setB]
@[simp] theorem State.setB_mem (s : State) (r : RegNum) (v : Byte) : (s.setB r v).mem = s.mem := by simp [State.setB]
@[simp] theorem State.setB_io (s : State) (r : RegNum) (v : Byte) : (s.setB r v).io = s.io := by simp [State.setB]
@[simp] theorem State.setB_cur (s : State) (r : RegNum) (v : Byte) : (s.setB r v).cur = s.cur := by simp [State.setB]
@[simp] theorem State.setB_memMap (s : State) (r : RegNum) (v : Byte) : (s.setB r v).memMap = s.memMap := by simp [State.setB]
@[simp] theorem State.setB_ext (s : State) (r : RegNum) (v : Byte) : (s.setB r v).ext = s.ext := by simp [State.setB]
@[simp] theorem State.setB_phase (s : State) (r : RegNum) (v : Byte) : (s.setB r v).phase = s.phase := by simp [State.setB]
@[simp] theorem State.setB_draws (s : State) (r : RegNum) (v : Byte) : (s.setB r v).draws = s.draws := by simp [State.setB]
@[simp] theorem State.setB_bus (s : State) (r : RegNum) (v : Byte) : (s.setB r v).bus = s.bus := by simp [State.setB]

/-! ### State.setReg -/

@[simp] theorem State.setReg_es (s : State) (w : Width) (r : RegNum) (v : Val w) : (s.setReg w r v).es = s.es := by cases w <;> simp [State.setReg]
@[simp] theorem State.setReg_cs (s : State) (w : Width) (r : RegNum) (v : Val w) : (s.setReg w r v).cs = s.cs := by cases w <;> simp [State.setReg]
@[simp] theorem State.setReg_ss (s : State) (w : Width) (r : RegNum) (v : Val w) : (s.setReg w r v).ss = s.ss := by cases w <;> simp [State.setReg]
@[simp] theorem State.setReg_ds (s : State) (w : Width) (r : RegNum) (v : Val w) : (s.setReg w r v).ds = s.ds := by cases w <;> simp [State.setReg]
@[simp] theorem State.setReg_ip (s : State) (w : Width) (r : RegNum) (v : Val w) : (s.setReg w r v).ip = s.ip := by cases w <;> simp [State.setReg]
@[simp] theorem State.setReg_flags (s : State) (w : Width) (r : RegNum) (v : Val w) : (s.setReg w r v).flags = s.flags := by cases w <;> simp [State.setReg]
@[simp] theorem State.setReg_msw (s : State) (w : Width) (r : RegNum) (v : Val w) : (s.setReg w r v).msw = s.msw := by cases w <;> simp [State.setReg]
@[simp] theorem State.setReg_gdtr (s : State) (w : Width) (r : RegNum) (v : Val w) : (s.setReg w r v).gdtr = s.gdtr := by cases w <;> simp [State.setReg]
@[simp] theorem State.setReg_idtr (s : State) (w : Width) (r : RegNum) (v : Val w) : (s.setReg w r v).idtr = s.idtr := by cases w <;> simp [State.setReg]
@[simp] theorem State.setReg_ldtr (s : State) (w : Width) (r : RegNum) (v : Val w) : (s.setReg w r v).ldtr = s.ldtr := by cases w <;> simp [State.setReg]
@[simp] theorem State.setReg_tr (s : State) (w : Width) (r : RegNum) (v : Val w) : (s.setReg w r v).tr = s.tr := by cases w <;> simp [State.setReg]
@[simp] theorem State.setReg_halted (s : State) (w : Width) (r : RegNum) (v : Val w) : (s.setReg w r v).halted = s.halted := by cases w <;> simp [State.setReg]
@[simp] theorem State.setReg_shutdown (s : State) (w : Width) (r : RegNum) (v : Val w) : (s.setReg w r v).shutdown = s.shutdown := by cases w <;> simp [State.setReg]
@[simp] theorem State.setReg_nmiInService (s : State) (w : Width) (r : RegNum) (v : Val w) : (s.setReg w r v).nmiInService = s.nmiInService := by cases w <;> simp [State.setReg]
@[simp] theorem State.setReg_nmiPending (s : State) (w : Width) (r : RegNum) (v : Val w) : (s.setReg w r v).nmiPending = s.nmiPending := by cases w <;> simp [State.setReg]
@[simp] theorem State.setReg_inhibitInt (s : State) (w : Width) (r : RegNum) (v : Val w) : (s.setReg w r v).inhibitInt = s.inhibitInt := by cases w <;> simp [State.setReg]
@[simp] theorem State.setReg_inhibitExt (s : State) (w : Width) (r : RegNum) (v : Val w) : (s.setReg w r v).inhibitExt = s.inhibitExt := by cases w <;> simp [State.setReg]
@[simp] theorem State.setReg_mpPending (s : State) (w : Width) (r : RegNum) (v : Val w) : (s.setReg w r v).mpPending = s.mpPending := by cases w <;> simp [State.setReg]
@[simp] theorem State.setReg_stepTrap (s : State) (w : Width) (r : RegNum) (v : Val w) : (s.setReg w r v).stepTrap = s.stepTrap := by cases w <;> simp [State.setReg]
@[simp] theorem State.setReg_waiting (s : State) (w : Width) (r : RegNum) (v : Val w) : (s.setReg w r v).waiting = s.waiting := by cases w <;> simp [State.setReg]
@[simp] theorem State.setReg_pins (s : State) (w : Width) (r : RegNum) (v : Val w) : (s.setReg w r v).pins = s.pins := by cases w <;> simp [State.setReg]
@[simp] theorem State.setReg_nmiLevel (s : State) (w : Width) (r : RegNum) (v : Val w) : (s.setReg w r v).nmiLevel = s.nmiLevel := by cases w <;> simp [State.setReg]
@[simp] theorem State.setReg_stale (s : State) (w : Width) (r : RegNum) (v : Val w) : (s.setReg w r v).stale = s.stale := by cases w <;> simp [State.setReg]
@[simp] theorem State.setReg_mem (s : State) (w : Width) (r : RegNum) (v : Val w) : (s.setReg w r v).mem = s.mem := by cases w <;> simp [State.setReg]
@[simp] theorem State.setReg_io (s : State) (w : Width) (r : RegNum) (v : Val w) : (s.setReg w r v).io = s.io := by cases w <;> simp [State.setReg]
@[simp] theorem State.setReg_cur (s : State) (w : Width) (r : RegNum) (v : Val w) : (s.setReg w r v).cur = s.cur := by cases w <;> simp [State.setReg]
@[simp] theorem State.setReg_memMap (s : State) (w : Width) (r : RegNum) (v : Val w) : (s.setReg w r v).memMap = s.memMap := by cases w <;> simp [State.setReg]
@[simp] theorem State.setReg_ext (s : State) (w : Width) (r : RegNum) (v : Val w) : (s.setReg w r v).ext = s.ext := by cases w <;> simp [State.setReg]
@[simp] theorem State.setReg_phase (s : State) (w : Width) (r : RegNum) (v : Val w) : (s.setReg w r v).phase = s.phase := by cases w <;> simp [State.setReg]
@[simp] theorem State.setReg_draws (s : State) (w : Width) (r : RegNum) (v : Val w) : (s.setReg w r v).draws = s.draws := by cases w <;> simp [State.setReg]
@[simp] theorem State.setReg_bus (s : State) (w : Width) (r : RegNum) (v : Val w) : (s.setReg w r v).bus = s.bus := by cases w <;> simp [State.setReg]

/-! ### State.setAcc -/

@[simp] theorem State.setAcc_es (s : State) (w : Width) (v : Val w) : (s.setAcc w v).es = s.es := by simp [State.setAcc]
@[simp] theorem State.setAcc_cs (s : State) (w : Width) (v : Val w) : (s.setAcc w v).cs = s.cs := by simp [State.setAcc]
@[simp] theorem State.setAcc_ss (s : State) (w : Width) (v : Val w) : (s.setAcc w v).ss = s.ss := by simp [State.setAcc]
@[simp] theorem State.setAcc_ds (s : State) (w : Width) (v : Val w) : (s.setAcc w v).ds = s.ds := by simp [State.setAcc]
@[simp] theorem State.setAcc_ip (s : State) (w : Width) (v : Val w) : (s.setAcc w v).ip = s.ip := by simp [State.setAcc]
@[simp] theorem State.setAcc_flags (s : State) (w : Width) (v : Val w) : (s.setAcc w v).flags = s.flags := by simp [State.setAcc]
@[simp] theorem State.setAcc_msw (s : State) (w : Width) (v : Val w) : (s.setAcc w v).msw = s.msw := by simp [State.setAcc]
@[simp] theorem State.setAcc_gdtr (s : State) (w : Width) (v : Val w) : (s.setAcc w v).gdtr = s.gdtr := by simp [State.setAcc]
@[simp] theorem State.setAcc_idtr (s : State) (w : Width) (v : Val w) : (s.setAcc w v).idtr = s.idtr := by simp [State.setAcc]
@[simp] theorem State.setAcc_ldtr (s : State) (w : Width) (v : Val w) : (s.setAcc w v).ldtr = s.ldtr := by simp [State.setAcc]
@[simp] theorem State.setAcc_tr (s : State) (w : Width) (v : Val w) : (s.setAcc w v).tr = s.tr := by simp [State.setAcc]
@[simp] theorem State.setAcc_halted (s : State) (w : Width) (v : Val w) : (s.setAcc w v).halted = s.halted := by simp [State.setAcc]
@[simp] theorem State.setAcc_shutdown (s : State) (w : Width) (v : Val w) : (s.setAcc w v).shutdown = s.shutdown := by simp [State.setAcc]
@[simp] theorem State.setAcc_nmiInService (s : State) (w : Width) (v : Val w) : (s.setAcc w v).nmiInService = s.nmiInService := by simp [State.setAcc]
@[simp] theorem State.setAcc_nmiPending (s : State) (w : Width) (v : Val w) : (s.setAcc w v).nmiPending = s.nmiPending := by simp [State.setAcc]
@[simp] theorem State.setAcc_inhibitInt (s : State) (w : Width) (v : Val w) : (s.setAcc w v).inhibitInt = s.inhibitInt := by simp [State.setAcc]
@[simp] theorem State.setAcc_inhibitExt (s : State) (w : Width) (v : Val w) : (s.setAcc w v).inhibitExt = s.inhibitExt := by simp [State.setAcc]
@[simp] theorem State.setAcc_mpPending (s : State) (w : Width) (v : Val w) : (s.setAcc w v).mpPending = s.mpPending := by simp [State.setAcc]
@[simp] theorem State.setAcc_stepTrap (s : State) (w : Width) (v : Val w) : (s.setAcc w v).stepTrap = s.stepTrap := by simp [State.setAcc]
@[simp] theorem State.setAcc_waiting (s : State) (w : Width) (v : Val w) : (s.setAcc w v).waiting = s.waiting := by simp [State.setAcc]
@[simp] theorem State.setAcc_pins (s : State) (w : Width) (v : Val w) : (s.setAcc w v).pins = s.pins := by simp [State.setAcc]
@[simp] theorem State.setAcc_nmiLevel (s : State) (w : Width) (v : Val w) : (s.setAcc w v).nmiLevel = s.nmiLevel := by simp [State.setAcc]
@[simp] theorem State.setAcc_stale (s : State) (w : Width) (v : Val w) : (s.setAcc w v).stale = s.stale := by simp [State.setAcc]
@[simp] theorem State.setAcc_mem (s : State) (w : Width) (v : Val w) : (s.setAcc w v).mem = s.mem := by simp [State.setAcc]
@[simp] theorem State.setAcc_io (s : State) (w : Width) (v : Val w) : (s.setAcc w v).io = s.io := by simp [State.setAcc]
@[simp] theorem State.setAcc_cur (s : State) (w : Width) (v : Val w) : (s.setAcc w v).cur = s.cur := by simp [State.setAcc]
@[simp] theorem State.setAcc_memMap (s : State) (w : Width) (v : Val w) : (s.setAcc w v).memMap = s.memMap := by simp [State.setAcc]
@[simp] theorem State.setAcc_ext (s : State) (w : Width) (v : Val w) : (s.setAcc w v).ext = s.ext := by simp [State.setAcc]
@[simp] theorem State.setAcc_phase (s : State) (w : Width) (v : Val w) : (s.setAcc w v).phase = s.phase := by simp [State.setAcc]
@[simp] theorem State.setAcc_draws (s : State) (w : Width) (v : Val w) : (s.setAcc w v).draws = s.draws := by simp [State.setAcc]
@[simp] theorem State.setAcc_bus (s : State) (w : Width) (v : Val w) : (s.setAcc w v).bus = s.bus := by simp [State.setAcc]

/-! ### State.setSeg -/

@[simp] theorem State.setSeg_regs (s : State) (x : SReg) (g : SegReg) : (s.setSeg x g).regs = s.regs := by cases x <;> rfl
@[simp] theorem State.setSeg_ip (s : State) (x : SReg) (g : SegReg) : (s.setSeg x g).ip = s.ip := by cases x <;> rfl
@[simp] theorem State.setSeg_flags (s : State) (x : SReg) (g : SegReg) : (s.setSeg x g).flags = s.flags := by cases x <;> rfl
@[simp] theorem State.setSeg_msw (s : State) (x : SReg) (g : SegReg) : (s.setSeg x g).msw = s.msw := by cases x <;> rfl
@[simp] theorem State.setSeg_gdtr (s : State) (x : SReg) (g : SegReg) : (s.setSeg x g).gdtr = s.gdtr := by cases x <;> rfl
@[simp] theorem State.setSeg_idtr (s : State) (x : SReg) (g : SegReg) : (s.setSeg x g).idtr = s.idtr := by cases x <;> rfl
@[simp] theorem State.setSeg_ldtr (s : State) (x : SReg) (g : SegReg) : (s.setSeg x g).ldtr = s.ldtr := by cases x <;> rfl
@[simp] theorem State.setSeg_tr (s : State) (x : SReg) (g : SegReg) : (s.setSeg x g).tr = s.tr := by cases x <;> rfl
@[simp] theorem State.setSeg_halted (s : State) (x : SReg) (g : SegReg) : (s.setSeg x g).halted = s.halted := by cases x <;> rfl
@[simp] theorem State.setSeg_shutdown (s : State) (x : SReg) (g : SegReg) : (s.setSeg x g).shutdown = s.shutdown := by cases x <;> rfl
@[simp] theorem State.setSeg_nmiInService (s : State) (x : SReg) (g : SegReg) : (s.setSeg x g).nmiInService = s.nmiInService := by cases x <;> rfl
@[simp] theorem State.setSeg_nmiPending (s : State) (x : SReg) (g : SegReg) : (s.setSeg x g).nmiPending = s.nmiPending := by cases x <;> rfl
@[simp] theorem State.setSeg_inhibitInt (s : State) (x : SReg) (g : SegReg) : (s.setSeg x g).inhibitInt = s.inhibitInt := by cases x <;> rfl
@[simp] theorem State.setSeg_inhibitExt (s : State) (x : SReg) (g : SegReg) : (s.setSeg x g).inhibitExt = s.inhibitExt := by cases x <;> rfl
@[simp] theorem State.setSeg_mpPending (s : State) (x : SReg) (g : SegReg) : (s.setSeg x g).mpPending = s.mpPending := by cases x <;> rfl
@[simp] theorem State.setSeg_stepTrap (s : State) (x : SReg) (g : SegReg) : (s.setSeg x g).stepTrap = s.stepTrap := by cases x <;> rfl
@[simp] theorem State.setSeg_waiting (s : State) (x : SReg) (g : SegReg) : (s.setSeg x g).waiting = s.waiting := by cases x <;> rfl
@[simp] theorem State.setSeg_pins (s : State) (x : SReg) (g : SegReg) : (s.setSeg x g).pins = s.pins := by cases x <;> rfl
@[simp] theorem State.setSeg_nmiLevel (s : State) (x : SReg) (g : SegReg) : (s.setSeg x g).nmiLevel = s.nmiLevel := by cases x <;> rfl
@[simp] theorem State.setSeg_stale (s : State) (x : SReg) (g : SegReg) : (s.setSeg x g).stale = s.stale := by cases x <;> rfl
@[simp] theorem State.setSeg_mem (s : State) (x : SReg) (g : SegReg) : (s.setSeg x g).mem = s.mem := by cases x <;> rfl
@[simp] theorem State.setSeg_io (s : State) (x : SReg) (g : SegReg) : (s.setSeg x g).io = s.io := by cases x <;> rfl
@[simp] theorem State.setSeg_cur (s : State) (x : SReg) (g : SegReg) : (s.setSeg x g).cur = s.cur := by cases x <;> rfl
@[simp] theorem State.setSeg_memMap (s : State) (x : SReg) (g : SegReg) : (s.setSeg x g).memMap = s.memMap := by cases x <;> rfl
@[simp] theorem State.setSeg_ext (s : State) (x : SReg) (g : SegReg) : (s.setSeg x g).ext = s.ext := by cases x <;> rfl
@[simp] theorem State.setSeg_phase (s : State) (x : SReg) (g : SegReg) : (s.setSeg x g).phase = s.phase := by cases x <;> rfl
@[simp] theorem State.setSeg_draws (s : State) (x : SReg) (g : SegReg) : (s.setSeg x g).draws = s.draws := by cases x <;> rfl
@[simp] theorem State.setSeg_bus (s : State) (x : SReg) (g : SegReg) : (s.setSeg x g).bus = s.bus := by cases x <;> rfl

/-! ### State.store8 -/

@[simp] theorem State.store8_regs (s : State) (a : Phys) (v : Byte) : (s.store8 a v).regs = s.regs := rfl
@[simp] theorem State.store8_es (s : State) (a : Phys) (v : Byte) : (s.store8 a v).es = s.es := rfl
@[simp] theorem State.store8_cs (s : State) (a : Phys) (v : Byte) : (s.store8 a v).cs = s.cs := rfl
@[simp] theorem State.store8_ss (s : State) (a : Phys) (v : Byte) : (s.store8 a v).ss = s.ss := rfl
@[simp] theorem State.store8_ds (s : State) (a : Phys) (v : Byte) : (s.store8 a v).ds = s.ds := rfl
@[simp] theorem State.store8_ip (s : State) (a : Phys) (v : Byte) : (s.store8 a v).ip = s.ip := rfl
@[simp] theorem State.store8_flags (s : State) (a : Phys) (v : Byte) : (s.store8 a v).flags = s.flags := rfl
@[simp] theorem State.store8_msw (s : State) (a : Phys) (v : Byte) : (s.store8 a v).msw = s.msw := rfl
@[simp] theorem State.store8_gdtr (s : State) (a : Phys) (v : Byte) : (s.store8 a v).gdtr = s.gdtr := rfl
@[simp] theorem State.store8_idtr (s : State) (a : Phys) (v : Byte) : (s.store8 a v).idtr = s.idtr := rfl
@[simp] theorem State.store8_ldtr (s : State) (a : Phys) (v : Byte) : (s.store8 a v).ldtr = s.ldtr := rfl
@[simp] theorem State.store8_tr (s : State) (a : Phys) (v : Byte) : (s.store8 a v).tr = s.tr := rfl
@[simp] theorem State.store8_halted (s : State) (a : Phys) (v : Byte) : (s.store8 a v).halted = s.halted := rfl
@[simp] theorem State.store8_shutdown (s : State) (a : Phys) (v : Byte) : (s.store8 a v).shutdown = s.shutdown := rfl
@[simp] theorem State.store8_nmiInService (s : State) (a : Phys) (v : Byte) : (s.store8 a v).nmiInService = s.nmiInService := rfl
@[simp] theorem State.store8_nmiPending (s : State) (a : Phys) (v : Byte) : (s.store8 a v).nmiPending = s.nmiPending := rfl
@[simp] theorem State.store8_inhibitInt (s : State) (a : Phys) (v : Byte) : (s.store8 a v).inhibitInt = s.inhibitInt := rfl
@[simp] theorem State.store8_inhibitExt (s : State) (a : Phys) (v : Byte) : (s.store8 a v).inhibitExt = s.inhibitExt := rfl
@[simp] theorem State.store8_mpPending (s : State) (a : Phys) (v : Byte) : (s.store8 a v).mpPending = s.mpPending := rfl
@[simp] theorem State.store8_stepTrap (s : State) (a : Phys) (v : Byte) : (s.store8 a v).stepTrap = s.stepTrap := rfl
@[simp] theorem State.store8_waiting (s : State) (a : Phys) (v : Byte) : (s.store8 a v).waiting = s.waiting := rfl
@[simp] theorem State.store8_pins (s : State) (a : Phys) (v : Byte) : (s.store8 a v).pins = s.pins := rfl
@[simp] theorem State.store8_nmiLevel (s : State) (a : Phys) (v : Byte) : (s.store8 a v).nmiLevel = s.nmiLevel := rfl
theorem State.store8_mem (s : State) (a : Phys) (v : Byte) :
    (s.store8 a v).mem = if (s.memKind a).keeps then Memory.write s.mem a.toNat v else s.mem := rfl
@[simp] theorem State.store8_io (s : State) (a : Phys) (v : Byte) : (s.store8 a v).io = s.io := rfl
@[simp] theorem State.store8_cur (s : State) (a : Phys) (v : Byte) : (s.store8 a v).cur = s.cur := rfl
@[simp] theorem State.store8_memMap (s : State) (a : Phys) (v : Byte) : (s.store8 a v).memMap = s.memMap := rfl
@[simp] theorem State.store8_ext (s : State) (a : Phys) (v : Byte) : (s.store8 a v).ext = s.ext := rfl
@[simp] theorem State.store8_phase (s : State) (a : Phys) (v : Byte) : (s.store8 a v).phase = s.phase := rfl
@[simp] theorem State.store8_draws (s : State) (a : Phys) (v : Byte) : (s.store8 a v).draws = s.draws := rfl
@[simp] theorem State.store8_bus (s : State) (a : Phys) (v : Byte) : (s.store8 a v).bus = s.bus := rfl

/-! ### State.store16 -/

@[simp] theorem State.store16_regs (s : State) (a : Phys) (v : Word) : (s.store16 a v).regs = s.regs := rfl
@[simp] theorem State.store16_es (s : State) (a : Phys) (v : Word) : (s.store16 a v).es = s.es := rfl
@[simp] theorem State.store16_cs (s : State) (a : Phys) (v : Word) : (s.store16 a v).cs = s.cs := rfl
@[simp] theorem State.store16_ss (s : State) (a : Phys) (v : Word) : (s.store16 a v).ss = s.ss := rfl
@[simp] theorem State.store16_ds (s : State) (a : Phys) (v : Word) : (s.store16 a v).ds = s.ds := rfl
@[simp] theorem State.store16_ip (s : State) (a : Phys) (v : Word) : (s.store16 a v).ip = s.ip := rfl
@[simp] theorem State.store16_flags (s : State) (a : Phys) (v : Word) : (s.store16 a v).flags = s.flags := rfl
@[simp] theorem State.store16_msw (s : State) (a : Phys) (v : Word) : (s.store16 a v).msw = s.msw := rfl
@[simp] theorem State.store16_gdtr (s : State) (a : Phys) (v : Word) : (s.store16 a v).gdtr = s.gdtr := rfl
@[simp] theorem State.store16_idtr (s : State) (a : Phys) (v : Word) : (s.store16 a v).idtr = s.idtr := rfl
@[simp] theorem State.store16_ldtr (s : State) (a : Phys) (v : Word) : (s.store16 a v).ldtr = s.ldtr := rfl
@[simp] theorem State.store16_tr (s : State) (a : Phys) (v : Word) : (s.store16 a v).tr = s.tr := rfl
@[simp] theorem State.store16_halted (s : State) (a : Phys) (v : Word) : (s.store16 a v).halted = s.halted := rfl
@[simp] theorem State.store16_shutdown (s : State) (a : Phys) (v : Word) : (s.store16 a v).shutdown = s.shutdown := rfl
@[simp] theorem State.store16_nmiInService (s : State) (a : Phys) (v : Word) : (s.store16 a v).nmiInService = s.nmiInService := rfl
@[simp] theorem State.store16_nmiPending (s : State) (a : Phys) (v : Word) : (s.store16 a v).nmiPending = s.nmiPending := rfl
@[simp] theorem State.store16_inhibitInt (s : State) (a : Phys) (v : Word) : (s.store16 a v).inhibitInt = s.inhibitInt := rfl
@[simp] theorem State.store16_inhibitExt (s : State) (a : Phys) (v : Word) : (s.store16 a v).inhibitExt = s.inhibitExt := rfl
@[simp] theorem State.store16_mpPending (s : State) (a : Phys) (v : Word) : (s.store16 a v).mpPending = s.mpPending := rfl
@[simp] theorem State.store16_stepTrap (s : State) (a : Phys) (v : Word) : (s.store16 a v).stepTrap = s.stepTrap := rfl
@[simp] theorem State.store16_waiting (s : State) (a : Phys) (v : Word) : (s.store16 a v).waiting = s.waiting := rfl
@[simp] theorem State.store16_pins (s : State) (a : Phys) (v : Word) : (s.store16 a v).pins = s.pins := rfl
@[simp] theorem State.store16_nmiLevel (s : State) (a : Phys) (v : Word) : (s.store16 a v).nmiLevel = s.nmiLevel := rfl
@[simp] theorem State.store16_io (s : State) (a : Phys) (v : Word) : (s.store16 a v).io = s.io := rfl
@[simp] theorem State.store16_cur (s : State) (a : Phys) (v : Word) : (s.store16 a v).cur = s.cur := rfl
@[simp] theorem State.store16_memMap (s : State) (a : Phys) (v : Word) : (s.store16 a v).memMap = s.memMap := rfl
@[simp] theorem State.store16_ext (s : State) (a : Phys) (v : Word) : (s.store16 a v).ext = s.ext := rfl
@[simp] theorem State.store16_phase (s : State) (a : Phys) (v : Word) : (s.store16 a v).phase = s.phase := rfl
@[simp] theorem State.store16_draws (s : State) (a : Phys) (v : Word) : (s.store16 a v).draws = s.draws := rfl
@[simp] theorem State.store16_bus (s : State) (a : Phys) (v : Word) : (s.store16 a v).bus = s.bus := rfl

/-! ### poke8 -/

@[simp] theorem poke8_regs (s : State) (x : SReg) (o : Word) (v : Byte) : (poke8 s x o v).regs = s.regs := rfl
@[simp] theorem poke8_es (s : State) (x : SReg) (o : Word) (v : Byte) : (poke8 s x o v).es = s.es := rfl
@[simp] theorem poke8_cs (s : State) (x : SReg) (o : Word) (v : Byte) : (poke8 s x o v).cs = s.cs := rfl
@[simp] theorem poke8_ss (s : State) (x : SReg) (o : Word) (v : Byte) : (poke8 s x o v).ss = s.ss := rfl
@[simp] theorem poke8_ds (s : State) (x : SReg) (o : Word) (v : Byte) : (poke8 s x o v).ds = s.ds := rfl
@[simp] theorem poke8_ip (s : State) (x : SReg) (o : Word) (v : Byte) : (poke8 s x o v).ip = s.ip := rfl
@[simp] theorem poke8_flags (s : State) (x : SReg) (o : Word) (v : Byte) : (poke8 s x o v).flags = s.flags := rfl
@[simp] theorem poke8_msw (s : State) (x : SReg) (o : Word) (v : Byte) : (poke8 s x o v).msw = s.msw := rfl
@[simp] theorem poke8_gdtr (s : State) (x : SReg) (o : Word) (v : Byte) : (poke8 s x o v).gdtr = s.gdtr := rfl
@[simp] theorem poke8_idtr (s : State) (x : SReg) (o : Word) (v : Byte) : (poke8 s x o v).idtr = s.idtr := rfl
@[simp] theorem poke8_ldtr (s : State) (x : SReg) (o : Word) (v : Byte) : (poke8 s x o v).ldtr = s.ldtr := rfl
@[simp] theorem poke8_tr (s : State) (x : SReg) (o : Word) (v : Byte) : (poke8 s x o v).tr = s.tr := rfl
@[simp] theorem poke8_halted (s : State) (x : SReg) (o : Word) (v : Byte) : (poke8 s x o v).halted = s.halted := rfl
@[simp] theorem poke8_shutdown (s : State) (x : SReg) (o : Word) (v : Byte) : (poke8 s x o v).shutdown = s.shutdown := rfl
@[simp] theorem poke8_nmiInService (s : State) (x : SReg) (o : Word) (v : Byte) : (poke8 s x o v).nmiInService = s.nmiInService := rfl
@[simp] theorem poke8_nmiPending (s : State) (x : SReg) (o : Word) (v : Byte) : (poke8 s x o v).nmiPending = s.nmiPending := rfl
@[simp] theorem poke8_inhibitInt (s : State) (x : SReg) (o : Word) (v : Byte) : (poke8 s x o v).inhibitInt = s.inhibitInt := rfl
@[simp] theorem poke8_inhibitExt (s : State) (x : SReg) (o : Word) (v : Byte) : (poke8 s x o v).inhibitExt = s.inhibitExt := rfl
@[simp] theorem poke8_mpPending (s : State) (x : SReg) (o : Word) (v : Byte) : (poke8 s x o v).mpPending = s.mpPending := rfl
@[simp] theorem poke8_stepTrap (s : State) (x : SReg) (o : Word) (v : Byte) : (poke8 s x o v).stepTrap = s.stepTrap := rfl
@[simp] theorem poke8_waiting (s : State) (x : SReg) (o : Word) (v : Byte) : (poke8 s x o v).waiting = s.waiting := rfl
@[simp] theorem poke8_pins (s : State) (x : SReg) (o : Word) (v : Byte) : (poke8 s x o v).pins = s.pins := rfl
@[simp] theorem poke8_nmiLevel (s : State) (x : SReg) (o : Word) (v : Byte) : (poke8 s x o v).nmiLevel = s.nmiLevel := rfl
@[simp] theorem poke8_io (s : State) (x : SReg) (o : Word) (v : Byte) : (poke8 s x o v).io = s.io := rfl
@[simp] theorem poke8_cur (s : State) (x : SReg) (o : Word) (v : Byte) : (poke8 s x o v).cur = s.cur := rfl
@[simp] theorem poke8_memMap (s : State) (x : SReg) (o : Word) (v : Byte) : (poke8 s x o v).memMap = s.memMap := rfl
@[simp] theorem poke8_ext (s : State) (x : SReg) (o : Word) (v : Byte) : (poke8 s x o v).ext = s.ext := rfl
@[simp] theorem poke8_phase (s : State) (x : SReg) (o : Word) (v : Byte) : (poke8 s x o v).phase = s.phase := rfl
@[simp] theorem poke8_draws (s : State) (x : SReg) (o : Word) (v : Byte) : (poke8 s x o v).draws = s.draws := rfl
@[simp] theorem poke8_bus (s : State) (x : SReg) (o : Word) (v : Byte) : (poke8 s x o v).bus = s.bus := rfl

/-! ### poke16 -/

@[simp] theorem poke16_regs (s : State) (x : SReg) (o v : Word) : (poke16 s x o v).regs = s.regs := rfl
@[simp] theorem poke16_es (s : State) (x : SReg) (o v : Word) : (poke16 s x o v).es = s.es := rfl
@[simp] theorem poke16_cs (s : State) (x : SReg) (o v : Word) : (poke16 s x o v).cs = s.cs := rfl
@[simp] theorem poke16_ss (s : State) (x : SReg) (o v : Word) : (poke16 s x o v).ss = s.ss := rfl
@[simp] theorem poke16_ds (s : State) (x : SReg) (o v : Word) : (poke16 s x o v).ds = s.ds := rfl
@[simp] theorem poke16_ip (s : State) (x : SReg) (o v : Word) : (poke16 s x o v).ip = s.ip := rfl
@[simp] theorem poke16_flags (s : State) (x : SReg) (o v : Word) : (poke16 s x o v).flags = s.flags := rfl
@[simp] theorem poke16_msw (s : State) (x : SReg) (o v : Word) : (poke16 s x o v).msw = s.msw := rfl
@[simp] theorem poke16_gdtr (s : State) (x : SReg) (o v : Word) : (poke16 s x o v).gdtr = s.gdtr := rfl
@[simp] theorem poke16_idtr (s : State) (x : SReg) (o v : Word) : (poke16 s x o v).idtr = s.idtr := rfl
@[simp] theorem poke16_ldtr (s : State) (x : SReg) (o v : Word) : (poke16 s x o v).ldtr = s.ldtr := rfl
@[simp] theorem poke16_tr (s : State) (x : SReg) (o v : Word) : (poke16 s x o v).tr = s.tr := rfl
@[simp] theorem poke16_halted (s : State) (x : SReg) (o v : Word) : (poke16 s x o v).halted = s.halted := rfl
@[simp] theorem poke16_shutdown (s : State) (x : SReg) (o v : Word) : (poke16 s x o v).shutdown = s.shutdown := rfl
@[simp] theorem poke16_nmiInService (s : State) (x : SReg) (o v : Word) : (poke16 s x o v).nmiInService = s.nmiInService := rfl
@[simp] theorem poke16_nmiPending (s : State) (x : SReg) (o v : Word) : (poke16 s x o v).nmiPending = s.nmiPending := rfl
@[simp] theorem poke16_inhibitInt (s : State) (x : SReg) (o v : Word) : (poke16 s x o v).inhibitInt = s.inhibitInt := rfl
@[simp] theorem poke16_inhibitExt (s : State) (x : SReg) (o v : Word) : (poke16 s x o v).inhibitExt = s.inhibitExt := rfl
@[simp] theorem poke16_mpPending (s : State) (x : SReg) (o v : Word) : (poke16 s x o v).mpPending = s.mpPending := rfl
@[simp] theorem poke16_stepTrap (s : State) (x : SReg) (o v : Word) : (poke16 s x o v).stepTrap = s.stepTrap := rfl
@[simp] theorem poke16_waiting (s : State) (x : SReg) (o v : Word) : (poke16 s x o v).waiting = s.waiting := rfl
@[simp] theorem poke16_pins (s : State) (x : SReg) (o v : Word) : (poke16 s x o v).pins = s.pins := rfl
@[simp] theorem poke16_nmiLevel (s : State) (x : SReg) (o v : Word) : (poke16 s x o v).nmiLevel = s.nmiLevel := rfl
@[simp] theorem poke16_io (s : State) (x : SReg) (o v : Word) : (poke16 s x o v).io = s.io := rfl
@[simp] theorem poke16_cur (s : State) (x : SReg) (o v : Word) : (poke16 s x o v).cur = s.cur := rfl
@[simp] theorem poke16_memMap (s : State) (x : SReg) (o v : Word) : (poke16 s x o v).memMap = s.memMap := rfl
@[simp] theorem poke16_ext (s : State) (x : SReg) (o v : Word) : (poke16 s x o v).ext = s.ext := rfl
@[simp] theorem poke16_phase (s : State) (x : SReg) (o v : Word) : (poke16 s x o v).phase = s.phase := rfl
@[simp] theorem poke16_draws (s : State) (x : SReg) (o v : Word) : (poke16 s x o v).draws = s.draws := rfl
@[simp] theorem poke16_bus (s : State) (x : SReg) (o v : Word) : (poke16 s x o v).bus = s.bus := rfl

/-! ### poke -/

@[simp] theorem poke_regs (s : State) (w : Width) (x : SReg) (o : Word) (v : Val w) : (poke s w x o v).regs = s.regs := by cases w <;> rfl
@[simp] theorem poke_es (s : State) (w : Width) (x : SReg) (o : Word) (v : Val w) : (poke s w x o v).es = s.es := by cases w <;> rfl
@[simp] theorem poke_cs (s : State) (w : Width) (x : SReg) (o : Word) (v : Val w) : (poke s w x o v).cs = s.cs := by cases w <;> rfl
@[simp] theorem poke_ss (s : State) (w : Width) (x : SReg) (o : Word) (v : Val w) : (poke s w x o v).ss = s.ss := by cases w <;> rfl
@[simp] theorem poke_ds (s : State) (w : Width) (x : SReg) (o : Word) (v : Val w) : (poke s w x o v).ds = s.ds := by cases w <;> rfl
@[simp] theorem poke_ip (s : State) (w : Width) (x : SReg) (o : Word) (v : Val w) : (poke s w x o v).ip = s.ip := by cases w <;> rfl
@[simp] theorem poke_flags (s : State) (w : Width) (x : SReg) (o : Word) (v : Val w) : (poke s w x o v).flags = s.flags := by cases w <;> rfl
@[simp] theorem poke_msw (s : State) (w : Width) (x : SReg) (o : Word) (v : Val w) : (poke s w x o v).msw = s.msw := by cases w <;> rfl
@[simp] theorem poke_gdtr (s : State) (w : Width) (x : SReg) (o : Word) (v : Val w) : (poke s w x o v).gdtr = s.gdtr := by cases w <;> rfl
@[simp] theorem poke_idtr (s : State) (w : Width) (x : SReg) (o : Word) (v : Val w) : (poke s w x o v).idtr = s.idtr := by cases w <;> rfl
@[simp] theorem poke_ldtr (s : State) (w : Width) (x : SReg) (o : Word) (v : Val w) : (poke s w x o v).ldtr = s.ldtr := by cases w <;> rfl
@[simp] theorem poke_tr (s : State) (w : Width) (x : SReg) (o : Word) (v : Val w) : (poke s w x o v).tr = s.tr := by cases w <;> rfl
@[simp] theorem poke_halted (s : State) (w : Width) (x : SReg) (o : Word) (v : Val w) : (poke s w x o v).halted = s.halted := by cases w <;> rfl
@[simp] theorem poke_shutdown (s : State) (w : Width) (x : SReg) (o : Word) (v : Val w) : (poke s w x o v).shutdown = s.shutdown := by cases w <;> rfl
@[simp] theorem poke_nmiInService (s : State) (w : Width) (x : SReg) (o : Word) (v : Val w) : (poke s w x o v).nmiInService = s.nmiInService := by cases w <;> rfl
@[simp] theorem poke_nmiPending (s : State) (w : Width) (x : SReg) (o : Word) (v : Val w) : (poke s w x o v).nmiPending = s.nmiPending := by cases w <;> rfl
@[simp] theorem poke_inhibitInt (s : State) (w : Width) (x : SReg) (o : Word) (v : Val w) : (poke s w x o v).inhibitInt = s.inhibitInt := by cases w <;> rfl
@[simp] theorem poke_inhibitExt (s : State) (w : Width) (x : SReg) (o : Word) (v : Val w) : (poke s w x o v).inhibitExt = s.inhibitExt := by cases w <;> rfl
@[simp] theorem poke_mpPending (s : State) (w : Width) (x : SReg) (o : Word) (v : Val w) : (poke s w x o v).mpPending = s.mpPending := by cases w <;> rfl
@[simp] theorem poke_stepTrap (s : State) (w : Width) (x : SReg) (o : Word) (v : Val w) : (poke s w x o v).stepTrap = s.stepTrap := by cases w <;> rfl
@[simp] theorem poke_waiting (s : State) (w : Width) (x : SReg) (o : Word) (v : Val w) : (poke s w x o v).waiting = s.waiting := by cases w <;> rfl
@[simp] theorem poke_pins (s : State) (w : Width) (x : SReg) (o : Word) (v : Val w) : (poke s w x o v).pins = s.pins := by cases w <;> rfl
@[simp] theorem poke_nmiLevel (s : State) (w : Width) (x : SReg) (o : Word) (v : Val w) : (poke s w x o v).nmiLevel = s.nmiLevel := by cases w <;> rfl
@[simp] theorem poke_io (s : State) (w : Width) (x : SReg) (o : Word) (v : Val w) : (poke s w x o v).io = s.io := by cases w <;> rfl
@[simp] theorem poke_cur (s : State) (w : Width) (x : SReg) (o : Word) (v : Val w) : (poke s w x o v).cur = s.cur := by cases w <;> rfl
@[simp] theorem poke_memMap (s : State) (w : Width) (x : SReg) (o : Word) (v : Val w) : (poke s w x o v).memMap = s.memMap := by cases w <;> rfl
@[simp] theorem poke_ext (s : State) (w : Width) (x : SReg) (o : Word) (v : Val w) : (poke s w x o v).ext = s.ext := by cases w <;> rfl
@[simp] theorem poke_phase (s : State) (w : Width) (x : SReg) (o : Word) (v : Val w) : (poke s w x o v).phase = s.phase := by cases w <;> rfl
@[simp] theorem poke_draws (s : State) (w : Width) (x : SReg) (o : Word) (v : Val w) : (poke s w x o v).draws = s.draws := by cases w <;> rfl
@[simp] theorem poke_bus (s : State) (w : Width) (x : SReg) (o : Word) (v : Val w) : (poke s w x o v).bus = s.bus := by cases w <;> rfl

/-! ### setAccessed -/

@[simp] theorem setAccessed_regs (s : State) (a : Phys) (d : Desc) : (setAccessed s a d).regs = s.regs := by unfold setAccessed; split <;> rfl
@[simp] theorem setAccessed_es (s : State) (a : Phys) (d : Desc) : (setAccessed s a d).es = s.es := by unfold setAccessed; split <;> rfl
@[simp] theorem setAccessed_cs (s : State) (a : Phys) (d : Desc) : (setAccessed s a d).cs = s.cs := by unfold setAccessed; split <;> rfl
@[simp] theorem setAccessed_ss (s : State) (a : Phys) (d : Desc) : (setAccessed s a d).ss = s.ss := by unfold setAccessed; split <;> rfl
@[simp] theorem setAccessed_ds (s : State) (a : Phys) (d : Desc) : (setAccessed s a d).ds = s.ds := by unfold setAccessed; split <;> rfl
@[simp] theorem setAccessed_ip (s : State) (a : Phys) (d : Desc) : (setAccessed s a d).ip = s.ip := by unfold setAccessed; split <;> rfl
@[simp] theorem setAccessed_flags (s : State) (a : Phys) (d : Desc) : (setAccessed s a d).flags = s.flags := by unfold setAccessed; split <;> rfl
@[simp] theorem setAccessed_msw (s : State) (a : Phys) (d : Desc) : (setAccessed s a d).msw = s.msw := by unfold setAccessed; split <;> rfl
@[simp] theorem setAccessed_gdtr (s : State) (a : Phys) (d : Desc) : (setAccessed s a d).gdtr = s.gdtr := by unfold setAccessed; split <;> rfl
@[simp] theorem setAccessed_idtr (s : State) (a : Phys) (d : Desc) : (setAccessed s a d).idtr = s.idtr := by unfold setAccessed; split <;> rfl
@[simp] theorem setAccessed_ldtr (s : State) (a : Phys) (d : Desc) : (setAccessed s a d).ldtr = s.ldtr := by unfold setAccessed; split <;> rfl
@[simp] theorem setAccessed_tr (s : State) (a : Phys) (d : Desc) : (setAccessed s a d).tr = s.tr := by unfold setAccessed; split <;> rfl
@[simp] theorem setAccessed_halted (s : State) (a : Phys) (d : Desc) : (setAccessed s a d).halted = s.halted := by unfold setAccessed; split <;> rfl
@[simp] theorem setAccessed_shutdown (s : State) (a : Phys) (d : Desc) : (setAccessed s a d).shutdown = s.shutdown := by unfold setAccessed; split <;> rfl
@[simp] theorem setAccessed_nmiInService (s : State) (a : Phys) (d : Desc) : (setAccessed s a d).nmiInService = s.nmiInService := by unfold setAccessed; split <;> rfl
@[simp] theorem setAccessed_nmiPending (s : State) (a : Phys) (d : Desc) : (setAccessed s a d).nmiPending = s.nmiPending := by unfold setAccessed; split <;> rfl
@[simp] theorem setAccessed_inhibitInt (s : State) (a : Phys) (d : Desc) : (setAccessed s a d).inhibitInt = s.inhibitInt := by unfold setAccessed; split <;> rfl
@[simp] theorem setAccessed_inhibitExt (s : State) (a : Phys) (d : Desc) : (setAccessed s a d).inhibitExt = s.inhibitExt := by unfold setAccessed; split <;> rfl
@[simp] theorem setAccessed_mpPending (s : State) (a : Phys) (d : Desc) : (setAccessed s a d).mpPending = s.mpPending := by unfold setAccessed; split <;> rfl
@[simp] theorem setAccessed_stepTrap (s : State) (a : Phys) (d : Desc) : (setAccessed s a d).stepTrap = s.stepTrap := by unfold setAccessed; split <;> rfl
@[simp] theorem setAccessed_waiting (s : State) (a : Phys) (d : Desc) : (setAccessed s a d).waiting = s.waiting := by unfold setAccessed; split <;> rfl
@[simp] theorem setAccessed_pins (s : State) (a : Phys) (d : Desc) : (setAccessed s a d).pins = s.pins := by unfold setAccessed; split <;> rfl
@[simp] theorem setAccessed_nmiLevel (s : State) (a : Phys) (d : Desc) : (setAccessed s a d).nmiLevel = s.nmiLevel := by unfold setAccessed; split <;> rfl
@[simp] theorem setAccessed_io (s : State) (a : Phys) (d : Desc) : (setAccessed s a d).io = s.io := by unfold setAccessed; split <;> rfl
@[simp] theorem setAccessed_cur (s : State) (a : Phys) (d : Desc) : (setAccessed s a d).cur = s.cur := by unfold setAccessed; split <;> rfl
@[simp] theorem setAccessed_memMap (s : State) (a : Phys) (d : Desc) : (setAccessed s a d).memMap = s.memMap := by unfold setAccessed; split <;> rfl
@[simp] theorem setAccessed_ext (s : State) (a : Phys) (d : Desc) : (setAccessed s a d).ext = s.ext := by unfold setAccessed; split <;> rfl
@[simp] theorem setAccessed_phase (s : State) (a : Phys) (d : Desc) : (setAccessed s a d).phase = s.phase := by unfold setAccessed; split <;> rfl
@[simp] theorem setAccessed_draws (s : State) (a : Phys) (d : Desc) : (setAccessed s a d).draws = s.draws := by unfold setAccessed; split <;> rfl
@[simp] theorem setAccessed_bus (s : State) (a : Phys) (d : Desc) : (setAccessed s a d).bus = s.bus := by unfold setAccessed; split <;> rfl

/-! ### ioWrite -/

@[simp] theorem ioWrite_regs (s : State) (w : Width) (p : Word) (v : Val w) : (ioWrite s w p v).regs = s.regs := rfl
@[simp] theorem ioWrite_es (s : State) (w : Width) (p : Word) (v : Val w) : (ioWrite s w p v).es = s.es := rfl
@[simp] theorem ioWrite_cs (s : State) (w : Width) (p : Word) (v : Val w) : (ioWrite s w p v).cs = s.cs := rfl
@[simp] theorem ioWrite_ss (s : State) (w : Width) (p : Word) (v : Val w) : (ioWrite s w p v).ss = s.ss := rfl
@[simp] theorem ioWrite_ds (s : State) (w : Width) (p : Word) (v : Val w) : (ioWrite s w p v).ds = s.ds := rfl
@[simp] theorem ioWrite_ip (s : State) (w : Width) (p : Word) (v : Val w) : (ioWrite s w p v).ip = s.ip := rfl
@[simp] theorem ioWrite_flags (s : State) (w : Width) (p : Word) (v : Val w) : (ioWrite s w p v).flags = s.flags := rfl
@[simp] theorem ioWrite_msw (s : State) (w : Width) (p : Word) (v : Val w) : (ioWrite s w p v).msw = s.msw := rfl
@[simp] theorem ioWrite_gdtr (s : State) (w : Width) (p : Word) (v : Val w) : (ioWrite s w p v).gdtr = s.gdtr := rfl
@[simp] theorem ioWrite_idtr (s : State) (w : Width) (p : Word) (v : Val w) : (ioWrite s w p v).idtr = s.idtr := rfl
@[simp] theorem ioWrite_ldtr (s : State) (w : Width) (p : Word) (v : Val w) : (ioWrite s w p v).ldtr = s.ldtr := rfl
@[simp] theorem ioWrite_tr (s : State) (w : Width) (p : Word) (v : Val w) : (ioWrite s w p v).tr = s.tr := rfl
@[simp] theorem ioWrite_halted (s : State) (w : Width) (p : Word) (v : Val w) : (ioWrite s w p v).halted = s.halted := rfl
@[simp] theorem ioWrite_shutdown (s : State) (w : Width) (p : Word) (v : Val w) : (ioWrite s w p v).shutdown = s.shutdown := rfl
@[simp] theorem ioWrite_nmiInService (s : State) (w : Width) (p : Word) (v : Val w) : (ioWrite s w p v).nmiInService = s.nmiInService := rfl
@[simp] theorem ioWrite_nmiPending (s : State) (w : Width) (p : Word) (v : Val w) : (ioWrite s w p v).nmiPending = s.nmiPending := rfl
@[simp] theorem ioWrite_inhibitInt (s : State) (w : Width) (p : Word) (v : Val w) : (ioWrite s w p v).inhibitInt = s.inhibitInt := rfl
@[simp] theorem ioWrite_inhibitExt (s : State) (w : Width) (p : Word) (v : Val w) : (ioWrite s w p v).inhibitExt = s.inhibitExt := rfl
@[simp] theorem ioWrite_mpPending (s : State) (w : Width) (p : Word) (v : Val w) : (ioWrite s w p v).mpPending = s.mpPending := rfl
@[simp] theorem ioWrite_stepTrap (s : State) (w : Width) (p : Word) (v : Val w) : (ioWrite s w p v).stepTrap = s.stepTrap := rfl
@[simp] theorem ioWrite_waiting (s : State) (w : Width) (p : Word) (v : Val w) : (ioWrite s w p v).waiting = s.waiting := rfl
@[simp] theorem ioWrite_pins (s : State) (w : Width) (p : Word) (v : Val w) : (ioWrite s w p v).pins = s.pins := rfl
@[simp] theorem ioWrite_nmiLevel (s : State) (w : Width) (p : Word) (v : Val w) : (ioWrite s w p v).nmiLevel = s.nmiLevel := rfl
@[simp] theorem ioWrite_stale (s : State) (w : Width) (p : Word) (v : Val w) : (ioWrite s w p v).stale = s.stale := rfl
@[simp] theorem ioWrite_mem (s : State) (w : Width) (p : Word) (v : Val w) : (ioWrite s w p v).mem = s.mem := rfl
@[simp] theorem ioWrite_cur (s : State) (w : Width) (p : Word) (v : Val w) : (ioWrite s w p v).cur = s.cur := rfl
@[simp] theorem ioWrite_memMap (s : State) (w : Width) (p : Word) (v : Val w) : (ioWrite s w p v).memMap = s.memMap := rfl
@[simp] theorem ioWrite_ext (s : State) (w : Width) (p : Word) (v : Val w) : (ioWrite s w p v).ext = s.ext := rfl
@[simp] theorem ioWrite_phase (s : State) (w : Width) (p : Word) (v : Val w) : (ioWrite s w p v).phase = s.phase := rfl
@[simp] theorem ioWrite_draws (s : State) (w : Width) (p : Word) (v : Val w) : (ioWrite s w p v).draws = s.draws := rfl
@[simp] theorem ioWrite_bus (s : State) (w : Width) (p : Word) (v : Val w) : (ioWrite s w p v).bus = s.bus := rfl

/-! ### ioRead -/

@[simp] theorem ioRead_regs (s : State) (w : Width) (p : Word) : ((ioRead s w p).2).regs = s.regs := rfl
@[simp] theorem ioRead_es (s : State) (w : Width) (p : Word) : ((ioRead s w p).2).es = s.es := rfl
@[simp] theorem ioRead_cs (s : State) (w : Width) (p : Word) : ((ioRead s w p).2).cs = s.cs := rfl
@[simp] theorem ioRead_ss (s : State) (w : Width) (p : Word) : ((ioRead s w p).2).ss = s.ss := rfl
@[simp] theorem ioRead_ds (s : State) (w : Width) (p : Word) : ((ioRead s w p).2).ds = s.ds := rfl
@[simp] theorem ioRead_ip (s : State) (w : Width) (p : Word) : ((ioRead s w p).2).ip = s.ip := rfl
@[simp] theorem ioRead_flags (s : State) (w : Width) (p : Word) : ((ioRead s w p).2).flags = s.flags := rfl
@[simp] theorem ioRead_msw (s : State) (w : Width) (p : Word) : ((ioRead s w p).2).msw = s.msw := rfl
@[simp] theorem ioRead_gdtr (s : State) (w : Width) (p : Word) : ((ioRead s w p).2).gdtr = s.gdtr := rfl
@[simp] theorem ioRead_idtr (s : State) (w : Width) (p : Word) : ((ioRead s w p).2).idtr = s.idtr := rfl
@[simp] theorem ioRead_ldtr (s : State) (w : Width) (p : Word) : ((ioRead s w p).2).ldtr = s.ldtr := rfl
@[simp] theorem ioRead_tr (s : State) (w : Width) (p : Word) : ((ioRead s w p).2).tr = s.tr := rfl
@[simp] theorem ioRead_halted (s : State) (w : Width) (p : Word) : ((ioRead s w p).2).halted = s.halted := rfl
@[simp] theorem ioRead_shutdown (s : State) (w : Width) (p : Word) : ((ioRead s w p).2).shutdown = s.shutdown := rfl
@[simp] theorem ioRead_nmiInService (s : State) (w : Width) (p : Word) : ((ioRead s w p).2).nmiInService = s.nmiInService := rfl
@[simp] theorem ioRead_nmiPending (s : State) (w : Width) (p : Word) : ((ioRead s w p).2).nmiPending = s.nmiPending := rfl
@[simp] theorem ioRead_inhibitInt (s : State) (w : Width) (p : Word) : ((ioRead s w p).2).inhibitInt = s.inhibitInt := rfl
@[simp] theorem ioRead_inhibitExt (s : State) (w : Width) (p : Word) : ((ioRead s w p).2).inhibitExt = s.inhibitExt := rfl
@[simp] theorem ioRead_mpPending (s : State) (w : Width) (p : Word) : ((ioRead s w p).2).mpPending = s.mpPending := rfl
@[simp] theorem ioRead_stepTrap (s : State) (w : Width) (p : Word) : ((ioRead s w p).2).stepTrap = s.stepTrap := rfl
@[simp] theorem ioRead_waiting (s : State) (w : Width) (p : Word) : ((ioRead s w p).2).waiting = s.waiting := rfl
@[simp] theorem ioRead_pins (s : State) (w : Width) (p : Word) : ((ioRead s w p).2).pins = s.pins := rfl
@[simp] theorem ioRead_nmiLevel (s : State) (w : Width) (p : Word) : ((ioRead s w p).2).nmiLevel = s.nmiLevel := rfl
@[simp] theorem ioRead_stale (s : State) (w : Width) (p : Word) : ((ioRead s w p).2).stale = s.stale := rfl
@[simp] theorem ioRead_mem (s : State) (w : Width) (p : Word) : ((ioRead s w p).2).mem = s.mem := rfl
@[simp] theorem ioRead_cur (s : State) (w : Width) (p : Word) : ((ioRead s w p).2).cur = s.cur := rfl
@[simp] theorem ioRead_memMap (s : State) (w : Width) (p : Word) : ((ioRead s w p).2).memMap = s.memMap := rfl
@[simp] theorem ioRead_ext (s : State) (w : Width) (p : Word) : ((ioRead s w p).2).ext = s.ext := rfl
@[simp] theorem ioRead_phase (s : State) (w : Width) (p : Word) : ((ioRead s w p).2).phase = s.phase := rfl
@[simp] theorem ioRead_draws (s : State) (w : Width) (p : Word) : ((ioRead s w p).2).draws = s.draws := rfl
@[simp] theorem ioRead_bus (s : State) (w : Width) (p : Word) : ((ioRead s w p).2).bus = s.bus := rfl

/-! ### pushRaw -/

@[simp] theorem pushRaw_regs (s : State) (v : Word) : (pushRaw s v).regs = { s.regs with sp := s.regs.sp - 2 } := by simp [pushRaw]
@[simp] theorem pushRaw_es (s : State) (v : Word) : (pushRaw s v).es = s.es := by simp [pushRaw]
@[simp] theorem pushRaw_cs (s : State) (v : Word) : (pushRaw s v).cs = s.cs := by simp [pushRaw]
@[simp] theorem pushRaw_ss (s : State) (v : Word) : (pushRaw s v).ss = s.ss := by simp [pushRaw]
@[simp] theorem pushRaw_ds (s : State) (v : Word) : (pushRaw s v).ds = s.ds := by simp [pushRaw]
@[simp] theorem pushRaw_ip (s : State) (v : Word) : (pushRaw s v).ip = s.ip := by simp [pushRaw]
@[simp] theorem pushRaw_flags (s : State) (v : Word) : (pushRaw s v).flags = s.flags := by simp [pushRaw]
@[simp] theorem pushRaw_msw (s : State) (v : Word) : (pushRaw s v).msw = s.msw := by simp [pushRaw]
@[simp] theorem pushRaw_gdtr (s : State) (v : Word) : (pushRaw s v).gdtr = s.gdtr := by simp [pushRaw]
@[simp] theorem pushRaw_idtr (s : State) (v : Word) : (pushRaw s v).idtr = s.idtr := by simp [pushRaw]
@[simp] theorem pushRaw_ldtr (s : State) (v : Word) : (pushRaw s v).ldtr = s.ldtr := by simp [pushRaw]
@[simp] theorem pushRaw_tr (s : State) (v : Word) : (pushRaw s v).tr = s.tr := by simp [pushRaw]
@[simp] theorem pushRaw_halted (s : State) (v : Word) : (pushRaw s v).halted = s.halted := by simp [pushRaw]
@[simp] theorem pushRaw_shutdown (s : State) (v : Word) : (pushRaw s v).shutdown = s.shutdown := by simp [pushRaw]
@[simp] theorem pushRaw_nmiInService (s : State) (v : Word) : (pushRaw s v).nmiInService = s.nmiInService := by simp [pushRaw]
@[simp] theorem pushRaw_nmiPending (s : State) (v : Word) : (pushRaw s v).nmiPending = s.nmiPending := by simp [pushRaw]
@[simp] theorem pushRaw_inhibitInt (s : State) (v : Word) : (pushRaw s v).inhibitInt = s.inhibitInt := by simp [pushRaw]
@[simp] theorem pushRaw_inhibitExt (s : State) (v : Word) : (pushRaw s v).inhibitExt = s.inhibitExt := by simp [pushRaw]
@[simp] theorem pushRaw_mpPending (s : State) (v : Word) : (pushRaw s v).mpPending = s.mpPending := by simp [pushRaw]
@[simp] theorem pushRaw_stepTrap (s : State) (v : Word) : (pushRaw s v).stepTrap = s.stepTrap := by simp [pushRaw]
@[simp] theorem pushRaw_waiting (s : State) (v : Word) : (pushRaw s v).waiting = s.waiting := by simp [pushRaw]
@[simp] theorem pushRaw_pins (s : State) (v : Word) : (pushRaw s v).pins = s.pins := by simp [pushRaw]
@[simp] theorem pushRaw_nmiLevel (s : State) (v : Word) : (pushRaw s v).nmiLevel = s.nmiLevel := by simp [pushRaw]
@[simp] theorem pushRaw_io (s : State) (v : Word) : (pushRaw s v).io = s.io := by simp [pushRaw]
@[simp] theorem pushRaw_cur (s : State) (v : Word) : (pushRaw s v).cur = s.cur := by simp [pushRaw]
@[simp] theorem pushRaw_memMap (s : State) (v : Word) : (pushRaw s v).memMap = s.memMap := by simp [pushRaw]
@[simp] theorem pushRaw_ext (s : State) (v : Word) : (pushRaw s v).ext = s.ext := by simp [pushRaw]
@[simp] theorem pushRaw_phase (s : State) (v : Word) : (pushRaw s v).phase = s.phase := by simp [pushRaw]
@[simp] theorem pushRaw_draws (s : State) (v : Word) : (pushRaw s v).draws = s.draws := by simp [pushRaw]
@[simp] theorem pushRaw_bus (s : State) (v : Word) : (pushRaw s v).bus = s.bus := by simp [pushRaw]

/-! ### Reading back a register -/

@[simp] theorem State.getW_setW (s : State) (r : RegNum) (v : Word) : (s.setW r v).getW r = v := by cases r <;> rfl

theorem State.getW_setW_ne (s : State) {q r : RegNum} (v : Word) (h : q ≠ r) : (s.setW r v).getW q = s.getW q := by
  cases r <;> cases q <;> first | rfl | exact absurd rfl h

@[simp] theorem loByte_wordOf (lo hi : Byte) : loByte (wordOf lo hi) = lo := by
  apply BitVec.eq_of_getLsbD_eq
  intro i hi'
  simp only [loByte, wordOf, BitVec.getLsbD_extractLsb', BitVec.getLsbD_append]
  simp [hi']

@[simp] theorem hiByte_wordOf (lo hi : Byte) : hiByte (wordOf lo hi) = hi := by
  apply BitVec.eq_of_getLsbD_eq
  intro i hi'
  simp only [hiByte, wordOf, BitVec.getLsbD_extractLsb', BitVec.getLsbD_append]
  simp [hi']

@[simp] theorem wordOf_loByte_hiByte (v : Word) : wordOf (loByte v) (hiByte v) = v := by
  apply BitVec.eq_of_getLsbD_eq
  intro i hi'
  simp only [wordOf, loByte, hiByte, BitVec.getLsbD_append, BitVec.getLsbD_extractLsb']
  by_cases h : i < 8
  · simp [h]
  · simp [h, show i - 8 < 8 by omega, show 8 + (i - 8) = i by omega]

@[simp] theorem State.getB_setB (s : State) (r : RegNum) (v : Byte) : (s.setB r v).getB r = v := by
  cases r <;> simp [State.getB, State.setB, RegNum.isHigh, RegNum.home]

theorem State.getB_setB_ne (s : State) {q r : RegNum} (v : Byte) (h : q ≠ r) : (s.setB r v).getB q = s.getB q := by
  cases r <;> cases q <;>
    first
    | exact absurd rfl h
    | simp [State.getB, State.setB, RegNum.isHigh, RegNum.home, State.getW, State.setW]

/-- Writing a byte register leaves the other word registers (10_state.md R21). -/
theorem State.getW_setB_ne (s : State) {q r : RegNum} (v : Byte) (h : q ≠ RegNum.home r) :
    (s.setB r v).getW q = s.getW q := State.getW_setW_ne _ _ h

@[simp] theorem State.getReg_setReg (s : State) (w : Width) (r : RegNum) (v : Val w) :
    (s.setReg w r v).getReg w r = v := by
  cases w <;> simp [State.getReg, State.setReg]

/-! ### Updates that registers do not see -/

theorem State.getW_congr {s t : State} (h : t.regs = s.regs) (r : RegNum) : t.getW r = s.getW r := by
  cases r <;> simp [State.getW, h]

theorem State.getB_congr {s t : State} (h : t.regs = s.regs) (r : RegNum) : t.getB r = s.getB r := by
  simp [State.getB, State.getW_congr h]

theorem State.getReg_congr {s t : State} (h : t.regs = s.regs) (w : Width) (r : RegNum) :
    t.getReg w r = s.getReg w r := by
  cases w <;> simp [State.getReg, State.getW_congr h, State.getB_congr h]

@[simp] theorem State.seg_setSeg (s : State) (x : SReg) (g : SegReg) : (s.setSeg x g).seg x = g := by cases x <;> rfl

theorem State.seg_setSeg_ne (s : State) {x y : SReg} (g : SegReg) (h : y ≠ x) : (s.setSeg x g).seg y = s.seg y := by
  cases x <;> cases y <;> first | rfl | exact absurd rfl h

theorem State.seg_congr {s t : State} (h1 : t.es = s.es) (h2 : t.cs = s.cs) (h3 : t.ss = s.ss) (h4 : t.ds = s.ds)
    (x : SReg) : t.seg x = s.seg x := by
  cases x <;> simp [State.seg, *]

end Sys2Proof.Machine
end

