-- ==== Sys2Proof/Laws/Decode.lean ====
section
/-! SUPPORT. Reading back what the encoder writes, field by field: bytes, words, immediates, the mod-reg-r/m byte with its
displacement, register numbers. -/

namespace Sys2Proof

@[simp] theorem RegNum.ofBits_bits (r : RegNum) : RegNum.ofBits r.bits = r := by cases r <;> rfl

@[simp] theorem SReg.ofBits_bits (g : SReg) : SReg.ofBits g.bits = g := by cases g <;> rfl

@[simp] theorem EaBase.ofBits_bits (b : EaBase) : EaBase.ofBits b.bits = b := by cases b <;> rfl

@[simp] theorem RegNum.bits_ofBits (b : BitVec 3) : (RegNum.ofBits b).bits = b := by revert b; decide

@[simp] theorem SReg.bits_ofBits (b : BitVec 2) : (SReg.ofBits b).bits = b := by revert b; decide

@[simp] theorem EaBase.bits_ofBits (b : BitVec 3) : (EaBase.ofBits b).bits = b := by revert b; decide

@[simp] theorem withByte_cons (b : Byte) (bs : List Byte) (k : Byte → List Byte → Decoded) :
    withByte (b :: bs) k = k b bs := rfl

@[simp] theorem withWord_cons (lo hi : Byte) (bs : List Byte) (k : Word → List Byte → Decoded) :
    withWord (lo :: hi :: bs) k = k (wordOf lo hi) bs := rfl

@[simp] theorem withWord_wordBytes (v : Word) (bs : List Byte) (k : Word → List Byte → Decoded) :
    withWord (wordBytes v ++ bs) k = k v bs := by
  simp [wordBytes, Machine.wordOf_loByte_hiByte]

@[simp] theorem withImm_bytes (v : Imm) (bs : List Byte) (k : Imm → List Byte → Decoded) :
    withImm v.width (v.bytes ++ bs) k = k v bs := by
  cases v <;> simp [Imm.width, Imm.bytes, withImm]

theorem modRMByte_mod (mod : BitVec 2) (reg rm : BitVec 3) : (modRMByte mod reg rm).extractLsb' 6 2 = mod := by
  revert mod reg rm; decide

theorem modRMByte_reg (mod : BitVec 2) (reg rm : BitVec 3) : (modRMByte mod reg rm).extractLsb' 3 3 = reg := by
  revert mod reg rm; decide

theorem modRMByte_rm (mod : BitVec 2) (reg rm : BitVec 3) : (modRMByte mod reg rm).extractLsb' 0 3 = rm := by
  revert mod reg rm; decide

/-- A mod-reg-r/m byte is its three fields. -/
theorem modRMByte_fields (b : Byte) :
    modRMByte (b.extractLsb' 6 2) (b.extractLsb' 3 3) (b.extractLsb' 0 3) = b := by
  revert b; decide +kernel

/-- A group whose members are all defined reads its operand like any other mod-reg-r/m byte: one that answers a
continuation for the reg field at hand is `withModRM` with it. -/
theorem withGroup_eq_withModRM (b : Byte) (bs : List Byte)
    (member : BitVec 3 → Except DecodeError (RM → List Byte → Decoded)) (k : RM → List Byte → Decoded) (h : member (b.extractLsb' 3 3) = .ok k) :
    withGroup (b :: bs) member = withModRM (b :: bs) fun _ => k := by
  simp only [withGroup, withModRM, withByte_cons, h]

/-- A group's reg field that names no member is judged at the mod-reg-r/m byte, whatever follows (60_exceptions.md R550 (e)). -/
theorem withGroup_error (b : Byte) (bs : List Byte) (member : BitVec 3 → Except DecodeError (RM → List Byte → Decoded))
    (e : DecodeError) (h : member (b.extractLsb' 3 3) = .error e) : withGroup (b :: bs) member = .error e := by
  simp only [withGroup, withByte_cons, h]

/-- The mod-reg-r/m byte and displacement of an encodable operand read back (30_encoding.md R183, R198). -/
@[simp] theorem withModRM_modRM (reg : BitVec 3) (m : RM) (bs : List Byte) (k : BitVec 3 → RM → List Byte → Decoded)
    (h : m.wf = true) : withModRM (modRM reg m ++ bs) k = k reg m bs := by
  cases m with
  | reg r =>
    simp only [modRM, withModRM, List.cons_append, withByte_cons, modRMByte_mod, modRMByte_reg, modRMByte_rm]
    simp [withOperand]
  | mem a =>
    cases a with
    | direct o =>
      simp only [modRM, withModRM, List.cons_append, withByte_cons, modRMByte_mod, modRMByte_reg, modRMByte_rm]
      simp [withOperand]
    | based b =>
      have hb : ¬ b.bits = 6 := by cases b <;> simp_all [RM.wf, MemOp.wf, EaBase.bits]
      simp only [modRM, withModRM, List.cons_append, withByte_cons, modRMByte_mod, modRMByte_reg, modRMByte_rm]
      simp only [withOperand, if_neg hb, EaBase.ofBits_bits, List.nil_append]
      rfl
    | disp8 b d =>
      simp only [modRM, withModRM, List.cons_append, withByte_cons, modRMByte_mod, modRMByte_reg, modRMByte_rm]
      simp [withOperand]
    | disp16 b d =>
      simp only [modRM, withModRM, List.cons_append, withByte_cons, modRMByte_mod, modRMByte_reg, modRMByte_rm]
      simp [withOperand]

/-- The same of a group: the member is found by the reg field, then reads the operand (30_encoding.md R183, R198). -/
@[simp] theorem withGroup_modRM (reg : BitVec 3) (m : RM) (bs : List Byte)
    (member : BitVec 3 → Except DecodeError (RM → List Byte → Decoded)) (h : m.wf = true) :
    withGroup (modRM reg m ++ bs) member =
      match member reg with
      | .error e => .error e
      | .ok k => k m bs := by
  have hr : ∃ b rest, modRM reg m ++ bs = b :: rest ∧ b.extractLsb' 3 3 = reg := by
    cases m with
    | reg r => exact ⟨_, _, rfl, modRMByte_reg _ _ _⟩
    | mem a => cases a <;> exact ⟨_, _, rfl, modRMByte_reg _ _ _⟩
  obtain ⟨b, rest, hb, hreg⟩ := hr
  cases hk : member reg with
  | error e => rw [hb, withGroup_error b rest member e (hreg ▸ hk)]
  | ok k => rw [hb, withGroup_eq_withModRM b rest member k (hreg ▸ hk), ← hb, withModRM_modRM reg m bs _ h]

end Sys2Proof
end

