-- ==== Sys2Proof/Laws/Memory.lean ====
section
/-! SUPPORT. Memory: a byte reads as what was written last, other bytes stay, and every operation that writes memory keeps its
canonical form. -/

namespace Sys2Proof.Machine

/-! ### One byte -/

@[simp] theorem Memory.read_insert_same (m : List Host.Cell) (a : Nat) (v : Byte) :
    Memory.read (Memory.insert m a v) a = v := by
  induction m with
  | nil => simp [Memory.insert, Memory.read]
  | cons c rest ih =>
    simp only [Memory.insert]
    split
    · simp [Memory.read]
    · split
      · simp [Memory.read]
      · next h => simp [Memory.read, ih, Ne.symm h]

theorem Memory.read_insert_ne (m : List Host.Cell) {a b : Nat} (v : Byte) (h : b ≠ a) :
    Memory.read (Memory.insert m a v) b = Memory.read m b := by
  induction m with
  | nil => simp [Memory.insert, Memory.read, Ne.symm h]
  | cons c rest ih =>
    simp only [Memory.insert]
    split
    · simp [Memory.read, Ne.symm h]
    · split
      · next e => simp [Memory.read, ← e, Ne.symm h]
      · simp [Memory.read, ih]

theorem Memory.read_erase_ne (m : List Host.Cell) {a b : Nat} (h : b ≠ a) :
    Memory.read (Memory.erase m a) b = Memory.read m b := by
  induction m with
  | nil => rfl
  | cons c rest ih =>
    simp only [Memory.erase]
    split
    · next e => simp [Memory.read, e, Ne.symm h]
    · simp [Memory.read, ih]

/-- An address below every listed one reads as blank. -/
theorem Memory.read_below (m : List Host.Cell) (a : Nat) (h : ∀ c ∈ m, a < c.1) : Memory.read m a = Memory.blank := by
  induction m with
  | nil => rfl
  | cons c rest ih =>
    have hc := h c (by simp)
    simp only [Memory.read, if_neg (by omega : ¬ c.1 = a)]
    exact ih fun d hd => h d (by simp [hd])

theorem Memory.wf_cons (c : Host.Cell) (rest : List Host.Cell) :
    Memory.wf (c :: rest) = true ↔
      c.1 < 2 ^ 24 ∧ c.2 ≠ Memory.blank ∧ (∀ d ∈ rest, c.1 < d.1) ∧ Memory.wf rest = true := by
  simp [Memory.wf, List.all_eq_true, and_assoc]

theorem Memory.read_erase_same (m : List Host.Cell) (a : Nat) (h : Memory.wf m = true) :
    Memory.read (Memory.erase m a) a = Memory.blank := by
  induction m with
  | nil => rfl
  | cons c rest ih =>
    obtain ⟨-, -, hlt, hw⟩ := (Memory.wf_cons c rest).1 h
    simp only [Memory.erase]
    split
    · next e => exact Memory.read_below rest a fun d hd => e ▸ hlt d hd
    · next e => simp [Memory.read, e, ih hw]

/-- What a byte reads as after a write in canonical memory. -/
theorem Memory.read_write (m : List Host.Cell) (a b : Nat) (v : Byte) (h : Memory.wf m = true) :
    Memory.read (Memory.write m a v) b = if b = a then v else Memory.read m b := by
  unfold Memory.write
  split <;> split
  · next hv hb => rw [hb, Memory.read_erase_same m a h, hv]
  · next hb => exact Memory.read_erase_ne m hb
  · next hb => rw [hb, Memory.read_insert_same]
  · next hb => exact Memory.read_insert_ne m v hb

theorem Memory.read_write_ne (m : List Host.Cell) {a b : Nat} (v : Byte) (h : b ≠ a) :
    Memory.read (Memory.write m a v) b = Memory.read m b := by
  unfold Memory.write
  split
  · exact Memory.read_erase_ne m h
  · exact Memory.read_insert_ne m v h

/-! ### The canonical form is kept -/

theorem Memory.mem_insert {m : List Host.Cell} {a : Nat} {v : Byte} {d : Host.Cell} (h : d ∈ Memory.insert m a v) :
    d = (a, v) ∨ d ∈ m := by
  induction m with
  | nil => simpa [Memory.insert] using h
  | cons c rest ih =>
    simp only [Memory.insert] at h
    split at h
    · simpa using h
    · split at h
      · rcases List.mem_cons.1 h with h | h
        · exact .inl h
        · exact .inr (by simp [h])
      · rcases List.mem_cons.1 h with h | h
        · exact .inr (by simp [h])
        · rcases ih h with h | h
          · exact .inl h
          · exact .inr (by simp [h])

theorem Memory.mem_erase {m : List Host.Cell} {a : Nat} {d : Host.Cell} (h : d ∈ Memory.erase m a) : d ∈ m := by
  induction m with
  | nil => exact h
  | cons c rest ih =>
    simp only [Memory.erase] at h
    split at h
    · simp [h]
    · rcases List.mem_cons.1 h with h | h
      · simp [h]
      · simp [ih h]

theorem Memory.wf_insert {m : List Host.Cell} {a : Nat} {v : Byte} (hw : Memory.wf m = true) (ha : a < 2 ^ 24)
    (hv : v ≠ Memory.blank) : Memory.wf (Memory.insert m a v) = true := by
  induction m with
  | nil => exact (Memory.wf_cons _ _).2 ⟨ha, hv, by simp, rfl⟩
  | cons c rest ih =>
    obtain ⟨h1, h2, h3, h4⟩ := (Memory.wf_cons c rest).1 hw
    simp only [Memory.insert]
    split
    · next hlt =>
      refine (Memory.wf_cons _ _).2 ⟨ha, hv, ?_, hw⟩
      intro d hd
      rcases List.mem_cons.1 hd with rfl | hd
      · exact hlt
      · exact Nat.lt_trans hlt (h3 d hd)
    · split
      · next e => exact (Memory.wf_cons _ _).2 ⟨ha, hv, fun d hd => e ▸ h3 d hd, h4⟩
      · next hge hne =>
        refine (Memory.wf_cons _ _).2 ⟨h1, h2, ?_, ih h4⟩
        intro d hd
        rcases Memory.mem_insert hd with rfl | hd
        · exact Nat.lt_of_le_of_ne (Nat.le_of_not_lt hge) (Ne.symm hne)
        · exact h3 d hd

theorem Memory.wf_erase {m : List Host.Cell} (a : Nat) (hw : Memory.wf m = true) :
    Memory.wf (Memory.erase m a) = true := by
  induction m with
  | nil => rfl
  | cons c rest ih =>
    obtain ⟨h1, h2, h3, h4⟩ := (Memory.wf_cons c rest).1 hw
    simp only [Memory.erase]
    split
    · exact h4
    · exact (Memory.wf_cons _ _).2 ⟨h1, h2, fun d hd => h3 d (Memory.mem_erase hd), ih h4⟩

/-- Every write of a byte at a physical address keeps the canonical form. -/
theorem Memory.wf_write {m : List Host.Cell} {a : Nat} (v : Byte) (hw : Memory.wf m = true) (ha : a < 2 ^ 24) :
    Memory.wf (Memory.write m a v) = true := by
  unfold Memory.write
  split
  · exact Memory.wf_erase a hw
  · next hv => exact Memory.wf_insert hw ha hv

/-! ### State -/

theorem State.memKind_congr {s t : State} (h : t.memMap = s.memMap) (a : Phys) : t.memKind a = s.memKind a := by
  simp [State.memKind, h]

@[simp] theorem State.memKind_store8 (s : State) (a b : Phys) (v : Byte) : (s.store8 a v).memKind b = s.memKind b := rfl

theorem AllRam.memKind {s : State} (h : AllRam s) (a : Phys) : s.memKind a = .ram := by
  simp [State.memKind, show s.memMap = [] from h, kindIn]

/-! What each kind of memory answers (20_memory.md R92, R154, R160). -/

theorem State.load8_ram {s : State} {a : Phys} (h : s.memKind a = .ram) : s.load8 a = Memory.read s.mem a.toNat := by
  simp [State.load8, h]

theorem State.load8_rom {s : State} {a : Phys} (h : s.memKind a = .rom) : s.load8 a = Memory.read s.mem a.toNat := by
  simp [State.load8, h]

theorem State.load8_shared {s : State} {a : Phys} (h : s.memKind a = .shared) :
    s.load8 a = (Config.otherWrote s.bus.step s.bus.gap a.toNat).getD (Memory.read s.mem a.toNat) := by
  simp [State.load8, h]

theorem State.load8_device {s : State} {a : Phys} (h : s.memKind a = .device) :
    s.load8 a = Config.deviceByte s.bus.step s.bus.op a.toNat := by
  simp [State.load8, h]

theorem State.load8_absent {s : State} {a : Phys} (h : s.memKind a = .absent) : s.load8 a = Config.emptyByte a.toNat := by
  simp [State.load8, h]

/-- What a read sees depends on memory, its map and how far the reads have come alone. -/
theorem State.load8_congr {s t : State} (h : t.mem = s.mem) (hm : t.memMap = s.memMap) (hb : t.bus = s.bus) (a : Phys) :
    t.load8 a = s.load8 a := by
  simp [State.load8, State.memKind_congr hm, h, hb]

/-- A kind of memory that no map of steady memory has. -/
theorem kindIn_ne {l : List Region} {k : MemKind} (hk : k ≠ .ram) (h : ∀ r ∈ l, r.kind ≠ k) (a : Nat) : kindIn l a ≠ k := by
  induction l with
  | nil => exact fun e => hk e.symm
  | cons r rest ih =>
    simp only [kindIn]
    split
    · exact h r List.mem_cons_self
    · exact ih fun q hq => h q (List.mem_cons_of_mem _ hq)

theorem Steady.memKind {s : State} (h : Steady s) (a : Phys) : s.memKind a ≠ .shared ∧ s.memKind a ≠ .device :=
  ⟨kindIn_ne (by decide) (fun r hr => (h r hr).1) _, kindIn_ne (by decide) (fun r hr => (h r hr).2) _⟩

theorem PlainMemory.steady {s : State} (h : PlainMemory s) : Steady s := by
  have e : s.memMap = [] := h.2
  simp [Steady, e]

/-- In steady memory a read does not depend on how far the reads have come. -/
theorem Steady.load8_congr {s t : State} (hs : Steady s) (h : t.mem = s.mem) (hm : t.memMap = s.memMap) (a : Phys) :
    t.load8 a = s.load8 a := by
  obtain ⟨h1, h2⟩ := hs.memKind a
  unfold State.load8
  rw [State.memKind_congr hm]
  cases e : s.memKind a <;> first | exact absurd e h1 | exact absurd e h2 | simp [h]

theorem Steady.load8_later {s : State} (h : Steady s) (g : ReadGroup) (a : Phys) : (s.later g).load8 a = s.load8 a :=
  Steady.load8_congr (t := s.later g) h rfl rfl a

theorem Steady.descAt_later {s : State} (h : Steady s) (g : ReadGroup) (a : Phys) : descAt (s.later g) a = descAt s a := by
  simp only [descAt, State.load16, h.load8_later]

/-- In steady memory a later fetch of a descriptor gives the same descriptor. -/
theorem Steady.fetchDescriptor_later {s : State} (h : Steady s) (g : ReadGroup) (sel : Word) :
    fetchDescriptor (s.later g) sel = fetchDescriptor s sel := by
  simp only [fetchDescriptor, h.descAt_later, State.later_ldtr, State.later_gdtr]
  rfl

/-- A byte stored where there is RAM reads back. -/
theorem State.load8_store8_ram (s : State) {a : Phys} (v : Byte) (h : MemoryCanonical s) (hr : s.memKind a = .ram) :
    (s.store8 a v).load8 a = v := by
  simp [State.load8, State.store8_mem, hr, MemKind.keeps, Memory.read_write _ _ _ _ h]

/-- A store where nothing is kept changes nothing (20_memory.md R92). -/
theorem State.load8_store8_notKept (s : State) {a : Phys} (v : Byte) (hr : (s.memKind a).keeps = false) (b : Phys) :
    (s.store8 a v).load8 b = s.load8 b := by
  have hm : (s.store8 a v).mem = s.mem := by simp [State.store8_mem, hr]
  exact State.load8_congr hm (State.store8_memMap s a v) (State.store8_bus s a v) b

theorem State.load8_store8_ne (s : State) {a b : Phys} (v : Byte) (h : b ≠ a) :
    (s.store8 a v).load8 b = s.load8 b := by
  have hn : b.toNat ≠ a.toNat := by rwa [ne_eq, BitVec.toNat_inj]
  have hm : Memory.read (s.store8 a v).mem b.toNat = Memory.read s.mem b.toNat := by
    rw [State.store8_mem]
    split
    · exact Memory.read_write_ne s.mem v hn
    · rfl
  simp only [State.load8, State.memKind_store8, State.store8_bus, hm]

theorem State.load8_store8 (s : State) (a b : Phys) (v : Byte) (h : PlainMemory s) :
    (s.store8 a v).load8 b = if b = a then v else s.load8 b := by
  split
  · next e => rw [e, State.load8_store8_ram s v h.1 (h.2.memKind a)]
  · next e => exact State.load8_store8_ne s v e

theorem State.canonical_store8 (s : State) (a : Phys) (v : Byte) (h : MemoryCanonical s) :
    MemoryCanonical (s.store8 a v) := by
  unfold MemoryCanonical at *
  rw [State.store8_mem]
  split
  · exact Memory.wf_write v h a.isLt
  · exact h

theorem State.canonical_store16 (s : State) (a : Phys) (v : Word) (h : MemoryCanonical s) :
    MemoryCanonical (s.store16 a v) := State.canonical_store8 _ _ _ (State.canonical_store8 _ _ _ h)

theorem canonical_congr {s t : State} (h : t.mem = s.mem) (hs : MemoryCanonical s) : MemoryCanonical t := by
  unfold MemoryCanonical at *; rw [h]; exact hs

theorem canonical_poke8 (s : State) (x : SReg) (o : Word) (v : Byte) (h : MemoryCanonical s) :
    MemoryCanonical (poke8 s x o v) := State.canonical_store8 _ _ _ h

theorem canonical_poke16 (s : State) (x : SReg) (o v : Word) (h : MemoryCanonical s) :
    MemoryCanonical (poke16 s x o v) := canonical_poke8 _ _ _ _ (canonical_poke8 _ _ _ _ h)

theorem canonical_poke (s : State) (w : Width) (x : SReg) (o : Word) (v : Val w) (h : MemoryCanonical s) :
    MemoryCanonical (poke s w x o v) := by
  cases w
  · exact canonical_poke8 _ _ _ _ h
  · exact canonical_poke16 _ _ _ _ h

theorem canonical_setAccessed (s : State) (a : Phys) (d : Desc) (h : MemoryCanonical s) :
    MemoryCanonical (setAccessed s a d) := by
  unfold setAccessed
  split
  · exact h
  · exact State.canonical_store8 _ _ _ h

theorem canonical_tssStore (s : State) (base : Phys) (l : List (Nat × Word)) (h : MemoryCanonical s) :
    MemoryCanonical (tssStore s base l) := by
  induction l generalizing s with
  | nil => exact h
  | cons e rest ih => exact ih _ (State.canonical_store16 _ _ _ h)

theorem canonical_pushRaw (s : State) (v : Word) (h : MemoryCanonical s) : MemoryCanonical (pushRaw s v) :=
  canonical_congr (by simp [pushRaw]) (canonical_poke16 s .ss (s.regs.sp - 2) v h)

/-! Updates that keep the canonical form and the map keep memory plain. -/

theorem PlainMemory.congr {s t : State} (h : t.mem = s.mem) (hm : t.memMap = s.memMap) (hs : PlainMemory s) :
    PlainMemory t := ⟨canonical_congr h hs.1, hm.trans hs.2⟩

theorem PlainMemory.store8 {s : State} (a : Phys) (v : Byte) (h : PlainMemory s) : PlainMemory (s.store8 a v) :=
  ⟨State.canonical_store8 s a v h.1, h.2⟩

theorem PlainMemory.store16 {s : State} (a : Phys) (v : Word) (h : PlainMemory s) : PlainMemory (s.store16 a v) :=
  (h.store8 a _).store8 _ _

theorem PlainMemory.poke8 {s : State} (x : SReg) (o : Word) (v : Byte) (h : PlainMemory s) : PlainMemory (poke8 s x o v) :=
  h.store8 _ _

theorem PlainMemory.poke16 {s : State} (x : SReg) (o v : Word) (h : PlainMemory s) : PlainMemory (poke16 s x o v) :=
  (h.poke8 x o _).poke8 x _ _

theorem PlainMemory.poke {s : State} (w : Width) (x : SReg) (o : Word) (v : Val w) (h : PlainMemory s) :
    PlainMemory (poke s w x o v) := by
  cases w
  · exact h.poke8 x o v
  · exact h.poke16 x o v

theorem PlainMemory.setAccessed {s : State} (a : Phys) (d : Desc) (h : PlainMemory s) : PlainMemory (setAccessed s a d) := by
  unfold Machine.setAccessed
  split
  · exact h
  · exact h.store8 _ _

theorem PlainMemory.pushRaw {s : State} (v : Word) (h : PlainMemory s) : PlainMemory (pushRaw s v) :=
  (h.poke16 .ss (s.regs.sp - 2) v).congr (by simp [Machine.pushRaw]) (by simp [Machine.pushRaw])

theorem canonical_placeCode (s : State) (o : Word) (l : List Byte) (h : MemoryCanonical s) :
    MemoryCanonical (s.placeCode o l) := by
  induction l generalizing s o with
  | nil => exact h
  | cons b rest ih => exact ih _ _ (Memory.wf_write b h (segAddr s .cs o).isLt)

/-- An operand transfer of the processor extension keeps the canonical form. -/
theorem canonical_extTransfer (s : State) (o : ExtOperand) (h : MemoryCanonical s) : MemoryCanonical (extTransfer s o) := by
  unfold extTransfer
  split
  · split
    · exact State.canonical_store8 _ _ _ (State.canonical_store8 _ _ _ h)
    · exact h
  · exact h

/-- Memory after RESET at power-on has the canonical form. -/
theorem canonical_reset : MemoryCanonical State.reset := rfl

/-- After a reset with nothing placed, all of memory is RAM (log 1). -/
theorem plainMemory_reset : PlainMemory State.reset := ⟨rfl, rfl⟩

end Sys2Proof.Machine
end

