-- ==== Sys2Proof/Laws/Segment.lean ====
section
/-! SUPPORT. Accesses through segments: when the checks pass, which addresses an operand has, and that a value written reads
back while every other byte stays. -/

namespace Sys2Proof.Machine

/-! ### The monad of checks -/

@[simp] theorem need_eq_ok (b : Bool) (e : Stop) (u : Unit) : need b e = .ok u ↔ b = true := by
  cases b <;> simp [need]

@[simp] theorem need_true (e : Stop) : need true e = .ok () := rfl

@[simp] theorem need_false (e : Stop) : need false e = .error e := rfl

theorem need_ok {b : Bool} (e : Stop) (h : b = true) : need b e = .ok () := by rw [h]; rfl

theorem need_error {b : Bool} (e : Stop) (h : b = false) : need b e = .error e := by rw [h]; rfl

@[simp] theorem ok_bind' {α β : Type} (a : α) (f : α → M β) : ((Except.ok a : M α) >>= f) = f a := rfl

@[simp] theorem error_bind' {α β : Type} (e : Stop) (f : α → M β) : ((Except.error e : M α) >>= f) = .error e := rfl

theorem bind_eq_ok {α β : Type} {x : M α} {f : α → M β} {b : β} : (x >>= f) = .ok b ↔ ∃ a, x = .ok a ∧ f a = .ok b := by
  cases x <;> simp

/-! ### The checks of an access -/

theorem typeOk_iff (ar : Byte) (a : Access) : typeOk ar a = true ↔ Permits ar a := by
  cases a <;> simp [typeOk, Permits]
  cases arE ar <;> simp

theorem limitOk_iff (g : SegReg) (off n : Nat) : limitOk g off n = true ↔ Within g off n := by
  unfold limitOk Within
  cases arE g.ar <;> cases arC g.ar <;> simp

/-- The checks pass exactly when the access is allowed (20_memory.md R112 to R117). -/
theorem memCheck_ok_iff (s : State) (x : SReg) (off n : Nat) (a : Access) :
    memCheck s x off n a = .ok () ↔ Accessible s x off n a := by
  unfold memCheck Accessible
  cases hp : s.msw.pe
  · simp
  · simp only [if_true, bind_eq_ok, need_eq_ok, typeOk_iff, limitOk_iff, Bool.and_eq_true, decide_eq_true_eq]
    constructor
    · rintro ⟨_, h1, _, h2, h3⟩; exact ⟨h1, h2, h3⟩
    · rintro ⟨h1, h2, h3⟩; exact ⟨(), h1, (), h2, h3⟩

theorem memCheck_ok {s : State} {x : SReg} {off n : Nat} {a : Access} (h : Accessible s x off n a) :
    memCheck s x off n a = .ok () := (memCheck_ok_iff s x off n a).2 h

/-- A failed check is #GP(0), or #SS(0) for a limit violation through SS in protected mode (R113, R117). -/
theorem memCheck_error {s : State} {x : SReg} {off n : Nat} {a : Access} (h : ¬ Accessible s x off n a) :
    memCheck s x off n a = .error (protection 0) ∨
      (s.msw.pe = true ∧ x = .ss ∧ memCheck s x off n a = .error (stackFault 0)) := by
  rw [← memCheck_ok_iff] at h
  unfold memCheck at h ⊢
  cases hp : s.msw.pe <;> simp only [hp, if_true, Bool.false_eq_true, if_false] at h ⊢
  · left
    rw [need_error _ (by simpa using h)]
    simp [limitStop, hp]
  · cases h1 : (s.seg x).valid <;> simp only [h1, need_true, need_false, ok_bind', error_bind'] at h ⊢
    · simp
    · cases h2 : typeOk (s.seg x).ar a <;> simp only [h2, need_true, need_false, ok_bind', error_bind'] at h ⊢
      · simp
      · cases h3 : (decide (off ≤ 0xFFFF) && limitOk (s.seg x) off n)
        · simp only [need_false, limitStop, hp, Bool.true_and]
          by_cases hx : x = .ss <;> simp [hx]
        · simp [h3] at h

/-- A checked write is also a checked read: a writable segment is never execute-only. -/
theorem Accessible.read_of_write {s : State} {x : SReg} {off n : Nat} (h : Accessible s x off n .write) :
    Accessible s x off n .read := by
  unfold Accessible at *
  split at h
  · next hp =>
    rw [if_pos hp]
    obtain ⟨h1, h2, h3⟩ := h
    exact ⟨h1, by simp only [Permits] at h2 ⊢; simp [h2.1], h3⟩
  · next hp => rwa [if_neg hp]

/-- An access depends on the mode and the segment register alone. -/
theorem Accessible.congr {s t : State} {x : SReg} (hp : t.msw = s.msw) (hx : t.seg x = s.seg x) (off n : Nat)
    (a : Access) : Accessible t x off n a ↔ Accessible s x off n a := by
  unfold Accessible; rw [hp, hx]

/-! ### Addresses -/

theorem segAddr_congr {s t : State} {x : SReg} (hp : t.msw = s.msw) (hx : t.seg x = s.seg x) (off : Word) :
    segAddr t x off = segAddr s x off := by
  unfold segAddr; rw [hp, hx]

theorem segAddr_toNat (s : State) (x : SReg) (off : Word) :
    (segAddr s x off).toNat = ((s.seg x).base.toNat + off.toNat) % 2 ^ 24 ∨
      (s.msw.pe = false ∧ (s.seg x).base.toNat < 0x100000 ∧ 0x100000 ≤ (s.seg x).base.toNat + off.toNat ∧
        (segAddr s x off).toNat = (s.seg x).base.toNat + off.toNat - 0x100000) := by
  have ho := off.isLt
  have hb := (s.seg x).base.isLt
  have hsum : ((s.seg x).base + off.setWidth 24).toNat = ((s.seg x).base.toNat + off.toNat) % 2 ^ 24 := by
    simp [BitVec.toNat_add, BitVec.toNat_setWidth]
  unfold segAddr physAddr
  simp only
  split
  · next h =>
    simp only [Bool.and_eq_true, decide_eq_true_eq, Bool.not_eq_true', hsum] at h
    right
    refine ⟨h.1.1.1, h.1.1.2, by omega, ?_⟩
    rw [BitVec.toNat_sub, hsum]
    simp
    omega
  · left; exact hsum

/-- Two offsets of one segment have two addresses. -/
theorem segAddr_inj (s : State) (x : SReg) {o p : Word} (h : segAddr s x o = segAddr s x p) : o = p := by
  have hb := (s.seg x).base.isLt
  have ho := o.isLt
  have hp := p.isLt
  have e := congrArg BitVec.toNat h
  apply BitVec.eq_of_toNat_eq
  rcases segAddr_toNat s x o with h1 | ⟨-, h1, h2, h3⟩ <;> rcases segAddr_toNat s x p with h4 | ⟨-, h4, h5, h6⟩ <;> omega

theorem segAddr_succ_ne (s : State) (x : SReg) (o : Word) : segAddr s x (o + 1) ≠ segAddr s x o := by
  intro h
  have := congrArg BitVec.toNat (segAddr_inj s x h)
  have ho := o.isLt
  rw [BitVec.toNat_add] at this
  simp at this
  omega

/-! ### Writing and reading back -/

@[simp] theorem State.seg_store8 (s : State) (a : Phys) (v : Byte) (x : SReg) : (s.store8 a v).seg x = s.seg x := by
  cases x <;> rfl

@[simp] theorem segAddr_store8 (s : State) (a : Phys) (v : Byte) (x : SReg) (o : Word) :
    segAddr (s.store8 a v) x o = segAddr s x o := segAddr_congr rfl (by simp) o

@[simp] theorem seg_poke8 (s : State) (y : SReg) (o : Word) (v : Byte) (x : SReg) : (poke8 s y o v).seg x = s.seg x := by
  simp [poke8]

@[simp] theorem segAddr_poke8 (s : State) (y : SReg) (p : Word) (v : Byte) (x : SReg) (o : Word) :
    segAddr (poke8 s y p v) x o = segAddr s x o := by simp [poke8]

@[simp] theorem seg_poke (s : State) (w : Width) (y : SReg) (o : Word) (v : Val w) (x : SReg) :
    (poke s w y o v).seg x = s.seg x := by
  cases w <;> simp [poke, poke16]

@[simp] theorem segAddr_poke (s : State) (w : Width) (y : SReg) (p : Word) (v : Val w) (x : SReg) (o : Word) :
    segAddr (poke s w y p v) x o = segAddr s x o := by
  cases w <;> simp [poke, poke16]

@[simp] theorem segAddr_poke16 (s : State) (y : SReg) (p v : Word) (x : SReg) (o : Word) :
    segAddr (poke16 s y p v) x o = segAddr s x o := by simp [poke16]

theorem peek8_poke8 (s : State) (x : SReg) (o : Word) (v : Byte) (h : PlainMemory s) :
    peek8 (poke8 s x o v) x o = v := by
  simp [peek8, poke8, State.load8_store8 _ _ _ _ h]

/-- A word written through a segment reads back (20_memory.md R80). -/
theorem peek16_poke16 (s : State) (x : SReg) (o v : Word) (h : PlainMemory s) :
    peek16 (poke16 s x o v) x o = v := by
  have h1 := h.store8 (segAddr s x o) (loByte v)
  simp only [peek16, peek8, poke16, poke8, segAddr_store8, State.load8_store8 _ _ _ _ h1, State.load8_store8 _ _ _ _ h,
    if_neg (Ne.symm (segAddr_succ_ne s x o)), if_pos, wordOf_loByte_hiByte]

/-- A value written through a segment reads back. -/
theorem peek_poke (s : State) (w : Width) (x : SReg) (o : Word) (v : Val w) (h : PlainMemory s) :
    peek (poke s w x o v) w x o = v := by
  cases w
  · exact peek8_poke8 s x o v h
  · exact peek16_poke16 s x o v h

/-- Every byte outside the operand stays. -/
theorem load8_poke (s : State) (w : Width) (x : SReg) (o : Word) (v : Val w) {p : Phys} (h : ¬ Touches s w x o p) :
    (poke s w x o v).load8 p = s.load8 p := by
  cases w
  · exact State.load8_store8_ne s v fun e => h (.inl e)
  · have h1 : p ≠ segAddr s x o := fun e => h (.inl e)
    have h2 : p ≠ segAddr s x (o + 1) := fun e => h (.inr ⟨rfl, e⟩)
    simp only [poke, poke16, poke8]
    rw [State.load8_store8_ne _ _ (by simpa using h2), State.load8_store8_ne _ _ h1]

/-- What a read sees depends on memory with its map, how far the reads have come, the mode and the segment register alone. -/
theorem peek_congr {s t : State} {x : SReg} (hm : t.mem = s.mem) (hk : t.memMap = s.memMap) (hb : t.bus = s.bus)
    (hp : t.msw = s.msw) (hx : t.seg x = s.seg x) (w : Width) (o : Word) : peek t w x o = peek s w x o := by
  cases w <;> simp [peek, peek16, peek8, segAddr_congr hp hx, State.load8_congr hm hk hb]

/-- `MemRead` answers exactly when the access is allowed, with the bytes at the address (R110). -/
theorem memRead_ok {s : State} {w : Width} {x : SReg} {o : Word} (h : Accessible s x o.toNat w.bytes .read) :
    memRead s w x o = .ok (peek s w x o) := by
  simp [memRead, memCheck_ok h, pure, Except.pure]

/-- `MemWrite` answers exactly when the access is allowed (R111). -/
theorem memWrite_ok {s : State} {w : Width} {x : SReg} {o : Word} (v : Val w)
    (h : Accessible s x o.toNat w.bytes .write) : memWrite s w x o v = .ok (poke s w x o v) := by
  simp [memWrite, memCheck_ok h, pure, Except.pure]

theorem memReadNth_ok {s : State} {x : SReg} {o : Word} {k : Nat} (h : Accessible s x (o.toNat + 2 * k) 2 .read) :
    memReadNth s x o k = .ok (peek16 s x (o + BitVec.ofNat 16 (2 * k))) := by
  simp [memReadNth, memCheck_ok h, pure, Except.pure]

end Sys2Proof.Machine
end

