-- ==== Sys2Proof/Laws/Operands.lean ====
section
/-! SUPPORT. Operand forms: reading and writing the operand of a mod-reg-r/m byte, with its frame, and the ends of a meaning. -/

namespace Sys2Proof.Machine

/-! ### The end of a meaning -/

@[simp] theorem finish_ok (s t : State) : finish s (.ok t) = .next t := rfl

@[simp] theorem finish_exc (s : State) (e : Event) :
    finish s (.error (.exc e)) = .next (deliver s e s.cur.ip s.cur.ip) := rfl

theorem SameSystem.refl (s : State) : SameSystem s s := by constructor <;> rfl

theorem SameSystem.trans {s t u : State} (h : SameSystem s t) (k : SameSystem t u) : SameSystem s u := by
  constructor <;> first
    | exact k.es.trans h.es | exact k.cs.trans h.cs | exact k.ss.trans h.ss | exact k.ds.trans h.ds
    | exact k.msw.trans h.msw | exact k.gdtr.trans h.gdtr | exact k.idtr.trans h.idtr | exact k.ldtr.trans h.ldtr
    | exact k.tr.trans h.tr | exact k.halted.trans h.halted | exact k.shutdown.trans h.shutdown
    | exact k.nmiInService.trans h.nmiInService | exact k.nmiPending.trans h.nmiPending
    | exact k.inhibitInt.trans h.inhibitInt | exact k.inhibitExt.trans h.inhibitExt
    | exact k.mpPending.trans h.mpPending | exact k.stepTrap.trans h.stepTrap | exact k.waiting.trans h.waiting
    | exact k.pins.trans h.pins | exact k.nmiLevel.trans h.nmiLevel | exact k.memMap.trans h.memMap
    | exact k.io.trans h.io | exact k.ext.trans h.ext | exact k.cur.trans h.cur | exact k.phase.trans h.phase

theorem SameSystem.seg {s t : State} (h : SameSystem s t) (x : SReg) : t.seg x = s.seg x :=
  State.seg_congr h.es h.cs h.ss h.ds x

theorem SameSystem.setFlags (s : State) (f : Flags) : SameSystem s (s.setFlags f) := by constructor <;> rfl

theorem SameSystem.drawn (s : State) (n : Nat) : SameSystem s (s.drawn n) := by constructor <;> rfl

theorem SameSystem.setW (s : State) (r : RegNum) (v : Word) : SameSystem s (s.setW r v) := by constructor <;> simp

theorem SameSystem.setB (s : State) (r : RegNum) (v : Byte) : SameSystem s (s.setB r v) := SameSystem.setW _ _ _

theorem SameSystem.setReg (s : State) (w : Width) (r : RegNum) (v : Val w) : SameSystem s (s.setReg w r v) := by
  cases w
  · exact SameSystem.setB s r v
  · exact SameSystem.setW s r v

theorem SameSystem.poke (s : State) (w : Width) (x : SReg) (o : Word) (v : Val w) : SameSystem s (poke s w x o v) := by
  cases w <;> constructor <;> rfl

/-! ### Reading -/

theorem readPlace_ok {s : State} {w : Width} {m : RM} (h : CanRead s w m) :
    readPlace s w (place s m) = .ok (valueOf s w m) := by
  cases m with
  | reg r => rfl
  | mem a => exact memRead_ok h

theorem readRm_ok {s : State} {w : Width} {m : RM} (h : CanRead s w m) : readRm s w m = .ok (valueOf s w m) :=
  readPlace_ok h

theorem CanWrite.canRead {s : State} {w : Width} {m : RM} (h : CanWrite s w m) : CanRead s w m := by
  cases m with
  | reg r => trivial
  | mem a => exact Accessible.read_of_write h

theorem checkWrite_ok {s : State} {w : Width} {m : RM} (h : CanWrite s w m) : checkWrite s w (place s m) = .ok () := by
  cases m with
  | reg r => rfl
  | mem a => exact memCheck_ok h

theorem readPair_ok {s : State} {a : MemOp} (h0 : Accessible s (opSeg s a) (ea s a).toNat 2 .read)
    (h1 : Accessible s (opSeg s a) ((ea s a).toNat + 2) 2 .read) :
    readPair s a = .ok (peek16 s (opSeg s a) (ea s a), peek16 s (opSeg s a) (ea s a + 2)) := by
  unfold readPair
  rw [memReadNth_ok (by simpa using h0), memReadNth_ok (by simpa using h1)]
  simp [pure, Except.pure]

/-! ### Writing -/

/-- A register writes only itself. -/
theorem OnlyReg.setReg (s : State) (w : Width) (r : RegNum) (v : Val w) : OnlyReg s (s.setReg w r v) w r := by
  cases w
  · exact ⟨fun q hq => State.getW_setB_ne s v (by simpa using hq), fun q hq => State.getB_setB_ne s v hq⟩
  · exact fun q hq => State.getW_setW_ne s v (by simpa using hq)

/-- All that writing an operand does: in a state that differs from `s` in flags and drawn values only, the operand located
in `s` takes the value, and nothing else changes. -/
theorem putPlace_spec {s s' : State} (hs : SameSystem s s') (hi : s'.ip = s.ip) (hr : s'.regs = s.regs)
    (hm : s'.mem = s.mem) (hc : PlainMemory s) (w : Width) (m : RM) (v : Val w) :
    valueIn s (putPlace s' w (place s m) v) w m = v ∧ OnlyOperand s (putPlace s' w (place s m) v) w m ∧
      (putPlace s' w (place s m) v).flags = s'.flags := by
  cases m with
  | reg r =>
    refine ⟨State.getReg_setReg s' w r v, ⟨hs.trans (SameSystem.setReg s' w r v), ?_, ?_, ?_⟩, ?_⟩
    · simp [putPlace, place, hi]
    · have h := OnlyReg.setReg s' w r v
      cases w
      · exact ⟨fun q hq => (h.1 q hq).trans (State.getW_congr hr q), fun q hq => (h.2 q hq).trans (State.getB_congr hr q)⟩
      · exact fun q hq => (h q hq).trans (State.getW_congr hr q)
    · intro p
      exact hc.steady.load8_congr (by simp [putPlace, place, hm]) (by simp [putPlace, place, hs.memMap]) p
    · simp [putPlace, place]
  | mem a =>
    have hc' : PlainMemory s' := hc.congr hm hs.memMap
    have hadr : ∀ o, segAddr s' (opSeg s a) o = segAddr s (opSeg s a) o :=
      segAddr_congr hs.msw (hs.seg (opSeg s a))
    refine ⟨?_, ⟨hs.trans (SameSystem.poke s' w _ _ v), ?_, ?_, ?_⟩, ?_⟩
    · exact peek_poke s' w (opSeg s a) (ea s a) v hc'
    · simp [putPlace, place, hi]
    · intro q _
      exact State.getW_congr (by simp [putPlace, place, hr]) q
    · intro p hp
      refine (load8_poke s' w (opSeg s a) (ea s a) v ?_).trans (hc.steady.load8_congr hm hs.memMap p)
      intro ht
      apply hp
      unfold Touches at ht ⊢
      rwa [hadr, hadr] at ht
    · simp [putPlace, place]

/-- A read, a computation that writes flags only, and the write back. -/
theorem modifyRm_ok {s : State} {w : Width} {m : RM} (f : State → Val w → Val w × State) (h : CanWrite s w m) :
    modifyRm s w m f = .ok (putPlace (f s (valueOf s w m)).2 w (place s m) (f s (valueOf s w m)).1) := by
  simp [modifyRm, checkWrite_ok h, readPlace_ok h.canRead, pure, Except.pure]

theorem writePlace_ok {s : State} {w : Width} {m : RM} (v : Val w) (h : CanWrite s w m) :
    writePlace s w (place s m) v = .ok (putPlace s w (place s m) v) := by
  simp [writePlace, checkWrite_ok h, pure, Except.pure]

theorem aluToRm_ok {s : State} {w : Width} {m : RM} (op : AluOp) (b : Val w) (h : CanWrite s w m) :
    aluToRm op s w m b =
      .ok (putPlace (op w s (valueOf s w m) b).2 w (place s m) (op w s (valueOf s w m) b).1) :=
  modifyRm_ok _ h

theorem aluToReg_ok {s : State} {w : Width} {r : RegNum} {m : RM} (op : AluOp) (h : CanRead s w m) :
    aluToReg op s w r m =
      .ok (putPlace (op w s (valueOf s w (.reg r)) (valueOf s w m)).2 w (place s (.reg r))
        (op w s (valueOf s w (.reg r)) (valueOf s w m)).1) := by
  simp [aluToReg, readRm_ok h, pure, Except.pure, putPlace, place, valueOf, valueIn, peekPlace]

theorem aluToAcc_eq (op : AluOp) (s : State) (v : Imm) :
    aluToAcc op s v =
      putPlace (op v.width s (valueOf s v.width (.reg .r0)) v.val).2 v.width (place s (.reg .r0))
        (op v.width s (valueOf s v.width (.reg .r0)) v.val).1 := rfl

theorem aluTest_ok {s : State} {w : Width} {m : RM} (op : AluOp) (b : Val w) (h : CanRead s w m) :
    aluTest op s w m b = .ok (op w s (valueOf s w m) b).2 := by
  simp [aluTest, readRm_ok h, pure, Except.pure]

/-- An operand that cannot be written stops the instruction before anything is written. -/
theorem modifyRm_error {s : State} {w : Width} {m : RM} (f : State → Val w → Val w × State) {e : Stop}
    (h : checkWrite s w (place s m) = .error e) : modifyRm s w m f = .error e := by
  simp [modifyRm, h]

end Sys2Proof.Machine
end

