-- ==== Sys2Proof/Laws/Ops.lean ====
section
/-! SUPPORT. The shared operations: what each of them can answer, said once. -/

namespace Sys2Proof.Machine

/-! ### The stack -/

/-- The check of `n` pushes passes exactly when the stack takes `n` words. -/
theorem checkPush_ok_iff (s : State) (n : Nat) : checkPush s n = .ok () ↔ CanPush s n := by
  induction n with
  | zero => exact ⟨fun _ k h1 h2 => absurd (Nat.le_trans h1 h2) (by decide), fun _ => rfl⟩
  | succ n ih =>
    simp only [checkPush, checkPushAt, bind_eq_ok, ih, memCheck_ok_iff]
    constructor
    · rintro ⟨_, h1, h2⟩ k hk hn
      rcases Nat.lt_or_ge k (n + 1) with h | h
      · exact h1 k hk (by omega)
      · obtain rfl : k = n + 1 := by omega
        exact h2
    · intro h
      exact ⟨(), fun k h1 h2 => h k h1 (by omega), h (n + 1) (by omega) (by omega)⟩

theorem checkPush_ok {s : State} {n : Nat} (h : CanPush s n) : checkPush s n = .ok () := (checkPush_ok_iff s n).2 h

/-- The first word of a push has its room. -/
theorem CanPush.first {s : State} {n : Nat} (h : CanPush s n) (hn : 1 ≤ n) :
    Accessible s .ss (s.regs.sp - 2).toNat 2 .write := by simpa using h 1 (by decide) hn

/-- `Push(v)` answers, when the stack takes a word, the state with the word pushed (40_data_transfer.md R243). -/
theorem push_ok {s : State} (v : Word) (h : CanPush s 1) : push s v = .ok (pushRaw s v) := by
  have e : memWrite s .word .ss (s.regs.sp - 2) v = .ok (poke s .word .ss (s.regs.sp - 2) v) :=
    memWrite_ok (w := .word) v (h.first (Nat.le_refl 1))
  simp only [push, e, ok_bind']
  rfl

@[simp] theorem pushRaw_sp (s : State) (v : Word) : (pushRaw s v).regs.sp = s.regs.sp - 2 := by simp [pushRaw]

theorem SameSystem.pushRaw (s : State) (v : Word) : SameSystem s (pushRaw s v) :=
  (SameSystem.poke s .word .ss (s.regs.sp - 2) v).trans
    (SameSystem.setW (poke16 s .ss (s.regs.sp - 2) v) .r4 (s.regs.sp - 2))

@[simp] theorem seg_pushRaw (s : State) (v : Word) (x : SReg) : (pushRaw s v).seg x = s.seg x :=
  (SameSystem.pushRaw s v).seg x

@[simp] theorem segAddr_pushRaw (s : State) (v : Word) (x : SReg) (o : Word) :
    segAddr (pushRaw s v) x o = segAddr s x o := segAddr_congr (by simp) (by simp) o

theorem pushRaw_mem (s : State) (v : Word) : (pushRaw s v).mem = (poke16 s .ss (s.regs.sp - 2) v).mem := by
  simp [pushRaw]

/-- The word pushed lies at the new top of the stack. -/
theorem peek16_pushRaw (s : State) (v : Word) (h : PlainMemory s) :
    peek16 (pushRaw s v) .ss (s.regs.sp - 2) = v := by
  have e := peek16_poke16 s .ss (s.regs.sp - 2) v h
  simpa only [peek16, peek8, segAddr_pushRaw, segAddr_poke16, State.load8_congr (pushRaw_mem s v) (pushRaw_memMap s v) (pushRaw_bus s v)] using e

/-- Every byte but those of the word pushed stays. -/
theorem load8_pushRaw (s : State) (v : Word) {p : Phys} (h : ¬ Touches s .word .ss (s.regs.sp - 2) p) :
    (pushRaw s v).load8 p = s.load8 p :=
  (State.load8_congr (pushRaw_mem s v) (pushRaw_memMap s v) (pushRaw_bus s v) p).trans
    (load8_poke s .word .ss (s.regs.sp - 2) v h)

/-- A stack with room for `n` words has room for `n - 1` after a push. -/
theorem CanPush.pushRaw {s : State} {n : Nat} (v : Word) (h : CanPush s (n + 1)) : CanPush (pushRaw s v) n := by
  intro k h1 h2
  rw [Accessible.congr (s := s) (by simp) (by simp), pushRaw_sp]
  have e : s.regs.sp - 2 - BitVec.ofNat 16 (2 * k) = s.regs.sp - BitVec.ofNat 16 (2 * (k + 1)) := by
    apply BitVec.eq_of_toNat_eq
    simp [BitVec.toNat_sub]
    omega
  rw [e]
  exact h (k + 1) (by omega) (by omega)

/-- A word of the stack can be read exactly when its bytes can. -/
theorem stackWord_ok {s : State} {k : Word} (h : CanPopAt s k) : stackWord s k = .ok (peek16 s .ss (s.regs.sp + k)) :=
  memRead_ok (w := .word) h

theorem popWord_ok {s : State} (h : CanPopAt s 0) : popWord s = .ok (peek16 s .ss s.regs.sp) := by
  have h' : Accessible s .ss s.regs.sp.toNat Width.word.bytes .read := by simpa [CanPopAt, Width.bytes] using h
  exact memRead_ok h'

/-! ### Transfers -/

/-- A target inside the code segment is entered (44_control_transfer.md R370). -/
theorem setIP_ok {s : State} {t : Word} (h : s.msw.pe = true → t.toNat ≤ s.cs.limit.toNat) :
    setIP s t = .ok (s.jump t) := by
  rw [setIP, need_ok]
  · rfl
  · cases hp : s.msw.pe <;> simp
    exact h hp

/-- A target outside raises #GP(0). -/
theorem setIP_error {s : State} {t : Word} (hp : s.msw.pe = true) (h : s.cs.limit.toNat < t.toNat) :
    setIP s t = .error (protection 0) := by
  rw [setIP, need_error]
  · rfl
  · simp [hp]
    omega

@[simp] theorem farReal_cs (s : State) (sel off : Word) : (farReal s sel off).cs = SegReg.real sel := rfl

@[simp] theorem farReal_ip (s : State) (sel off : Word) : (farReal s sel off).ip = off := rfl

@[simp] theorem farReal_regs (s : State) (sel off : Word) : (farReal s sel off).regs = s.regs := rfl

@[simp] theorem farReal_flags (s : State) (sel off : Word) : (farReal s sel off).flags = s.flags := rfl

@[simp] theorem farReal_mem (s : State) (sel off : Word) : (farReal s sel off).mem = s.mem := rfl

/-! ### Descriptors and segment registers -/

/-- The accessed bit is set in the table, and no other byte changes (20_memory.md R129). -/
theorem load8_setAccessed (s : State) (a : Phys) (h : PlainMemory s) :
    (setAccessed s a (descAt s a)).load8 (a + 5) = (descAt s a).ar ||| 1 ∧
      ∀ p, p ≠ a + 5 → (setAccessed s a (descAt s a)).load8 p = s.load8 p := by
  have hb : s.load8 (a + 5) = (descAt s a).ar := by
    simp only [descAt, Desc.ar, State.load16, hiByte_wordOf]
    congr 1
    rw [BitVec.add_assoc]
    rfl
  unfold setAccessed
  cases hA : arA (descAt s a).ar
  · exact ⟨by simp [State.load8_store8 _ _ _ _ h], fun p hp => State.load8_store8_ne _ _ hp⟩
  · refine ⟨?_, fun p _ => rfl⟩
    simp only [if_true, hb]
    apply BitVec.eq_of_getLsbD_eq
    intro i hi
    rw [BitVec.getLsbD_or]
    by_cases h0 : i = 0
    · subst h0
      simp only [arA] at hA
      simp [hA]
    · simp [BitVec.getLsbD_one, h0]

@[simp] theorem loadCache_seg (s : State) (x : SReg) (sel : Word) (p : Phys × Desc) :
    (loadCache s x sel p).seg x = p.2.cache sel := by
  cases x <;> rfl

theorem loadCache_seg_ne (s : State) {x y : SReg} (sel : Word) (p : Phys × Desc) (h : y ≠ x) :
    (loadCache s x sel p).seg y = s.seg y := by
  cases x <;> cases y <;> first | exact absurd rfl h | simp [loadCache, State.seg, State.setSeg]

@[simp] theorem loadCache_load8 (s : State) (x : SReg) (sel : Word) (p : Phys × Desc) (a : Phys) :
    (loadCache s x sel p).load8 a = (setAccessed s p.1 p.2).load8 a := by
  cases x <;> rfl

/-- In real mode a load of DS or ES always succeeds (10_state.md R26). -/
theorem loadDataSeg_real {s : State} (g : ReadGroup) (x : SReg) (sel : Word) (h : s.msw.pe = false) :
    loadDataSeg s g x sel = .ok (s.setSeg x (SegReg.real sel)) := by simp [loadDataSeg, h]

theorem loadStackSeg_real {s : State} (g : ReadGroup) (sel : Word) (h : s.msw.pe = false) :
    loadStackSeg s g sel = .ok (s.setSeg .ss (SegReg.real sel)) := by simp [loadStackSeg, h]

/-- In protected mode a null selector makes DS or ES invalid (20_memory.md R131). -/
theorem loadDataSeg_null {s : State} (g : ReadGroup) (x : SReg) {sel : Word} (hp : s.msw.pe = true) (h : selNull sel = true) :
    loadDataSeg s g x sel = .ok (s.setSeg x { s.seg x with sel := sel, valid := false }) := by
  simp [loadDataSeg, hp, h]

/-- A load of DS or ES in protected mode with every check passed (20_memory.md R132). -/
theorem loadDataSeg_ok {s : State} (g : ReadGroup) (x : SReg) {sel : Word} {p : Phys × Desc} (hp : s.msw.pe = true)
    (hn : selNull sel = false) (hf : fetchDescriptor (s.later g) sel = some p) (hr : arReadable p.2.ar = true)
    (hd : dataPrivOk s p.2.ar sel = true) (hP : arP p.2.ar = true) :
    loadDataSeg s g x sel = .ok (loadCache s x sel p) := by
  simp [loadDataSeg, hp, hn, needDescriptor, hf, hr, hd, hP, pure, Except.pure]

/-- A load of SS in protected mode with every check passed (20_memory.md R133). -/
theorem loadStackSeg_ok {s : State} (g : ReadGroup) {sel : Word} {p : Phys × Desc} (hp : s.msw.pe = true)
    (hn : selNull sel = false) (hf : fetchDescriptor (s.later g) sel = some p) (hr : rpl sel = s.cpl)
    (hw : arWritable p.2.ar = true) (hd : arDpl p.2.ar = s.cpl) (hP : arP p.2.ar = true) :
    loadStackSeg s g sel = .ok (loadCache s .ss sel p) := by
  simp [loadStackSeg, hp, hn, needDescriptor, hf, hr, hw, hd, hP, pure, Except.pure]

/-! ### Tasks -/

/-- Storing words of a task state segment leaves every other byte (45_protected_transfer.md R441). -/
theorem load8_tssStore {p : Phys} (s : State) (base : Phys) (l : List (Nat × Word))
    (h : ∀ e ∈ l, p ≠ base + BitVec.ofNat 24 e.1 ∧ p ≠ base + BitVec.ofNat 24 e.1 + 1) :
    (tssStore s base l).load8 p = s.load8 p := by
  induction l generalizing s with
  | nil => rfl
  | cons e rest ih =>
    rw [tssStore, ih _ fun e he => h e (List.mem_cons_of_mem _ he), State.store16,
      State.load8_store8_ne _ _ (h e List.mem_cons_self).2, State.load8_store8_ne _ _ (h e List.mem_cons_self).1]

@[simp] theorem tssStore_memMap (s : State) (base : Phys) (l : List (Nat × Word)) :
    (tssStore s base l).memMap = s.memMap := by
  induction l generalizing s with
  | nil => rfl
  | cons e rest ih => rw [tssStore, ih, State.store16_memMap]

@[simp] theorem saveTask_memMap (s : State) (mode : SwitchMode) (ret : Word) :
    (saveTask s mode ret).memMap = s.memMap := by simp [saveTask]

/-- What a switch has made of TR, TS and the tables when the new task's registers are loaded (R440). -/
theorem commitSwitch_system (s : State) (tsel : Word) (a : Phys) (t : Desc) (mode : SwitchMode) (ret : Word) :
    let u := commitSwitch s tsel a t mode ret
    u.tr = { sel := tsel, base := t.base, limit := t.limit } ∧ u.msw = { s.msw with ts := true } ∧ u.gdtr = s.gdtr ∧
      u.idtr = s.idtr := by
  have hs (l : List (Nat × Word)) : (tssStore s s.tr.base l).msw = s.msw ∧ (tssStore s s.tr.base l).gdtr = s.gdtr ∧
      (tssStore s s.tr.base l).idtr = s.idtr := by
    generalize s.tr.base = b
    induction l generalizing s with
    | nil => exact ⟨rfl, rfl, rfl⟩
    | cons e rest ih => exact ih (s.store16 (b + BitVec.ofNat 24 e.1) e.2)
  refine ⟨by simp [commitSwitch, loadTask], ?_, ?_, ?_⟩ <;> cases mode <;>
    simp [commitSwitch, loadTask, markBusy, markOldAvailable, saveTask, hs]

/-! ### Taking an exception -/

/-- In real mode a vector inside the table is entered when the stack takes three words (60_exceptions.md R561). -/
theorem deliverReal_ok {s : State} {n : Nat} (ret at' : Word) (hn : 4 * n + 3 ≤ s.idtr.limit.toNat) {t : State}
    (h : realEntry s n ret = some t) : deliverReal s n ret at' = t := by simp [deliverReal, hn, h]

/-- Without room on the stack it is shutdown (R585). -/
theorem deliverReal_noStack {s : State} {n : Nat} (ret at' : Word) (hn : 4 * n + 3 ≤ s.idtr.limit.toNat)
    (h : ¬ CanPush s 3) : deliverReal s n ret at' = enterShutdown s := by
  have he : realEntry s n ret = none := by
    unfold realEntry
    cases hc : checkPush s 3 with
    | error e => rfl
    | ok u => exact absurd ((checkPush_ok_iff s 3).1 hc) h
  simp [deliverReal, hn, he]

/-- What entering a vector in real mode does: three pushes, then CS:IP, IF and TF (R561). -/
theorem realEntry_ok {s : State} (n : Nat) (ret : Word) (h : CanPush s 3) :
    realEntry s n ret = some (farReal
      ((pushRaw (pushRaw ((pushRaw s s.flagsWord).drawn 1) s.cs.sel) ret).setFlags { s.flags with ief := false, tf := false })
      (s.load16 (s.idtr.base + BitVec.ofNat 24 (4 * n) + 2)) (s.load16 (s.idtr.base + BitVec.ofNat 24 (4 * n)))) := by
  simp [realEntry, checkPush_ok h]

/-! ### Operand transfers of the processor extension -/

theorem ExtOperand.fits_iff (o : ExtOperand) :
    o.fits = true ↔ if o.pe = true then Within o.seg o.off 2 else o.off + 2 ≤ 0x10000 := by
  unfold ExtOperand.fits
  split <;> simp [limitOk_iff]

/-- Without a request that can be served no transfer is due. -/
theorem transferDue_none {s : State} (h : NoTransferDue s) : transferDue s = none := by
  unfold transferDue
  rcases h with h | h <;> simp [h]

/-- A transfer past the end of the operand's segment makes event 9 pending instead (60_exceptions.md R540). -/
theorem extTransfer_over {s : State} {o : ExtOperand} (h : o.fits = false) :
    extTransfer s o = { s with mpPending := true, ext := none } := by simp [extTransfer, h]

/-- A transfer to the extension reads memory and records the word (20_memory.md R170). -/
theorem extTransfer_out {s : State} {o : ExtOperand} (h : o.fits = true) (hw : o.write = false) :
    extTransfer s o =
      { s with
        io := { output := true, port := 0x00FA, width := .word,
                value := wordOf (s.load8 (o.addr 0)) (s.load8 (o.addr 1)) } :: s.io
        ext := some { o with off := o.off + 2 } } := by simp [extTransfer, transferOut, h, hw]

/-- A transfer changes at most memory, the I/O record, the operand and the pending overrun. -/
theorem SameSystem.extTransfer (s : State) (o : ExtOperand) :
    SameSystem
      { s with
        io := (extTransfer s o).io, ext := (extTransfer s o).ext, mpPending := (extTransfer s o).mpPending }
      (extTransfer s o) := by
  cases hf : o.fits <;> cases hw : o.write <;>
    constructor <;> simp [Machine.extTransfer, transferIn, transferOut, hf, hw]

/-! ### Other bus masters -/

@[simp] theorem masterAccess_regs (s : State) : (masterAccess s).regs = s.regs := by
  unfold masterAccess
  repeat' split
  all_goals rfl

@[simp] theorem masterAccess_flags (s : State) : (masterAccess s).flags = s.flags := by
  unfold masterAccess
  repeat' split
  all_goals rfl

@[simp] theorem masterAccess_ip (s : State) : (masterAccess s).ip = s.ip := by
  unfold masterAccess
  repeat' split
  all_goals rfl

/-- Another master's access changes memory only (20_memory.md R162). -/
theorem SameSystem.masterAccess (s : State) : SameSystem s (masterAccess s) := by
  unfold Machine.masterAccess
  repeat' split
  all_goals constructor <;> rfl

/-- While HOLD is active a step is the other master's access. -/
theorem step_hold {s : State} (hr : s.pins.reset = false) (hh : s.pins.hold = true) :
    step s = .next (Machine.masterAccess (beginStep s)) := by simp [step, hr, hh]

/-- With the bus free, and neither RESET nor shutdown, a step is the boundary's next event or an instruction. -/
theorem step_active {s : State} (hr : s.pins.reset = false) (hs : s.shutdown = false) (hb : BusFree s) :
    step s = activeStep (beginStep s) := by simp [step, hr, hs, hb.1, transferDue_none hb.2]

/-! ### I/O -/

/-- A port access is split exactly when it is a word at an odd port (20_memory.md R94). -/
theorem ioSplit_iff (w : Width) (port : Word) : ioSplit w port = true ↔ w = .word ∧ port.toNat % 2 = 1 := by
  cases w <;> simp [ioSplit, BitVec.getLsbD, Nat.testBit_zero]

/-- What a port write records: one bus operation, or for a split word the low byte and then the high byte (R94). -/
theorem ioWrite_io (s : State) (w : Width) (port : Word) (v : Val w) :
    (ioWrite s w port v).io =
      if ioSplit w port then
        ⟨true, port + 1, .byte, zextByte (hiByte (v.setWidth 16))⟩ ::
          ⟨true, port, .byte, zextByte (loByte (v.setWidth 16))⟩ :: s.io
      else ⟨true, port, w, v.setWidth 16⟩ :: s.io := by
  by_cases h : ioSplit w port <;> simp [ioWrite, ioOperations, h]

/-- What a port read records, of the value it answers (R94). -/
theorem ioRead_io (s : State) (w : Width) (port : Word) :
    (ioRead s w port).2.io =
      if ioSplit w port then
        ⟨false, port + 1, .byte, zextByte (hiByte ((ioRead s w port).1.setWidth 16))⟩ ::
          ⟨false, port, .byte, zextByte (loByte ((ioRead s w port).1.setWidth 16))⟩ :: s.io
      else ⟨false, port, w, (ioRead s w port).1.setWidth 16⟩ :: s.io := by
  by_cases h : ioSplit w port <;> simp [ioRead, ioOperations, h]

/-- What a port read that is not split answers. -/
theorem ioRead_whole (s : State) (w : Width) (port : Word) (h : ¬ ioSplit w port = true) :
    (ioRead s w port).1 = (Config.ioIn s.io.length port).setWidth w.bits := by simp [ioRead, ioAnswer, h]

/-- What a split port read answers: the low bytes of two answers (R94). -/
theorem ioRead_split (s : State) (port : Word) (h : ioSplit .word port = true) :
    (ioRead s .word port).1 =
      wordOf (loByte (Config.ioIn s.io.length port)) (loByte (Config.ioIn (s.io.length + 1) (port + 1))) := by
  simp [ioRead, ioAnswer, h]

end Sys2Proof.Machine
end

