-- ==== Sys2Proof/Laws/Delivery.lean ====
section
/-! SUPPORT. Where on the bus the deliveries of one step read (20_memory.md R160, log 48): what a delivery answers, or the state
its exception is taken in, keeps the delivery's place, so that each delivery that follows a failing one has a later place. -/

namespace Sys2Proof.Machine

/-! ### Task switches -/

@[simp] theorem loadCache_bus (s : State) (x : SReg) (sel : Word) (p : Phys × Desc) : (loadCache s x sel p).bus = s.bus := by
  simp [loadCache]

@[simp] theorem tssStore_bus (s : State) (base : Phys) (l : List (Nat × Word)) : (tssStore s base l).bus = s.bus := by
  induction l generalizing s with
  | nil => rfl
  | cons e rest ih => rw [tssStore, ih, State.store16_bus]

@[simp] theorem saveTask_bus (s : State) (mode : SwitchMode) (ret : Word) : (saveTask s mode ret).bus = s.bus := by
  simp [saveTask]

@[simp] theorem markOldAvailable_bus (s : State) : (markOldAvailable s).bus = s.bus := rfl

@[simp] theorem markBusy_bus (s : State) (a : Phys) (d : Desc) : (markBusy s a d).bus = s.bus := rfl

@[simp] theorem loadTask_bus (s : State) (base : Phys) (mode : SwitchMode) : (loadTask s base mode).bus = s.bus := rfl

@[simp] theorem commitSwitch_bus (s : State) (tsel : Word) (a : Phys) (t : Desc) (mode : SwitchMode) (ret : Word) :
    (commitSwitch s tsel a t mode ret).bus = s.bus := by
  cases mode <;> simp [commitSwitch]

/-! ### What an answer says of the place on the bus -/

/-- What a part of an instruction or of a delivery raises is taken in the state it began in, or in one at the place `b` on the
bus. -/
structure RaisesAt {α : Type} (b : BusTime) (r : M α) : Prop where
  raised : ∀ e t ip, r = .error (.excIn e t ip) → t.bus = b

/-- The same, and a state it answers is at that place too. -/
structure StaysAt (b : BusTime) (r : M State) : Prop extends RaisesAt b r where
  answered : ∀ t, r = .ok t → t.bus = b

theorem RaisesAt.ok {α : Type} {b : BusTime} (a : α) : RaisesAt b (.ok a : M α) := ⟨by rintro _ _ _ ⟨⟩⟩

theorem RaisesAt.exc {α : Type} {b : BusTime} (e : Event) : RaisesAt b (.error (.exc e) : M α) := ⟨by rintro _ _ _ ⟨⟩⟩

theorem RaisesAt.bind {α β : Type} {b : BusTime} {x : M α} {f : α → M β} (hx : RaisesAt b x)
    (hf : ∀ a, x = .ok a → RaisesAt b (f a)) : RaisesAt b (x >>= f) := by
  cases x with
  | ok a => exact hf a rfl
  | error st => exact ⟨fun e t ip h => hx.raised e t ip (by cases h; rfl)⟩

theorem RaisesAt.need {b : BusTime} (ok : Bool) (e : Event) : RaisesAt b (need ok (.exc e)) := by
  cases ok
  · exact .exc e
  · exact .ok ()

theorem RaisesAt.needDescriptor {b : BusTime} (s : State) (sel : Word) (e : Event) :
    RaisesAt b (needDescriptor s sel (.exc e)) := by
  unfold Machine.needDescriptor
  split
  · exact .ok _
  · exact .exc e

theorem RaisesAt.inTask {α : Type} {s : State} {r : M α} (h : RaisesAt s.bus r) : RaisesAt s.bus (inTask s r) := by
  rcases r with (_ | ⟨e, t, ip⟩) | a
  · exact ⟨by rintro _ _ _ ⟨⟩; rfl⟩
  · exact ⟨h.raised⟩
  · exact .ok a

theorem StaysAt.ok {b : BusTime} {t : State} (h : t.bus = b) : StaysAt b (.ok t) := ⟨.ok t, by rintro _ ⟨⟩; exact h⟩

theorem StaysAt.exc {b : BusTime} (e : Event) : StaysAt b (.error (.exc e)) := ⟨.exc e, by rintro _ ⟨⟩⟩

theorem StaysAt.bind {α : Type} {b : BusTime} {x : M α} {f : α → M State} (hx : RaisesAt b x)
    (hf : ∀ a, x = .ok a → StaysAt b (f a)) : StaysAt b (x >>= f) := by
  cases x with
  | ok a => exact hf a rfl
  | error st => exact ⟨⟨fun e t ip h => hx.raised e t ip (by cases h; rfl)⟩, by rintro _ ⟨⟩⟩

theorem StaysAt.ite {b : BusTime} {c : Prop} [Decidable c] {x y : M State} (hx : StaysAt b x) (hy : StaysAt b y) :
    StaysAt b (if c then x else y) := by
  split
  · exact hx
  · exact hy

theorem inTask_eq_ok {α : Type} {s : State} {r : M α} {a : α} (h : inTask s r = .ok a) : r = .ok a := by
  rcases r with (_ | _) | _
  · cases h
  · cases h
  · exact h

/-- A part of a switch that runs in the new task. -/
theorem StaysAt.inTask {s : State} {r : M State} (h : StaysAt s.bus r) : StaysAt s.bus (inTask s r) :=
  ⟨h.toRaisesAt.inTask, fun t ht => h.answered t (inTask_eq_ok ht)⟩

/-- A check that stops with an exception, then the rest. -/
theorem StaysAt.need_bind {b : BusTime} {ok : Bool} (e : Event) {x : M State} (h : StaysAt b x) :
    StaysAt b (need ok (.exc e) >>= fun _ => x) := .bind (.need ok e) fun _ _ => h

/-- A descriptor that is looked up, then the rest. -/
theorem StaysAt.descriptor_bind {b : BusTime} {s : State} {sel : Word} (e : Event) {f : Phys × Desc → M State}
    (h : ∀ p, StaysAt b (f p)) : StaysAt b (Machine.needDescriptor s sel (.exc e) >>= f) :=
  .bind (.needDescriptor s sel e) fun p _ => h p

theorem switchLdt_staysAt (s : State) (ext : Bool) : StaysAt s.bus (switchLdt s ext) :=
  .ite (.ok rfl) (.need_bind _ (.descriptor_bind _ fun _ => .need_bind _ (.ok rfl)))

theorem switchCs_staysAt (s : State) (ext : Bool) : StaysAt s.bus (switchCs s ext) :=
  .need_bind _ (.descriptor_bind _ fun p => .need_bind _ (.need_bind _ (.need_bind _ (.ok (loadCache_bus s _ _ p)))))

theorem switchSs_staysAt (s : State) (ext : Bool) : StaysAt s.bus (switchSs s ext) :=
  .need_bind _ (.descriptor_bind _ fun p =>
    .need_bind _ (.need_bind _ (.need_bind _ (.ok (loadCache_bus s _ _ p)))))

theorem switchData_staysAt (s : State) (x : SReg) (ext : Bool) : StaysAt s.bus (switchData s x ext) :=
  .ite (.ok rfl) (.descriptor_bind _ fun p =>
    .need_bind _ (.need_bind _ (.need_bind _ (.ok (loadCache_bus s _ _ p)))))

theorem checkIp_staysAt (s : State) : StaysAt s.bus (checkIp s) := .need_bind _ (.ok rfl)

/-- A step of a switch in the new task, then the rest from the state it answers. -/
theorem StaysAt.inTask_bind {b : BusTime} {s : State} {r : M State} {f : State → M State} (hs : s.bus = b)
    (h : StaysAt s.bus r) (hf : ∀ t, t.bus = b → StaysAt b (f t)) : StaysAt b (Machine.inTask s r >>= f) := by
  subst hs
  exact .bind h.inTask.toRaisesAt fun t ht => hf t (h.inTask.answered t ht)

/-- A task switch keeps the place on the bus, whether it completes or raises an exception in either task. -/
theorem switchTasks_staysAt (s : State) (tsel : Word) (a : Phys) (t : Desc) (mode : SwitchMode) (ret : Word) (ext : Bool) :
    StaysAt s.bus (switchTasks s tsel a t mode ret ext) :=
  .need_bind _ <|
    .inTask_bind (commitSwitch_bus ..) (switchLdt_staysAt _ _) fun _ h2 =>
    .inTask_bind h2 (switchCs_staysAt _ _) fun _ h3 =>
    .inTask_bind h3 (switchSs_staysAt _ _) fun _ h4 =>
    .inTask_bind h4 (switchData_staysAt _ _ _) fun _ h5 =>
    .inTask_bind h5 (switchData_staysAt _ _ _) fun _ h6 =>
    .ok (by simpa using h6)

/-! ### Deliveries -/

theorem RaisesAt.memCheck {b : BusTime} (s : State) (x : SReg) (off n : Nat) (a : Access) : RaisesAt b (memCheck s x off n a) := by
  obtain ⟨e, he⟩ : ∃ e, limitStop s x = .exc e := by unfold limitStop; split <;> exact ⟨_, rfl⟩
  rw [Machine.memCheck, he]
  split
  · exact .bind (.need ..) fun _ _ => .bind (.need ..) fun _ _ => .need ..
  · exact .need ..

theorem RaisesAt.checkPush {b : BusTime} (s : State) (n : Nat) : RaisesAt b (checkPush s n) := by
  induction n with
  | zero => exact .ok ()
  | succ n ih => exact .bind ih fun _ _ => .memCheck ..

theorem push_staysAt (s : State) (v : Word) : StaysAt s.bus (push s v) := by
  unfold push memWrite
  refine .bind (.bind (.memCheck ..) fun _ _ => .ok _) fun t ht => .ok ?_
  obtain ⟨_, -, ⟨⟩⟩ := bind_eq_ok.1 ht
  simp

theorem RaisesAt.innerStack {b : BusTime} (s : State) (p : Nat) (ext : Bool) : RaisesAt b (innerStack s p ext) :=
  .bind (.need ..) fun _ _ => .bind (.need ..) fun _ _ => .bind (.needDescriptor ..) fun _ _ => .bind (.need ..) fun _ _ =>
    .bind (.need ..) fun _ _ => .bind (.need ..) fun _ _ => .bind (.need ..) fun _ _ => .ok _

theorem RaisesAt.gateInner {b : BusTime} (s : State) (ev : Event) (g : Desc) (c : Phys × Desc) (ret : Word) :
    RaisesAt b (gateInner s ev g c ret) :=
  .bind (.innerStack ..) fun _ _ => .bind (.need ..) fun _ _ => .bind (.need ..) fun _ _ => .ok _

theorem RaisesAt.gateSame {b : BusTime} (s : State) (ev : Event) (g : Desc) (c : Phys × Desc) (ret : Word) :
    RaisesAt b (gateSame s ev g c ret) :=
  .bind (.checkPush ..) fun _ _ => .bind (.need ..) fun _ _ => .ok _

theorem RaisesAt.gateEntry {b : BusTime} (s : State) (ev : Event) (g : Desc) (ret : Word) :
    RaisesAt b (gateEntry s ev g ret) := by
  refine .bind (.need ..) fun _ _ => .bind (.needDescriptor ..) fun _ _ => .bind (.need ..) fun _ _ => .bind (.need ..) fun _ _ => ?_
  split
  · exact .gateInner ..
  · split
    · exact .gateSame ..
    · exact .exc _

theorem taskEntry_staysAt (s : State) (ev : Event) (g : Desc) (ret : Word) : StaysAt s.bus (taskEntry s ev g ret) := by
  refine .need_bind _ <| .descriptor_bind _ fun t => .need_bind _ <| .need_bind _ ?_
  have hs := switchTasks_staysAt s g.selector t.1 t.2 .nest ret ev.ext
  refine .bind hs.toRaisesAt fun s1 h1 => .inTask_bind (hs.answered s1 h1) ?_ fun s2 h2 => h2 ▸ (checkIp_staysAt s2).inTask
  split
  · exact push_staysAt s1 _
  · exact .ok rfl

/-- A delivery that fails is left in a state at its own place on the bus (60_exceptions.md R562 to R564). -/
theorem RaisesAt.protEntry (s : State) (ev : Event) (ret : Word) : RaisesAt s.bus (protEntry s ev ret) := by
  refine .bind (.need ..) fun _ _ => .bind (.need ..) fun _ _ => .bind (.need ..) fun _ _ => .bind (.need ..) fun _ _ => ?_
  split
  · exact (taskEntry_staysAt ..).toRaisesAt
  · exact .gateEntry ..

/-- The delivery that follows a failing one begins past every place on the bus at which that one may have read: none of its reads
need find what a read of the failing one found (20_memory.md R160, log 48). -/
theorem nextDelivery_bus {s : State} {ev : Event} {ret : Word} {st : Stop} (h : protEntry s ev ret = .error st) (ip : Word) :
    (st.nextDelivery s ip).1.bus =
      { s.bus with op := s.bus.op + ReadGroup.delivery.rank, gap := s.bus.gap + ReadGroup.delivery.gaps } := by
  cases st with
  | exc e => rfl
  | excIn e t ip' => rw [← (RaisesAt.protEntry s ev ret).raised e t ip' h]; rfl

/-- Every read of a delivery comes before those of the next one in the step. -/
theorem ReadGroup.rank_lt_delivery (g : ReadGroup) (h : g ≠ .delivery) :
    g.rank < ReadGroup.delivery.rank ∧ g.gaps < ReadGroup.delivery.gaps := by
  cases g <;> first | exact absurd rfl h | decide

end Sys2Proof.Machine
end

