-- ==== Sys2Proof/Laws/Flags.lean ====
section
/-! SUPPORT. The flag computations in whole numbers: results, carries, signed overflow, parity; shifts by a count as powers of
two. -/

namespace Sys2Proof.Machine

theorem parityEven_eq (b : Byte) : parityEven b = decide (ones b % 2 = 0) := by
  revert b; decide +kernel

/-- SF, ZF and PF as claims word them. -/
theorem szp_statusOf (f : Flags) (w : Width) (v : Val w) : StatusOf (f.szp w v) w v := by
  refine ⟨?_, ?_, parityEven_eq _⟩
  · show v.msb = _
    rw [BitVec.msb_eq_decide]
  · show decide (v = 0) = _
    simp [← BitVec.toNat_inj]

theorem StatusOf.congr {f g : Flags} {w : Width} {v : Val w} (h : StatusOf f w v) (h1 : g.sf = f.sf) (h2 : g.zf = f.zf)
    (h3 : g.pf = f.pf) : StatusOf g w v := ⟨h1.trans h.1, h2.trans h.2.1, h3.trans h.2.2⟩

theorem addRes_toNat (w : Width) (a b : Val w) (c : Bool) :
    (addRes w a b c).toNat = (a.toNat + b.toNat + bit c) % 2 ^ w.bits := by
  simp [addRes, BitVec.toNat_add]

theorem bit_le (c : Bool) : bit c ≤ 1 := by cases c <;> decide

theorem two_le_pow_bits (w : Width) : 2 * 2 ^ (w.bits - 1) = 2 ^ w.bits := by cases w <;> rfl

/-- OF of an addition is signed overflow (41_arithmetic.md R280). -/
theorem add_of (w : Width) (f : Flags) (a b : Val w) (c : Bool) :
    (f.add w a b c).of = signedOverflow w.bits (a.toInt + b.toInt + bit c) := by
  have hc := bit_le c
  have hr := addRes_toNat w a b c
  have ha := a.isLt
  have hb := b.isLt
  show ((a.msb == b.msb) && ((addRes w a b c).msb != a.msb)) = _
  rw [BitVec.msb_eq_decide, BitVec.msb_eq_decide, BitVec.msb_eq_decide, BitVec.toInt_eq_toNat_cond,
    BitVec.toInt_eq_toNat_cond, hr]
  unfold signedOverflow
  rw [Bool.eq_iff_iff]
  simp only [Bool.and_eq_true, beq_iff_eq, bne_iff_ne, ne_eq, decide_eq_decide, decide_eq_true_eq]
  cases w <;> simp only [Width.bits] at * <;> norm_num at * <;> split <;> split <;> omega

theorem subRes_toNat (w : Width) (a b : Val w) (c : Bool) :
    (subRes w a b c).toNat = (a.toNat + 2 * 2 ^ w.bits - b.toNat - bit c) % 2 ^ w.bits := by
  have hc := bit_le c
  have hb := b.isLt
  have ha := a.isLt
  cases w <;> simp only [subRes, BitVec.toNat_sub, BitVec.toNat_ofNat, Width.bits] at * <;> norm_num at * <;> omega

/-- OF of a subtraction is signed overflow (R280). -/
theorem sub_of (w : Width) (f : Flags) (a b : Val w) (c : Bool) :
    (f.sub w a b c).of = signedOverflow w.bits (a.toInt - b.toInt - bit c) := by
  have hc := bit_le c
  have hr := subRes_toNat w a b c
  have ha := a.isLt
  have hb := b.isLt
  show ((a.msb != b.msb) && ((subRes w a b c).msb != a.msb)) = _
  rw [BitVec.msb_eq_decide, BitVec.msb_eq_decide, BitVec.msb_eq_decide, BitVec.toInt_eq_toNat_cond,
    BitVec.toInt_eq_toNat_cond, hr]
  unfold signedOverflow
  rw [Bool.eq_iff_iff]
  simp only [Bool.and_eq_true, bne_iff_ne, ne_eq, decide_eq_decide, decide_eq_true_eq]
  cases w <;> simp only [Width.bits] at * <;> norm_num at * <;> split <;> split <;> omega

theorem add_status (f : Flags) (w : Width) (a b : Val w) (c : Bool) : StatusOf (f.add w a b c) w (addRes w a b c) :=
  (szp_statusOf f w _).congr rfl rfl rfl

theorem sub_status (f : Flags) (w : Width) (a b : Val w) (c : Bool) : StatusOf (f.sub w a b c) w (subRes w a b c) :=
  (szp_statusOf f w _).congr rfl rfl rfl

theorem logic_status (f : Flags) (w : Width) (v : Val w) (af : Bool) : StatusOf (f.logic w v af) w v :=
  (szp_statusOf f w _).congr rfl rfl rfl

theorem fitsSigned_eq (n : Nat) (p : Int) : fitsSigned n p = !signedOverflow n p := by
  unfold fitsSigned signedOverflow
  rw [Bool.eq_iff_iff]
  simp

end Sys2Proof.Machine
end

