-- ==== Sys2Proof/Laws/Shift.lean ====
section
/-! SUPPORT. What the repeated step of each shift and rotate amounts to: a multiplication or division by a power of two, a
rotation of the operand, a rotation of the operand with CF above it (42_logic.md R330 to R337). -/

namespace Sys2Proof.Machine

/-- A bit as a vector of any width has that bit lowest and no other. -/
theorem getLsbD_ofNat_bit (w : Nat) (b : Bool) (i : Nat) :
    (BitVec.ofNat w (bit b)).getLsbD i = (decide (i = 0) && decide (0 < w) && b) := by
  rw [BitVec.getLsbD_ofNat]
  cases b <;> simp [bit]
  · cases i with
    | zero => simp
    | succ n => simp [Nat.testBit_succ]

/-- One more repetition is one more step at the end. -/
theorem shiftRun_succ (k : ShiftKind) (w : Width) (n : Nat) (x : Val w) (cf : Bool) :
    shiftRun k w (n + 1) x cf = shiftStep k w (shiftRun k w n x cf).1 (shiftRun k w n x cf).2 := by
  induction n generalizing x cf with
  | zero => rfl
  | succ n ih => exact ih _ _

theorem shiftRun_shl (w : Width) (n : Nat) (x : Val w) (cf : Bool) :
    (shiftRun .shl w n x cf).1.toNat = x.toNat * 2 ^ n % 2 ^ w.bits ∧
      (n ≠ 0 → (shiftRun .shl w n x cf).2 = decide (x.toNat * 2 ^ n / 2 ^ w.bits % 2 = 1)) := by
  induction n with
  | zero => exact ⟨by simp [shiftRun, Nat.mod_eq_of_lt x.isLt], by simp⟩
  | succ n ih =>
    obtain ⟨h1, -⟩ := ih
    rw [shiftRun_succ]
    generalize (shiftRun .shl w n x cf).1 = y at *
    have hy : (y <<< 1).toNat = y.toNat * 2 % 2 ^ w.bits := by simp [BitVec.toNat_shiftLeft, Nat.shiftLeft_eq]
    simp only [shiftStep, hy, BitVec.msb_eq_decide, h1, pow_succ, ← mul_assoc, decide_eq_decide]
    generalize x.toNat * 2 ^ n = X at *
    cases w <;> simp only [Width.bits] at * <;> norm_num at * <;> constructor <;> omega

theorem shiftRun_shr (w : Width) (n : Nat) (x : Val w) (cf : Bool) :
    (shiftRun .shr w n x cf).1.toNat = x.toNat / 2 ^ n ∧
      (n ≠ 0 → (shiftRun .shr w n x cf).2 = decide (x.toNat / 2 ^ (n - 1) % 2 = 1)) := by
  induction n with
  | zero => exact ⟨by simp [shiftRun], by simp⟩
  | succ n ih =>
    obtain ⟨h1, -⟩ := ih
    rw [shiftRun_succ]
    generalize (shiftRun .shr w n x cf).1 = y at *
    have hy : (y >>> 1).toNat = y.toNat / 2 := by simp [BitVec.toNat_ushiftRight, Nat.shiftRight_eq_div_pow]
    refine ⟨?_, fun _ => ?_⟩
    · simp only [shiftStep, hy, h1, pow_succ, Nat.div_div_eq_div_mul]
    · simp [shiftStep, BitVec.getLsbD, h1, Nat.testBit_zero]

theorem shiftRun_sar (w : Width) (n : Nat) (x : Val w) (cf : Bool) :
    (shiftRun .sar w n x cf).1.toInt = x.toInt / 2 ^ n ∧
      (n ≠ 0 → (shiftRun .sar w n x cf).2 = decide (x.toInt / 2 ^ (n - 1) % 2 = 1)) := by
  induction n with
  | zero => exact ⟨by simp [shiftRun], by simp⟩
  | succ n ih =>
    obtain ⟨h1, -⟩ := ih
    rw [shiftRun_succ]
    generalize (shiftRun .sar w n x cf).1 = y at *
    have hy : (y.sshiftRight 1).toInt = y.toInt / 2 := by
      rw [BitVec.toInt_sshiftRight, Int.shiftRight_eq_div_pow]; norm_num
    refine ⟨?_, fun _ => ?_⟩
    · simp only [shiftStep, hy, h1, pow_succ]
      rw [Int.ediv_ediv_of_nonneg (by positivity)]
    · rw [Nat.add_sub_cancel, ← h1]
      simp only [shiftStep, BitVec.getLsbD, Nat.testBit_zero, BitVec.toInt_eq_toNat_cond, decide_eq_decide]
      have := y.isLt
      clear hy h1
      cases w <;> simp only [Width.bits] at * <;> norm_num at * <;> split <;> omega

theorem one_lt_bits (w : Width) : 1 < w.bits := by cases w <;> decide

/-- A bit of a vector turned left. -/
theorem getLsbD_rotL {n : Nat} (x : BitVec n) (k i : Nat) (hi : i < n) :
    (x.rotateLeft k).getLsbD i = if i < k % n then x.getLsbD (n - k % n + i) else x.getLsbD (i - k % n) := by
  rw [BitVec.getLsbD_rotateLeft]
  split <;> simp [*]

/-- A bit of a vector turned right. -/
theorem getLsbD_rotR {n : Nat} (x : BitVec n) (k i : Nat) (hi : i < n) :
    (x.rotateRight k).getLsbD i = if i < n - k % n then x.getLsbD (k % n + i) else x.getLsbD (i - (n - k % n)) := by
  rw [BitVec.getLsbD_rotateRight]
  split <;> simp [*]

theorem succ_mod_cases (k n : Nat) (hn : 1 < n) :
    ((k + 1) % n = k % n + 1 ∧ k % n + 1 < n) ∨ ((k + 1) % n = 0 ∧ k % n + 1 = n) := by
  have hk : k % n < n := Nat.mod_lt _ (by omega)
  rcases Nat.lt_or_ge (k % n + 1) n with h | h
  · left; exact ⟨by rw [Nat.add_mod, Nat.mod_eq_of_lt hn, Nat.mod_eq_of_lt h], h⟩
  · right; exact ⟨by rw [Nat.add_mod, Nat.mod_eq_of_lt hn, show k % n + 1 = n by omega, Nat.mod_self], by omega⟩

/-- One step to the left is a rotation by one. -/
theorem rotateLeft_one_getLsbD {n : Nat} (y : BitVec n) (hn : 1 < n) (i : Nat) (hi : i < n) :
    (y.rotateLeft 1).getLsbD i = if i = 0 then y.getLsbD (n - 1) else y.getLsbD (i - 1) := by
  rw [getLsbD_rotL _ _ _ hi, Nat.mod_eq_of_lt hn]
  by_cases h : i = 0
  · simp [h]
  · simp [h, show ¬ i < 1 by omega]

theorem rotateLeft_succ {n : Nat} (x : BitVec n) (hn : 1 < n) (k : Nat) :
    (x.rotateLeft k).rotateLeft 1 = x.rotateLeft (k + 1) := by
  apply BitVec.eq_of_getLsbD_eq
  intro i hi
  rw [rotateLeft_one_getLsbD _ hn i hi, getLsbD_rotL _ _ _ hi, getLsbD_rotL _ _ _ (by omega),
    getLsbD_rotL _ _ _ (by omega)]
  rcases succ_mod_cases k n hn with ⟨e, h⟩ | ⟨e, h⟩ <;> rw [e] <;> split <;> split <;> split <;>
    first | omega | (congr 1; omega)

theorem rotateRight_one_getLsbD {n : Nat} (y : BitVec n) (hn : 1 < n) (i : Nat) (hi : i < n) :
    (y.rotateRight 1).getLsbD i = if i = n - 1 then y.getLsbD 0 else y.getLsbD (i + 1) := by
  rw [getLsbD_rotR _ _ _ hi, Nat.mod_eq_of_lt hn]
  split <;> split <;> first | omega | (congr 1; omega)

theorem rotateRight_succ {n : Nat} (x : BitVec n) (hn : 1 < n) (k : Nat) :
    (x.rotateRight k).rotateRight 1 = x.rotateRight (k + 1) := by
  apply BitVec.eq_of_getLsbD_eq
  intro i hi
  rw [rotateRight_one_getLsbD _ hn i hi, getLsbD_rotR _ _ i hi]
  split
  · rw [getLsbD_rotR _ _ _ (by omega)]
    rcases succ_mod_cases k n hn with ⟨e, h⟩ | ⟨e, h⟩ <;> rw [e] <;> split <;> split <;>
      first | omega | (congr 1; omega)
  · rw [getLsbD_rotR _ _ _ (by omega)]
    rcases succ_mod_cases k n hn with ⟨e, h⟩ | ⟨e, h⟩ <;> rw [e] <;> split <;> split <;>
      first | omega | (congr 1; omega)

theorem rotateLeft_zero' {n : Nat} (x : BitVec n) : x.rotateLeft 0 = x := by
  apply BitVec.eq_of_getLsbD_eq
  intro i hi
  rw [BitVec.getLsbD_rotateLeft]
  simp [hi]

theorem rotateRight_zero' {n : Nat} (x : BitVec n) : x.rotateRight 0 = x := by
  apply BitVec.eq_of_getLsbD_eq
  intro i hi
  rw [BitVec.getLsbD_rotateRight]
  simp [hi]

theorem shiftStep_rol (w : Width) (x : Val w) (cf : Bool) :
    (shiftStep .rol w x cf).1 = x.rotateLeft 1 ∧ (shiftStep .rol w x cf).2 = (x.rotateLeft 1).getLsbD 0 := by
  have hn := one_lt_bits w
  constructor
  · apply BitVec.eq_of_getLsbD_eq
    intro i hi
    simp only [shiftStep]
    rw [BitVec.getLsbD_or, BitVec.getLsbD_shiftLeft, getLsbD_ofNat_bit, rotateLeft_one_getLsbD _ hn i hi,
      BitVec.msb_eq_getLsbD_last]
    by_cases h : i = 0
    · simp [h, show 0 < w.bits by omega]
    · simp [h, hi, show ¬ i < 1 by omega]
  · rw [rotateLeft_one_getLsbD _ hn 0 (by omega), if_pos rfl]
    exact BitVec.msb_eq_getLsbD_last x

theorem shiftRun_rol (w : Width) (n : Nat) (x : Val w) (cf : Bool) :
    (shiftRun .rol w n x cf).1 = x.rotateLeft n ∧
      (n ≠ 0 → (shiftRun .rol w n x cf).2 = (x.rotateLeft n).getLsbD 0) := by
  induction n with
  | zero => exact ⟨(rotateLeft_zero' x).symm, by simp⟩
  | succ n ih =>
    rw [shiftRun_succ, (shiftStep_rol w _ _).1, (shiftStep_rol w _ _).2, ih.1, rotateLeft_succ _ (one_lt_bits w)]
    exact ⟨rfl, fun _ => rfl⟩

theorem getLsbD_top_bit (w : Width) (b : Bool) (i : Nat) (hi : i < w.bits) :
    (BitVec.ofNat w.bits (bit b) <<< (w.bits - 1)).getLsbD i = (decide (i = w.bits - 1) && b) := by
  rw [BitVec.getLsbD_shiftLeft, getLsbD_ofNat_bit]
  by_cases h : i = w.bits - 1
  · simp [h]; omega
  · simp [h, show i < w.bits - 1 by omega]

theorem shiftStep_ror (w : Width) (x : Val w) (cf : Bool) :
    (shiftStep .ror w x cf).1 = x.rotateRight 1 ∧ (shiftStep .ror w x cf).2 = (x.rotateRight 1).msb := by
  have hn := one_lt_bits w
  constructor
  · apply BitVec.eq_of_getLsbD_eq
    intro i hi
    simp only [shiftStep]
    rw [BitVec.getLsbD_or, getLsbD_top_bit w _ i hi, rotateRight_one_getLsbD _ hn i hi, BitVec.getLsbD_ushiftRight]
    by_cases h : i = w.bits - 1
    · have e : x.getLsbD (1 + (w.bits - 1)) = false := BitVec.getLsbD_of_ge _ _ (by omega)
      simp [e, h]
    · simp [h, Nat.add_comm]
  · rw [BitVec.msb_eq_getLsbD_last, rotateRight_one_getLsbD _ hn _ (by omega), if_pos rfl]
    rfl

theorem shiftRun_ror (w : Width) (n : Nat) (x : Val w) (cf : Bool) :
    (shiftRun .ror w n x cf).1 = x.rotateRight n ∧ (n ≠ 0 → (shiftRun .ror w n x cf).2 = (x.rotateRight n).msb) := by
  induction n with
  | zero => exact ⟨(rotateRight_zero' x).symm, by simp⟩
  | succ n ih =>
    rw [shiftRun_succ, (shiftStep_ror w _ _).1, (shiftStep_ror w _ _).2, ih.1, rotateRight_succ _ (one_lt_bits w)]
    exact ⟨rfl, fun _ => rfl⟩

/-- The bits of an operand with CF above it. -/
theorem getLsbD_withCarry {n : Nat} (c : Bool) (x : BitVec n) (i : Nat) :
    (BitVec.ofBool c ++ x).getLsbD i = if i < n then x.getLsbD i else (decide (i = n) && c) := by
  rw [BitVec.getLsbD_append]
  split
  · rfl
  · cases c <;> simp
    · omega

theorem shiftStep_rcl (w : Width) (x : Val w) (cf : Bool) :
    BitVec.ofBool (shiftStep .rcl w x cf).2 ++ (shiftStep .rcl w x cf).1 = (BitVec.ofBool cf ++ x).rotateLeft 1 := by
  have hn := one_lt_bits w
  apply BitVec.eq_of_getLsbD_eq
  intro i hi
  rw [rotateLeft_one_getLsbD _ (by omega) i hi, getLsbD_withCarry, getLsbD_withCarry, getLsbD_withCarry]
  simp only [shiftStep]
  rw [BitVec.getLsbD_or, BitVec.getLsbD_shiftLeft, getLsbD_ofNat_bit, BitVec.msb_eq_getLsbD_last]
  by_cases h : i = 0
  · simp [h, show 0 < w.bits by omega]
  · by_cases h2 : i < w.bits
    · simp [h, h2, show ¬ i < 1 by omega, show i - 1 < w.bits by omega]
    · have e : i = w.bits := by omega
      simp [e, show w.bits - 1 < w.bits by omega, show w.bits ≠ 0 by omega]

theorem shiftRun_rcl (w : Width) (n : Nat) (x : Val w) (cf : Bool) :
    BitVec.ofBool (shiftRun .rcl w n x cf).2 ++ (shiftRun .rcl w n x cf).1 = (BitVec.ofBool cf ++ x).rotateLeft n := by
  have hn := one_lt_bits w
  induction n with
  | zero => exact (rotateLeft_zero' _).symm
  | succ n ih => rw [shiftRun_succ, shiftStep_rcl, ih, rotateLeft_succ _ (by omega)]

theorem shiftStep_rcr (w : Width) (x : Val w) (cf : Bool) :
    BitVec.ofBool (shiftStep .rcr w x cf).2 ++ (shiftStep .rcr w x cf).1 = (BitVec.ofBool cf ++ x).rotateRight 1 := by
  have hn := one_lt_bits w
  apply BitVec.eq_of_getLsbD_eq
  intro i hi
  rw [rotateRight_one_getLsbD _ (by omega) i hi, getLsbD_withCarry, getLsbD_withCarry, getLsbD_withCarry]
  simp only [shiftStep]
  by_cases h2 : i < w.bits
  · rw [if_pos h2, BitVec.getLsbD_or, getLsbD_top_bit w _ i h2, BitVec.getLsbD_ushiftRight, if_neg (by omega)]
    by_cases h : i = w.bits - 1
    · simp [h, show w.bits - 1 + 1 = w.bits by omega, show 1 + (w.bits - 1) = w.bits by omega]
    · simp [h, Nat.add_comm, show i + 1 < w.bits by omega]
  · have e : i = w.bits := by omega
    rw [if_neg h2, if_pos (by omega), if_pos (by omega)]
    simp [e]

theorem shiftRun_rcr (w : Width) (n : Nat) (x : Val w) (cf : Bool) :
    BitVec.ofBool (shiftRun .rcr w n x cf).2 ++ (shiftRun .rcr w n x cf).1 = (BitVec.ofBool cf ++ x).rotateRight n := by
  have hn := one_lt_bits w
  induction n with
  | zero => exact (rotateRight_zero' _).symm
  | succ n ih => rw [shiftRun_succ, shiftStep_rcr, ih, rotateRight_succ _ (by omega)]

end Sys2Proof.Machine
end

