-- ==== Sys2Proof/Tests/Slice0.lean ====
section
/-! SUPPORT. Tests: ill-formed terms are refused, every constructor's words decode and encode, vectors of
spec/95_test_vectors.md run, and for every statement a state and operands that meet its hypotheses. -/

namespace Sys2Proof.Tests

set_option Elab.async false

open Sys2Proof.Machine

/-! ### Well-formedness -/

theorem test_wf_bp_alone : (Instr.movRegRm .word .r0 (.mem (.based .bp))).wf = false := by decide
theorem test_wf_mov_cs : (Instr.movSregRm .cs (.reg .r0)).wf = false := by decide
theorem test_wf_xchg_ax_ax : (Instr.xchgAxReg .r0).wf = false := by decide
theorem test_wf_bp_displaced : (Instr.movRegRm .word .r0 (.mem (.disp8 .bp 0))).wf = true := by decide

/-! ### Decoding and encoding -/

/-- Words of ADD, ADC, SUB, SBB, CMP (R281, R282, R284, R285, R292; the group bytes 80 to 83), written out from their
encodings. -/
def words_two_operand_arithmetic : List (List Byte × Instr) :=
  [([0x00, 0xD8], .addRmReg .byte (.reg .r0) .r3), ([0x03, 0x47, 0xFE], .addRegRm .word .r0 (.mem (.disp8 .bx 0xFE))),
   ([0x05, 0x34, 0x12], .addAccImm (.w 0x1234)), ([0x80, 0x07, 0x7F], .addRmImm (.mem (.based .bx)) (.b 0x7F)),
   ([0x82, 0xC1, 0x05], .addRm8Imm82 (.reg .r1) 5), ([0x83, 0xC2, 0xFF], .addRmSext (.reg .r2) 0xFF),
   ([0x11, 0xC8], .adcRmReg .word (.reg .r0) .r1),
   ([0x12, 0x26, 0x34, 0x12], .adcRegRm .byte .r4 (.mem (.direct 0x1234))), ([0x14, 0x80], .adcAccImm (.b 0x80)),
   ([0x81, 0xD3, 0x00, 0x80], .adcRmImm (.reg .r3) (.w 0x8000)), ([0x82, 0xD4, 0x01], .adcRm8Imm82 (.reg .r4) 1),
   ([0x83, 0xD5, 0x80], .adcRmSext (.reg .r5) 0x80), ([0x19, 0x0C], .sbbRmReg .word (.mem (.based .si)) .r1),
   ([0x1A, 0xC7], .sbbRegRm .byte .r0 (.reg .r7)), ([0x1D, 0x01, 0x00], .sbbAccImm (.w 1)),
   ([0x80, 0xD8, 0x09], .sbbRmImm (.reg .r0) (.b 9)), ([0x82, 0xDE, 0x02], .sbbRm8Imm82 (.reg .r6) 2),
   ([0x83, 0x1D, 0xFE], .sbbRmSext (.mem (.based .di)) 0xFE),
   ([0x28, 0xA1, 0x00, 0x01], .subRmReg .byte (.mem (.disp16 .bxdi 0x0100)) .r4),
   ([0x2B, 0xC3], .subRegRm .word .r0 (.reg .r3)), ([0x2C, 0x01], .subAccImm (.b 1)),
   ([0x81, 0xEC, 0x00, 0x01], .subRmImm (.reg .r4) (.w 0x0100)), ([0x82, 0xE8, 0x03], .subRm8Imm82 (.reg .r0) 3),
   ([0x83, 0xEF, 0x04], .subRmSext (.reg .r7) 4), ([0x38, 0xC8], .cmpRmReg .byte (.reg .r0) .r1),
   ([0x3B, 0x02], .cmpRegRm .word .r0 (.mem (.based .bpsi))), ([0x3C, 0x0A], .cmpAccImm (.b 0x0A)),
   ([0x81, 0xF9, 0xFF, 0x7F], .cmpRmImm (.reg .r1) (.w 0x7FFF)), ([0x82, 0xFA, 0x20], .cmpRm8Imm82 (.reg .r2) 0x20),
   ([0x83, 0x7E, 0x04, 0xFF], .cmpRmSext (.mem (.disp8 .bp 4)) 0xFF)]

theorem test_decode_two_operand_arithmetic : ∀ e ∈ words_two_operand_arithmetic, decode e.1 = .ok (e.2, []) := by
  decide +kernel

theorem test_encode_two_operand_arithmetic : ∀ e ∈ words_two_operand_arithmetic, encode e.2 = e.1 := by decide +kernel

/-- Words of AND, OR, XOR, TEST, NOT (42_logic.md R321 to R325), written out from their encodings. -/
def words_logic : List (List Byte × Instr) :=
  [([0x20, 0xD8], .andRmReg .byte (.reg .r0) .r3), ([0x23, 0x03], .andRegRm .word .r0 (.mem (.based .bpdi))),
   ([0x25, 0xFF, 0x00], .andAccImm (.w 0x00FF)), ([0x80, 0xE0, 0x0F], .andRmImm (.reg .r0) (.b 0x0F)),
   ([0x09, 0xD8], .orRmReg .word (.reg .r0) .r3), ([0x0A, 0xE4], .orRegRm .byte .r4 (.reg .r4)),
   ([0x0C, 0x80], .orAccImm (.b 0x80)), ([0x81, 0xC9, 0x01, 0x00], .orRmImm (.reg .r1) (.w 1)),
   ([0x31, 0xC0], .xorRmReg .word (.reg .r0) .r0), ([0x32, 0x00], .xorRegRm .byte .r0 (.mem (.based .bxsi))),
   ([0x35, 0x00, 0x80], .xorAccImm (.w 0x8000)), ([0x80, 0xF3, 0xFF], .xorRmImm (.reg .r3) (.b 0xFF)),
   ([0x85, 0xC0], .testRmReg .word (.reg .r0) .r0), ([0xA8, 0x01], .testAccImm (.b 1)),
   ([0xF7, 0xC2, 0x00, 0x80], .testRmImm (.reg .r2) (.w 0x8000)), ([0xF6, 0xD0], .notRm .byte (.reg .r0))]

theorem test_decode_logic : ∀ e ∈ words_logic, decode e.1 = .ok (e.2, []) := by decide +kernel

theorem test_encode_logic : ∀ e ∈ words_logic, encode e.2 = e.1 := by decide +kernel

/-- Words of INC, DEC, NEG, MUL, IMUL, DIV, IDIV, the adjustments, CBW, CWD (R283 to R301), written out from their
encodings. -/
def words_one_operand_arithmetic : List (List Byte × Instr) :=
  [([0x41], .incReg .r1), ([0xFE, 0xC4], .incRm .byte (.reg .r4)), ([0x4F], .decReg .r7),
   ([0xFF, 0x0F], .decRm .word (.mem (.based .bx))), ([0xF7, 0xD8], .negRm .word (.reg .r0)),
   ([0xF6, 0xE3], .mulRm .byte (.reg .r3)), ([0xF7, 0xEB], .imulRm .word (.reg .r3)),
   ([0x69, 0xC3, 0x00, 0x01], .imulRegRmImm16 .r0 (.reg .r3) 0x0100),
   ([0x6B, 0xC3, 0x80], .imulRegRmImm8 .r0 (.reg .r3) 0x80), ([0xF7, 0xF1], .divRm .word (.reg .r1)),
   ([0xF6, 0xF9], .idivRm .byte (.reg .r1)), ([0x27], .daa), ([0x2F], .das), ([0x37], .aaa), ([0x3F], .aas),
   ([0xD4, 0x0A], .aam), ([0xD5, 0x0A], .aad), ([0x98], .cbw), ([0x99], .cwd)]

theorem test_decode_one_operand_arithmetic : ∀ e ∈ words_one_operand_arithmetic, decode e.1 = .ok (e.2, []) := by
  decide +kernel

theorem test_encode_one_operand_arithmetic : ∀ e ∈ words_one_operand_arithmetic, encode e.2 = e.1 := by decide +kernel

/-- Words of the shift and rotate groups C0, C1, D0 to D3 (R331 to R337), written out from their encodings. -/
def words_shifts : List (List Byte × Instr) :=
  [([0xC0, 0xC0, 0x03], .rolImm .byte (.reg .r0) 3), ([0xD1, 0xC0], .rolOne .word (.reg .r0)),
   ([0xD2, 0xC3], .rolCl .byte (.reg .r3)), ([0xC1, 0xC8, 0x04], .rorImm .word (.reg .r0) 4),
   ([0xD0, 0xC8], .rorOne .byte (.reg .r0)), ([0xD3, 0xC9], .rorCl .word (.reg .r1)),
   ([0xC0, 0xD1, 0x02], .rclImm .byte (.reg .r1) 2), ([0xD1, 0x17], .rclOne .word (.mem (.based .bx))),
   ([0xD2, 0xD2], .rclCl .byte (.reg .r2)), ([0xC1, 0xDA, 0x09], .rcrImm .word (.reg .r2) 9),
   ([0xD0, 0xD8], .rcrOne .byte (.reg .r0)), ([0xD3, 0xDB], .rcrCl .word (.reg .r3)),
   ([0xC0, 0xE0, 0x08], .shlImm .byte (.reg .r0) 8), ([0xD1, 0xE0], .shlOne .word (.reg .r0)),
   ([0xD3, 0xE0], .shlCl .word (.reg .r0)), ([0xC1, 0xE8, 0x10], .shrImm .word (.reg .r0) 0x10),
   ([0xD0, 0xE8], .shrOne .byte (.reg .r0)), ([0xD2, 0xEC], .shrCl .byte (.reg .r4)),
   ([0xC1, 0xF8, 0x0F], .sarImm .word (.reg .r0) 0x0F), ([0xD0, 0x3C], .sarOne .byte (.mem (.based .si))),
   ([0xD3, 0xFF], .sarCl .word (.reg .r7))]

theorem test_decode_shifts : ∀ e ∈ words_shifts, decode e.1 = .ok (e.2, []) := by decide +kernel

theorem test_encode_shifts : ∀ e ∈ words_shifts, encode e.2 = e.1 := by decide +kernel

/-- Words of MOV, XCHG, PUSH, POP, IN, OUT, XLAT, LEA, LDS, LES, the flag moves (40_data_transfer.md R241 to R265),
written out from their encodings. -/
def words_data_transfer : List (List Byte × Instr) :=
  [([0x88, 0xE0], .movRmReg .byte (.reg .r0) .r4), ([0x8B, 0x40, 0x03], .movRegRm .word .r0 (.mem (.disp8 .bxsi 3))),
   ([0xC7, 0x46, 0x04, 0x34, 0x12], .movRmImm (.mem (.disp8 .bp 4)) (.w 0x1234)),
   ([0xB4, 0x4C], .movRegImm .r4 (.b 0x4C)), ([0xA0, 0x34, 0x12], .movAccMoffs .byte 0x1234),
   ([0xA3, 0xFF, 0xFF], .movMoffsAcc .word 0xFFFF), ([0x8E, 0xDB], .movSregRm .ds (.reg .r3)),
   ([0x8C, 0xD0], .movRmSreg (.reg .r0) .ss), ([0x68, 0x34, 0x12], .pushImm16 0x1234), ([0x6A, 0xFF], .pushImm8 0xFF),
   ([0xFF, 0x77, 0x02], .pushRm (.mem (.disp8 .bx 2))), ([0x54], .pushReg .r4), ([0x0E], .pushSreg .cs),
   ([0x60], .pusha), ([0x5C], .popReg .r4), ([0x8F, 0x06, 0x00, 0x20], .popRm (.mem (.direct 0x2000))), ([0x07], .popEs),
   ([0x17], .popSs), ([0x1F], .popDs), ([0x61], .popa), ([0x87, 0x6E, 0x00], .xchgRmReg .word (.mem (.disp8 .bp 0)) .r5),
   ([0x93], .xchgAxReg .r3), ([0xE4, 0x60], .inImm .byte 0x60), ([0xED], .inDx .word),
   ([0xE7, 0x80], .outImm .word 0x80), ([0xEE], .outDx .byte), ([0xD7], .xlat),
   ([0x8D, 0x40, 0x05], .lea .r0 (.disp8 .bxsi 5)), ([0xC5, 0x37], .lds .r6 (.based .bx)),
   ([0xC4, 0x1E, 0x10, 0x00], .les .r3 (.direct 0x0010)), ([0x9C], .pushf), ([0x9D], .popf), ([0x9E], .sahf),
   ([0x9F], .lahf)]

theorem test_decode_data_transfer : ∀ e ∈ words_data_transfer, decode e.1 = .ok (e.2, []) := by decide +kernel

theorem test_encode_data_transfer : ∀ e ∈ words_data_transfer, encode e.2 = e.1 := by decide +kernel

/-- Words of the string instructions and the prefixes (43_string.md R351 to R360; 46_processor_control.md R480, R484),
written out from their encodings. -/
def words_strings : List (List Byte × Instr) :=
  [([0xA4], .movs .byte), ([0xA7], .cmps .word), ([0xAE], .scas .byte), ([0xAD], .lods .word), ([0xAA], .stos .byte),
   ([0x6D], .ins .word), ([0x6E], .outs .byte), ([0xF3], .repPfx), ([0xF2], .repnePfx), ([0xF0], .lockPfx),
   ([0x26], .segPfx .es), ([0x2E], .segPfx .cs), ([0x36], .segPfx .ss), ([0x3E], .segPfx .ds)]

theorem test_decode_strings : ∀ e ∈ words_strings, decode e.1 = .ok (e.2, []) := by decide +kernel

theorem test_encode_strings : ∀ e ∈ words_strings, encode e.2 = e.1 := by decide +kernel

/-- Words of jumps, calls, returns, loops, ENTER, LEAVE, BOUND, interrupts (44_control_transfer.md R373 to R409),
written out from their encodings. -/
def words_control_transfer : List (List Byte × Instr) :=
  [([0xEB, 0xFE], .jmpRel8 0xFE), ([0xE9, 0x00, 0x80], .jmpRel16 0x8000), ([0xFF, 0xE3], .jmpRm (.reg .r3)),
   ([0xEA, 0x00, 0x01, 0x00, 0x20], .jmpFar 0x0100 0x2000), ([0xFF, 0x2F], .jmpFarMem (.based .bx)),
   ([0xE8, 0x10, 0x00], .callRel 0x0010), ([0xFF, 0x97, 0x00, 0x02], .callRm (.mem (.disp16 .bx 0x0200))),
   ([0x9A, 0x34, 0x12, 0x00, 0xF0], .callFar 0x1234 0xF000), ([0xFF, 0x1E, 0x00, 0x03], .callFarMem (.direct 0x0300)),
   ([0xC3], .ret), ([0xC2, 0x04, 0x00], .retImm 4), ([0xCB], .retFar), ([0xCA, 0x02, 0x00], .retFarImm 2),
   ([0xC8, 0x04, 0x00, 0x02], .enter 4 2), ([0xC9], .leave), ([0x62, 0x07], .bound .r0 (.based .bx)), ([0xCC], .int3),
   ([0xCD, 0x21], .intImm 0x21), ([0xCE], .into), ([0xCF], .iret), ([0xE0, 0xF0], .loopne 0xF0),
   ([0xE1, 0xF0], .loope 0xF0), ([0xE2, 0xFE], .loop 0xFE), ([0xE3, 0x10], .jcxz 0x10)]

theorem test_decode_control_transfer : ∀ e ∈ words_control_transfer, decode e.1 = .ok (e.2, []) := by decide +kernel

theorem test_encode_control_transfer : ∀ e ∈ words_control_transfer, encode e.2 = e.1 := by decide +kernel

/-- Words of the sixteen conditions of opcodes 70 to 7F (R380), written out from their encodings. -/
def words_conditional_jumps : List (List Byte × Instr) :=
  [([0x70, 0x01], .jo 1), ([0x71, 0x02], .jno 2), ([0x72, 0x03], .jb 3), ([0x73, 0x04], .jnb 4), ([0x74, 0x05], .je 5),
   ([0x75, 0x06], .jne 6), ([0x76, 0x07], .jbe 7), ([0x77, 0x08], .jnbe 8), ([0x78, 0x09], .js 9),
   ([0x79, 0x0A], .jns 10), ([0x7A, 0x0B], .jp 11), ([0x7B, 0x0C], .jnp 12), ([0x7C, 0x0D], .jl 13),
   ([0x7D, 0x0E], .jnl 14), ([0x7E, 0x0F], .jle 15), ([0x7F, 0x10], .jnle 16)]

theorem test_decode_conditional_jumps : ∀ e ∈ words_conditional_jumps, decode e.1 = .ok (e.2, []) := by decide +kernel

theorem test_encode_conditional_jumps : ∀ e ∈ words_conditional_jumps, encode e.2 = e.1 := by decide +kernel

/-- Words of processor and protection control (46_processor_control.md, 47_protection_control.md), written out from
their encodings. -/
def words_control : List (List Byte × Instr) :=
  [([0xF8], .clc), ([0xF5], .cmc), ([0xF9], .stc), ([0xFC], .cld), ([0xFD], .std), ([0xFA], .cli), ([0xFB], .sti),
   ([0x90], .nop), ([0xF4], .hlt), ([0x9B], .wait), ([0xDD, 0x46, 0x02], .esc 5 0 (.mem (.disp8 .bp 2))),
   ([0x0F, 0x06], .clts), ([0x0F, 0x01, 0x16, 0x10, 0x00], .lgdt (.direct 0x0010)),
   ([0x0F, 0x01, 0x1F], .lidt (.based .bx)), ([0x0F, 0x01, 0x06, 0x10, 0x00], .sgdt (.direct 0x0010)),
   ([0x0F, 0x01, 0x4D, 0x02], .sidt (.disp8 .di 2)), ([0x0F, 0x01, 0xF0], .lmsw (.reg .r0)),
   ([0x0F, 0x01, 0xE0], .smsw (.reg .r0)), ([0x0F, 0x00, 0xD0], .lldt (.reg .r0)),
   ([0x0F, 0x00, 0xC3], .sldt (.reg .r3)), ([0x0F, 0x00, 0xD8], .ltr (.reg .r0)),
   ([0x0F, 0x00, 0x0F], .str (.mem (.based .bx))), ([0x0F, 0x00, 0xE3], .verr (.reg .r3)),
   ([0x0F, 0x00, 0xEB], .verw (.reg .r3)), ([0x0F, 0x02, 0xC3], .lar .r0 (.reg .r3)),
   ([0x0F, 0x03, 0xC3], .lsl .r0 (.reg .r3)), ([0x63, 0xD8], .arpl (.reg .r0) .r3)]

theorem test_decode_control : ∀ e ∈ words_control, decode e.1 = .ok (e.2, []) := by decide +kernel

theorem test_encode_control : ∀ e ∈ words_control, encode e.2 = e.1 := by decide +kernel

/-! ### Refused bytes -/

theorem test_decode_undefined_opcode : decode [0x0F, 0x04] = .error .undefinedOpcode := by decide +kernel
theorem test_decode_mov_cs : decode [0x8E, 0xC8] = .error .undefinedOpcode := by decide +kernel
/-- The reg field is judged before the displacement, here missing, is read (60_exceptions.md R550 (e)). -/
theorem test_decode_mov_cs_no_displacement : decode [0x8E, 0x8E] = .error .undefinedOpcode := by decide +kernel
theorem test_decode_mov_ds_no_displacement : decode [0x8E, 0x9E] = .error .truncated := by decide +kernel
theorem test_decode_unlisted_no_displacement : decode [0xF7, 0x8E] = .error .unlistedGroup := by decide +kernel
theorem test_decode_lea_register : decode [0x8D, 0xC0] = .error .registerOperand := by decide +kernel
theorem test_decode_pop_group : decode [0x8F, 0xC8] = .error .pushPopGroup := by decide +kernel
theorem test_decode_unlisted_member : decode [0xD0, 0xF0] = .error .unlistedGroup := by decide +kernel
theorem test_decode_aam_base : decode [0xD4, 0x0B] = .error .adjustBase := by decide +kernel
theorem test_decode_truncated : decode [0x81, 0xC0, 0x34] = .error .truncated := by decide +kernel

/-- The numbering of opcode_table.json: the first byte is the most significant. -/
theorem test_decodeTableWord : decodeTableWord 16 0x83C3 = some (.addRmSext (.reg .r3) 0) ∧
    decodeTableWord 24 0x0F0100 = some (.sgdt (.based .bxsi)) ∧ decodeTableWord 8 0x90 = some .nop := by decide +kernel

/-! ### States -/

/-- Set a word register. -/
def ax (v : Word) (s : State) : State := s.setW .r0 v
def cx (v : Word) (s : State) : State := s.setW .r1 v
def dx (v : Word) (s : State) : State := s.setW .r2 v
def bx (v : Word) (s : State) : State := s.setW .r3 v
def sp (v : Word) (s : State) : State := s.setW .r4 v
def bp (v : Word) (s : State) : State := s.setW .r5 v
def si (v : Word) (s : State) : State := s.setW .r6 v
def di (v : Word) (s : State) : State := s.setW .r7 v

/-- Set a byte or a word of memory. -/
def byte (a : Nat) (v : Byte) (s : State) : State := { s with mem := Memory.write s.mem a v }
def word (a : Nat) (v : Word) (s : State) : State := s |> byte a (loByte v) |> byte (a + 1) (hiByte v)

/-- Set the flags, some bits of MSW, a segment register, a table register, a pin. -/
def flags (v : Word) (s : State) : State := s.setFlags (Flags.ofWord v)
def mswBits (v : Word) (s : State) : State :=
  { s with msw := { s.msw with mp := v.getLsbD 1, em := v.getLsbD 2, ts := v.getLsbD 3 } }
def setEs (v : Word) (s : State) : State := { s with es := SegReg.real v }
def setCs (g : SegReg) (s : State) : State := { s with cs := g }
def setSs (g : SegReg) (s : State) : State := { s with ss := g }
def setDs (g : SegReg) (s : State) : State := { s with ds := g }
def nullDs (s : State) : State := { s with ds := { s.ds with sel := 0, valid := false } }
def idtLimit (v : Word) (s : State) : State := { s with idtr := { s.idtr with limit := v } }
def setGdtr (b : Phys) (l : Word) (s : State) : State := { s with gdtr := ⟨b, l⟩ }
def signalIntr (n : Byte) (s : State) : State :=
  { s with pins := { s.pins with intr := true, vector := n }, flags := { s.flags with ief := true } }
def signalNmi (s : State) : State := { s with pins := { s.pins with nmi := true } }
def signalBusy (s : State) : State := { s with pins := { s.pins with busy := true } }
def signalError (s : State) : State := { s with pins := { s.pins with error := true } }
def transferring (o : ExtOperand) (s : State) : State := { s with pins := { s.pins with pereq := true }, ext := some o }

def mastered (b : BusWrite) (s : State) : State :=
  { s with pins := { s.pins with hold := true, busWrite := some b } }

/-- Three words of a descriptor at an address. -/
def desc (a : Nat) (w0 w1 w2 : Word) (s : State) : State := s |> word a w0 |> word (a + 2) w1 |> word (a + 4) w2

/-- An interrupt gate of vector `n` to 0008:3000. -/
def gateAt (n : Nat) (s : State) : State := s |> desc (0x1000 + 8 * n) 0x3000 8 0x8600

/-- A task gate of vector `n` to the task state segment 0058. -/
def taskGateAt (n : Nat) (s : State) : State := s |> desc (0x1000 + 8 * n) 0 0x58 0x8500

/-- Real mode with every segment at 0. -/
def flat : State := { State.reset with cs := SegReg.real 0 }

/-- Protected mode at level 0: GDT at 0800H (code 08, data 10, level 3 data 18, absent data 20, expand-down data 28),
IDT at
1000H with gates for vectors 3 (trap, DPL 3) and 13. -/
def protectedMode (s : State) : State :=
  { s with
    msw := { s.msw with pe := true }, gdtr := ⟨0x800, 0x2F⟩, idtr := ⟨0x1000, 0xFF⟩
    cs := ⟨8, 0, 0xFFFF, 0x9B, true⟩, ss := ⟨0x10, 0, 0xFFFF, 0x93, true⟩
    ds := ⟨0x10, 0, 0xFFFF, 0x93, true⟩, es := ⟨0x10, 0, 0xFFFF, 0x93, true⟩ }
    |> sp 0x800 |> desc 0x808 0xFFFF 0 0x9A00 |> desc 0x810 0xFFFF 0 0x9200 |> desc 0x818 0xFFF 0 0xF201
    |> desc 0x820 0xFFFF 0 0x1200 |> desc 0x828 0xFFF 0 0x9602 |> gateAt 13 |> desc 0x1018 0x3100 8 0xE700

/-- More of the GDT: level 3 data 30 and code 38, a call gate 40 to 0008:0500 with one word, the busy task state segment
50
of the current task, an available one 58, a task gate 60, an LDT 68. -/
def systemTables (s : State) : State :=
  { s with gdtr := ⟨0x800, 0x7F⟩, tr := ⟨0x50, 0x2000, 0x2B⟩ }
    |> desc 0x830 0xFFFF 0 0xF203 |> desc 0x838 0xFFFF 0 0xFA00 |> desc 0x840 0x500 8 0xE401
    |> desc 0x850 0x2B 0x2000 0x8300 |> desc 0x858 0x2B 0x2100 0x8100 |> desc 0x860 0 0x58 0x8500
    |> desc 0x868 0x3F 0x5000 0x8200 |> word 0x2002 0x800 |> word 0x2004 0x10 |> word 0x210E 0x1234
    |> word 0x2112 0x99 |> word 0x2124 8 |> word 0x2126 0x10

/-- The privilege level in CS and SS. -/
def level (n : Word) (s : State) : State :=
  { s with cs := { s.cs with sel := s.cs.sel ||| n }, ss := { s.ss with sel := s.ss.sel ||| n } }

/-- Instruction bytes at CS:IP. -/
def starts (ip : Word) (code : List Byte) (s : State) : State := { s with ip := ip }.placeCode ip code

/-- A step answers a next state, of which the predicate holds. -/
def holds (s : State) (f : State → State → Bool) : Bool :=
  match step s with
  | .next t => f s t
  | .fault _ => false
  | .refused _ => false

/-! ### Vectors

Those whose name begins with a letter and a number are rows of 95_test_vectors.md, Part 2; the others follow from the rule that
their comment names. -/

theorem test_T1_mov_immediate : holds (starts 0x0100 [0xB8, 0x34, 0x12] flat)
    (fun s t => t.regs.ax == 0x1234 && t.ip == 0x103 && t.flags == s.flags) = true := by decide +kernel

theorem test_T3_mov_memory : holds (starts 0x0100 [0x8B, 0x40, 0x03] (flat |> bx 0x100 |> si 2 |> word 0x105 0xBEEF))
    (fun _ t => t.regs.ax == 0xBEEF) = true := by decide +kernel

theorem test_T4_mov_wraps_offset : holds (starts 0x0100 [0x8B, 0x46, 0x04] (flat |> bp 0xFFFE |> word 2 0x1357))
    (fun _ t => t.regs.ax == 0x1357) = true := by decide +kernel

theorem test_T5_word_at_FFFF_traps : holds (starts 0x0100 [0xA3, 0xFF, 0xFF] (flat |> ax 0x5678 |> sp 0x1000
      |> word 52 0x300))
    (fun _ t => t.ip == 0x300 && t.regs.ax == 0x5678) = true := by decide +kernel

theorem test_T9_push_sp : holds (starts 0x0100 [0x54] (flat |> sp 0x100))
    (fun _ t => t.load16 0xFE == 0x100 && t.regs.sp == 0xFE) = true := by decide +kernel

theorem test_T11_push_odd_top_shuts_down : holds (starts 0x0100 [0x50] (flat |> sp 1 |> ax 0x1234))
    (fun _ t => t.shutdown && t.regs.sp == 1) = true := by decide +kernel

theorem test_T13_pusha : holds (starts 0x200 [0x60] (flat |> sp 0x100 |> ax 1 |> cx 2 |> dx 3 |> bx 4 |> bp 5 |> si 6
      |> di 7))
    (fun _ t => t.load16 0xFE == 1 && t.load16 0xFC == 2 && t.load16 0xFA == 3 && t.load16 0xF8 == 4 &&
      t.load16 0xF6 == 0x100 && t.load16 0xF4 == 5 && t.load16 0xF2 == 6 && t.load16 0xF0 == 7 &&
      t.regs.sp == 0xF0) = true := by decide +kernel

theorem test_T14_popa : holds (starts 0x200 [0x61] (flat |> sp 0xF0 |> word 0xFE 1 |> word 0xFC 2 |> word 0xFA 3
      |> word 0xF8 4 |> word 0xF6 0x100 |> word 0xF4 5 |> word 0xF2 6 |> word 0xF0 7))
    (fun _ t => t.regs.ax == 1 && t.regs.cx == 2 && t.regs.dx == 3 && t.regs.bx == 4 && t.regs.sp == 0x100 &&
      t.regs.bp == 5 && t.regs.si == 6 && t.regs.di == 7) = true := by decide +kernel

theorem test_T15_pop_sp : holds (starts 0x200 [0x5C] (flat |> sp 0xFE |> word 0xFE 0x200))
    (fun _ t => t.regs.sp == 0x200) = true := by decide +kernel

theorem test_T18_pop_group : holds (starts 0x0100 [0x8F, 0xC8] (flat |> sp 0x1000 |> word 52 0x300))
    (fun _ t => t.ip == 0x300) = true := by decide +kernel

/-- MOV CS at the end of the segment: #UD, not the fetch past the limit (60_exceptions.md R550 (e)). -/
theorem test_mov_cs_at_segment_end : holds (starts 0xFFFE [0x8E, 0x8E] (flat |> sp 0x1000 |> word 24 0x300 |> word 52 0x400))
    (fun _ t => t.ip == 0x300) = true := by decide +kernel

theorem test_T19_xchg : holds (starts 0x0100 [0x93] (flat |> ax 0x1111 |> bx 0x2222))
    (fun _ t => t.regs.ax == 0x2222 && t.regs.bx == 0x1111) = true := by decide +kernel

theorem test_T22_out : holds (starts 0x0100 [0xE6, 0x80] (flat |> ax 0x41))
    (fun _ t => t.io == [IoEvent.mk true 0x80 .byte 0x41]) = true := by decide +kernel

/-- A word at an odd port is two byte bus operations, the low byte first (20_memory.md R94). -/
theorem test_out_word_odd_port : holds (starts 0x0100 [0xE7, 0x81] (flat |> ax 0x1234))
    (fun _ t => t.io == [IoEvent.mk true 0x82 .byte 0x12, IoEvent.mk true 0x81 .byte 0x34]) = true := by decide +kernel

/-- A word at an even port is one bus operation. -/
theorem test_out_word_even_port : holds (starts 0x0100 [0xE7, 0x80] (flat |> ax 0x1234))
    (fun _ t => t.io == [IoEvent.mk true 0x80 .word 0x1234]) = true := by decide +kernel

/-- A word read from an odd port: the ports, widths and order of its two bus operations. -/
theorem test_in_word_odd_port : holds (starts 0x0100 [0xED] (flat |> dx 0xFFFF))
    (fun _ t => t.io.map (fun e => (e.output, e.port, e.width)) == [(false, 0, .byte), (false, 0xFFFF, .byte)]) = true := by
  decide +kernel

theorem test_T25_xlat_wraps : holds (starts 0x0100 [0xD7] (flat |> bx 0xFFFF |> ax 2 |> byte 1 0x7B))
    (fun _ t => t.regs.ax == 0x7B) = true := by decide +kernel

theorem test_T26_lea : holds (starts 0x0100 [0x8D, 0x40, 0x05] (flat |> bx 0x1000 |> si 0x234))
    (fun _ t => t.regs.ax == 0x1239) = true := by decide +kernel

theorem test_T30_pushf : holds (starts 0x0100 [0x9C] (flat |> sp 0x1000 |> flags 0x241))
    (fun _ t => t.regs.sp == 0xFFE) = true := by decide +kernel

theorem test_T31_popf : holds (starts 0x0100 [0x9D] (flat |> sp 0x1000 |> word 0x1000 0xFFFF))
    (fun _ t => t.flags == Flags.mk true true true true true true true true true 0 false) = true := by decide +kernel

theorem test_T35_sahf : holds (starts 0x0100 [0x9E] (flat |> ax 0xFF00))
    (fun _ t => t.flags.sf && t.flags.zf && t.flags.af && t.flags.pf && t.flags.cf &&
      !t.flags.of) = true := by decide +kernel

theorem test_A1_add : holds (starts 0x0100 [0x04, 0x01] (flat |> ax 0x7F))
    (fun _ t => t.regs.ax == 0x80 && t.flags.cf == false && t.flags.pf == false && t.flags.af == true &&
      t.flags.zf == false && t.flags.sf == true && t.flags.of == true) = true := by decide +kernel

theorem test_A4_add_sign_extended : holds (starts 0x0100 [0x83, 0xC0, 0xFF] (flat |> ax 0x1234))
    (fun _ t => t.regs.ax == 0x1233 && t.flags.cf == true && t.flags.pf == true && t.flags.af == true &&
      t.flags.zf == false && t.flags.sf == false && t.flags.of == false) = true := by decide +kernel

theorem test_A6_adc : holds (starts 0x0100 [0x10, 0xD8] (flat |> ax 0xFF |> bx 0xFF |> flags 1))
    (fun _ t => t.regs.ax == 0xFF && t.flags.cf == true && t.flags.pf == true && t.flags.af == true &&
      t.flags.zf == false && t.flags.sf == true && t.flags.of == false) = true := by decide +kernel

theorem test_A8_inc : holds (starts 0x0100 [0xFE, 0xC0] (flat |> ax 0x7F |> flags 1))
    (fun _ t => t.regs.ax == 0x80 && t.flags.cf == true && t.flags.pf == false && t.flags.af == true &&
      t.flags.zf == false && t.flags.sf == true && t.flags.of == true) = true := by decide +kernel

theorem test_A14_sbb : holds (starts 0x0100 [0x1D, 0xFF, 0xFF] (flat |> ax 0x1234 |> flags 1))
    (fun _ t => t.regs.ax == 0x1234 && t.flags.cf == true && t.flags.pf == false && t.flags.af == true &&
      t.flags.zf == false && t.flags.sf == false && t.flags.of == false) = true := by decide +kernel

theorem test_A18_neg : holds (starts 0x0100 [0xF6, 0xD8] (flat |> ax 0x80))
    (fun _ t => t.regs.ax == 0x80 && t.flags.cf == true && t.flags.pf == false && t.flags.af == false &&
      t.flags.zf == false && t.flags.sf == true && t.flags.of == true) = true := by decide +kernel

theorem test_A21_cmp : holds (starts 0x0100 [0x3C, 0x80] (flat |> ax 0x7F))
    (fun _ t => t.regs.ax == 0x7F && t.flags.cf == true && t.flags.pf == true && t.flags.af == false &&
      t.flags.zf == false && t.flags.sf == true && t.flags.of == true) = true := by decide +kernel

theorem test_A26_mul : holds (starts 0x0100 [0xF6, 0xE3] (flat |> ax 0xFF |> bx 0xFF))
    (fun _ t => t.regs.ax == 0xFE01 && t.flags.cf == true && t.flags.of == true) = true := by decide +kernel

theorem test_A30_imul : holds (starts 0x0100 [0xF6, 0xEB] (flat |> ax 0x80 |> bx 0x80))
    (fun _ t => t.regs.ax == 0x4000 && t.flags.cf == true && t.flags.of == true) = true := by decide +kernel

theorem test_A36_imul_immediate : holds (starts 0x0100 [0x6B, 0xC3, 0x80] (flat |> bx 0xFFFF))
    (fun _ t => t.regs.ax == 0x80 && t.flags.cf == false && t.flags.of == false) = true := by decide +kernel

theorem test_A41_div_word : holds (starts 0x0100 [0xF7, 0xF3] (flat |> ax 0 |> dx 1 |> bx 2))
    (fun _ t => t.regs.ax == 0x8000 && t.regs.dx == 0) = true := by decide +kernel

theorem test_A42_idiv : holds (starts 0x0100 [0xF6, 0xFB] (flat |> ax 0xFFF9 |> bx 2))
    (fun _ t => t.regs.ax == 0xFFFD) = true := by decide +kernel

theorem test_A44_idiv_overflow : holds (starts 0x0100 [0xF6, 0xFB] (flat |> ax 0x8000 |> bx 0xFF |> sp 0x1000
      |> word 0 0x300))
    (fun _ t => t.regs.ax == 0x8000 && t.ip == 0x300) = true := by decide +kernel

theorem test_A46_aaa : holds (starts 0x0100 [0x37] (flat |> ax 0xB))
    (fun _ t => t.regs.ax == 0x101 && t.flags.cf == true && t.flags.af == true) = true := by decide +kernel

theorem test_A48_daa : holds (starts 0x0100 [0x27] (flat |> ax 0x2D))
    (fun _ t => t.regs.ax == 0x33 && t.flags.cf == false && t.flags.pf == true && t.flags.af == true &&
      t.flags.zf == false && t.flags.sf == false) = true := by decide +kernel

theorem test_A51_das : holds (starts 0x0100 [0x2F] (flat |> ax 0x0E |> flags 0x10))
    (fun _ t => t.regs.ax == 8 && t.flags.cf == false && t.flags.pf == false &&
      t.flags.af == true) = true := by decide +kernel

theorem test_A52_aam : holds (starts 0x0100 [0xD4, 0x0A] (flat |> ax 0x3F))
    (fun _ t => t.regs.ax == 0x603 && t.flags.pf == true && t.flags.zf == false &&
      t.flags.sf == false) = true := by decide +kernel

theorem test_A53_aad : holds (starts 0x0100 [0xD5, 0x0A] (flat |> ax 0x603))
    (fun _ t => t.regs.ax == 0x3F && t.flags.pf == true) = true := by decide +kernel

theorem test_L7_not : holds (starts 0x0100 [0xF6, 0xD0] (flat |> ax 0x55 |> flags 0xFD5))
    (fun s t => t.regs.ax == 0xAA && t.flags == s.flags && t.flags.cf == true && t.flags.pf == true &&
      t.flags.af == true && t.flags.zf == true && t.flags.sf == true && t.flags.of == true) = true := by decide +kernel

theorem test_S9_rcl : holds (starts 0x0100 [0xD2, 0xD0] (flat |> ax 0x81 |> cx 9))
    (fun _ t => t.regs.ax == 0x81 && t.flags.cf == false && t.flags.pf == false && t.flags.af == false &&
      t.flags.zf == false && t.flags.sf == false) = true := by decide +kernel

theorem test_S12_rcr : holds (starts 0x0100 [0xD1, 0xD8] (flat |> ax 1 |> flags 1))
    (fun _ t => t.regs.ax == 0x8000 && t.flags.cf == true && t.flags.pf == false && t.flags.af == false &&
      t.flags.zf == false && t.flags.sf == false && t.flags.of == true) = true := by decide +kernel

theorem test_S18_shl_past_width : holds (starts 0x0100 [0xC0, 0xE0, 0x09] (flat |> ax 0xFF))
    (fun _ t => t.regs.ax == 0 && t.flags.cf == false && t.flags.zf == true) = true := by decide +kernel

theorem test_S20_shl_by_32 : holds (starts 0x0100 [0xC1, 0xE0, 0x20] (flat |> ax 0x1234 |> flags 0xFD5))
    (fun s t => t.regs.ax == 0x1234 && t.flags == s.flags && t.flags.cf == true && t.flags.pf == true &&
      t.flags.af == true && t.flags.zf == true && t.flags.sf == true && t.flags.of == true) = true := by decide +kernel

theorem test_S23_shr : holds (starts 0x0100 [0xD2, 0xE8] (flat |> ax 0xFF |> cx 0x21))
    (fun _ t => t.regs.ax == 0x7F && t.flags.cf == true && t.flags.pf == false &&
      t.flags.sf == false) = true := by decide +kernel

theorem test_S28_sar : holds (starts 0x0100 [0xC1, 0xF8, 0x0F] (flat |> ax 0x8000))
    (fun _ t => t.regs.ax == 0xFFFF && t.flags.cf == false && t.flags.pf == true &&
      t.flags.sf == true) = true := by decide +kernel

theorem test_X2_movs_down : holds (starts 0x0100 [0xA5] (flat |> si 0x10 |> di 0x20 |> word 0x10 0x1234 |> flags 0x400))
    (fun _ t => t.load16 0x20 == 0x1234 && t.regs.si == 0xE && t.regs.di == 0x1E) = true := by decide +kernel

theorem test_X5_movs_override : holds (starts 0x0100 [0x26, 0xA5] (flat |> si 0x10 |> di 0x20 |> word 0x2010 0x1234
      |> setEs 0x200))
    (fun _ t => t.load16 0x2020 == 0x1234 && t.regs.si == 0x12) = true := by decide +kernel

theorem test_X6_rep_stos : holds (starts 0x0100 [0xF3, 0xAA] (flat |> cx 3 |> di 0 |> ax 0xFF))
    (fun _ t => t.load8 0 == 0xFF && t.regs.cx == 2 && t.regs.di == 1 && t.ip == 0x100) = true := by decide +kernel

theorem test_X8_repne_scas : holds (starts 0x0100 [0xF2, 0xAE] (flat |> cx 3 |> di 0x82 |> ax 0x20 |> byte 0x82 0x20))
    (fun _ t => t.regs.cx == 2 && t.regs.di == 0x83 && t.ip == 0x102 && t.flags.zf) = true := by decide +kernel

theorem test_X10_repe_cmps : holds (starts 0x0100 [0xF3, 0xA6] (flat |> cx 2 |> si 2 |> di 0x82 |> byte 2 3
      |> byte 0x82 9))
    (fun _ t => t.regs.cx == 1 && t.regs.si == 3 && t.regs.di == 0x83 && t.ip == 0x102 && !t.flags.zf &&
      t.flags.cf) = true := by decide +kernel

theorem test_X17_outs : holds (starts 0x0100 [0x6E] (flat |> dx 0x60 |> si 0 |> byte 0 0x99))
    (fun _ t => t.io == [IoEvent.mk true 0x60 .byte 0x99] && t.regs.si == 1) = true := by decide +kernel

theorem test_J4_jmp_far : holds (starts 0x0100 [0xEA, 0x00, 0x01, 0x00, 0x20] flat)
    (fun _ t => t.cs == SegReg.real 0x2000 && t.ip == 0x100) = true := by decide +kernel

theorem test_J6_call : holds (starts 0x200 [0xE8, 0x10, 0x00] (flat |> sp 0x100))
    (fun _ t => t.load16 0xFE == 0x203 && t.regs.sp == 0xFE && t.ip == 0x213) = true := by decide +kernel

theorem test_J8_ret_far : holds (starts 0x0100 [0xCB] (flat |> sp 0x1FC |> word 0x1FC 0x15 |> word 0x1FE 0x1000))
    (fun _ t => t.cs.sel == 0x1000 && t.ip == 0x15 && t.regs.sp == 0x200) = true := by decide +kernel

theorem test_J9_ret_releases : holds (starts 0x200 [0xC2, 0x04, 0x00] (flat |> sp 0xFE |> word 0xFE 0x203))
    (fun _ t => t.ip == 0x203 && t.regs.sp == 0x104) = true := by decide +kernel

theorem test_J12_jl : holds (starts 0x0100 [0x7C, 0x10] (flat |> flags 0x80))
    (fun _ t => t.ip == 0x112) = true := by decide +kernel

theorem test_J18_loop : holds (starts 0x0100 [0xE2, 0xFE] (flat |> cx 1))
    (fun _ t => t.ip == 0x102 && t.regs.cx == 0) = true := by decide +kernel

theorem test_J19_loop_zero : holds (starts 0x0100 [0xE2, 0xFE] (flat |> cx 0))
    (fun _ t => t.ip == 0x100 && t.regs.cx == 0xFFFF) = true := by decide +kernel

theorem test_J23_enter : holds (starts 0x300 [0xC8, 0x04, 0x00, 0x02] (flat |> sp 0x100 |> bp 0x200 |> word 0x1FE 0xAAAA))
    (fun _ t => t.load16 0xFE == 0x200 && t.load16 0xFC == 0xAAAA && t.load16 0xFA == 0xFE && t.regs.bp == 0xFE &&
      t.regs.sp == 0xF6) = true := by decide +kernel

theorem test_J25_bound_above : holds (starts 0x0100 [0x62, 0x07] (flat |> ax 5 |> bx 0x10 |> sp 0x1000 |> word 0x12 4
      |> word 20 0x300))
    (fun _ t => t.ip == 0x300) = true := by decide +kernel

theorem test_J26_bound_at : holds (starts 0x0100 [0x62, 0x07] (flat |> ax 4 |> bx 0x10 |> sp 0x1000 |> word 0x12 4))
    (fun _ t => t.ip == 0x102) = true := by decide +kernel

theorem test_J28_int : holds (starts 0x200 [0xCD, 0x21] (flat |> sp 0x100 |> word 0x84 0x100 |> word 0x86 0x1234
      |> flags 0x200))
    (fun _ t => t.regs.sp == 0xFA && !t.flags.ief && t.cs == SegReg.real 0x1234 &&
      t.ip == 0x100) = true := by decide +kernel

theorem test_J29_iret : holds (starts 0x200 [0xCF] (flat |> sp 0xFA |> word 0xFA 0x12 |> word 0xFC 0x2000
      |> word 0xFE 0x202))
    (fun _ t => t.ip == 0x12 && t.cs.sel == 0x2000 && t.flags.ief && t.regs.sp == 0x100) = true := by decide +kernel

theorem test_J31_into : holds (starts 0x0100 [0xCE] (flat |> sp 0x1000 |> flags 0x800 |> word 16 0x300))
    (fun _ t => t.ip == 0x300) = true := by decide +kernel

theorem test_J32_short_table : holds (starts 0x0100 [0xCD, 0x21] (flat |> sp 0x1000 |> idtLimit 0x7F |> word 32 0x300))
    (fun _ t => t.ip == 0x300) = true := by decide +kernel

theorem test_J33_no_stack : holds (starts 0x0100 [0xCD, 0x21] (flat |> sp 3))
    (fun _ t => t.shutdown) = true := by decide +kernel

theorem test_C6_esc_emulated : holds (starts 0x0100 [0xD8, 0xC0] (flat |> sp 0x1000 |> mswBits 4 |> word 28 0x300))
    (fun _ t => t.ip == 0x300) = true := by decide +kernel

theorem test_C7_wait_switched : holds (starts 0x0100 [0x9B] (flat |> sp 0x1000 |> mswBits 10 |> word 28 0x300))
    (fun _ t => t.ip == 0x300) = true := by decide +kernel

theorem test_P28_lar_in_real_mode : holds (starts 0x0100 [0x0F, 0x02, 0xC3] (flat |> sp 0x1000 |> word 24 0x300))
    (fun _ t => t.ip == 0x300) = true := by decide +kernel

theorem test_E10_eleven_bytes : holds
      (starts 0x0100 [0x26, 0x26, 0x26, 0x26, 0x26, 0x26, 0x26, 0x26, 0x26, 0x26, 0x90] (flat |> sp 0x1000
      |> word 24 0x300))
    (fun _ t => t.ip == 0x300) = true := by decide +kernel

theorem test_T32_popf_level3 : holds (starts 0x0200 [0x9D] (flat |> protectedMode |> sp 0x1000 |> flags 0x3000
      |> level 3 |> word 0x1000 0x3200))
    (fun _ t => t.flags == Flags.mk false false false false false false true false false 3 false) = true := by decide +kernel

theorem test_P1_load_ds : holds (starts 0x0200 [0x8E, 0xD8] (flat |> protectedMode |> ax 0x10))
    (fun _ t => t.ds == SegReg.mk 0x10 0 0xFFFF 0x93 true && t.load8 0x815 == 0x93) = true := by decide +kernel

theorem test_P5_outside_table : holds (starts 0x0200 [0x8E, 0xD8] (flat |> protectedMode |> ax 0x30))
    (fun _ t => t.ip == 0x3000) = true := by decide +kernel

theorem test_P12_ldt_invalid : holds (starts 0x0200 [0x8E, 0xD8] (flat |> protectedMode |> ax 0xC))
    (fun _ t => t.ip == 0x3000) = true := by decide +kernel

theorem test_P15_expand_down : holds (starts 0x0200 [0x50] (flat |> protectedMode |> systemTables |> level 3 |> sp 0x1000
      |> setSs (SegReg.mk 0x2B 0x20000 0xFFF 0xF7 true) |> setCs (SegReg.mk 0x3B 0 0xFFFF 0xFB true) |> gateAt 12))
    (fun _ t => t.ip == 0x3000 && t.cs.sel == 8 && t.ss.sel == 0x10 && t.regs.sp == 0x7F4) = true := by decide +kernel

/-- 8F C4 writes the word to SP before SP rises by 2 (40_data_transfer.md R248). -/
theorem test_pop_sp_by_operand : holds (starts 0x200 [0x8F, 0xC4] (flat |> sp 0xFE |> word 0xFE 0x200))
    (fun _ t => t.regs.sp == 0x202) = true := by decide +kernel

/-- A store to ROM changes nothing (20_memory.md R92). -/
theorem test_rom_keeps_its_bytes : holds
      (starts 0x0100 [0xA2, 0x00, 0x05] { flat |> ax 0x41 |> byte 0x500 7 with memMap := [⟨0x500, 1, .rom⟩] })
    (fun _ t => t.load8 0x500 == 7 && t.ip == 0x103) = true := by decide +kernel

/-- An ESC with a memory operand names the operand that PEREQ moves (20_memory.md R170). -/
theorem test_esc_names_operand : holds (starts 0x0100 [0xDD, 0x07] (flat |> bx 0x600))
    (fun _ t => t.ext.map (·.off) == some 0x600 && t.ip == 0x102) = true := by decide +kernel

/-- PEREQ moves one word of the operand to port 00FAH (20_memory.md R170). -/
theorem test_operand_transfer : holds (flat |> word 0x600 0x1234 |> transferring ⟨SegReg.real 0, false, 0x600, false⟩)
    (fun _ t => t.io == [IoEvent.mk true 0xFA .word 0x1234] && t.ext.map (·.off) == some 0x602 &&
      !t.mpPending) = true := by decide +kernel

/-- While HOLD is active another master writes to memory and the processor waits (20_memory.md R162). -/
theorem test_hold_lets_master_write : holds (starts 0x0100 [0x90] flat |> mastered ⟨0x601, .word, 0x1234⟩)
    (fun _ t => t.load8 0x601 == 0x34 && t.load8 0x602 == 0x12 && t.ip == 0x100) = true := by decide +kernel

theorem test_P18_jmp_code : holds (starts 0x0200 [0xEA, 0x00, 0x20, 0x08, 0x00] (flat |> protectedMode))
    (fun _ t => t.cs == SegReg.mk 8 0 0xFFFF 0x9B true && t.ip == 0x2000 &&
      t.load8 0x80D == 0x9B) = true := by decide +kernel

theorem test_P22_lar : holds (starts 0x0200 [0x0F, 0x02, 0xC3] (flat |> protectedMode |> bx 0x18))
    (fun _ t => t.regs.ax == 0xF200 && t.flags.zf) = true := by decide +kernel

theorem test_P26_verw : holds (starts 0x0200 [0x0F, 0x00, 0xEB] (flat |> protectedMode |> bx 8 |> flags 0x40))
    (fun _ t => !t.flags.zf) = true := by decide +kernel

theorem test_P29_arpl : holds (starts 0x0200 [0x63, 0xD8] (flat |> protectedMode |> ax 8 |> bx 0x13))
    (fun _ t => t.regs.ax == 0xB && t.flags.zf) = true := by decide +kernel

theorem test_P32_smsw_any_level : holds (starts 0x0200 [0x0F, 0x01, 0xE0] (flat |> protectedMode |> level 3))
    (fun _ t => t.regs.ax &&& 15 == 1) = true := by decide +kernel

theorem test_F1_null_ds : holds (starts 0x0200 [0xA0, 0x00, 0x00] (flat |> protectedMode |> nullDs |> flags 0x200))
    (fun _ t => t.ip == 0x3000 && t.regs.sp == 0x7F8 && !t.flags.ief && t.cs.sel == 8) = true := by decide +kernel

theorem test_F2_int3_gate : holds (starts 0x0200 [0xCC] (flat |> protectedMode |> flags 0x200))
    (fun _ t => t.regs.sp == 0x7FA && t.flags.ief && t.ip == 0x3100) = true := by decide +kernel

theorem test_F5b_intr : holds (starts 0x0200 [0x90] (flat |> protectedMode |> signalIntr 0x20))
    (fun _ t => t.ip == 0x3000) = true := by decide +kernel

theorem test_call_gate : holds (starts 0x0200 [0x9A, 0x00, 0x00, 0x43, 0x00] (flat |> protectedMode |> systemTables
      |> level 3 |> sp 0xFFE |> setSs (SegReg.mk 0x33 0x30000 0xFFFF 0xF3 true)
      |> setCs (SegReg.mk 0x3B 0 0xFFFF 0xFB true) |> word 0x30FFE 0xAAAA))
    (fun _ t => t.regs.sp == 0x7F6 && t.ss == SegReg.mk 0x10 0 0xFFFF 0x93 true && t.load16 0x7F6 == 0x205 &&
      t.load16 0x7F8 == 0x3B && t.load16 0x7FA == 0xAAAA && t.load16 0x7FC == 0xFFE && t.load16 0x7FE == 0x33 &&
      t.cs.sel == 8 && t.ip == 0x500) = true := by decide +kernel

theorem test_ret_outer : holds (starts 0x0200 [0xCB] (flat |> protectedMode |> systemTables |> sp 0x700
      |> word 0x700 0x102 |> word 0x702 0x3B |> word 0x704 0xFFE |> word 0x706 0x33))
    (fun _ t => t.cs.sel == 0x3B && t.ip == 0x102 && t.ss.sel == 0x33 && t.regs.sp == 0xFFE && !t.ds.valid &&
      t.ds.sel == 0) = true := by decide +kernel

theorem test_ltr : holds (starts 0x0200 [0x0F, 0x00, 0xD8] (flat |> protectedMode |> systemTables |> ax 0x58))
    (fun _ t => t.tr == Tr.mk 0x58 0x2100 0x2B && t.load8 0x85D == 0x83) = true := by decide +kernel

theorem test_lgdt : holds (starts 0x0100 [0x0F, 0x01, 0x16, 0x10, 0x00] (flat |> word 0x10 0x7FF |> word 0x12 0x1000
      |> word 0x14 2))
    (fun _ t => t.gdtr == TableReg.mk 0x21000 0x7FF) = true := by decide +kernel

theorem test_lmsw : holds (starts 0x0100 [0x0F, 0x01, 0xF0] (flat |> ax 1))
    (fun _ t => t.msw == Msw.mk true false false false false) = true := by decide +kernel

theorem test_nmi : holds (starts 0x0100 [0x90] (flat |> signalNmi |> word 8 0x300 |> sp 0x1000))
    (fun _ t => t.ip == 0x300 && t.nmiInService && !t.nmiPending && t.phase == .mp) = true := by decide +kernel

theorem test_wait_busy : holds (starts 0x0100 [0x9B] (flat |> signalBusy))
    (fun _ t => t.ip == 0x100 && t.waiting) = true := by decide +kernel

/-! Memory that other masters write, and devices: a read is the free value of its moment (20_memory.md R154, R160). -/

theorem test_shared_read (s : State) (h : s.memMap = [⟨0, 4, .shared⟩]) :
    (s.later .descriptor).load8 3 =
      (Config.otherWrote s.bus.step (s.bus.gap + 3) 3).getD (Memory.read s.mem 3) := by
  simp [State.load8, State.memKind, kindIn, h, ReadGroup.gaps]

theorem test_device_read (s : State) (h : s.memMap = [⟨0, 4, .device⟩]) :
    (s.later .second).load8 3 = Config.deviceByte s.bus.step (s.bus.op + 2) 3 := by
  simp [State.load8, State.memKind, kindIn, h, ReadGroup.rank]

/-- LOCK joins MOV's read of a descriptor to that of its operand, and no two reads of CMPS (46_processor_control.md R480). -/
theorem test_lock_joins_mov (s : State) (h : s.memMap = [⟨0, 4, .shared⟩]) (hk : s.cur.lock = true) :
    (s.later s.movDescriptor).load8 3 = s.load8 3 := by
  simp [State.load8, State.memKind, kindIn, h, State.movDescriptor, hk, ReadGroup.gaps]

theorem test_lock_leaves_cmps (s : State) (h : s.memMap = [⟨0, 4, .shared⟩]) :
    (s.later .second).load8 3 = (Config.otherWrote s.bus.step (s.bus.gap + 2) 3).getD (Memory.read s.mem 3) := by
  simp [State.load8, State.memKind, kindIn, h, ReadGroup.gaps]

/-- A delivery, a second one that its failure starts, and the double fault after that one: the last reads what a third moment
gives, not what the second one read (20_memory.md R160, 60_exceptions.md R570, DF_BENIGN). -/
theorem test_third_delivery_reads_anew (s : State) (e e' : Event) (ip ip' : Word) (h : s.memMap = [⟨0, 4, .shared⟩]) :
    ((Stop.exc e').nextDelivery ((Stop.exc e).nextDelivery s ip).1 ip').1.load8 3 =
      (Config.otherWrote s.bus.step (s.bus.gap + 16 + 16) 3).getD (Memory.read s.mem 3) := by
  simp [State.load8, State.memKind, kindIn, h, ReadGroup.gaps, Stop.nextDelivery, Stop.context]

/-! A null selector names no task (20_memory.md R131): a task gate in GDT entry 0 is never entered. -/

theorem test_task_gate_null : holds (starts 0x0200 [0x9A, 0x00, 0x00, 0x40, 0x00] (flat |> protectedMode |> systemTables
      |> desc 0x800 0x2B 0x2100 0x8100 |> desc 0x840 0 0 0x8500 |> sp 0x700))
    (fun _ t => t.ip == 0x3000 && t.tr.sel == 0x50 && t.regs.sp == 0x6F8) = true := by decide +kernel

theorem test_back_link_null : holds (starts 0x0200 [0xCF] (flat |> protectedMode |> systemTables
      |> desc 0x800 0x2B 0x2100 0x8300 |> flags 0x4000 |> gateAt 10 |> sp 0x700))
    (fun _ t => t.ip == 0x3000 && t.tr.sel == 0x50 && t.regs.sp == 0x6F8) = true := by decide +kernel

theorem test_withFetchWord_runs : holds (State.reset.withFetchWord 16 0x83C3) (fun _ t => t.ip == 0xFFF3) = true := by
  decide +kernel

/-! ### States and operands that meet the statements' hypotheses

One theorem or more for each statement that has hypotheses; clauses that look at one operand each have a value at the edge of
their range. -/

theorem acc {s : State} {x : SReg} {off n : Nat} {a : Access} (h : memCheck s x off n a = .ok ()) :
    Accessible s x off n a := (memCheck_ok_iff s x off n a).1 h

theorem noAcc {s : State} {x : SReg} {off n : Nat} {a : Access} (h : memCheck s x off n a ≠ .ok ()) :
    ¬ Accessible s x off n a := fun k => h ((memCheck_ok_iff s x off n a).2 k)

theorem room {s : State} {n : Nat} (h : checkPush s n = .ok ()) : CanPush s n := (checkPush_ok_iff s n).1 h

theorem noRoom {s : State} {n : Nat} (h : checkPush s n ≠ .ok ()) : ¬ CanPush s n := fun k =>
  h ((checkPush_ok_iff s n).2 k)

theorem canon {s : State} (h : Memory.wf s.mem = true) (hm : s.memMap = [] := by rfl) : PlainMemory s := ⟨h, hm⟩

theorem steady {s : State} (hm : s.memMap = [] := by rfl) : Steady s := by simp [Steady, hm]

theorem runs {s : State} {f : State → State → Bool} (h : holds s f = true) : ∃ t, step s = .next t ∧ f s t = true := by
  unfold holds at h
  split at h
  · rename_i t ht
    exact ⟨t, ht, h⟩
  · cases h
  · cases h

theorem codeAt {s : State} {bs : List Byte} (h : s.ip.toNat + bs.length ≤ s.cs.limit.toNat + 1)
    (hb : ∀ k, k < bs.length → bs[k]? = some ((Latched s).load8 (segAddr s .cs (s.ip + BitVec.ofNat 16 k)))) : CodeAt s bs :=
  ⟨h, fun k _ hk => (Option.some.inj ((hb k (List.getElem?_eq_some_iff.1 hk).1).symm.trans hk))⟩

/-- Real mode: a stack at 0000:0100, SI and DI at data of their own. -/
def real : State := { flat with ip := 0x200, cur := Cur.at 0x1FE } |> ax 0x1234 |> cx 1 |> dx 0x10 |> bx 0x600 |> sp 0x100
  |> bp 0x80 |> si 0x400 |> di 0x500

/-- Protected mode at level 0 with the tables of `systemTables`. -/
def prot : State := { flat with ip := 0x200, cur := Cur.at 0x1FE } |> protectedMode |> systemTables |> ax 0x1234 |> cx 1
  |> bx 0x600 |> sp 0x100 |> bp 0x80 |> si 0x400 |> di 0x500

/-- The same at level 3, on segments of level 3. -/
def user : State := { prot with cs := ⟨0x3B, 0, 0xFFFF, 0xFB, true⟩, ss := ⟨0x33, 0x30000, 0xFFFF, 0xF3, true⟩ }

theorem witness_AdditionWritesSum : let s := real |> bx 0xFFFE
    additionForm (.adcRmReg .word (.mem (.based .bx)) .r0) = some ⟨.word, .mem (.based .bx), .inl (.reg .r0), true⟩ ∧
      PlainMemory s ∧ CanWrite s .word (.mem (.based .bx)) ∧ CanRead s .word (.reg .r0) :=
  ⟨rfl, canon (by decide +kernel), acc (by decide +kernel), trivial⟩

theorem witness_SubtractionWritesDifference : let s := setDs ⟨0x18, 0x10000, 0xFFF, 0xF3, true⟩ prot |> bx 0xFFE
    subtractionForm (.sbbRmSext (.mem (.based .bx)) 0x80) = some ⟨.word, .mem (.based .bx), .inr 0xFF80, true⟩ ∧
      PlainMemory s ∧ CanWrite s .word (.mem (.based .bx)) :=
  ⟨rfl, canon (by decide +kernel), acc (by decide +kernel)⟩

theorem witness_CompareAndTestSetFlagsOnly : let s := real |> bx 0xFFFF
    compareForm (.cmpRegRm .byte .r0 (.mem (.based .bx))) = some ⟨.byte, .reg .r0, .inl (.mem (.based .bx)), false⟩ ∧
      testForm (.testRmReg .byte (.mem (.based .bx)) .r4) = some ⟨.byte, .mem (.based .bx), .inl (.reg .r4), false⟩ ∧
      CanRead s .byte (.mem (.based .bx)) :=
  ⟨rfl, rfl, acc (by decide +kernel)⟩

theorem witness_LogicWritesBitwiseResult : let s := real |> bx 0xFFFF
    logicForm (.xorRmReg .byte (.mem (.based .bx)) .r7) =
        some (.xor, ⟨.byte, .mem (.based .bx), .inl (.reg .r7), false⟩) ∧
      PlainMemory s ∧ CanWrite s .byte (.mem (.based .bx)) :=
  ⟨rfl, canon (by decide +kernel), acc (by decide +kernel)⟩

theorem witness_OneOperandArithmetic :
    oneOperandForm (.negRm .word (.mem (.based .bx))) = some (.neg, .word, .mem (.based .bx)) ∧
      oneOperandForm (.incReg .r4) = some (.inc, .word, .reg .r4) ∧
      PlainMemory real ∧ CanWrite real .word (.mem (.based .bx)) :=
  ⟨rfl, rfl, canon (by decide +kernel), acc (by decide +kernel)⟩

theorem witness_MultiplicationWritesProduct : let s := real |> bx 0xFFFE
    CanRead s .word (.mem (.based .bx)) ∧ CanRead s .byte (.reg .r4) ∧
      (∃ b : Byte, (0xFF80 : Word) = b.signExtend 16 ∧
        Instr.imulRegRmImm8 .r0 (.reg .r3) 0x80 = .imulRegRmImm8 .r0 (.reg .r3) b) :=
  ⟨acc (by decide +kernel), trivial, 0x80, rfl, rfl⟩

/-- A word at offset FFFFH cannot be read. -/
theorem witness_MultiplicationWritesProduct_refused : ¬ CanRead (real |> bx 0xFFFF) .word (.mem (.based .bx)) :=
  noAcc (by decide +kernel)

theorem witness_DivisionResultsAndErrors_quotient_largest : let s := real |> ax 0x0FFF |> bx 0x10
    (valueOf s .byte (.reg .r3)).toNat ≠ 0 ∧ wideNat s .byte / (valueOf s .byte (.reg .r3)).toNat = 255 := by
  decide +kernel

theorem witness_DivisionResultsAndErrors_quotient_most_negative : let s := real |> ax 0xFF80 |> bx 1
    (valueOf s .byte (.reg .r3)).toInt ≠ 0 ∧ (wideInt s .byte).tdiv (valueOf s .byte (.reg .r3)).toInt = -128 ∧
      signedOverflow 8 ((wideInt s .byte).tdiv (valueOf s .byte (.reg .r3)).toInt) = false := by
  decide +kernel

theorem witness_DivisionResultsAndErrors_error :
    (valueOf (real |> bx 0) .word (.reg .r3)).toNat = 0 ∧
      wideNat (real |> ax 0x1000 |> bx 0x10) .byte / (valueOf (real |> bx 0x10) .byte (.reg .r3)).toNat = 256 ∧
      signedOverflow 8 ((wideInt (real |> ax 0x80) .byte).tdiv (valueOf (real |> bx 1) .byte (.reg .r3)).toInt) = true := by
  decide +kernel

theorem witness_AdjustInstructions :
    (9 < (real |> ax 0xF9 |> flags 0x10).al.toNat % 16 ∨ (real |> ax 0xF9 |> flags 0x10).flags.af = true) ∧
      (real |> ax 0xF9 |> flags 0x10).al.toNat ≤ 0xF9 ∧
      ¬ (9 < (real |> ax 0x19).al.toNat % 16 ∨ (real |> ax 0x19).flags.af = true) ∧
      6 ≤ (real |> ax 6 |> flags 0x10).al.toNat ∧ (real |> ax 6 |> flags 0x10).flags.af = true := by
  decide +kernel

theorem witness_AdjustInstructions_sum : BcdSum (real |> ax 0x33 |> flags 0x11) 0x99 0x99 1 := by
  unfold BcdSum
  decide +kernel

theorem witness_AdjustInstructions_difference : BcdDifference (real |> ax 0x66 |> flags 0x11) 0 0x99 1 := by
  unfold BcdDifference
  decide +kernel

theorem witness_ShiftsMultiplyAndDivide : let s := real |> cx 0x1F
    shiftForm (.sarCl .word (.mem (.based .bx))) = some (.sar, .word, .mem (.based .bx), .cl) ∧
      CountSource.cl.count s = 31 ∧ CountSource.one.count s = 1 ∧ PlainMemory s ∧
      CanWrite s .word (.mem (.based .bx)) :=
  ⟨rfl, by decide +kernel, rfl, canon (by decide +kernel), acc (by decide +kernel)⟩

theorem witness_RotatesTurnBits :
    shiftForm (.rclImm .byte (.mem (.based .bx)) 0x1F) = some (.rcl, .byte, .mem (.based .bx), .imm 0x1F) ∧
      (CountSource.imm 0x1F).count real = 31 ∧ (CountSource.imm 0x21).count real = 1 ∧ PlainMemory real ∧
      CanWrite real .byte (.mem (.based .bx)) :=
  ⟨rfl, rfl, rfl, canon (by decide +kernel), acc (by decide +kernel)⟩

theorem witness_ShiftsMultiplyAndDivide_zero :
    shiftForm (.shlCl .byte (.mem (.based .bx))) = some (.shl, .byte, .mem (.based .bx), .cl) ∧
      CountSource.cl.count (real |> cx 0x20) = 0 ∧ CanWrite (real |> cx 0x20) .byte (.mem (.based .bx)) :=
  ⟨rfl, by decide +kernel, acc (by decide +kernel)⟩

theorem witness_MovesAndExchanges :
    (∃ o, moveForm (.movRegRm .word .r4 (.mem (.based .bx))) = some o ∧ CanWrite real o.w o.dst ∧ o.Ready real) ∧
      (∃ o, moveForm (.sldt (.mem (.based .bx))) = some o ∧ PlainMemory prot ∧ CanWrite prot o.w o.dst ∧
        o.Ready prot) :=
  ⟨⟨_, rfl, trivial, show CanRead real .word (.mem (.based .bx)) from acc (by decide +kernel)⟩,
    ⟨_, rfl, canon (by decide +kernel), acc (by decide +kernel), rfl⟩⟩

theorem witness_MovesAndExchanges_exchange : PlainMemory real ∧ CanWrite real .byte (.mem (.based .bx)) :=
  ⟨canon (by decide +kernel), acc (by decide +kernel)⟩

theorem witness_PushAndPopMoveOneWord :
    (∃ o, pushForm (.pushRm (.mem (.based .bx))) = some o ∧ PlainMemory real ∧ o.Ready real) ∧
      CanPush (real |> sp 2) 1 ∧ CanPush (real |> sp 0) 1 :=
  ⟨⟨_, rfl, canon (by decide +kernel), show CanRead real .word (.mem (.based .bx)) from acc (by decide +kernel)⟩,
    room (by decide +kernel), room (by decide +kernel)⟩

theorem witness_PushAndPopMoveOneWord_pop : let s := real |> sp 0xFFFE
    popForm (.popRm (.mem (.based .bx))) = some (.mem (.based .bx)) ∧ PlainMemory s ∧ CanPopAt s 0 ∧
      CanWrite s .word (.mem (.based .bx)) ∧ popForm (.popReg .r4) = some (.reg .r4) ∧
      popForm (.popRm (.reg .r4)) = some (.reg .r4) :=
  ⟨rfl, canon (by decide +kernel), acc (by decide +kernel), acc (by decide +kernel), rfl, rfl⟩

theorem witness_PushAllAndPopAll : PlainMemory real ∧ CanPush (real |> sp 0x10) 8 ∧
    ∀ k, k < 8 → CanPopAt (real |> sp 0xFFF0) (BitVec.ofNat 16 (2 * k)) := by
  refine ⟨canon (by decide +kernel), room (by decide +kernel), fun k hk => acc ?_⟩
  revert k
  decide +kernel

/-- The last port is odd: a word there is split. -/
theorem witness_PortTransfers_odd : portForm (real |> dx 0xFFFF) (.inDx .word) = some (false, .word, 0xFFFF) ∧
    OddPortWord .word 0xFFFF ∧ ¬ OddPortWord .word 0x80 ∧ ¬ OddPortWord .byte 0x81 := by
  refine ⟨rfl, ⟨rfl, by decide⟩, fun h => absurd h.2 (by decide), fun h => by cases h.1⟩

theorem witness_PortTransfers : portForm real (.outDx .word) = some (true, .word, 0x10) ∧
    portForm real (.inImm .byte 0x60) = some (false, .byte, 0x60) ∧ IoAllowed real ∧
    IoAllowed (user |> flags 0x3000) ∧ ¬ IoAllowed (user |> flags 0x2000) :=
  ⟨rfl, rfl, fun h => (Bool.false_ne_true h).elim, fun _ => by decide +kernel, fun h => absurd (h rfl) (by decide +kernel)⟩

theorem witness_PopfLoadsFlags : CanPopAt (real |> sp 0xFFFE) 0 ∧ CanPopAt (user |> sp 0xFFFE) 0 ∧
    ¬ CanPopAt (real |> sp 0xFFFF) 0 :=
  ⟨acc (by decide +kernel), acc (by decide +kernel), noAcc (by decide +kernel)⟩

theorem witness_RealModeSegmentLoads :
    (∃ v R, segmentSource (.movSregRm .ss (.mem (.based .bx))) = some (.ss, v, R) ∧ real.msw.pe = false ∧ R real) ∧
      (∃ v R, segmentSource .popDs = some (.ds, v, R) ∧ R real) ∧ CanReadPair (real |> bx 0xFFFC) (.based .bx) :=
  ⟨⟨_, _, rfl, rfl, acc (by decide +kernel)⟩, ⟨_, _, rfl, acc (by decide +kernel)⟩, acc (by decide +kernel),
    acc (by decide +kernel)⟩

/-- A null selector, a selector that names nothing, one not present and one that passes, for DS by MOV. -/
theorem witness_ProtectedModeSegmentLoads_data :
    (∃ v R, segmentSource (.movSregRm .ds (.reg .r0)) = some (.ds, v, R) ∧ prot.msw.pe = true ∧ PlainMemory prot ∧
      R prot ∧ (v (prot |> ax 3)).toNat = 3) ∧
    dataLoadFault (prot |> ax 4) 4 = some (13, 4) ∧ dataLoadFault (prot |> ax 0x20) 0x20 = some (11, 0x20) ∧
    dataLoadFault (prot |> ax 0x10) 0x10 = none ∧ (fetchDescriptor (prot |> ax 0x10) 0x10).isSome = true :=
  ⟨⟨_, _, rfl, rfl, canon (by decide +kernel), trivial, by decide +kernel⟩, by decide +kernel, by decide +kernel,
    by decide +kernel, by decide +kernel⟩

/-- The same for SS by POP, where a null selector is an exception. -/
theorem witness_ProtectedModeSegmentLoads_stack :
    (∃ v R, segmentSource .popSs = some (.ss, v, R) ∧ R prot) ∧ stackLoadFault prot 0 = some (13, 0) ∧
      stackLoadFault prot 0x20 = some (12, 0x20) ∧ stackLoadFault prot 0x10 = none ∧
      (fetchDescriptor prot 0x10).isSome = true :=
  ⟨⟨_, _, rfl, acc (by decide +kernel)⟩, by decide +kernel, by decide +kernel, by decide +kernel, by decide +kernel⟩

theorem witness_ProtectedModeSegmentLoads_pair :
    CanReadPair (prot |> bx 0xFFFC) (.based .bx) ∧ (secondWord prot (.based .bx)).toNat < 4 ∧
      dataLoadFault prot (secondWord (prot |> word 0x602 4) (.based .bx)) = some (13, 4) ∧
      dataLoadFault prot (secondWord (prot |> word 0x602 0x10) (.based .bx)) = none :=
  ⟨⟨acc (by decide +kernel), acc (by decide +kernel)⟩, by decide +kernel, by decide +kernel, by decide +kernel⟩

/-- A string instruction repeated, with CX = 0 and with CX = 1. -/
def repeated (k : RepKind) (s : State) : State := { s with cur := { s.cur with rep := some k, noted := 1 } }

theorem witness_StringMovesTransferOneElement :
    Instr.stos .word ∈ stringForms .word ∧ (repeated .repne (real |> cx 0)).regs.cx = 0 ∧ PlainMemory real ∧
      Iterates (repeated .repe real) ∧ SourceReadable (real |> si 0xFFFE) .word ∧
      Accessible (real |> di 0xFFFE) .es 0xFFFE 2 .write :=
  ⟨by decide, rfl, canon (by decide +kernel), .inr (by decide +kernel), acc (by decide +kernel), acc (by decide +kernel)⟩

theorem witness_StringComparesSetFlags :
    Iterates (repeated .repne real) ∧ Iterates real ∧ SourceReadable real .byte ∧
      Accessible real .es real.regs.di.toNat 1 .read :=
  ⟨.inr (by decide +kernel), .inl rfl, acc (by decide +kernel), acc (by decide +kernel)⟩

theorem witness_PortTransfers_strings :
    Iterates user ∧ ¬ IoAllowed user ∧ IoAllowed real ∧ PlainMemory real ∧ Iterates (repeated .repe real) ∧
      Accessible real .es real.regs.di.toNat 2 .write ∧ SourceReadable real .word :=
  ⟨.inl rfl, fun h => absurd (h rfl) (by decide +kernel), fun h => (Bool.false_ne_true h).elim, canon (by decide +kernel),
    .inr (by decide +kernel), acc (by decide +kernel), acc (by decide +kernel)⟩

/-- A jump taken to the limit of its segment, one past it, and one not taken; LOOP with CX = 1 and with CX = 0. -/
theorem witness_ShortJumpsFollowTheirConditions : let s := setCs ⟨8, 0, 0x27F, 0x9B, true⟩ prot |> flags 0x40
    (∃ c, shortJumpForm s (.je 0x7F) = some (c, 0x7F) ∧ c ∧ TargetOk s (s.ip + 0x7F) ∧ (s.ip + 0x7F) = 0x27F) ∧
      ¬ TargetOk (setCs ⟨8, 0, 0x27E, 0x9B, true⟩ prot) (s.ip + 0x7F) ∧
      (∃ c, shortJumpForm s (.jne 0x7F) = some (c, 0x7F) ∧ ¬ c) ∧
      (∃ c, shortJumpForm real (.loop 0xFE) = some (c, 0xFE) ∧ ¬ c) ∧
      (∃ c, shortJumpForm (real |> cx 0) (.loop 0xFE) = some (c, 0xFE) ∧ c) :=
  ⟨⟨_, rfl, by decide +kernel, fun _ => by decide +kernel, by decide +kernel⟩, fun h => absurd (h rfl) (by decide +kernel),
    ⟨_, rfl, by decide +kernel⟩, ⟨_, rfl, by decide +kernel⟩, ⟨_, rfl, by decide +kernel⟩⟩

theorem witness_NearTransfers :
    (∃ R, nearJumpForm real (.jmpRm (.mem (.based .bx))) = some (valueOf real .word (.mem (.based .bx)), R) ∧ R) ∧
      (∃ R, nearCallForm real (.callRel 0x10) = some (0x210, R) ∧ R) ∧ PlainMemory real ∧ CanPush (real |> sp 2) 1 ∧
      CanPopAt (real |> sp 0xFFFE) 0 ∧ TargetOk (setCs ⟨8, 0, 0x1FF, 0x9B, true⟩ prot) 0x1FF ∧
      ¬ TargetOk (setCs ⟨8, 0, 0x1FF, 0x9B, true⟩ prot) 0x200 :=
  ⟨⟨_, rfl, acc (by decide +kernel)⟩, ⟨_, rfl, trivial⟩, canon (by decide +kernel), room (by decide +kernel),
    acc (by decide +kernel), fun _ => by decide +kernel, fun h => absurd (h rfl) (by decide +kernel)⟩

/-- ENTER at nesting levels 0, 1, 2 and 31, with the old display away from the new one; LEAVE; BOUND at both bounds. -/
theorem witness_HighLevelInstructions_enter : let s := real |> bp 0x300
    PlainMemory s ∧ CanPush s 32 ∧ CanPush s 1 ∧
      (∀ j, j < 31 → Accessible s .ss (displayWord s j).toNat 2 .read) ∧
      ¬ BelowTop s 3 (segAddr s .ss (displayWord s 1)) := by
  refine ⟨canon (by decide +kernel), room (by decide +kernel), room (by decide +kernel), fun j hj => acc ?_, ?_⟩
  · revert j
    decide +kernel
  · rintro ⟨k, hk, h⟩
    revert k
    decide +kernel

theorem witness_HighLevelInstructions_leave_bound : let s := real |> bp 0xFFFE |> ax 7 |> word 0x600 7 |> word 0x602 7
    Accessible s .ss s.regs.bp.toNat 2 .read ∧ CanReadPair s (.based .bx) ∧ firstWord s (.based .bx) = s.getW .r0 ∧
      secondWord s (.based .bx) = s.getW .r0 ∧ (secondWord s (.based .bx)).toInt < (8 : Word).toInt ∧
      (6 : Word).toInt < (firstWord s (.based .bx)).toInt :=
  ⟨acc (by decide +kernel), ⟨acc (by decide +kernel), acc (by decide +kernel)⟩, by decide +kernel, by decide +kernel,
    by decide +kernel, by decide +kernel⟩

theorem witness_RealModeFarTransfers :
    (∃ c o R, farForm real (.jmpFarMem (.based .bx)) = some (false, c, o, R) ∧ real.msw.pe = false ∧
      PlainMemory real ∧ R) ∧
    (∃ R, farForm real (.callFar 0x1234 0xF000) = some (true, 0xF000, 0x1234, R) ∧ R) ∧ CanPush (real |> sp 4) 2 ∧
      ¬ CanPush (real |> sp 3) 2 :=
  ⟨⟨_, _, _, rfl, rfl, canon (by decide +kernel), acc (by decide +kernel), acc (by decide +kernel)⟩, ⟨_, rfl, trivial⟩,
    room (by decide +kernel), noRoom (by decide +kernel)⟩

theorem witness_RealModeFarTransfers_returns : let s := real |> sp 0xFFFA
    farReturnForm (.retFarImm 4) = some 4 ∧ s.msw.pe = false ∧ CanPopAt s 0 ∧ CanPopAt s 2 ∧ CanPopAt s 4 :=
  ⟨rfl, rfl, acc (by decide +kernel), acc (by decide +kernel), acc (by decide +kernel)⟩

/-- The last vector of a table of 0400H bytes; a stack with room for three words and one without. -/
theorem witness_RealModeSoftwareInterrupts : interruptForm (.intImm 0xFF) = some 0xFF ∧
    4 * (0xFF : Byte).toNat + 3 = real.idtr.limit.toNat ∧ PlainMemory real ∧ CanPush (real |> sp 6) 3 ∧
    ¬ CanPush (real |> sp 5) 3 ∧ (real |> flags 0x800).flags.of = true ∧ real.flags.of = false :=
  ⟨rfl, by decide +kernel, canon (by decide +kernel), room (by decide +kernel), noRoom (by decide +kernel), rfl, rfl⟩

theorem witness_InterruptReturnUndoesInterrupt : let s := real |> sp 6 |> flags 0xFD5
    s.msw.pe = false ∧ PlainMemory s ∧ 4 * (0xFF : Byte).toNat + 3 ≤ s.idtr.limit.toNat ∧ CanPush s 3 ∧
      ∃ t, exec (.intImm 0xFF) s = .next t :=
  ⟨rfl, canon (by decide +kernel), by decide +kernel, room (by decide +kernel), _, rfl⟩

/-- A call to code with the offset at its limit and one beyond it, and one whose stack has no room. -/
theorem witness_ProtectedFarJumpsAndCalls :
    (∃ R, farForm prot (.callFar 0xFFFF 8) = some (true, 8, 0xFFFF, R) ∧ R) ∧ prot.msw.pe = true ∧ PlainMemory prot ∧
      fetchDescriptor prot 8 = some (0x808, ⟨0xFFFF, 0, 0x9A00⟩) ∧ DirectTarget prot 8 ⟨0xFFFF, 0, 0x9A00⟩ ∧
      CanPush prot 2 ∧ ¬ BelowTop prot 2 (0x808 + 5) ∧
      fetchDescriptor (prot |> word 0x808 0xFFE) 8 = some (0x808, ⟨0xFFE, 0, 0x9A00⟩) ∧
      (⟨0xFFE, 0, 0x9A00⟩ : Desc).limit.toNat < (0xFFF : Word).toNat ∧
      ¬ CanPush (setSs ⟨0x10, 0, 0xFD, 0x93, true⟩ prot) 2 := by
  refine ⟨⟨_, rfl, trivial⟩, rfl, canon (by decide +kernel), by decide +kernel, ?_, room (by decide +kernel), ?_,
    by decide +kernel, by decide +kernel, noRoom (by decide +kernel)⟩
  · unfold DirectTarget DirectEnterable
    decide +kernel
  · rintro ⟨k, hk, h⟩
    revert k
    decide +kernel

/-- Selectors that fail: null, beyond the table, a data segment, code of another level, code that is not present. -/
theorem witness_ProtectedFarJumpsAndCalls_faults : DirectFault prot 3 13 0 ∧ DirectFault prot 0x80 13 0x80 ∧
    DirectFault prot 0x10 13 0x10 ∧ DirectFault user 8 13 8 ∧
    DirectFault (prot |> desc 0x808 0xFFFF 0 0x1A00) 8 11 8 := by
  refine ⟨.inl (by decide), .inr ⟨by decide, by decide, .inl ⟨by decide +kernel, rfl⟩⟩,
    .inr ⟨by decide, by decide, .inr ⟨0x810, ⟨0xFFFF, 0, 0x9200⟩, by decide +kernel, .inl ⟨by decide, ?_, rfl⟩⟩⟩,
    .inr ⟨by decide, by decide, .inr ⟨0x808, ⟨0xFFFF, 0, 0x9A00⟩, by decide +kernel,
      .inr (.inl ⟨by decide, .inr ⟨by decide, .inr (by decide +kernel)⟩, rfl⟩)⟩⟩,
    .inr ⟨by decide, by decide, .inr ⟨0x808, ⟨0xFFFF, 0, 0x1A00⟩, by decide +kernel, .inr (.inr ⟨?_, by decide, rfl⟩)⟩⟩⟩
  · unfold IndirectTarget
    decide
  · unfold DirectEnterable
    decide +kernel

theorem witness_CallGateSwitchesStacks : let g : Desc := ⟨0x500, 8, 0xE401⟩; let c : Desc := ⟨0xFFFF, 0, 0x9A00⟩
    let sd : Desc := ⟨0xFFFF, 0, 0x9200⟩
    (∃ R, farForm user (.callFar 0 0x43) = some (true, 0x43, 0, R) ∧ R) ∧ user.msw.pe = true ∧ PlainMemory user ∧
      fetchDescriptor user 0x43 = some (0x840, g) ∧ UsableCallGate user 0x43 g ∧ GateTarget user g 0x808 c ∧
      arC c.ar = false ∧ arDpl c.ar < user.cpl ∧ InnerStackIs user 0 0x10 0x800 0x810 sd ∧
      RoomBelow (segmentCache 0x10 sd) 0x800 5 ∧ g.wordCount = 1 ∧
      ∀ k, k < 1 → CanPopAt user (BitVec.ofNat 16 (2 * k)) := by
  refine ⟨⟨_, rfl, trivial⟩, rfl, canon (by decide +kernel), by decide +kernel, ?_, ?_, by decide +kernel,
    by decide +kernel, ?_, ?_, by decide +kernel, fun k hk => acc ?_⟩
  · unfold UsableCallGate
    decide +kernel
  · unfold GateTarget
    decide +kernel
  · unfold InnerStackIs
    decide +kernel
  · unfold RoomBelow Within
    decide +kernel
  · revert k
    decide +kernel

/-- INT 3 through a trap gate, at level 0 on the current stack and from level 3 on the inner one. -/
theorem witness_ProtectedInterruptGates : let c : Desc := ⟨0xFFFF, 0, 0x9A00⟩; let sd : Desc := ⟨0xFFFF, 0, 0x9200⟩
    interruptForm .int3 = some 3 ∧ UsableInterruptGate prot 3 ∧ GateTarget prot (idtGate prot 3) 0x808 c ∧
      arDpl c.ar = prot.cpl ∧ CanPush prot 3 ∧ ¬ BelowTop prot 3 (0x808 + 5) ∧
      PlainMemory user ∧ UsableInterruptGate user 3 ∧ GateTarget user (idtGate user 3) 0x808 c ∧ arC c.ar = false ∧
      arDpl c.ar < user.cpl ∧ InnerStackIs user 0 0x10 0x800 0x810 sd ∧ RoomBelow (segmentCache 0x10 sd) 0x800 5 := by
  refine ⟨rfl, ?_, ?_, by decide +kernel, room (by decide +kernel), ?_, canon (by decide +kernel), ?_, ?_,
    by decide +kernel, by decide +kernel, ?_, ?_⟩
  · unfold UsableInterruptGate
    decide +kernel
  · unfold GateTarget
    decide +kernel
  · rintro ⟨k, hk, h⟩
    revert k
    decide +kernel
  · unfold UsableInterruptGate
    decide +kernel
  · unfold GateTarget
    decide +kernel
  · unfold InnerStackIs
    decide +kernel
  · unfold RoomBelow Within
    decide +kernel

/-- Returns from level 0 to level 0 and to level 3, and from level 3 to level 0. -/
theorem witness_ProtectedFarReturns_same : let s := prot |> word 0x100 0x40 |> word 0x102 8 |> word 0x104 0x202
    protectedReturnForm .iret = some (true, 0) ∧ s.msw.pe = true ∧ PlainMemory s ∧ s.flags.nt = false ∧
      CanPopAt s 2 ∧ rpl (stackAt s 2) = s.cpl ∧ StackRange s 6 ∧
      ReturnCode s (stackAt s 2) 0x808 ⟨0xFFFF, 0, 0x9A00⟩ ∧ CanPopAt s 0 ∧ CanPopAt s 4 ∧
      (stackAt s 0).toNat ≤ (⟨0xFFFF, 0, 0x9A00⟩ : Desc).limit.toNat ∧ rpl (8 : Word) < user.cpl := by
  refine ⟨rfl, rfl, canon (by decide +kernel), rfl, acc (by decide +kernel), by decide +kernel, ?_, ?_,
    acc (by decide +kernel), acc (by decide +kernel), by decide +kernel, by decide +kernel⟩
  · unfold StackRange Within
    decide +kernel
  · unfold ReturnCode ReturnLevel
    decide +kernel

theorem witness_ProtectedFarReturns_outer :
    let s := prot |> sp 0xFFF6 |> word 0xFFF6 0x40 |> word 0xFFF8 0x3B |> word 0xFFFC 0x100 |> word 0xFFFE 0x33
    protectedReturnForm (.retFarImm 2) = some (false, 2) ∧ PlainMemory s ∧ CanPopAt s 2 ∧ s.cpl < rpl (stackAt s 2) ∧
      StackRange s 10 ∧ ReturnCode s (stackAt s 2) 0x838 ⟨0xFFFF, 0, 0xFA00⟩ ∧ CanPopAt s 6 ∧ CanPopAt s 8 ∧
      ReturnStack s (stackAt s 8) (rpl (stackAt s 2)) 0x830 ⟨0xFFFF, 0, 0xF203⟩ ∧ CanPopAt s 0 := by
  refine ⟨rfl, canon (by decide +kernel), acc (by decide +kernel), by decide +kernel, ?_, ?_, acc (by decide +kernel),
    acc (by decide +kernel), ?_, acc (by decide +kernel)⟩
  · unfold StackRange Within
    decide +kernel
  · unfold ReturnCode ReturnLevel
    decide +kernel
  · unfold ReturnStack ReturnStackLevel
    decide +kernel

/-- Returns that fail: a stack word that cannot be read, a range beyond the segment, an offset beyond the limit; a return
selector that is null, beyond the table, data, of another level, not present; an outer stack that is null, beyond the table, of
another level, not present. -/
theorem witness_ProtectedFarReturns_faults : let s := prot |> word 0x102 8
    (¬ CanPopAt (setSs ⟨0x10, 0, 0x102, 0x93, true⟩ s) 2) ∧
      (let u := setSs ⟨0x10, 0, 0x104, 0x93, true⟩ s; CanPopAt u 2 ∧ rpl (stackAt u 2) = u.cpl ∧ ¬ StackRange u 6) ∧
      (⟨0x3F, 0, 0x9A00⟩ : Desc).limit.toNat < (0x40 : Word).toNat ∧
      ReturnCodeFault s 0 13 0 ∧ ReturnCodeFault s 0x80 13 0x80 ∧ ReturnCodeFault s 0x10 13 0x10 ∧
      ReturnCodeFault s 0x0B 13 8 ∧ ReturnCodeFault (desc 0x808 0xFFFF 0 0x1A00 s) 8 11 8 ∧
      ReturnStackFault s 3 3 13 0 ∧ ReturnStackFault s 0x83 3 13 0x80 ∧ ReturnStackFault s 0x13 3 13 0x10 ∧
      ReturnStackFault (desc 0x830 0xFFFF 0 0x7203 s) 0x33 3 11 0x30 := by
  refine ⟨noAcc (by decide +kernel), ⟨acc (by decide +kernel), by decide +kernel, ?_⟩, by decide, .inl (by decide),
    .inr ⟨by decide, by decide, .inl ⟨by decide +kernel, rfl⟩⟩,
    .inr ⟨by decide, by decide, .inr ⟨0x810, ⟨0xFFFF, 0, 0x9200⟩, by decide +kernel, .inl ⟨?_, rfl⟩⟩⟩,
    .inr ⟨by decide, by decide, .inr ⟨0x808, ⟨0xFFFF, 0, 0x9A00⟩, by decide +kernel, .inl ⟨?_, rfl⟩⟩⟩,
    .inr ⟨by decide, by decide, .inr ⟨0x808, ⟨0xFFFF, 0, 0x1A00⟩, by decide +kernel, .inr ⟨?_, by decide, rfl⟩⟩⟩,
    .inl (by decide), .inr ⟨by decide, by decide, .inl ⟨by decide +kernel, rfl⟩⟩,
    .inr ⟨by decide, by decide, .inr ⟨0x810, ⟨0xFFFF, 0, 0x9200⟩, by decide +kernel, .inl ⟨?_, rfl⟩⟩⟩,
    .inr ⟨by decide, by decide, .inr ⟨0x830, ⟨0xFFFF, 0, 0x7203⟩, by decide +kernel, .inr ⟨?_, by decide, rfl⟩⟩⟩⟩
  · unfold StackRange Within
    decide +kernel
  all_goals
    first | unfold ReturnLevel | unfold ReturnStackLevel
    decide

theorem witness_ControlInstructionsAndPrefixes : real.cpl = 0 ∧ prot.cpl = 0 ∧
    IoAllowed real ∧ IoAllowed (user |> flags 0x3000) :=
  ⟨rfl, by decide +kernel, fun h => (Bool.false_ne_true h).elim, fun _ => by decide +kernel⟩

/-- Every clause of WAIT; for ESC, states that meet each clause whichever way the extension decides (log 12). -/
theorem witness_WaitAndEscFollowExtension :
    ((real |> mswBits 10).msw.mp = true ∧ (real |> mswBits 10).msw.ts = true) ∧
      (¬ ((real |> signalBusy).msw.mp = true ∧ (real |> signalBusy).msw.ts = true) ∧ (real |> signalBusy).pins.busy = true) ∧
      (real.pins.busy = false ∧ (real |> signalError).pins.error = true ∧ real.pins.error = false) ∧
      (real |> mswBits 4).msw.em = true ∧ real.msw.em = false ∧ real.msw.ts = false ∧
      EscOperandOk real 0x29 (.mem (.based .bx)) :=
  ⟨⟨rfl, rfl⟩, ⟨fun h => Bool.false_ne_true h.1, rfl⟩, ⟨rfl, rfl, rfl⟩, rfl, rfl, rfl, fun h => (Bool.false_ne_true h).elim⟩

theorem witness_SystemRegisterTransfers : let s := real |> bx 0xFFFA
    tableLoadForm (.lidt (.based .bx)) = some (true, .based .bx) ∧ s.cpl = 0 ∧
      tableStoreForm s (.sgdt (.based .bx)) = some (s.gdtr, .based .bx) ∧ PlainMemory s ∧
      (∀ j, j < 3 → Accessible s .ds ((ea s (.based .bx)).toNat + 2 * j) 2 .write) ∧
      CanRead s .word (.mem (.based .bx)) ∧ CanWrite s .word (.mem (.based .bx)) := by
  refine ⟨rfl, rfl, rfl, canon (by decide +kernel), fun j hj => acc ?_, acc (by decide +kernel), acc (by decide +kernel)⟩
  revert j
  decide +kernel

/-- LLDT and LTR: a null selector, one that fails, one that passes. -/
theorem witness_SystemSegmentLoads : prot.msw.pe = true ∧ prot.cpl = 0 ∧ PlainMemory prot ∧ Steady (prot |> ax 3) ∧
    (valueOf (prot |> ax 3) .word (.reg .r0)).toNat = 3 ∧ ldtFault prot 4 = some (13, 4) ∧ ldtFault prot 0x68 = none ∧
    (fetchDescriptor prot 0x68).isSome = true ∧ tssFault prot 0x50 = some (13, 0x50) ∧ tssFault prot 0x58 = none ∧
    (fetchDescriptor prot 0x58).isSome = true :=
  ⟨rfl, by decide +kernel, canon (by decide +kernel), steady, by decide +kernel, by decide +kernel, by decide +kernel,
    by decide +kernel, by decide +kernel, by decide +kernel, by decide +kernel⟩

/-- ARPL with equal levels and with the operand's lower; a limit that is visible and one that is not. -/
theorem witness_SelectorTestsReportThroughZeroFlag : prot.msw.pe = true ∧ PlainMemory prot ∧ Steady prot ∧
    CanRead prot .word (.mem (.based .bx)) ∧ CanWrite prot .word (.mem (.based .bx)) ∧
    (2 : Word).toNat % 4 < (3 : Word).toNat % 4 ∧ (3 : Word).toNat % 4 ≤ (3 : Word).toNat % 4 ∧
    (∃ d, LimitVisible user 0x3B d) ∧ NoDescriptor prot 0x80 := by
  refine ⟨rfl, canon (by decide +kernel), steady, acc (by decide +kernel), acc (by decide +kernel), by decide, by decide,
    ⟨⟨0xFFFF, 0, 0xFA00⟩, ?_⟩, ?_⟩
  · refine ⟨by decide, ⟨0x838, by decide +kernel⟩, .inl (by decide), .inr ?_⟩
    unfold VisibleAt
    decide +kernel
  · unfold NoDescriptor
    decide +kernel

theorem witness_PrivilegeViolationsTrap : needsLevel0 .hlt = true ∧ user.msw.pe = true ∧ user.cpl ≠ 0 ∧
    (setCs ⟨9, 0, 0xFFFF, 0x9B, true⟩ prot).cpl = 1 ∧ needsIoPrivilege .cli = true ∧ ¬ IoAllowed (user |> flags 0x2000) ∧
    protectedOnly (.arpl (.reg .r0) .r1) = true ∧ real.msw.pe = false :=
  ⟨rfl, rfl, by decide +kernel, by decide +kernel, rfl, fun h => absurd (h rfl) (by decide +kernel), rfl, rfl⟩

theorem witness_DecodeUndoesEncode : (Instr.imulRegRmImm16 .r7 (.mem (.disp16 .bp 0xFFFF)) 0x8000).WellFormed := by
  unfold Instr.WellFormed
  decide

theorem witness_EncodeUndoesDecode :
    decode [0x69, 0xBE, 0xFF, 0xFF, 0x00, 0x80, 0x90] =
      .ok (.imulRegRmImm16 .r7 (.mem (.disp16 .bp 0xFFFF)) 0x8000, [0x90]) := by decide

theorem witness_SampleWordsDecode : (([0x04, 0x01] : List Byte), Instr.addAccImm (.b 1)) ∈ encodingSamples := by
  decide +kernel

/-- An instruction that ends at the limit of its segment. -/
theorem witness_StepRunsDecodedInstruction :
    let s := setCs ⟨8, 0, 0x202, 0x9B, true⟩ prot |> byte 0x200 0x83 |> byte 0x201 0xC3 |> byte 0x202 0xFF
    Executing s ∧ QuietBoundary s ∧ (Instr.addRmSext (.reg .r3) 0xFF).WellFormed ∧ s.stale = [] ∧
      CodeAt s (encode (.addRmSext (.reg .r3) 0xFF)) := by
  refine ⟨⟨rfl, rfl, rfl, rfl, .inl rfl⟩, ?_, ?_, rfl, codeAt (by decide +kernel) (by decide +kernel)⟩
  · unfold QuietBoundary
    decide +kernel
  · unfold Instr.WellFormed
    decide

/-- A repeated string instruction with an override. -/
theorem witness_StepRunsPrefixedInstruction :
    let s := real |> byte 0x200 0x26 |> byte 0x201 0xF3 |> byte 0x202 0xA5
    Executing s ∧ QuietBoundary s ∧ (Instr.movs .word).WellFormed ∧ s.stale = [] ∧
      (encodeAll [.segPfx .es, .repPfx] (.movs .word)).length = 3 ∧
      CodeAt s (encodeAll [.segPfx .es, .repPfx] (.movs .word)) ∧ (Instr.movs .word).isString = true := by
  refine ⟨⟨rfl, rfl, rfl, rfl, .inl rfl⟩, ?_, ?_, rfl, rfl, codeAt (by decide +kernel) (by decide +kernel), rfl⟩
  · unfold QuietBoundary
    decide +kernel
  · unfold Instr.WellFormed
    decide

theorem witness_ResetGivesTableValues : ({ prot with pins := { prot.pins with reset := true } } : State).pins.reset = true :=
  rfl

theorem witness_StepKeepsMemoryCanonical :
    PlainMemory (starts 0x200 [0x88, 0x07] real) ∧ ∃ t, step (starts 0x200 [0x88, 0x07] real) = .next t :=
  ⟨canon (by decide +kernel), (runs (f := fun _ _ => true) (by decide +kernel)).imp fun _ h => h.1⟩

theorem witness_StepKeepsRealModeInvariant : RealModeInvariant real ∧
    ∃ t, step (starts 0x200 [0x8E, 0xD8] real) = .next t :=
  ⟨⟨fun _ => ⟨rfl, rfl⟩, fun _ x => by cases x <;> exact ⟨rfl, rfl, rfl⟩⟩,
    (runs (f := fun _ _ => true) (by decide +kernel)).imp fun _ h => h.1⟩

theorem witness_OnlyResetLeavesProtectedMode : prot.msw.pe = true ∧ prot.pins.reset = false ∧
    ∃ t, step (starts 0x200 [0x0F, 0x01, 0xF0] (prot |> ax 0)) = .next t :=
  ⟨rfl, rfl, (runs (f := fun _ _ => true) (by decide +kernel)).imp fun _ h => h.1⟩

/-- Level 3 with TS clear and with TS set. -/
theorem witness_UnprivilegedStepKeepsSystemState :
    let s := starts 0x200 [0x90] user; let u := starts 0x200 [0x90] (user |> mswBits 8)
    s.msw.pe = true ∧ s.cpl ≠ 0 ∧ s.pins.reset = false ∧ (∃ t, step s = .next t ∧ (!t.msw.ts) = true) ∧
      u.msw.ts = true ∧ ∃ t, step u = .next t ∧ t.msw.ts = true :=
  ⟨rfl, by decide +kernel, rfl, runs (f := fun _ t => !t.msw.ts) (by decide +kernel), rfl,
    runs (f := fun _ t => t.msw.ts) (by decide +kernel)⟩

theorem completes {i : Instr} {s : State}
    (h : (match exec i s with | .next _ => true | .fault _ => false | .refused _ => false) = true) :
    ∃ t, exec i s = .next t := by
  split at h
  · exact ⟨_, ‹_›⟩
  · cases h
  · cases h

/-- The same level with no task gate, for a far JMP to code and for a delivery that completes. -/
theorem witness_UnprivilegedStepKeepsSystemState_noTask : let s := user |> mswBits 8
    s.msw.pe = true ∧ s.cpl ≠ 0 ∧ s.msw.ts = true ∧ Steady s ∧ NoTaskGates s ∧ AsksForNoTask s .nop ∧
      AsksForNoTask s (.jmpFar 0x200 0x3B) ∧ ∃ t, exec (.jmpFar 0x200 0x3B) s = .next t := by
  refine ⟨rfl, by decide +kernel, rfl, steady, ?_, ⟨fun h => (by cases h), fun _ _ _ _ h => (by cases h), fun h => (by cases h)⟩,
    ⟨fun h => (by cases h), ?_, fun h => (by cases h)⟩, ?_⟩
  · unfold NoTaskGates
    decide +kernel
  · rintro _ _ _ _ ⟨⟩ a d h
    rw [show fetchDescriptor (user |> mswBits 8) 0x3B = some (0x838, ⟨0xFFFF, 0, 0xFA00⟩) by decide +kernel] at h
    cases h
    decide
  · exact completes (by decide +kernel)

/-- `real` with the bytes up to the end of memory of a kind. -/
def mapped (k : MemKind) : State := { real with memMap := [⟨0xFFFFF0, 16, k⟩] }

theorem witness_WordsAreStoredLowByteFirst : PlainMemory real ∧ PlainMemory prot ∧
    (mapped .rom).memKind 0xFFFFFF = .rom ∧ (mapped .device).memKind 0xFFFFFF = .device ∧
    (mapped .absent).memKind 0xFFFFF0 = .absent ∧ (mapped .shared).memKind 0xFFFFFF = .shared ∧
    MemoryCanonical (mapped .shared) :=
  ⟨canon (by decide +kernel), canon (by decide +kernel), by decide +kernel, by decide +kernel, by decide +kernel,
    by decide +kernel, (canon (by decide +kernel) : PlainMemory real).1⟩

/-- A word at the last offset that holds one, and one offset further; through SS, where the exception is 12. -/
theorem witness_AccessChecksFollowSegmentRules : Accessible real .ds 0xFFFE 2 .write ∧ ¬ Accessible real .ds 0xFFFF 2 .write ∧
    Accessible (setSs ⟨0x10, 0, 0xFFF, 0x93, true⟩ prot) .ss 0xFFE 2 .read ∧
    ¬ Accessible (setSs ⟨0x10, 0, 0xFFF, 0x93, true⟩ prot) .ss 0xFFF 2 .read ∧
    faultVector (setSs ⟨0x10, 0, 0xFFF, 0x93, true⟩ prot) .ss .read = 12 :=
  ⟨acc (by decide +kernel), noAcc (by decide +kernel), acc (by decide +kernel), noAcc (by decide +kernel), by decide +kernel⟩

/-- A word over the end of the segment, the second word pushed by a far CALL, an element at ES:DI after the one at DS:SI, and
an operand through a null segment. -/
theorem witness_RefusedOperandsLeaveStateUnchanged : let s := real |> sp 3; let u := real |> di 0xFFFF
    (operandChecks (real |> bx 0xFFFF) (.adcRmReg .word (.mem (.based .bx)) .r0) = [.access .ds 0xFFFF 2 .write] ∧
      ¬ Accessible (real |> bx 0xFFFF) .ds 0xFFFF 2 .write) ∧
    (operandChecks s (.callFar 0 0) = [.condition (s.msw.pe = false), .access .ss 1 2 .write, .access .ss 0xFFFF 2 .write] ∧
      s.msw.pe = false ∧ Accessible s .ss 1 2 .write ∧ ¬ Accessible s .ss 0xFFFF 2 .write) ∧
    (operandChecks u (.movs .word) = [.condition (Iterates u), .access .ds 0x400 2 .read, .access .es 0xFFFF 2 .write] ∧
      Iterates u ∧ Accessible u .ds 0x400 2 .read ∧ ¬ Accessible u .es 0xFFFF 2 .write) ∧
    operandChecks (nullDs prot) (.popRm (.mem (.based .bx))) =
        [.access .ss 0x100 2 .read, .access .ds 0x600 2 .write] ∧
      Accessible (nullDs prot) .ss 0x100 2 .read ∧ ¬ Accessible (nullDs prot) .ds 0x600 2 .write :=
  ⟨⟨rfl, noAcc (by decide +kernel)⟩, ⟨rfl, rfl, acc (by decide +kernel), noAcc (by decide +kernel)⟩,
    ⟨rfl, .inl rfl, acc (by decide +kernel), noAcc (by decide +kernel)⟩, rfl, acc (by decide +kernel),
    noAcc (by decide +kernel)⟩

theorem witness_OperandAddresses : real.cur.seg = none ∧ prot.msw.pe = true ∧ real.msw.pe = false ∧
    (setDs ⟨0xFFFF, 0xFFFF0, 0xFFFF, 0x93, true⟩ real).ds.base.toNat + (0xF : Word).toNat < 0x100000 :=
  ⟨rfl, rfl, rfl, by decide +kernel⟩

/-- The last descriptor of the table, and the first selector beyond it. -/
theorem witness_DescriptorsComeFromTheirTables : 0x78 / 8 * 8 + 7 = prot.gdtr.limit.toNat ∧
    (fetchDescriptor prot 0x78).isSome = true ∧ fetchDescriptor prot 0x80 = none := by decide +kernel

/-- A boundary with each of the events due in turn, and with none. -/
theorem witness_EventsFollowTheirPriority :
    RealBoundary real ∧ StepDue { real with stepTrap := true } ∧ ExternalOpen real ∧ NmiPending (signalNmi real) ∧
      ¬ StepDue real ∧ ¬ NmiPending real ∧ ({ real with mpPending := true } : State).mpPending = true ∧
      ((signalIntr 0xFF real).pins.intr = true ∧ (signalIntr 0xFF real).flags.ief = true) ∧
      ({ real with halted := true } : State).halted = true := by
  refine ⟨⟨⟨rfl, rfl, rfl, .inl rfl⟩, rfl, rfl, canon (by decide +kernel), by decide +kernel, room (by decide +kernel)⟩,
    ⟨rfl, rfl, rfl⟩,
    ⟨rfl, rfl, rfl⟩, .inr ⟨rfl, rfl⟩, fun h => Bool.false_ne_true h.1, ?_, rfl, ⟨rfl, rfl⟩, rfl⟩
  rintro (h | h)
  · exact Bool.false_ne_true h
  · exact Bool.false_ne_true h.1

/-- The steps of a boundary due in turn at their last phases, in protected mode too, and a boundary with none due. -/
theorem witness_EventsOfABoundaryFollowEachOther :
    AtBoundary prot ∧ TrapDue { prot with stepTrap := true } ∧ NmiDue (signalNmi { prot with phase := .nmi }) ∧
      OverrunDue { real with mpPending := true, phase := .mp } ∧ IntrDue (signalIntr 0x21 { real with phase := .intr }) ∧
      ¬ TrapDue prot ∧ ¬ NmiDue prot ∧ ¬ OverrunDue prot ∧ ¬ IntrDue prot := by
  refine ⟨⟨rfl, rfl, rfl, .inl rfl⟩, ⟨rfl, rfl, rfl, rfl⟩, ⟨by decide, .inr ⟨rfl, rfl⟩, rfl, rfl, rfl⟩,
    ⟨by decide, rfl, rfl, rfl, rfl⟩, ⟨by decide, rfl, rfl, rfl, rfl, rfl⟩, fun h => Bool.false_ne_true h.2.1, ?_,
    fun h => Bool.false_ne_true h.2.1, fun h => Bool.false_ne_true h.2.1⟩
  rintro ⟨-, h | h, -⟩
  · exact Bool.false_ne_true h
  · exact Bool.false_ne_true h.1

/-- An instruction that begins with TF = 1. -/
theorem witness_EventsOfABoundaryFollowEachOther_trap : let s := starts 0x200 [0x90] (real |> flags 0x100)
    Executing s ∧ QuietBoundary s ∧ ∃ t, step s = .next t ∧ t.stepTrap = true := by
  refine ⟨⟨rfl, rfl, rfl, rfl, .inl rfl⟩, ?_, runs (f := fun _ t => t.stepTrap) (by decide +kernel)⟩
  unfold QuietBoundary
  decide +kernel

/-- LEA of a register behind prefixes, and a member of the POP group that ends at the limit of its segment. -/
theorem witness_BytesThatAreNoInstruction :
    let s := starts 0x200 [0xF0, 0x26, 0x8D, 0xC0] real; let u := starts 0xFFFC [0x8F, 0x8F, 0x34, 0x12] real
    (Executing s ∧ QuietBoundary s ∧ s.stale = [] ∧ UndefinedBytes (0x8D :: modRM RegNum.r0.bits (.reg .r0)) ∧
      CodeAt s ([Instr.lockPfx, .segPfx .es].flatMap encode ++ 0x8D :: modRM RegNum.r0.bits (.reg .r0))) ∧
    Executing u ∧ QuietBoundary u ∧ u.stale = [] ∧ UndefinedPushPop (0x8F :: modRM 1 (.mem (.disp16 .bx 0x1234))) ∧
      CodeAt u (([] : List Instr).flatMap encode ++ 0x8F :: modRM 1 (.mem (.disp16 .bx 0x1234))) := by
  refine ⟨⟨⟨rfl, rfl, rfl, rfl, .inl rfl⟩, ?_, rfl, .registerOperand _ _ _ (by decide),
      codeAt (by decide +kernel) (by decide +kernel)⟩,
    ⟨rfl, rfl, rfl, rfl, .inl rfl⟩, ?_, rfl, .pop _ _ (by decide) rfl, codeAt (by decide +kernel) (by decide +kernel)⟩ <;>
  · unfold QuietBoundary
    decide +kernel

/-- MOV CS with its displacement behind the end of the segment. -/
theorem witness_BytesThatAreNoInstruction_movCs :
    let s := starts 0x200 [0x8E, 0x8E] (setCs ⟨8, 0, 0x201, 0x9B, true⟩ prot)
    Executing s ∧ QuietBoundary s ∧ s.stale = [] ∧ UndefinedBytes [0x8E, 0x8E] ∧
      CodeAt s (([] : List Instr).flatMap encode ++ [0x8E, 0x8E]) := by
  refine ⟨⟨rfl, rfl, rfl, rfl, .inl rfl⟩, ?_, rfl, .movCs _ (by decide), codeAt (by decide +kernel) (by decide +kernel)⟩
  unfold QuietBoundary
  decide +kernel

theorem bytesAt {s : State} {bs : List Byte}
    (hb : ∀ k, k < bs.length → bs[k]? = some ((Latched s).load8 (segAddr s .cs (s.ip + BitVec.ofNat 16 k)))) : BytesAt s bs :=
  fun k _ hk => Option.some.inj ((hb k (List.getElem?_eq_some_iff.1 hk).1).symm.trans hk)

/-- Ten prefixes and NOP; a MOV whose third byte lies beyond the limit. -/
theorem witness_BytesThatAreNoInstruction_length :
    let s := starts 0x200 (List.replicate 10 0x26) real
    let u := starts 0x200 [0xB8, 0x34] (setCs ⟨8, 0, 0x201, 0x9B, true⟩ prot)
    (Executing s ∧ QuietBoundary s ∧ s.stale = [] ∧ 10 < (encodeAll (List.replicate 10 (.segPfx .es)) .nop).length ∧
      10 ≤ s.cs.limit.toNat + 1 - s.ip.toNat ∧
      BytesAt s ((encodeAll (List.replicate 10 (.segPfx .es)) .nop).take 10)) ∧
    Executing u ∧ QuietBoundary u ∧ u.stale = [] ∧ u.cs.limit.toNat + 1 - u.ip.toNat = 2 ∧
      (encodeAll [] (.movRegImm .r0 (.w 0x1234))).length = 3 ∧
      BytesAt u ((encodeAll [] (.movRegImm .r0 (.w 0x1234))).take 2) := by
  refine ⟨⟨⟨rfl, rfl, rfl, rfl, .inl rfl⟩, ?_, rfl, by decide, by decide +kernel, bytesAt (by decide +kernel)⟩,
    ⟨rfl, rfl, rfl, rfl, .inl rfl⟩, ?_, rfl, by decide +kernel, rfl, bytesAt (by decide +kernel)⟩ <;>
  · unfold QuietBoundary
    decide +kernel

/-- Another master's write of a word over the end of memory. For the extension, the last word that fits a segment of 64K bytes,
a word one byte further, and the same in protected mode. -/
theorem witness_OtherBusAgentsAccessMemory :
    let o : ExtOperand := ⟨SegReg.real 0, false, 0xFFFE, true⟩; let p : ExtOperand := ⟨prot.ds, true, 0xFFFF, false⟩
    let s := transferring o real; let h := mastered ⟨0xFFFFFF, .word, 0x1234⟩ real
    (h.pins.reset = false ∧ h.pins.hold = true ∧ h.pins.busWrite.isSome = true ∧ PlainMemory h) ∧
      (s.pins.reset = false ∧ s.pins.hold = false ∧ s.pins.pereq = true ∧ s.ext = some o ∧ o.off + 2 ≤ 0x10000 ∧
        PlainMemory s) ∧
      ¬ o.off + 1 + 2 ≤ 0x10000 ∧ (transferring p prot).ext = some p ∧ ¬ Within p.seg p.off 2 ∧
      Within p.seg (p.off - 1) 2 := by
  refine ⟨⟨rfl, rfl, rfl, canon (by decide +kernel)⟩, ⟨rfl, rfl, rfl, rfl, by decide, canon (by decide +kernel)⟩, by decide,
    rfl, ?_, ?_⟩ <;>
  · unfold Within
    decide +kernel

/-- Tables that hold neither the vector nor vector 8, at their largest limits; in real mode vector 13 with limits above 34. -/
theorem witness_UndeliverableExceptionsShutDown :
    ((idtLimit 70 prot).msw.pe = true ∧ (idtLimit 70 prot).idtr.limit.toNat < 71 ∧
      (idtLimit 70 prot).idtr.limit.toNat < 8 * (13 : Byte).toNat + 7) ∧
    (real.msw.pe = false ∧ (idtLimit 54 real).idtr.limit.toNat < 4 * (13 : Byte).toNat + 3 ∧
      (idtLimit 34 real).idtr.limit.toNat < 4 * (8 : Byte).toNat + 3 ∧ ¬ CanPush (real |> sp 5) 3) ∧
    ((idtLimit 35 real).idtr.limit.toNat < 4 * (0x21 : Byte).toNat + 3 ∧ 35 ≤ (idtLimit 35 real).idtr.limit.toNat ∧
      PlainMemory (idtLimit 35 real) ∧ CanPush (idtLimit 35 real) 3) :=
  ⟨⟨rfl, by decide +kernel, by decide +kernel⟩, ⟨rfl, by decide +kernel, by decide +kernel, noRoom (by decide +kernel)⟩,
    by decide +kernel, by decide +kernel, canon (by decide +kernel), room (by decide +kernel)⟩

/-- A shutdown that an NMI can end, at the smallest limit and SP, and one that it cannot. -/
theorem witness_UndeliverableExceptionsShutDown_nmi :
    let s : State := { signalNmi (idtLimit 0x0F (real |> sp 6)) with shutdown := true }
    s.shutdown = true ∧ s.pins.reset = false ∧ BusFree s ∧ NmiEndsShutdown s ∧ s.msw.pe = false ∧ PlainMemory s ∧
      ¬ NmiEndsShutdown (s |> sp 5) ∧ NmiEndsShutdown (signalNmi prot) := by
  refine ⟨rfl, rfl, ⟨rfl, .inl rfl⟩, ⟨.inr ⟨rfl, rfl⟩, rfl, .inr (by decide +kernel)⟩, rfl, canon (by decide +kernel), ?_,
    .inr ⟨rfl, rfl⟩, rfl, .inl rfl⟩
  rintro ⟨-, -, h | h⟩
  · exact Bool.false_ne_true h
  · exact absurd h (by decide +kernel)

/-! Call gates: `user` and `prot` go through the gate 0040 to the code 0008. -/

theorem witness_CallGatesCheckAndKeepLevel : let g : Desc := ⟨0x500, 8, 0xE401⟩; let c : Desc := ⟨0xFFFF, 0, 0x9A00⟩
    (∃ R, farForm prot (.jmpFar 0 0x43) = some (false, 0x43, 0, R) ∧ R) ∧ prot.msw.pe = true ∧ PlainMemory prot ∧
      fetchDescriptor prot 0x43 = some (0x840, g) ∧ g.isType 4 = true ∧ UsableCallGate prot 0x43 g ∧
      fetchDescriptor prot g.selector = some (0x808, c) ∧ arCode c.ar = true ∧ GateEnterable prot false c ∧
      arP c.ar = true ∧ g.offset.toNat ≤ c.limit.toNat ∧ ¬ InnerTarget prot c ∧ CanPush prot 2 ∧
      ¬ CanPush (setSs ⟨0x10, 0, 0xFD, 0x93, true⟩ prot) 2 ∧ ¬ BelowTop prot 2 (0x808 + 5) ∧
      (⟨0x4FF, 0, 0x9A00⟩ : Desc).limit.toNat < g.offset.toNat := by
  refine ⟨⟨_, rfl, trivial⟩, rfl, canon (by decide +kernel), by decide +kernel, by decide, ?_, by decide +kernel, by decide,
    ?_, by decide, by decide, ?_, room (by decide +kernel), noRoom (by decide +kernel), ?_, by decide⟩
  · unfold UsableCallGate
    decide +kernel
  · unfold GateEnterable
    decide +kernel
  · unfold InnerTarget
    decide +kernel
  · rintro ⟨k, hk, h⟩
    revert k
    decide +kernel

/-- Gates that are hidden or absent; targets that are null, beyond the table, no code, of another level, absent. -/
theorem witness_CallGatesCheckAndKeepLevel_faults :
    GateHidden user 0x43 ⟨0x500, 8, 0x8401⟩ 13 0x40 ∧ GateHidden user 0x43 ⟨0x500, 8, 0x6401⟩ 11 0x40 ∧
      GateTargetFault prot true ⟨0x500, 3, 0xE401⟩ 13 0 ∧ GateTargetFault prot true ⟨0x500, 0x80, 0xE401⟩ 13 0x80 ∧
      GateTargetFault prot true ⟨0x500, 0x10, 0xE401⟩ 13 0x10 ∧ GateTargetFault prot false ⟨0x500, 0x38, 0xE401⟩ 13 0x38 ∧
      GateTargetFault (prot |> desc 0x808 0xFFFF 0 0x1A00) true ⟨0x500, 8, 0xE401⟩ 11 8 := by
  refine ⟨⟨by decide, .inl ⟨.inl (by decide +kernel), rfl⟩⟩, ⟨by decide, .inr (by decide +kernel)⟩, .inl (by decide),
    .inr ⟨by decide, by decide, .inl ⟨by decide +kernel, rfl⟩⟩,
    .inr ⟨by decide, by decide, .inr ⟨0x810, ⟨0xFFFF, 0, 0x9200⟩, by decide +kernel, .inl ⟨?_, rfl⟩⟩⟩,
    .inr ⟨by decide, by decide, .inr ⟨0x838, ⟨0xFFFF, 0, 0xFA00⟩, by decide +kernel, .inl ⟨?_, rfl⟩⟩⟩,
    .inr ⟨by decide, by decide, .inr ⟨0x808, ⟨0xFFFF, 0, 0x1A00⟩, by decide +kernel, .inr ?_⟩⟩⟩ <;>
  · unfold GateEnterable
    decide +kernel

/-- The call to an inner level: no stack named, a stack without room, words that cannot be read, and a good stack. -/
theorem witness_CallGatesCheckAndKeepLevel_inner : let c : Desc := ⟨0xFFFF, 0, 0x9A00⟩
    (∃ R, farForm user (.callFar 0 0x43) = some (true, 0x43, 0, R) ∧ R) ∧ GateEnterable user true c ∧ InnerTarget user c ∧
      InnerStackFault { user with tr := { user.tr with limit := 4 } } 0 false 10 0x50 ∧
      InnerStackIs user 0 0x10 0x800 0x810 ⟨0xFFFF, 0, 0x9200⟩ ∧
      RoomBelow (segmentCache 0x10 ⟨0xFFFF, 0, 0x9200⟩) 0x800 5 ∧
      ¬ RoomBelow (segmentCache 0x10 ⟨0x7FD, 0, 0x9200⟩) 0x800 5 ∧
      ¬ CanPopAt (setSs ⟨0x33, 0x30000, 0x100, 0xF3, true⟩ user) (BitVec.ofNat 16 (2 * 0)) := by
  refine ⟨⟨_, rfl, trivial⟩, ?_, ?_, .inl (by decide +kernel), ?_, ?_, ?_, noAcc (by decide +kernel)⟩
  · unfold GateEnterable
    decide +kernel
  · unfold InnerTarget
    decide +kernel
  · unfold InnerStackIs
    decide +kernel
  · unfold RoomBelow Within
    decide +kernel
  · intro h
    exact absurd (h 0 (by decide)) (by unfold Within; decide +kernel)

/-! Delivery in protected mode. -/

/-- An exception with its code at the same level, an external event at an inner one. -/
theorem witness_ProtectedEventDelivery : let c : Desc := ⟨0xFFFF, 0, 0x9A00⟩
    let e : Event := ⟨13, some 0x10, false, false⟩
    (prot.msw.pe = true ∧ PlainMemory prot ∧ GateUsable prot e ∧ InterruptOrTrap (idtGate prot 13) ∧
      GateTarget prot (idtGate prot 13) 0x808 c ∧ SameLevelTarget prot c ∧ CanPush prot 4 ∧
      ¬ BelowTop prot 4 (0x808 + 5)) ∧
    GateUsable user ⟨13, none, true, false⟩ ∧ GateTarget user (idtGate user 13) 0x808 c ∧ InnerTarget user c ∧
      InnerStackIs user 0 0x10 0x800 0x810 ⟨0xFFFF, 0, 0x9200⟩ ∧
      RoomBelow (segmentCache 0x10 ⟨0xFFFF, 0, 0x9200⟩) 0x800 5 := by
  refine ⟨⟨rfl, canon (by decide +kernel), ?_, .inl (by decide +kernel), ?_, .inr (by decide +kernel),
    room (by decide +kernel), ?_⟩, ?_, ?_, ?_, ?_, ?_⟩
  · exact ⟨by decide +kernel, by decide +kernel, fun h => (Bool.false_ne_true h).elim⟩
  · unfold GateTarget
    decide +kernel
  · rintro ⟨k, hk, h⟩
    revert k
    decide +kernel
  · exact ⟨by decide +kernel, by decide +kernel, fun h => (Bool.false_ne_true h).elim⟩
  · unfold GateTarget
    decide +kernel
  · unfold InnerTarget
    decide +kernel
  · unfold InnerStackIs
    decide +kernel
  · unfold RoomBelow Within
    decide +kernel

/-- Deliveries that fail: an external vector beyond the table, an exception's gate that is no gate, whose double fault finds a
gate in one state and none in the other (both hold whatever the platform calls benign). -/
theorem witness_ProtectedEventDelivery_fails : let s := gateAt 8 prot; let double : Event := ⟨8, some 0, false, false⟩
    Steady prot ∧ DeliveryFails prot ⟨0x20, none, true, false⟩ 13 0x103 ∧ DeliveryFails s ⟨11, some 0x20, false, false⟩ 13 0x5A ∧
      PlainMemory s ∧ GateUsable s double ∧ InterruptOrTrap (idtGate s 8) ∧
      GateTarget s (idtGate s 8) 0x808 ⟨0xFFFF, 0, 0x9A00⟩ ∧ SameLevelTarget s ⟨0xFFFF, 0, 0x9A00⟩ ∧ CanPush s 4 ∧
      ¬ BelowTop s 4 (0x808 + 5) ∧ DeliveryFails prot double 13 0x42 := by
  refine ⟨steady, .inl ⟨fun h => absurd h.1 (by decide +kernel), rfl, by decide⟩,
    .inl ⟨fun h => absurd h.2.1 ?_, rfl, by decide⟩, canon (by decide +kernel),
    ⟨by decide +kernel, by decide +kernel, fun h => (Bool.false_ne_true h).elim⟩, .inl (by decide +kernel), ?_,
    .inr (by decide +kernel), room (by decide +kernel), ?_, .inl ⟨fun h => absurd h.2.1 ?_, rfl, by decide⟩⟩
  · unfold InterruptOrTrap
    decide +kernel
  · unfold GateTarget
    decide +kernel
  · rintro ⟨k, hk, h⟩
    revert k
    decide +kernel
  · unfold InterruptOrTrap
    decide +kernel

/-! Task switches: `prot` runs the task 0050 and enters the task 0058, whose code is 0008 and whose stack is 0010. -/

/-- The task 0058 as it will be loaded in a state. -/
def incoming (s : State) (ar : Word) : Incoming :=
  { sel := 0x58, addr := 0x858, desc := ⟨0x2B, 0x2100, ar⟩, ldtr := { s.ldtr with sel := 0, valid := false }
    cs := (0x808, ⟨0xFFFF, 0, 0x9A00⟩), ss := (0x810, ⟨0xFFFF, 0, 0x9200⟩), ds := none, es := none }

theorem apart {a b : Phys} {m n : Nat}
    (h : ∀ j, j < m → ∀ k, k < n → a + BitVec.ofNat 24 j ≠ b + BitVec.ofNat 24 k) : Apart a m b n :=
  fun j k hj hk => h j hj k hk

theorem separate {s : State} {ar : Word} (hb : s.tr.base = 0x2000) (hs : s.tr.sel = 0x50) (hg : s.gdtr = ⟨0x800, 0x7F⟩)
    (hd : (incoming s ar).desc.base = 0x2100) (hf : fetchDescriptor s 0x50 = some (0x850, ⟨0x2B, 0x2000, 0x8300⟩)) :
    (incoming s ar).Separate s := by
  unfold Incoming.Separate
  rw [hb, hs, hg, hd]
  exact ⟨apart (by decide +kernel), apart (by decide +kernel), apart (by decide +kernel),
    fun h => (Bool.false_ne_true h).elim, by decide, 0x850, ⟨0x2B, 0x2000, 0x8300⟩, hf, by decide,
    (by decide : (0x850 : Phys) ≠ 0x858)⟩

/-- The incoming task passes its checks when its words and the descriptors they name are as `incoming` says. -/
theorem loadable {s : State} {ar : Word} (hb : (incoming s ar).desc.limit = 0x2B)
    (hw : (incoming s ar).word s 36 = 8 ∧ (incoming s ar).word s 38 = 0x10 ∧ (incoming s ar).word s 40 = 0 ∧
      (incoming s ar).word s 34 = 0 ∧ (incoming s ar).word s 42 = 0)
    (hc : (incoming s ar).fetch s 8 = some (0x808, ⟨0xFFFF, 0, 0x9A00⟩))
    (hs : (incoming s ar).fetch s 0x10 = some (0x810, ⟨0xFFFF, 0, 0x9200⟩)) : (incoming s ar).Loadable s := by
  obtain ⟨h1, h2, h3, h4, h5⟩ := hw
  unfold Incoming.Loadable Incoming.LdtOk Incoming.DataOk
  have hcs : (incoming s ar).cs = (0x808, ⟨0xFFFF, 0, 0x9A00⟩) := rfl
  have hss : (incoming s ar).ss = (0x810, ⟨0xFFFF, 0, 0x9200⟩) := rfl
  simp only [hb, h1, h2, h3, h4, h5, hcs, hss]
  exact ⟨by decide, .inl ⟨by decide, rfl⟩, ⟨by decide, hc, by decide, by decide, by decide⟩,
    ⟨by decide, hs, by decide, by decide, by decide, by decide⟩, .inl ⟨by decide, rfl⟩, .inl ⟨by decide, rfl⟩⟩

theorem witness_TaskSwitchesExchangeTasks : let n := incoming prot 0x8100
    prot.msw.pe = true ∧ PlainMemory prot ∧ AsksForTask prot (.jmpFar 0 0x58) .jmp n ∧
      AsksForTask prot (.callFar 0 0x60) .nest n ∧ n.Loadable prot ∧ n.Separate prot ∧
      (n.word prot 14).toNat ≤ n.cs.2.limit.toNat ∧ (⟨0x1233, 0, 0x9A00⟩ : Desc).limit.toNat < (n.word prot 14).toNat := by
  refine ⟨rfl, canon (by decide +kernel), ⟨by decide, by decide, by decide +kernel, by decide, .inr ⟨by decide, false, 0x58, 0, _, rfl,
      trivial, rfl, by decide, 0x858, ⟨0x2B, 0x2100, 0x8100⟩, by decide +kernel, by decide +kernel, by decide, by decide,
      .inl rfl⟩⟩,
    ⟨by decide, by decide, by decide +kernel, by decide, .inr ⟨by decide, true, 0x60, 0, _, rfl, trivial, rfl, by decide, 0x860,
      ⟨0, 0x58, 0x8500⟩, by decide +kernel, by decide +kernel, by decide, by decide, .inr ⟨by decide, rfl⟩⟩⟩,
    loadable rfl (by decide +kernel) (by decide +kernel) (by decide +kernel),
    separate rfl rfl rfl (by decide) (by decide +kernel), by decide +kernel, by decide +kernel⟩

/-- IRET of a nested task: the back link names the busy task 0058. -/
theorem witness_TaskSwitchesExchangeTasks_iret :
    let s := prot |> desc 0x858 0x2B 0x2100 0x8300 |> word 0x2000 0x58 |> flags 0x4000; let n := incoming s 0x8300
    s.msw.pe = true ∧ PlainMemory s ∧ AsksForTask s .iret .iret n ∧ n.Loadable s ∧ n.Separate s :=
  ⟨rfl, canon (by decide +kernel), ⟨by decide, by decide, by decide +kernel, by decide, .inl ⟨rfl, rfl, by decide +kernel,
      by decide +kernel, by decide⟩⟩,
    loadable (by decide) (by decide +kernel) (by decide +kernel) (by decide +kernel),
    separate rfl rfl rfl (by decide) (by decide +kernel)⟩

/-- Tasks that fail before the switch: hidden, a gate to no task or to a null one, one too short; a null back link, and one to
no task. -/
theorem witness_TaskSwitchesExchangeTasks_faults :
    (∃ R, farForm user (.callFar 0 0x58) = some (true, 0x58, 0, R) ∧ R) ∧
      GateHidden user 0x58 ⟨0x2B, 0x2100, 0x8100⟩ 13 0x58 ∧ Steady user ∧ Steady prot ∧
      TaskGateFault prot 0x5C false 13 0x5C ∧ TaskGateFault prot 3 false 13 0 ∧ TaskGateFault prot 0x10 false 13 0x10 ∧ TaskGateFault (prot |> word 0x858 0x2A) 0x58 true 10 0x59 ∧
      ((prot |> flags 0x4000).flags.nt = true ∧ prot.load16 prot.tr.base = 0 ∧
        (prot |> word 0x2000 0x10).load16 prot.tr.base = 0x10 ∧
        fetchDescriptor prot 0x10 = some (0x810, ⟨0xFFFF, 0, 0x9200⟩) ∧
        (⟨0xFFFF, 0, 0x9200⟩ : Desc).isType 3 = false) :=
  ⟨⟨_, rfl, trivial⟩, ⟨by decide, .inl ⟨.inl (by decide +kernel), rfl⟩⟩, steady, steady,
    .inl ⟨.inr (.inl (by decide)), rfl, by decide⟩, .inl ⟨.inl (by decide), rfl, by decide⟩,
    .inr ⟨0x810, ⟨0xFFFF, 0, 0x9200⟩, by decide, by decide, by decide +kernel, .inl (by decide)⟩,
    .inr ⟨0x858, ⟨0x2A, 0x2100, 0x8100⟩, by decide, by decide, by decide +kernel, .inr (.inr (by decide))⟩,
    by decide +kernel⟩

/-- An exception through a task gate of the IDT. -/
theorem witness_TaskSwitchesExchangeTasks_event : let s := taskGateAt 10 prot; let n := incoming s 0x8100
    s.msw.pe = true ∧ PlainMemory s ∧ GateUsable s ⟨10, some 0x58, false, false⟩ ∧ (idtGate s 10).isType 5 = true ∧
      (idtGate s 10).selector = n.sel ∧ 4 ≤ n.sel.toNat ∧ selLocal n.sel = false ∧ fetchDescriptor s n.sel = some (n.addr, n.desc) ∧
      n.desc.isType 1 = true ∧ arP n.desc.ar = true ∧ n.Loadable s ∧ n.Separate s ∧
      (n.word s 14).toNat ≤ n.cs.2.limit.toNat :=
  ⟨rfl, canon (by decide +kernel), ⟨by decide +kernel, by decide +kernel, fun h => (Bool.false_ne_true h).elim⟩,
    by decide +kernel, by decide +kernel, by decide, by decide, by decide +kernel, by decide, by decide,
    loadable (by decide) (by decide +kernel) (by decide +kernel) (by decide +kernel),
    separate rfl rfl rfl (by decide) (by decide +kernel), by decide +kernel⟩

theorem witness_FlagInstructionsChangeOneFlag : (∃ f, flagInstruction .cmc = some f) ∧ (∃ f, flagInstruction .std = some f) :=
  ⟨⟨_, rfl⟩, _, rfl⟩

theorem jmp_ldt (s : State) (ret : Word) (hp : Steady s) (hb : s.tr.base = 0x2000) (hg : s.gdtr.base = 0x800)
    (ht : s.tr.sel = 0x50) :
    (commitSwitch s 0x58 0x858 ⟨0x2B, 0x2100, 0x8100⟩ .jmp ret).ldtr.sel =
      wordOf (s.load8 0x212A) (s.load8 0x212B) := by
  have hl (p : Phys) (hq : p ≠ 0x855) (hr : p ≠ 0x85D) (h : (0x2000 + 42 : Phys) ≤ p) (v w : Byte) :
      (((saveTask s .jmp ret).store8 0x855 v).store8 0x85D w).load8 p = s.load8 p := by
    rw [State.load8_store8_ne _ _ hr, State.load8_store8_ne _ _ hq, saveTask,
      State.load8_congr (State.drawn_mem _ _) rfl rfl, load8_tssStore]
    rw [hb]
    simp only [List.mem_cons, List.not_mem_nil, or_false, forall_eq_or_imp, forall_eq]
    refine ⟨?_, ?_, ?_, ?_, ?_, ?_, ?_, ?_, ?_, ?_, ?_, ?_, ?_, ?_⟩ <;> constructor <;> rintro rfl <;>
      exact absurd h (by decide)
  have ha : (saveTask s .jmp ret).gdtr.base + (((saveTask s .jmp ret).tr.sel &&& 0xFFF8).setWidth 24) + 5 = 0x855 := by
    simp only [saveTask, State.drawn_gdtr, State.drawn_tr, tssStore, State.store16, State.store8_gdtr, State.store8_tr, hg, ht]
    decide
  have hm : markOldAvailable (saveTask s .jmp ret) =
      (saveTask s .jmp ret).store8 0x855 (((saveTask s .jmp ret).later .taskState).load8 0x855 &&& 0xFD) := by
    simp only [markOldAvailable, ha]
  have hd : (⟨0x2B, 0x2100, 0x8100⟩ : Desc).base + BitVec.ofNat 24 42 = 0x212A ∧ (0x858 + 5 : Phys) = 0x85D := by decide
  have h1 : (0x212A + 1 : Phys) = 0x212B := by decide
  simp only [commitSwitch, reduceCtorEq, if_false, hm, markBusy, loadTask, tssLayout, tssWord, State.load16, hd, h1]
  have hu (v w : Byte) : Steady (((saveTask s .jmp ret).store8 0x855 v).store8 0x85D w) := by
    simpa only [Steady, State.store8_memMap, saveTask_memMap] using hp
  have hs (u : State) (h : Steady u) (r : Tr) (m : Msw) (p : Phys) :
      (({ u with tr := r, msw := m } : State).later .newTask).load8 p = u.load8 p :=
    Steady.load8_congr (t := ({ u with tr := r, msw := m } : State).later .newTask) h rfl rfl p
  rw [hs _ (hu _ _) _ _ 0x212A, hs _ (hu _ _) _ _ 0x212B, hl 0x212A (by decide) (by decide) (by decide),
    hl 0x212B (by decide) (by decide) (by decide)]

/-- A task whose LDT selector is itself local, with no interrupt table: the switch is made, then the processor shuts
down in
the new task. -/
def toBrokenTask : State := { prot with idtr := ⟨0, 0⟩ } |> word 0x212A 4

/-- JMP to an available task state segment whose LDT selector is not usable, from the facts about the state that it
needs. -/
theorem jmp_broken_task {s c : State} {d : Desc} (hp : s.msw.pe = true)
    (hf : fetchDescriptor (s.later .descriptor) 0x58 = some (0x858, d)) (hv : gateVisible s 0x58 d = .ok ())
    (hd : arCode d.ar = false ∧ d.isType 4 = false ∧ d.isType 5 = false ∧ d.isType 1 = true)
    (hm : decide (0x2B ≤ d.limit.toNat) = true) (hc : commitSwitch s 0x58 0x858 d .jmp s.ip = c) (hl : c.ldtr.sel = 4) :
    exec (.jmpFar 0 0x58) s = .next (deliver c (.exn 10 (some 4)) c.ip c.ip) := by
  have hw : switchLdt c false = .error (invalidTss 4) := by
    simp only [switchLdt, hl]
    rfl
  have hs : switchTasks s 0x58 0x858 d .jmp s.ip false = .error (.excIn (.exn 10 (some 4)) c c.ip) := by
    simp only [switchTasks, hm, hc, hw]
    rfl
  have h1 : needDescriptor (s.later .descriptor) 0x58 (protection (selCode 0x58 false)) = .ok (0x858, d) := by rw [needDescriptor, hf]
  have h2 : (!selNull (0x58 : Word)) = true ∧ (!selLocal (0x58 : Word)) = true := by decide
  have hj : jmpFar s 0x58 0 = .error (.excIn (.exn 10 (some 4)) c c.ip) := by
    simp only [jmpFar, hp, if_true, jmpFarProt, h1, h2, hd, hv, hs, ok_bind', Bool.false_eq_true, if_false, Bool.and_self,
      need_true]
    rfl
  have he : exec (.jmpFar 0 0x58) s = finish s (jmpFar s 0x58 0) := rfl
  rw [he, hj]
  rfl

/-- The last clause: an instruction that changes TR. -/
theorem witness_TaskSwitchesExchangeTasks_ts :
    ∃ t, exec (.jmpFar 0 0x58) toBrokenTask = .next t ∧ t.tr ≠ toBrokenTask.tr := by
  have h4 : wordOf (toBrokenTask.load8 0x212A) (toBrokenTask.load8 0x212B) = 4 := by decide +kernel
  have hl := (jmp_ldt toBrokenTask toBrokenTask.ip steady rfl rfl rfl).trans h4
  have hc := commitSwitch_system toBrokenTask 0x58 0x858 ⟨0x2B, 0x2100, 0x8100⟩ .jmp toBrokenTask.ip
  refine ⟨_, jmp_broken_task rfl (by decide +kernel : _ = some (_, (⟨0x2B, 0x2100, 0x8100⟩ : Desc))) (by decide +kernel)
    (by decide) (by decide) rfl hl, ?_⟩
  generalize commitSwitch toBrokenTask 0x58 0x858 ⟨0x2B, 0x2100, 0x8100⟩ .jmp toBrokenTask.ip = c at hl hc ⊢
  obtain ⟨ht, hm, hg, hi⟩ := hc
  have hp : c.msw.pe = true := by rw [hm]; rfl
  have hz : c.idtr.limit.toNat = 0 := by rw [hi]; rfl
  have hd : (deliver c (.exn 10 (some 4)) c.ip c.ip).tr = c.tr := by
    simp [deliver, hp, deliverProt, Event.isException, Event.exn, deliverFirst, protEntry, hz, need, doubleFault, protection,
      enterShutdown, Stop.nextDelivery, Stop.context]
    split <;> rfl
  rw [hd, ht]
  decide

end Sys2Proof.Tests
end

section
/-! PROOFS. What the family of 10_state.md says of the state: what RESET gives, how segment registers are loaded in real mode,
and that every step keeps protected mode and what real mode guarantees (R26, R35). The last goes by `Ends`, which says what a part of
an instruction leaves behind: one lemma for each shared operation, and from these every instruction, delivery and event. -/

namespace Sys2Proof.Machine

/-! ### What an answer says of the states it leaves -/

/-- What a part of an instruction leaves behind: an exception that is taken in a changed state is taken in one with `P`, and
what it answers has `Q`. -/
structure Ends {α : Type} (P : State → Prop) (Q : α → Prop) (r : M α) : Prop where
  raised : ∀ e t ip, r = .error (.excIn e t ip) → P t
  answered : ∀ a, r = .ok a → Q a

/-- Checks and reads: every exception they raise is taken in the state before the instruction (60_exceptions.md R536). -/
abbrev ChangesNothing {α : Type} (r : M α) : Prop := Ends (fun _ => False) (fun _ => True) r

section
variable {α β : Type} {P : State → Prop} {Q : α → Prop} {R : β → Prop}

theorem Ends.ok {a : α} (h : Q a) : Ends P Q (.ok a : M α) := ⟨by rintro _ _ _ ⟨⟩, by rintro _ ⟨⟩; exact h⟩

theorem Ends.exc (e : Event) : Ends P Q (.error (.exc e) : M α) := ⟨by rintro _ _ _ ⟨⟩, by rintro _ ⟨⟩⟩

theorem Ends.excIn {e : Event} {t : State} {ip : Word} (h : P t) : Ends P Q (.error (.excIn e t ip) : M α) :=
  ⟨by rintro _ _ _ ⟨⟩; exact h, by rintro _ ⟨⟩⟩

theorem Ends.mono {P' : State → Prop} {Q' : α → Prop} {r : M α} (h : Ends P Q r) (hP : ∀ t, P t → P' t)
    (hQ : ∀ a, Q a → Q' a) : Ends P' Q' r :=
  ⟨fun e t ip hr => hP t (h.raised e t ip hr), fun a hr => hQ a (h.answered a hr)⟩

theorem Ends.bind {x : M α} {f : α → M β} (hx : Ends P Q x) (hf : ∀ a, Q a → Ends P R (f a)) : Ends P R (x >>= f) := by
  cases x with
  | ok a => exact hf a (hx.answered a rfl)
  | error st => exact ⟨fun e t ip h => hx.raised e t ip (by cases h; rfl), by rintro _ ⟨⟩⟩

/-- A check or a read, then the rest. -/
theorem Ends.after {x : M α} {f : α → M β} (hx : ChangesNothing x) (hf : ∀ a, Ends P R (f a)) : Ends P R (x >>= f) :=
  .bind (hx.mono (fun _ h => h.elim) fun _ h => h) fun a _ => hf a

theorem Ends.ite {c : Prop} [Decidable c] {x y : M α} (hx : c → Ends P Q x) (hy : ¬ c → Ends P Q y) :
    Ends P Q (if c then x else y) := by
  split
  · next h => exact hx h
  · next h => exact hy h

/-- A part that runs in the new task of a switch (45_protected_transfer.md R448). -/
theorem Ends.inTask {s : State} {r : M α} (hs : P s) (h : Ends P Q r) : Ends P Q (inTask s r) := by
  rcases r with (e | ⟨e, t, ip⟩) | t
  · exact .excIn hs
  · exact .excIn (h.raised e t ip rfl)
  · exact .ok (h.answered t rfl)

/-- The state in which what a part raises is taken. -/
theorem Ends.context {s : State} {r : M α} {st : Stop} {ip : Word} (h : Ends P Q r)
    (hr : r = .error st) (hs : P s) : P (st.context s ip).1 := by
  cases st with
  | exc e => exact hs
  | excIn e t ip' => exact h.raised e t ip' hr

end

theorem need_changesNothing (ok : Bool) (e : Event) : ChangesNothing (need ok (.exc e)) := by
  cases ok
  · exact .exc e
  · exact .ok trivial

/-- A check that stops with an exception, then the rest. -/
theorem Ends.need {α : Type} {P : State → Prop} {Q : α → Prop} {ok : Bool} {e : Event} {x : M α} (h : Ends P Q x) :
    Ends P Q (need ok (.exc e) >>= fun _ => x) := .after (need_changesNothing ok e) fun _ => h

theorem needDescriptor_changesNothing (s : State) (sel : Word) (e : Event) :
    ChangesNothing (needDescriptor s sel (.exc e)) := by
  unfold needDescriptor
  split
  · exact .ok trivial
  · exact .exc e

/-- A descriptor that is looked up, then the rest. -/
theorem Ends.descriptor {α : Type} {P : State → Prop} {Q : α → Prop} {s : State} {sel : Word} {e : Event}
    {f : Phys × Desc → M α} (h : ∀ p, Ends P Q (f p)) : Ends P Q (needDescriptor s sel (.exc e) >>= f) :=
  .after (needDescriptor_changesNothing s sel e) h

/-! ### Checks and reads -/

theorem memCheck_changesNothing (s : State) (x : SReg) (off n : Nat) (a : Access) :
    ChangesNothing (memCheck s x off n a) := by
  obtain ⟨e, he⟩ : ∃ e, limitStop s x = .exc e := by unfold limitStop; split <;> exact ⟨_, rfl⟩
  rw [memCheck, he]
  exact .ite (fun _ => .need (.need (need_changesNothing ..))) fun _ => need_changesNothing ..

theorem memRead_changesNothing (s : State) (w : Width) (x : SReg) (off : Word) : ChangesNothing (memRead s w x off) :=
  .after (memCheck_changesNothing ..) fun _ => .ok trivial

theorem memReadNth_changesNothing (s : State) (x : SReg) (off : Word) (k : Nat) : ChangesNothing (memReadNth s x off k) :=
  .after (memCheck_changesNothing ..) fun _ => .ok trivial

theorem readPlace_changesNothing (s : State) (w : Width) (p : Place) : ChangesNothing (readPlace s w p) := by
  cases p with
  | reg r => exact .ok trivial
  | mem x off => exact memRead_changesNothing ..

theorem readRm_changesNothing (s : State) (w : Width) (m : RM) : ChangesNothing (readRm s w m) :=
  readPlace_changesNothing ..

theorem readPair_changesNothing (s : State) (a : MemOp) : ChangesNothing (readPair s a) :=
  .after (memReadNth_changesNothing ..) fun _ => .after (memReadNth_changesNothing ..) fun _ => .ok trivial

theorem checkWrite_changesNothing (s : State) (w : Width) (p : Place) : ChangesNothing (checkWrite s w p) := by
  cases p with
  | reg r => exact .ok trivial
  | mem x off => exact memCheck_changesNothing ..

theorem checkPush_changesNothing (s : State) (n : Nat) : ChangesNothing (checkPush s n) := by
  induction n with
  | zero => exact .ok trivial
  | succ n ih => exact .after ih fun _ => memCheck_changesNothing ..

theorem loadTable_changesNothing (s : State) (a : MemOp) : ChangesNothing (loadTable s a) :=
  .need <| .after (memReadNth_changesNothing ..) fun _ => .after (memReadNth_changesNothing ..) fun _ =>
    .after (memReadNth_changesNothing ..) fun _ => .ok trivial

theorem checkStackTop_changesNothing (s : State) (n : Nat) : ChangesNothing (checkStackTop s n) :=
  .need (need_changesNothing ..)

theorem innerStack_changesNothing (s : State) (p : Nat) (ext : Bool) : ChangesNothing (innerStack s p ext) :=
  .need <| .need <| .descriptor fun _ => .need <| .need <| .need <| .need <| .ok trivial

theorem directCode_changesNothing (s : State) (sel : Word) (d : Desc) : ChangesNothing (directCode s sel d) :=
  .need (need_changesNothing ..)

theorem gateVisible_changesNothing (s : State) (sel : Word) (d : Desc) : ChangesNothing (gateVisible s sel d) :=
  .need (need_changesNothing ..)

theorem gateCode_changesNothing (s : State) (g : Desc) (same : Bool) : ChangesNothing (gateCode s g same) :=
  .need <| .descriptor fun _ => .need <| .need <| .need <| .ok trivial

theorem readParams_changesNothing (s : State) (n : Nat) : ChangesNothing (readParams s n) := by
  induction n with
  | zero => exact .ok trivial
  | succ n ih => exact .after ih fun _ => .after (memRead_changesNothing ..) fun _ => .ok trivial

theorem returnCode_changesNothing (s : State) (sel : Word) : ChangesNothing (returnCode s sel) :=
  .need <| .descriptor fun _ => .need <| .need <| .need <| .ok trivial

theorem returnStack_changesNothing (s : State) (sel csel : Word) : ChangesNothing (returnStack s sel csel) :=
  .need <| .descriptor fun _ => .need <| .need <| .need <| .need <| .ok trivial

theorem escCheck_changesNothing (s : State) (op : BitVec 6) (p : Place) : ChangesNothing (escCheck s op p) := by
  cases p with
  | reg r => exact .ok trivial
  | mem x off => exact .ite (fun _ => memCheck_changesNothing ..) fun _ => .ok trivial

/-! ### Protected mode is kept -/

/-- The processor is in protected mode. -/
abbrev Protected (t : State) : Prop := t.msw.pe = true

theorem Protected.of_msw {s t : State} (h : Protected s) (e : t.msw = s.msw) : Protected t := (congrArg Msw.pe e).trans h

/-- A part of an instruction that stays in protected mode, whether it answers or raises. -/
abbrev StaysProtected (r : M State) : Prop := Ends Protected Protected r

@[simp] theorem loadCache_msw (s : State) (x : SReg) (sel : Word) (p : Phys × Desc) : (loadCache s x sel p).msw = s.msw := by
  simp [loadCache]

@[simp] theorem loadCs_msw (s : State) (sel : Word) (p : Phys × Desc) (cpl : Nat) (off : Word) :
    (loadCs s sel p cpl off).msw = s.msw := by simp [loadCs]

@[simp] theorem foldl_pushRaw_msw (s : State) (l : List Word) : (l.foldl pushRaw s).msw = s.msw := by
  induction l generalizing s with
  | nil => rfl
  | cons v rest ih => rw [List.foldl_cons, ih, pushRaw_msw]

@[simp] theorem pushCode_msw (s : State) (code : Option Word) : (pushCode s code).msw = s.msw := by
  cases code <;> simp [pushCode]

@[simp] theorem validateDataSeg_msw (s : State) (x : SReg) : (validateDataSeg s x).msw = s.msw := by
  unfold validateDataSeg
  simp only
  split <;> simp

section
variable {s : State}

theorem checkIp_staysProtected (h : Protected s) : StaysProtected (checkIp s) := .need (.ok h)

theorem switchLdt_staysProtected (ext : Bool) (h : Protected s) : StaysProtected (switchLdt s ext) :=
  .ite (fun _ => .ok h) fun _ => .need <| .descriptor fun _ => .need <| .ok h

theorem switchCs_staysProtected (ext : Bool) (h : Protected s) : StaysProtected (switchCs s ext) :=
  .need <| .descriptor fun _ => .need <| .need <| .need <| .ok (h.of_msw (by simp))

theorem switchSs_staysProtected (ext : Bool) (h : Protected s) : StaysProtected (switchSs s ext) :=
  .need <| .descriptor fun _ => .need <| .need <| .need <| .ok (h.of_msw (by simp))

theorem switchData_staysProtected (x : SReg) (ext : Bool) (h : Protected s) : StaysProtected (switchData s x ext) :=
  .ite (fun _ => .ok h) fun _ => .descriptor fun _ => .need <| .need <| .need <| .ok (h.of_msw (by simp))

theorem commitSwitch_protected (tsel : Word) (a : Phys) (t : Desc) (mode : SwitchMode) (ret : Word) (h : Protected s) :
    Protected (commitSwitch s tsel a t mode ret) := by
  obtain ⟨-, hm, -⟩ := commitSwitch_system s tsel a t mode ret
  rw [Protected, hm]
  exact h

/-- A task switch stays in protected mode, in whichever task its exceptions are taken (45_protected_transfer.md R440, R448). -/
theorem switchTasks_staysProtected (tsel : Word) (a : Phys) (t : Desc) (mode : SwitchMode) (ret : Word) (ext : Bool)
    (h : Protected s) : StaysProtected (switchTasks s tsel a t mode ret ext) :=
  have h1 := commitSwitch_protected tsel a t mode ret h
  .need <|
    .bind (.inTask h1 (switchLdt_staysProtected ext h1)) fun _ h2 =>
    .bind (.inTask h2 (switchCs_staysProtected ext h2)) fun _ h3 =>
    .bind (.inTask h3 (switchSs_staysProtected ext h3)) fun _ h4 =>
    .bind (.inTask h4 (switchData_staysProtected .ds ext h4)) fun _ h5 =>
    .bind (.inTask h5 (switchData_staysProtected .es ext h5)) fun _ h6 => .ok h6

/-- A task switch, then the test of the new task's IP. -/
theorem switchThenCheckIp_staysProtected (tsel : Word) (a : Phys) (t : Desc) (mode : SwitchMode) (ret : Word) (ext : Bool)
    (h : Protected s) :
    StaysProtected (switchTasks s tsel a t mode ret ext >>= fun s1 => inTask s1 (checkIp s1)) :=
  .bind (switchTasks_staysProtected tsel a t mode ret ext h) fun _ h1 => .inTask h1 (checkIp_staysProtected h1)

/-! Gates and deliveries. -/

theorem push_staysProtected (v : Word) (h : Protected s) : StaysProtected (push s v) := by
  unfold push memWrite
  refine .bind (Q := Protected) (.after (memCheck_changesNothing ..) fun _ => .ok ?_) fun t ht => .ok ?_
  · exact h.of_msw (by simp)
  · exact ht.of_msw (by simp)

theorem taskEntry_staysProtected (ev : Event) (g : Desc) (ret : Word) (h : Protected s) :
    StaysProtected (taskEntry s ev g ret) := by
  refine .need <| .descriptor fun t => .need <| .need <|
    .bind (switchTasks_staysProtected _ _ _ _ _ _ h) fun s1 h1 =>
    .bind (.inTask h1 ?_) fun s2 h2 => .inTask h2 (checkIp_staysProtected h2)
  split
  · exact push_staysProtected _ h1
  · exact .ok h1

theorem gateInner_staysProtected (ev : Event) (g : Desc) (c : Phys × Desc) (ret : Word) (h : Protected s) :
    StaysProtected (gateInner s ev g c ret) :=
  .after (innerStack_changesNothing ..) fun _ => .need <| .need <| .ok (h.of_msw (by simp))

theorem gateSame_staysProtected (ev : Event) (g : Desc) (c : Phys × Desc) (ret : Word) (h : Protected s) :
    StaysProtected (gateSame s ev g c ret) :=
  .after (checkPush_changesNothing ..) fun _ => .need <| .ok (h.of_msw (by simp))

theorem gateEntry_staysProtected (ev : Event) (g : Desc) (ret : Word) (h : Protected s) :
    StaysProtected (gateEntry s ev g ret) :=
  .need <| .descriptor fun c => .need <| .need <|
    .ite (fun _ => gateInner_staysProtected ev g c ret h) fun _ =>
    .ite (fun _ => gateSame_staysProtected ev g c ret h) fun _ => .exc _

/-- What an entry of the IDT does stays in protected mode (60_exceptions.md R562 to R564). -/
theorem protEntry_staysProtected (ev : Event) (ret : Word) (h : Protected s) : StaysProtected (protEntry s ev ret) :=
  .need <| .need <| .need <| .need <|
    .ite (fun _ => taskEntry_staysProtected ev _ ret h) fun _ => gateEntry_staysProtected ev _ ret h

theorem doubleFault_protected (ret : Word) (h : Protected s) : Protected (doubleFault s ret) := by
  have hd := protEntry_staysProtected (.exn 8 (some 0)) ret h
  unfold doubleFault
  split
  · next t ht => exact hd.answered t ht
  · next st hst => exact hd.context (ip := ret) hst h

theorem deliverFirst_protected (ev : Event) (ret : Word) (h : Protected s) : Protected (deliverFirst s ev ret) := by
  have hd := protEntry_staysProtected ev ret h
  unfold deliverFirst
  split
  · next t ht => exact hd.answered t ht
  · next st hst =>
    have h1 : Protected (st.nextDelivery s ret).1 := hd.context (ip := ret) hst h
    simp only
    split
    · have hd' := protEntry_staysProtected (st.nextDelivery s ret).2.2 (st.nextDelivery s ret).2.1 h1
      split
      · next t ht => exact hd'.answered t ht
      · next st' hst' => exact doubleFault_protected _ (hd'.context (ip := (st.nextDelivery s ret).2.1) hst' h1)
    · exact doubleFault_protected _ h1

/-- Whatever a delivery raises in turn, it stays in protected mode (60_exceptions.md R570). -/
theorem deliverProt_protected (ev : Event) (ret atIp : Word) (h : Protected s) : Protected (deliverProt s ev ret atIp) := by
  have hd := protEntry_staysProtected ev ret h
  unfold deliverProt
  split
  · exact deliverFirst_protected ev ret h
  · split
    · next t ht => exact hd.answered t ht
    · next st hst => exact deliverFirst_protected _ _ (hd.context (ip := atIp) hst h)

/-! Far transfers. -/

theorem throughTaskGate_staysProtected (g : Desc) (mode : SwitchMode) (h : Protected s) :
    StaysProtected (throughTaskGate s g mode) :=
  .need <| .descriptor fun _ => .need <| .need <| switchThenCheckIp_staysProtected _ _ _ _ _ _ h

theorem callSame_staysProtected (sel : Word) (c : Phys × Desc) (off : Word) (h : Protected s) :
    StaysProtected (callSame s sel c off) :=
  .after (checkPush_changesNothing ..) fun _ => .need <| .ok (h.of_msw (by simp [pushReturn]))

theorem callInner_staysProtected (g : Desc) (c : Phys × Desc) (h : Protected s) : StaysProtected (callInner s g c) :=
  .after (innerStack_changesNothing ..) fun _ => .need <| .after (readParams_changesNothing ..) fun _ =>
    .need <| .ok (h.of_msw (by simp))

theorem jmpFarProt_staysProtected (sel off : Word) (h : Protected s) : StaysProtected (jmpFarProt s sel off) :=
  .need <| .descriptor fun d =>
    .ite (fun _ => .after (directCode_changesNothing ..) fun _ => .need <| .ok (h.of_msw (by simp))) fun _ =>
    .ite (fun _ => .after (gateVisible_changesNothing ..) fun _ => .after (gateCode_changesNothing ..) fun _ =>
      .need <| .ok (h.of_msw (by simp))) fun _ =>
    .ite (fun _ => .after (gateVisible_changesNothing ..) fun _ => throughTaskGate_staysProtected d.2 .jmp h) fun _ =>
    .ite (fun _ => .after (gateVisible_changesNothing ..) fun _ => switchThenCheckIp_staysProtected _ _ _ _ _ _ h) fun _ =>
    .exc _

theorem callFarProt_staysProtected (sel off : Word) (h : Protected s) : StaysProtected (callFarProt s sel off) :=
  .need <| .descriptor fun d =>
    .ite (fun _ => .after (directCode_changesNothing ..) fun _ => callSame_staysProtected sel d off h) fun _ =>
    .ite (fun _ => .after (gateVisible_changesNothing ..) fun _ => .after (gateCode_changesNothing ..) fun c =>
      .ite (fun _ => callInner_staysProtected d.2 c h) fun _ => callSame_staysProtected _ c _ h) fun _ =>
    .ite (fun _ => .after (gateVisible_changesNothing ..) fun _ => throughTaskGate_staysProtected d.2 .nest h) fun _ =>
    .ite (fun _ => .after (gateVisible_changesNothing ..) fun _ => switchThenCheckIp_staysProtected _ _ _ _ _ _ h) fun _ =>
    .exc _

theorem iretTask_staysProtected (h : Protected s) : StaysProtected (iretTask s) :=
  .need <| .descriptor fun _ => .need <| .need <| switchThenCheckIp_staysProtected _ _ _ _ _ _ h

/-- A return to the same or an outer level stays in protected mode (45_protected_transfer.md R433, R434). -/
theorem farReturn_staysProtected (fl : Bool) (imm : Word) (h : Protected s) : StaysProtected (farReturn s fl imm) := by
  refine .after (memRead_changesNothing ..) fun csel => .need <| .ite (fun _ => ?_) fun _ =>
    .after (checkStackTop_changesNothing ..) fun _ => .after (returnCode_changesNothing ..) fun c =>
    .after (memRead_changesNothing ..) fun ssel => .after (memRead_changesNothing ..) fun nsp =>
    .after (returnStack_changesNothing ..) fun sd => .after (memRead_changesNothing ..) fun off => ?_
  · cases fl
    · exact .after (returnCode_changesNothing ..) fun c => .after (memRead_changesNothing ..) fun off =>
        .need <| .ok (h.of_msw (by simp))
    · exact .after (checkStackTop_changesNothing ..) fun _ => .after (returnCode_changesNothing ..) fun c =>
        .after (memRead_changesNothing ..) fun off => .after (memRead_changesNothing ..) fun f =>
        .need <| .ok (h.of_msw (by simp))
  · cases fl
    · exact .need <| .ok (h.of_msw (by simp))
    · exact .after (memRead_changesNothing ..) fun f => .need <| .ok (h.of_msw (by simp))

end

/-! ### What a change of state does to the mode -/

/-- Nothing that the real mode invariant speaks of changes, except that protected mode may be entered. -/
structure SameMode (s t : State) : Prop where
  pe : s.msw.pe = true → t.msw.pe = true
  iopl : t.flags.iopl = s.flags.iopl
  nt : t.flags.nt = s.flags.nt
  es : t.es = s.es
  cs : t.cs = s.cs
  ss : t.ss = s.ss
  ds : t.ds = s.ds

/-- Protected mode is not left, and what real mode guarantees still holds (10_state.md R26, R35). -/
structure ModeKept (s t : State) : Prop where
  protectedMode : Protected s → Protected t
  realMode : RealModeInvariant s → RealModeInvariant t

theorem ModeKept.refl (s : State) : ModeKept s s := ⟨id, id⟩

theorem ModeKept.trans {s t u : State} (h : ModeKept s t) (k : ModeKept t u) : ModeKept s u :=
  ⟨fun hs => k.protectedMode (h.protectedMode hs), fun hs => k.realMode (h.realMode hs)⟩

theorem realModeInvariant_of_protected {t : State} (h : Protected t) : RealModeInvariant t :=
  ⟨fun hr => absurd (h.symm.trans hr) (by decide), fun hr => absurd (h.symm.trans hr) (by decide)⟩

theorem ModeKept.of_protected {s t : State} (h : Protected t) : ModeKept s t :=
  ⟨fun _ => h, fun _ => realModeInvariant_of_protected h⟩

theorem SameMode.kept {s t : State} (h : SameMode s t) : ModeKept s t := by
  refine ⟨h.pe, fun ⟨hf, hs⟩ => ?_⟩
  have real (ht : t.msw.pe = false) : s.msw.pe = false := by
    cases hp : s.msw.pe
    · rfl
    · exact absurd ((h.pe hp).symm.trans ht) (by decide)
  refine ⟨fun ht => ?_, fun ht x => ?_⟩
  · rw [h.iopl, h.nt]
    exact hf (real ht)
  · rw [State.seg_congr h.es h.cs h.ss h.ds x]
    exact hs (real ht) x

/-- A change that leaves FLAGS, MSW and the segment registers alone. -/
theorem ModeKept.of_eq {s t : State} (hm : t.msw = s.msw) (hf : t.flags = s.flags) (hes : t.es = s.es) (hcs : t.cs = s.cs)
    (hss : t.ss = s.ss) (hds : t.ds = s.ds) : ModeKept s t :=
  SameMode.kept ⟨by rw [hm]; exact id, by rw [hf], by rw [hf], hes, hcs, hss, hds⟩

/-- A segment that real mode loads is writable (10_state.md R26). -/
theorem SegReg.real_writable (sel : Word) : arWritable (SegReg.real sel).ar = true := by
  rw [show (SegReg.real sel).ar = 0x93 from rfl]
  decide

/-- A segment register loaded in real mode (10_state.md R26). -/
theorem ModeKept.setSeg_real {s : State} (h : s.msw.pe = false) (x : SReg) (sel : Word) :
    ModeKept s (s.setSeg x (SegReg.real sel)) := by
  refine ⟨fun hp => absurd (hp.symm.trans h) (by decide), fun ⟨hf, hs⟩ => ⟨fun _ => by simpa using hf h, fun _ y => ?_⟩⟩
  by_cases hy : y = x
  · rw [hy, State.seg_setSeg]
    exact ⟨rfl, rfl, SegReg.real_writable sel⟩
  · rw [State.seg_setSeg_ne s _ hy]
    exact hs h y

theorem ModeKept.farReal {s : State} (h : s.msw.pe = false) (sel off : Word) : ModeKept s (farReal s sel off) :=
  (ModeKept.setSeg_real h .cs sel).trans (.of_eq rfl rfl rfl rfl rfl rfl)

theorem ModeKept.pushRaw (s : State) (v : Word) : ModeKept s (pushRaw s v) := by apply ModeKept.of_eq <;> simp

/-- In real mode POPF and IRET leave IOPL and NT (10_state.md R35). -/
theorem State.poppedFlags_iopl_real {s : State} (h : s.msw.pe = false) (v : Word) :
    (s.poppedFlags v).iopl = s.flags.iopl := by simp [State.poppedFlags, h]

theorem State.poppedFlags_nt_real {s : State} (h : s.msw.pe = false) (v : Word) :
    (s.poppedFlags v).nt = s.flags.nt := by simp [State.poppedFlags, h]

/-! ### Flags that an operation leaves -/

section
variable (f : Flags) (w : Width)

@[simp] theorem Flags.szp_iopl (r : Val w) : (f.szp w r).iopl = f.iopl := by rfl
@[simp] theorem Flags.szp_nt (r : Val w) : (f.szp w r).nt = f.nt := by rfl
@[simp] theorem Flags.add_iopl (a b : Val w) (c : Bool) : (f.add w a b c).iopl = f.iopl := by rfl
@[simp] theorem Flags.add_nt (a b : Val w) (c : Bool) : (f.add w a b c).nt = f.nt := by rfl
@[simp] theorem Flags.sub_iopl (a b : Val w) (c : Bool) : (f.sub w a b c).iopl = f.iopl := by rfl
@[simp] theorem Flags.sub_nt (a b : Val w) (c : Bool) : (f.sub w a b c).nt = f.nt := by rfl
@[simp] theorem Flags.logic_iopl (r : Val w) (af : Bool) : (f.logic w r af).iopl = f.iopl := by rfl
@[simp] theorem Flags.logic_nt (r : Val w) (af : Bool) : (f.logic w r af).nt = f.nt := by rfl

end

@[simp] theorem Flags.mul_iopl (f : Flags) (h sf zf af pf : Bool) : (f.mul h sf zf af pf).iopl = f.iopl := by rfl
@[simp] theorem Flags.mul_nt (f : Flags) (h sf zf af pf : Bool) : (f.mul h sf zf af pf).nt = f.nt := by rfl
@[simp] theorem Flags.undef_iopl (f : Flags) (a b c d e g : Bool) : (f.undef a b c d e g).iopl = f.iopl := by rfl
@[simp] theorem Flags.undef_nt (f : Flags) (a b c d e g : Bool) : (f.undef a b c d e g).nt = f.nt := by rfl
@[simp] theorem Flags.setLow_iopl (f : Flags) (v : Byte) : (f.setLow v).iopl = f.iopl := by rfl
@[simp] theorem Flags.setLow_nt (f : Flags) (v : Byte) : (f.setLow v).nt = f.nt := by rfl

/-- An operation of two operands writes status flags of the state alone. -/
def AluOp.KeepsMode (op : AluOp) : Prop := ∀ w s a b, SameMode s (op w s a b).2

/-- The same of one operand. -/
def UnOp.KeepsMode (f : UnOp) : Prop := ∀ w s a, SameMode s (f w s a).2

theorem SameMode.setFlags (s : State) {f : Flags} (hi : f.iopl = s.flags.iopl) (hn : f.nt = s.flags.nt) :
    SameMode s (s.setFlags f) := ⟨id, hi, hn, rfl, rfl, rfl, rfl⟩

theorem SameMode.logic (s : State) (w : Width) (r : Val w) : SameMode s (aluLogic w s r).2 := by
  constructor <;> simp [aluLogic]

@[simp] theorem keepsMode_aluAdd : AluOp.KeepsMode aluAdd := fun _ s _ _ => .setFlags s (by simp) (by simp)
@[simp] theorem keepsMode_aluAdc : AluOp.KeepsMode aluAdc := fun _ s _ _ => .setFlags s (by simp) (by simp)
@[simp] theorem keepsMode_aluSub : AluOp.KeepsMode aluSub := fun _ s _ _ => .setFlags s (by simp) (by simp)
@[simp] theorem keepsMode_aluSbb : AluOp.KeepsMode aluSbb := fun _ s _ _ => .setFlags s (by simp) (by simp)
@[simp] theorem keepsMode_aluAnd : AluOp.KeepsMode aluAnd := fun w s _ _ => .logic s w _
@[simp] theorem keepsMode_aluOr : AluOp.KeepsMode aluOr := fun w s _ _ => .logic s w _
@[simp] theorem keepsMode_aluXor : AluOp.KeepsMode aluXor := fun w s _ _ => .logic s w _

@[simp] theorem keepsMode_unInc : UnOp.KeepsMode unInc := fun _ s _ => .setFlags s (by simp) (by simp)
@[simp] theorem keepsMode_unDec : UnOp.KeepsMode unDec := fun _ s _ => .setFlags s (by simp) (by simp)
@[simp] theorem keepsMode_unNeg : UnOp.KeepsMode unNeg := fun _ s _ => .setFlags s (by simp) (by simp)
@[simp] theorem keepsMode_unNot : UnOp.KeepsMode unNot := fun _ _ _ => ⟨id, rfl, rfl, rfl, rfl, rfl, rfl⟩

@[simp] theorem keepsMode_shiftOp (k : ShiftKind) (single : Bool) (n : Nat) : UnOp.KeepsMode (shiftOp k single n) := by
  intro w s x
  unfold shiftOp
  split
  · exact ⟨id, rfl, rfl, rfl, rfl, rfl, rfl⟩
  · cases k.isShift <;> constructor <;> simp

/-! ### Operations that keep the mode -/

/-- A part of an instruction that keeps the mode, whether it answers or raises. -/
abbrev KeepsMode (s : State) (r : M State) : Prop := Ends (ModeKept s) (ModeKept s) r

theorem Ends.of_protected {s : State} {r : M State} (h : StaysProtected r) : KeepsMode s r :=
  h.mono (fun _ => .of_protected) fun _ => .of_protected

/-- One part after another, each keeping the mode of the state it begins in. -/
theorem Ends.andThen {s : State} {x : M State} {f : State → M State} (hx : KeepsMode s x) (hf : ∀ t, KeepsMode t (f t)) :
    KeepsMode s (x >>= f) :=
  .bind hx fun t ht => (hf t).mono (fun _ => ht.trans) fun _ => ht.trans

/-- A part that begins in a state changed already. -/
theorem Ends.startingIn {s t : State} {r : M State} (h : SameMode s t) (hr : KeepsMode t r) : KeepsMode s r :=
  hr.mono (fun _ => h.kept.trans) fun _ => h.kept.trans

theorem Ends.same {s t : State} (h : SameMode s t) : KeepsMode s (.ok t) := .ok h.kept

/-- By the mode the processor is in. -/
theorem KeepsMode.by_mode {s : State} {r : M State} (hp : Protected s → StaysProtected r)
    (hr : s.msw.pe = false → KeepsMode s r) : KeepsMode s r := by
  cases h : s.msw.pe
  · exact hr h
  · exact .of_protected (hp h)

section
variable {s : State}

theorem SameMode.refl (s : State) : SameMode s s := ⟨id, rfl, rfl, rfl, rfl, rfl, rfl⟩

theorem SameMode.trans {s t u : State} (h : SameMode s t) (k : SameMode t u) : SameMode s u :=
  ⟨fun hs => k.pe (h.pe hs), k.iopl.trans h.iopl, k.nt.trans h.nt, k.es.trans h.es, k.cs.trans h.cs, k.ss.trans h.ss,
    k.ds.trans h.ds⟩

theorem SameMode.setW (s : State) (r : RegNum) (v : Word) : SameMode s (s.setW r v) := by constructor <;> simp

theorem SameMode.setReg (s : State) (w : Width) (r : RegNum) (v : Val w) : SameMode s (s.setReg w r v) := by
  constructor <;> simp

theorem SameMode.drawn (s : State) (n : Nat) : SameMode s (s.drawn n) := by constructor <;> simp

theorem SameMode.poke (s : State) (w : Width) (x : SReg) (o : Word) (v : Val w) : SameMode s (poke s w x o v) := by
  constructor <;> simp

theorem SameMode.putPlace (s : State) (w : Width) (p : Place) (v : Val w) : SameMode s (putPlace s w p v) := by
  cases p with
  | reg r => exact .setReg s w r v
  | mem x o => exact .poke s w x o v

/-! Operands, arithmetic and moves. -/

theorem modifyRm_keepsMode {w : Width} {m : RM} {f : State → Val w → Val w × State} (hf : ∀ v, SameMode s (f s v).2) :
    KeepsMode s (modifyRm s w m f) :=
  .after (checkWrite_changesNothing ..) fun _ => .after (readPlace_changesNothing ..) fun v =>
    .same ((hf v).trans (.putPlace ..))

theorem aluToRm_keepsMode {op : AluOp} (h : op.KeepsMode) (w : Width) (m : RM) (v : Val w) :
    KeepsMode s (aluToRm op s w m v) := modifyRm_keepsMode fun a => h w s a v

theorem aluToReg_keepsMode {op : AluOp} (h : op.KeepsMode) (w : Width) (r : RegNum) (m : RM) :
    KeepsMode s (aluToReg op s w r m) :=
  .after (readRm_changesNothing ..) fun _ => .same ((h w s _ _).trans (.setReg ..))

theorem aluToAcc_keepsMode {op : AluOp} (h : op.KeepsMode) (v : Imm) : KeepsMode s (.ok (aluToAcc op s v)) :=
  .same ((h v.width s _ _).trans (.setReg ..))

theorem aluTest_keepsMode {op : AluOp} (h : op.KeepsMode) (w : Width) (m : RM) (v : Val w) :
    KeepsMode s (aluTest op s w m v) :=
  .after (readRm_changesNothing ..) fun _ => .same (h w s _ _)

theorem writePlace_keepsMode (w : Width) (p : Place) (v : Val w) : KeepsMode s (writePlace s w p v) :=
  .after (checkWrite_changesNothing ..) fun _ => .same (SameMode.putPlace ..)

theorem memWrite_keepsMode (w : Width) (x : SReg) (o : Word) (v : Val w) : KeepsMode s (memWrite s w x o v) :=
  .after (memCheck_changesNothing ..) fun _ => .same (SameMode.poke ..)

/-- An operand that is read, then an update that depends on it. -/
theorem readRm_then_keepsMode {w : Width} {m : RM} {f : Val w → State} (h : ∀ v, SameMode s (f v)) :
    KeepsMode s (readRm s w m >>= fun v => pure (f v)) :=
  .after (readRm_changesNothing ..) fun v => .same (h v)

theorem SameMode.mulFlags (s : State) (h : Bool) : SameMode s (mulFlags s h) := by constructor <;> simp [Machine.mulFlags]

theorem SameMode.divFlags (s : State) : SameMode s (divFlags s) := by constructor <;> simp [Machine.divFlags]

theorem SameMode.setWide (s : State) (w : Width) (lo hi : Val w) : SameMode s (setWide s w lo hi) := by
  cases w
  · exact SameMode.setW s .r0 _
  · exact (SameMode.setW s .r0 lo).trans (SameMode.setW _ .r2 hi)

theorem SameMode.decimalEnd (s : State) (ok : Bool) (al : Byte) (af cf : Bool) : SameMode s (decimalEnd s ok al af cf) := by
  constructor <;> simp [Machine.decimalEnd]

theorem SameMode.adjustEnd (s : State) (al ah : Byte) : SameMode s (adjustEnd s al ah) := by
  constructor <;> simp [Machine.adjustEnd]

theorem SameMode.asciiFlags (s : State) (ax : Word) (c : Bool) (n : Nat) :
    SameMode s (((s.setW .r0 ax).setFlags (asciiFlags s c)).drawn n) := by
  constructor <;> simp [Machine.asciiFlags]

theorem imulInto_keepsMode (r : RegNum) (m : RM) (v : Word) : KeepsMode s (imulInto s r m v) :=
  readRm_then_keepsMode fun _ => (SameMode.setW ..).trans (.mulFlags ..)

/-! The stack. -/

theorem push_keepsMode (s : State) (v : Word) : KeepsMode s (push s v) :=
  .andThen (memWrite_keepsMode ..) fun _ => .same (.setW ..)

theorem copyDisplay_keepsMode (s : State) (n : Nat) : KeepsMode s (copyDisplay s n) := by
  induction n generalizing s with
  | zero => exact .same (.refl s)
  | succ n ih =>
    exact .after (memRead_changesNothing ..) fun v => .andThen (.startingIn (.setW ..) (push_keepsMode _ v)) ih

theorem keepProgress_keepsMode {r : M State} (h : KeepsMode s r) : KeepsMode s (keepProgress s r) := by
  rcases r with (e | ⟨e, t, ip⟩) | t
  · exact .excIn (.refl s)
  · exact .excIn (h.raised e t ip rfl)
  · exact Ends.ok (h.answered t rfl)

theorem pushAll_keepsMode (s : State) (l : List Word) : KeepsMode s (pushAll s l) := by
  induction l generalizing s with
  | nil => exact .same (.refl s)
  | cons v rest ih => exact .andThen (keepProgress_keepsMode (push_keepsMode s v)) ih

theorem popInto_keepsMode (s : State) (r : RegNum) : KeepsMode s (popInto s r) :=
  .after (memRead_changesNothing ..) fun _ => .same ((SameMode.setW s .r4 _).trans (.setW ..))

theorem popStep_keepsMode (s : State) (r : Option RegNum) : KeepsMode s (popStep s r) := by
  cases r with
  | none => exact .after (memRead_changesNothing ..) fun _ => .same (SameMode.setW s .r4 _)
  | some r => exact popInto_keepsMode s r

theorem popAll_keepsMode (s : State) (l : List (Option RegNum)) : KeepsMode s (popAll s l) := by
  induction l generalizing s with
  | nil => exact .same (.refl s)
  | cons r rest ih => exact .andThen (keepProgress_keepsMode (popStep_keepsMode s r)) ih

/-! Segment registers. -/

theorem loadDataSeg_keepsMode (g : ReadGroup) (x : SReg) (sel : Word) : KeepsMode s (loadDataSeg s g x sel) := by
  refine .by_mode (fun hp => ?_) fun hr => ?_
  · simp only [loadDataSeg, hp, Bool.not_true, Bool.false_eq_true, if_false]
    exact .ite (fun _ => .ok (hp.of_msw (by simp))) fun _ => .descriptor fun _ => .need <| .need <| .need <|
      .ok (hp.of_msw (by simp))
  · rw [loadDataSeg_real g x sel hr]
    exact Ends.ok (.setSeg_real hr x sel)

theorem loadStackSeg_keepsMode (g : ReadGroup) (sel : Word) : KeepsMode s (loadStackSeg s g sel) := by
  refine .by_mode (fun hp => ?_) fun hr => ?_
  · simp only [loadStackSeg, hp, Bool.not_true, Bool.false_eq_true, if_false]
    exact .need <| .descriptor fun _ => .need <| .need <| .need <| .need <| .ok (hp.of_msw (by simp))
  · rw [loadStackSeg_real g sel hr]
    exact Ends.ok (.setSeg_real hr .ss sel)

theorem loadSreg_keepsMode (d : ReadGroup) (g : SReg) (sel : Word) : KeepsMode s (loadSreg s d g sel) := by
  cases g with
  | es => exact loadDataSeg_keepsMode d .es sel
  | cs => exact .exc _
  | ss => exact .andThen (loadStackSeg_keepsMode d sel) fun _ => .same ⟨id, rfl, rfl, rfl, rfl, rfl, rfl⟩
  | ds => exact loadDataSeg_keepsMode d .ds sel

theorem popSreg_keepsMode (g : SReg) : KeepsMode s (popSreg s g) :=
  .after (memRead_changesNothing ..) fun v => .andThen (loadSreg_keepsMode .descriptor g v) fun _ => .same (.setW ..)

theorem loadPointer_keepsMode (x : SReg) (r : RegNum) (a : MemOp) : KeepsMode s (loadPointer s x r a) :=
  .after (readPair_changesNothing ..) fun _ => .andThen (loadDataSeg_keepsMode ..) fun _ => .same (.setW ..)

/-! Transfers of control. -/

theorem SameMode.jump (s : State) (v : Word) : SameMode s (s.jump v) := ⟨id, rfl, rfl, rfl, rfl, rfl, rfl⟩

theorem setIP_keepsMode (s : State) (t : Word) : KeepsMode s (setIP s t) := .need <| Ends.same (SameMode.jump s t)

theorem jumpIf_keepsMode (s : State) (c : Bool) (d : Byte) : KeepsMode s (jumpIf s c d) :=
  .ite (fun _ => setIP_keepsMode ..) fun _ => .same (.refl s)

theorem loopWhile_keepsMode (c : Bool) (d : Byte) : KeepsMode s (loopWhile s c d) :=
  .startingIn (.setW ..) (jumpIf_keepsMode ..)

theorem callNear_keepsMode (t : Word) : KeepsMode s (callNear s t) :=
  Ends.bind (setIP_keepsMode s t) fun _ _ => .andThen (push_keepsMode ..) fun _ => .same (.jump ..)

theorem retNear_keepsMode (imm : Word) : KeepsMode s (retNear s imm) :=
  .after (memRead_changesNothing ..) fun t => .andThen (setIP_keepsMode s t) fun _ => .same (.setW ..)

theorem jmpFar_keepsMode (sel off : Word) : KeepsMode s (jmpFar s sel off) := by
  refine .by_mode (fun hp => ?_) fun hr => ?_
  · simpa only [jmpFar, hp, if_true] using jmpFarProt_staysProtected sel off hp
  · simpa only [jmpFar, hr, Bool.false_eq_true, if_false] using Ends.ok (ModeKept.farReal hr sel off)

theorem callFarTo_keepsMode (sel off : Word) : KeepsMode s (callFarTo s sel off) := by
  refine .by_mode (fun hp => ?_) fun hr => ?_
  · simpa only [callFarTo, hp, if_true] using callFarProt_staysProtected sel off hp
  · simp only [callFarTo, hr, Bool.false_eq_true, if_false]
    exact .after (checkPush_changesNothing ..) fun _ =>
      .ok (((ModeKept.pushRaw ..).trans (.pushRaw ..)).trans (.farReal (by simpa using hr) sel off))

theorem farReturnReal_keepsMode (imm : Word) (hr : s.msw.pe = false) : KeepsMode s (farReturnReal s imm) :=
  .after (memRead_changesNothing ..) fun _ => .after (memRead_changesNothing ..) fun _ =>
    .ok ((ModeKept.farReal hr _ _).trans (SameMode.setW _ .r4 _).kept)

theorem retFarTo_keepsMode (imm : Word) : KeepsMode s (retFarTo s imm) := by
  refine .by_mode (fun hp => ?_) fun hr => ?_
  · simpa only [retFarTo, hp, if_true] using farReturn_staysProtected false imm hp
  · simpa only [retFarTo, hr, Bool.false_eq_true, if_false] using farReturnReal_keepsMode imm hr

theorem iretReal_keepsMode (hr : s.msw.pe = false) : KeepsMode s (iretReal s) :=
  .after (memRead_changesNothing ..) fun off => .after (memRead_changesNothing ..) fun sel =>
    .after (memRead_changesNothing ..) fun f =>
    .ok (((ModeKept.farReal hr sel off).trans (SameMode.setFlags (farReal s sel off) (State.poppedFlags_iopl_real hr f)
      (State.poppedFlags_nt_real hr f)).kept).trans (SameMode.setW _ .r4 _).kept)

theorem returnFromInterrupt_keepsMode : KeepsMode s (returnFromInterrupt s) := by
  refine .by_mode (fun hp => ?_) fun hr => ?_
  · simp only [returnFromInterrupt, hp, Bool.not_true, Bool.false_eq_true, if_false]
    exact .ite (fun _ => .bind (iretTask_staysProtected hp) fun _ h => .ok h) fun _ =>
      .bind (farReturn_staysProtected true 0 hp) fun _ h => .ok h
  · simp only [returnFromInterrupt, hr, Bool.not_false, if_true]
    exact .andThen (iretReal_keepsMode hr) fun _ => .same ⟨id, rfl, rfl, rfl, rfl, rfl, rfl⟩

end

section
variable {s : State}

/-! Strings and ports. -/

theorem stringRun_keepsMode (compares : Bool) {prim : M State} (h : KeepsMode s prim) :
    KeepsMode s (stringRun s compares prim) := by
  unfold stringRun
  split
  · exact h
  · refine .ite (fun _ => .same (.refl s)) fun _ => .andThen h fun t => .same ?_
    have hw := SameMode.setW t .r1 (s.regs.cx - 1)
    split
    · exact hw
    · exact hw.trans ⟨id, rfl, rfl, rfl, rfl, rfl, rfl⟩

theorem SameMode.stepSi (s : State) (w : Width) : SameMode s (stepSi s w) := .setW ..

theorem SameMode.stepDi (s : State) (w : Width) : SameMode s (stepDi s w) := .setW ..

theorem SameMode.ioRead (s : State) (w : Width) (port : Word) : SameMode s (ioRead s w port).2 :=
  ⟨id, rfl, rfl, rfl, rfl, rfl, rfl⟩

theorem SameMode.ioWrite (s : State) (w : Width) (port : Word) (v : Val w) : SameMode s (ioWrite s w port v) :=
  ⟨id, rfl, rfl, rfl, rfl, rfl, rfl⟩

theorem portIn_keepsMode (w : Width) (port : Word) : KeepsMode s (portIn s w port) :=
  .need <| Ends.same ((SameMode.ioRead s w port).trans (.setReg ..))

theorem portOut_keepsMode (w : Width) (port : Word) : KeepsMode s (portOut s w port) :=
  .need <| Ends.same (.ioWrite ..)

/-! Protection control. -/

theorem SameMode.setAccessed (s : State) (a : Phys) (d : Desc) : SameMode s (setAccessed s a d) := by
  constructor <;> simp

theorem SameMode.testedState (s : State) (sel : Word) : SameMode s (testedState s sel) := by
  unfold Machine.testedState
  split
  · exact .refl s
  · split
    · split
      · exact .setAccessed ..
      · exact .refl s
    · exact .refl s

theorem SameMode.setZf (s : State) (z : Bool) : SameMode s (setZf s z) := .setFlags s rfl rfl

theorem SameMode.selectorResult (s : State) (r : RegNum) (v : Option Word) : SameMode s (selectorResult s r v) := by
  cases v with
  | none => exact .setZf s false
  | some v => exact (SameMode.setW s r v).trans (.setZf ..)

theorem storeTable_keepsMode (a : MemOp) (t : TableReg) : KeepsMode s (storeTable s a t) :=
  .after (memCheck_changesNothing ..) fun _ => .after (memCheck_changesNothing ..) fun _ =>
    .after (memCheck_changesNothing ..) fun _ => .same (by constructor <;> simp)

/-! ### Deliveries keep the mode -/

theorem SameMode.enterShutdown (s : State) : SameMode s (enterShutdown s) := ⟨id, rfl, rfl, rfl, rfl, rfl, rfl⟩

theorem realEntry_modeKept (h : s.msw.pe = false) (n : Nat) (ret : Word) :
    ModeKept s ((realEntry s n ret).getD (enterShutdown s)) := by
  by_cases hc : CanPush s 3
  · rw [realEntry_ok n ret hc]
    refine ModeKept.trans (SameMode.kept ?_) (.farReal (by simpa using h) _ _)
    constructor <;> simp
  · have hn : realEntry s n ret = none := by
      unfold realEntry
      split
      · rfl
      · next hp => exact absurd ((checkPush_ok_iff s 3).1 hp) hc
    rw [hn]
    exact (SameMode.enterShutdown s).kept

theorem deliverReal_modeKept (h : s.msw.pe = false) (n : Nat) (ret atIp : Word) : ModeKept s (deliverReal s n ret atIp) := by
  unfold deliverReal
  split
  · exact realEntry_modeKept h n ret
  · split
    · exact (SameMode.enterShutdown s).kept
    · split
      · exact realEntry_modeKept h 8 atIp
      · exact (SameMode.enterShutdown s).kept

/-- Taking an exception or interrupt keeps the mode (60_exceptions.md R560, R561, R570). -/
theorem deliver_modeKept (s : State) (ev : Event) (ret atIp : Word) : ModeKept s (deliver s ev ret atIp) := by
  let s1 : State := { s.later .delivery with halted := false, cur := Cur.at s.cur.ip }
  have h1 : ModeKept s s1 := .of_eq rfl rfl rfl rfl rfl rfl
  suffices h : ModeKept s1 (if s1.msw.pe then deliverProt s1 ev ret atIp else deliverReal s1 ev.vector.toNat ret atIp) from
    (h1.trans h).trans (.of_eq rfl rfl rfl rfl rfl rfl)
  split
  · next hp => exact .of_protected (deliverProt_protected ev ret atIp hp)
  · next hr => exact deliverReal_modeKept (by simpa using hr) _ ret atIp

/-! ### Every instruction keeps the mode -/

/-- What a meaning answers keeps the mode. -/
structure ResultKeepsMode (s : State) (r : Result) : Prop where
  kept : ∀ t, r = .next t → ModeKept s t

theorem ResultKeepsMode.next {t : State} (h : ModeKept s t) : ResultKeepsMode s (.next t) := ⟨by rintro _ ⟨⟩; exact h⟩

theorem ResultKeepsMode.same {t : State} (h : SameMode s t) : ResultKeepsMode s (.next t) := .next h.kept

theorem ResultKeepsMode.refused (r : Refusal) : ResultKeepsMode s (.refused r) := ⟨by rintro _ ⟨⟩⟩

/-- The end of a meaning: it has kept the mode, and so does the exception it may take. -/
theorem finish_keepsMode {r : M State} (h : KeepsMode s r) : ResultKeepsMode s (finish s r) := by
  rcases r with (e | ⟨e, t, ip⟩) | t
  · exact .next (deliver_modeKept ..)
  · exact .next ((h.raised e t ip rfl).trans (deliver_modeKept ..))
  · exact .next (h.answered t rfl)

/-- A meaning that changes nothing the mode depends on. -/
theorem finish_same {t : State} (h : SameMode s t) : ResultKeepsMode s (finish s (.ok t)) := finish_keepsMode (.same h)

theorem softInt_modeKept (s : State) (n : Byte) : ModeKept s (softInt s n) := deliver_modeKept ..

theorem execEnter_keepsMode (v : Word) (l : Byte) (s : State) : ResultKeepsMode s (execEnter v l s) := by
  have setFrame (t : State) (frame : Word) : SameMode t ((t.setW .r5 frame).setSp (t.regs.sp - v)) :=
    (SameMode.setW t .r5 frame).trans (.setW ..)
  exact finish_keepsMode <| .andThen (push_keepsMode ..) fun s1 => .ite (fun _ => .same (setFrame s1 _)) fun _ =>
    .andThen (copyDisplay_keepsMode ..) fun s2 => .andThen (push_keepsMode ..) fun s3 => .same (setFrame s3 _)

theorem SameMode.escIssue (s : State) (op : BitVec 6) (p : Place) : SameMode s (escIssue s op p) :=
  ⟨id, rfl, rfl, rfl, rfl, rfl, rfl⟩

theorem SameMode.waitHere (s : State) : SameMode s (waitHere s) := ⟨id, rfl, rfl, rfl, rfl, rfl, rfl⟩

theorem SameMode.note (s : State) (c : Cur) : SameMode s (note s c) := ⟨id, rfl, rfl, rfl, rfl, rfl, rfl⟩

theorem execWait_keepsMode (s : State) : ResultKeepsMode s (execWait s) :=
  finish_keepsMode <| .need <| .ite (fun _ => .same (.waitHere s)) fun _ => .need <| .same (.refl s)

theorem execEsc_keepsMode (t l : BitVec 3) (m : RM) (s : State) : ResultKeepsMode s (execEsc t l m s) :=
  finish_keepsMode <| .need <| .after (escCheck_changesNothing ..) fun _ =>
    .ite (fun _ => .same (.waitHere s)) fun _ => .need <| .same (.escIssue ..)

/-- POPF: in real mode IOPL and NT stay (40_data_transfer.md R263). -/
theorem execPopf_keepsMode (s : State) : ResultKeepsMode s (execPopf s) := by
  refine finish_keepsMode <| .by_mode (fun hp => ?_) fun hr => ?_
  · exact .after (memRead_changesNothing ..) fun _ => .ok (hp.of_msw (by simp))
  · exact .after (memRead_changesNothing ..) fun f => .same
      ((SameMode.setFlags s (State.poppedFlags_iopl_real hr f) (State.poppedFlags_nt_real hr f)).trans (SameMode.setW _ .r4 _))

/-- LMSW: PE can be set, not cleared (47_protection_control.md R510). -/
theorem execLmsw_keepsMode (m : RM) (s : State) : ResultKeepsMode s (execLmsw m s) :=
  finish_keepsMode <| .need <| readRm_then_keepsMode fun _ => ⟨fun hp => by simp [hp], rfl, rfl, rfl, rfl, rfl, rfl⟩

theorem execLldt_keepsMode (m : RM) (s : State) : ResultKeepsMode s (execLldt m s) :=
  finish_keepsMode <| .need <| .need <| .after (readRm_changesNothing ..) fun _ =>
    .ite (fun _ => .same ⟨id, rfl, rfl, rfl, rfl, rfl, rfl⟩) fun _ => .need <| .descriptor fun _ => .need <| .need <|
    .same ⟨id, rfl, rfl, rfl, rfl, rfl, rfl⟩

theorem execLtr_keepsMode (m : RM) (s : State) : ResultKeepsMode s (execLtr m s) :=
  finish_keepsMode <| .need <| .need <| .after (readRm_changesNothing ..) fun _ => .need <| .descriptor fun _ =>
    .need <| .need <| .same ⟨id, rfl, rfl, rfl, rfl, rfl, rfl⟩

theorem execArpl_keepsMode (m : RM) (r : RegNum) (s : State) : ResultKeepsMode s (execArpl m r s) := by
  refine finish_keepsMode <| .need <| .after (checkWrite_changesNothing ..) fun _ => readRm_then_keepsMode fun a => ?_
  split
  · exact (SameMode.putPlace ..).trans (.setZf ..)
  · exact .setZf ..

theorem execDivRm_keepsMode (w : Width) (m : RM) (s : State) : ResultKeepsMode s (execDivRm w m s) :=
  finish_keepsMode <| .after (readRm_changesNothing ..) fun _ => .need <| .need <|
    .same ((SameMode.setWide ..).trans (.divFlags ..))

theorem execIdivRm_keepsMode (w : Width) (m : RM) (s : State) : ResultKeepsMode s (execIdivRm w m s) :=
  finish_keepsMode <| .after (readRm_changesNothing ..) fun _ => .need <| .need <|
    .same ((SameMode.setWide ..).trans (.divFlags ..))

theorem execPusha_keepsMode (s : State) : ResultKeepsMode s (execPusha s) :=
  finish_keepsMode <| .after (memCheck_changesNothing ..) fun _ => .after (memCheck_changesNothing ..) fun _ =>
    pushAll_keepsMode ..

theorem execPopa_keepsMode (s : State) : ResultKeepsMode s (execPopa s) :=
  finish_keepsMode <| .after (memCheck_changesNothing ..) fun _ => .after (memCheck_changesNothing ..) fun _ =>
    popAll_keepsMode ..

theorem execPopRm_keepsMode (m : RM) (s : State) : ResultKeepsMode s (execPopRm m s) :=
  finish_keepsMode <| .after (memRead_changesNothing ..) fun _ => .after (checkWrite_changesNothing ..) fun _ =>
    .same ((SameMode.putPlace ..).trans (SameMode.setW _ .r4 _))

theorem execMovs_keepsMode (w : Width) (s : State) : ResultKeepsMode s (execMovs w s) :=
  finish_keepsMode <| stringRun_keepsMode _ <| .after (memRead_changesNothing ..) fun _ =>
    .andThen (memWrite_keepsMode ..) fun _ => .same ((SameMode.stepSi ..).trans (.stepDi ..))

theorem execCmps_keepsMode (w : Width) (s : State) : ResultKeepsMode s (execCmps w s) :=
  finish_keepsMode <| stringRun_keepsMode _ <| .after (memRead_changesNothing ..) fun a =>
    .after (memRead_changesNothing ..) fun b =>
    .same (((keepsMode_aluSub w s a b).trans (.stepSi ..)).trans (.stepDi ..))

theorem execScas_keepsMode (w : Width) (s : State) : ResultKeepsMode s (execScas w s) :=
  finish_keepsMode <| stringRun_keepsMode _ <| .after (memRead_changesNothing ..) fun b =>
    .same ((keepsMode_aluSub w s _ b).trans (.stepDi ..))

theorem execLods_keepsMode (w : Width) (s : State) : ResultKeepsMode s (execLods w s) :=
  finish_keepsMode <| stringRun_keepsMode _ <| .after (memRead_changesNothing ..) fun v =>
    .same ((SameMode.setReg s w .r0 v).trans (.stepSi ..))

theorem execStos_keepsMode (w : Width) (s : State) : ResultKeepsMode s (execStos w s) :=
  finish_keepsMode <| stringRun_keepsMode _ <| .andThen (memWrite_keepsMode ..) fun _ => .same (.stepDi ..)

theorem execIns_keepsMode (w : Width) (s : State) : ResultKeepsMode s (execIns w s) :=
  finish_keepsMode <| stringRun_keepsMode _ <| .need <| .after (memCheck_changesNothing ..) fun _ =>
    .same (((SameMode.ioRead s w s.regs.dx).trans (.poke ..)).trans (.stepDi ..))

theorem execOuts_keepsMode (w : Width) (s : State) : ResultKeepsMode s (execOuts w s) :=
  finish_keepsMode <| stringRun_keepsMode _ <| .need <| .after (memRead_changesNothing ..) fun v =>
    .same ((SameMode.ioWrite s w s.regs.dx v).trans (.stepSi ..))

/-- Every instruction keeps the mode, and so does what stands in front of it (30_encoding.md R190). -/
theorem exec_keepsMode (i : Instr) (s : State) : ResultKeepsMode s (exec i s) := by
  cases i with
  -- two-operand arithmetic and logic
  | addRmReg | orRmReg | adcRmReg | sbbRmReg | andRmReg | subRmReg | xorRmReg | addRmImm | orRmImm | adcRmImm | sbbRmImm
  | andRmImm | subRmImm | xorRmImm | addRm8Imm82 | adcRm8Imm82 | sbbRm8Imm82 | subRm8Imm82 | addRmSext | adcRmSext
  | sbbRmSext | subRmSext => exact finish_keepsMode (aluToRm_keepsMode (by simp) ..)
  | addRegRm | orRegRm | adcRegRm | sbbRegRm | andRegRm | subRegRm | xorRegRm =>
    exact finish_keepsMode (aluToReg_keepsMode (by simp) ..)
  | addAccImm | orAccImm | adcAccImm | sbbAccImm | andAccImm | subAccImm | xorAccImm =>
    exact finish_keepsMode (aluToAcc_keepsMode (by simp) ..)
  | cmpRmReg | cmpRmImm | cmpRm8Imm82 | cmpRmSext | testRmReg | testRmImm =>
    exact finish_keepsMode (aluTest_keepsMode (by simp) ..)
  | cmpRegRm w r m => exact finish_keepsMode (readRm_then_keepsMode fun v => keepsMode_aluSub w s _ v)
  | cmpAccImm v => exact finish_same (keepsMode_aluSub v.width s _ v.val)
  | testAccImm v => exact finish_same (keepsMode_aluAnd v.width s _ v.val)
  -- one-operand arithmetic, shifts and rotates
  | incReg r => exact finish_keepsMode (modifyRm_keepsMode (m := .reg r) fun v => keepsMode_unInc .word s v)
  | decReg r => exact finish_keepsMode (modifyRm_keepsMode (m := .reg r) fun v => keepsMode_unDec .word s v)
  | incRm w m => exact finish_keepsMode (modifyRm_keepsMode fun v => keepsMode_unInc w s v)
  | decRm w m => exact finish_keepsMode (modifyRm_keepsMode fun v => keepsMode_unDec w s v)
  | negRm w m => exact finish_keepsMode (modifyRm_keepsMode fun v => keepsMode_unNeg w s v)
  | notRm w m => exact finish_keepsMode (modifyRm_keepsMode fun v => keepsMode_unNot w s v)
  | rolImm w | rolOne w | rolCl w | rorImm w | rorOne w | rorCl w | rclImm w | rclOne w | rclCl w | rcrImm w | rcrOne w
  | rcrCl w | shlImm w | shlOne w | shlCl w | shrImm w | shrOne w | shrCl w | sarImm w | sarOne w | sarCl w =>
    exact finish_keepsMode (modifyRm_keepsMode fun v => keepsMode_shiftOp _ _ _ w s v)
  | mulRm | imulRm => exact finish_keepsMode (readRm_then_keepsMode fun _ => (SameMode.setWide ..).trans (.mulFlags ..))
  | imulRegRmImm16 | imulRegRmImm8 => exact finish_keepsMode (imulInto_keepsMode ..)
  | divRm => exact execDivRm_keepsMode ..
  | idivRm => exact execIdivRm_keepsMode ..
  | daa | das => exact finish_same (.decimalEnd ..)
  | aaa | aas => exact finish_same (.asciiFlags ..)
  | aam | aad => exact finish_same (.adjustEnd ..)
  | cbw | cwd => exact finish_same (.setW ..)
  -- data transfer
  | movRmReg | movRmImm | movRmSreg => exact finish_keepsMode (writePlace_keepsMode ..)
  | movRegRm => exact finish_keepsMode (readRm_then_keepsMode fun _ => .setReg ..)
  | movAccMoffs => exact finish_keepsMode (.after (memRead_changesNothing ..) fun _ => .same (.setReg ..))
  | movMoffsAcc => exact finish_keepsMode (memWrite_keepsMode ..)
  | movRegImm => exact finish_same (.setReg ..)
  | movSregRm => exact finish_keepsMode (.after (readRm_changesNothing ..) fun _ => loadSreg_keepsMode ..)
  | lea => exact finish_same (.setW ..)
  | lds | les => exact finish_keepsMode (loadPointer_keepsMode ..)
  | xlat => exact finish_keepsMode (.after (memRead_changesNothing ..) fun v => .same (SameMode.setReg s .byte .r0 v))
  | xchgRmReg w m r => exact finish_keepsMode (modifyRm_keepsMode fun v => SameMode.setReg s w r v)
  | xchgAxReg => exact finish_same ((SameMode.setW ..).trans (.setW ..))
  | pushSreg | pushReg | pushImm16 | pushImm8 => exact finish_keepsMode (push_keepsMode ..)
  | pushRm => exact finish_keepsMode (.after (readRm_changesNothing ..) fun _ => push_keepsMode ..)
  | pusha => exact execPusha_keepsMode s
  | popa => exact execPopa_keepsMode s
  | popReg => exact finish_keepsMode (popInto_keepsMode ..)
  | popRm => exact execPopRm_keepsMode ..
  | popEs | popSs | popDs => exact finish_keepsMode (popSreg_keepsMode _)
  | pushf => exact finish_keepsMode (.andThen (push_keepsMode ..) fun _ => .same (.drawn ..))
  | popf => exact execPopf_keepsMode s
  | lahf => exact finish_same ((SameMode.setReg s .byte .r4 _).trans (.drawn ..))
  | sahf => exact finish_same (.setFlags s (by simp) (by simp))
  | inImm | inDx => exact finish_keepsMode (portIn_keepsMode ..)
  | outImm | outDx => exact finish_keepsMode (portOut_keepsMode ..)
  -- strings
  | movs w => exact execMovs_keepsMode w s
  | cmps w => exact execCmps_keepsMode w s
  | scas w => exact execScas_keepsMode w s
  | lods w => exact execLods_keepsMode w s
  | stos w => exact execStos_keepsMode w s
  | ins w => exact execIns_keepsMode w s
  | outs w => exact execOuts_keepsMode w s
  -- transfers of control
  | jo | jno | jb | jnb | je | jne | jbe | jnbe | js | jns | jp | jnp | jl | jnl | jle | jnle | jcxz =>
    exact finish_keepsMode (jumpIf_keepsMode ..)
  | loop | loope | loopne => exact finish_keepsMode (loopWhile_keepsMode ..)
  | jmpRel8 | jmpRel16 => exact finish_keepsMode (setIP_keepsMode ..)
  | jmpRm => exact finish_keepsMode (.after (readRm_changesNothing ..) fun _ => setIP_keepsMode ..)
  | callRel => exact finish_keepsMode (callNear_keepsMode _)
  | callRm => exact finish_keepsMode (.after (readRm_changesNothing ..) fun _ => callNear_keepsMode _)
  | ret | retImm => exact finish_keepsMode (retNear_keepsMode _)
  | jmpFar => exact finish_keepsMode (jmpFar_keepsMode ..)
  | jmpFarMem => exact finish_keepsMode (.after (readPair_changesNothing ..) fun _ => jmpFar_keepsMode ..)
  | callFar => exact finish_keepsMode (callFarTo_keepsMode ..)
  | callFarMem => exact finish_keepsMode (.after (readPair_changesNothing ..) fun _ => callFarTo_keepsMode ..)
  | retFar | retFarImm => exact finish_keepsMode (retFarTo_keepsMode _)
  | iret => exact finish_keepsMode returnFromInterrupt_keepsMode
  | enter v l => exact execEnter_keepsMode v l s
  | leave =>
    exact finish_keepsMode (.after (memRead_changesNothing ..) fun _ => .same ((SameMode.setW s .r4 _).trans (.setW ..)))
  | bound => exact finish_keepsMode (.after (readPair_changesNothing ..) fun _ => .need (.same (.refl s)))
  | int3 | intImm => exact .next (softInt_modeKept ..)
  | into =>
    refine .next ?_
    split
    · exact softInt_modeKept s 4
    · exact .refl s
  -- processor control
  | clc | cmc | stc | cld | std => exact .same (.setFlags s rfl rfl)
  | cli => exact finish_keepsMode (.need (.same (.setFlags s rfl rfl)))
  | sti | hlt | clts => exact finish_keepsMode (.need (.same ⟨id, rfl, rfl, rfl, rfl, rfl, rfl⟩))
  | nop => exact .same (.refl s)
  | segPfx | repnePfx | repPfx => exact .same (.note ..)
  | lockPfx => exact finish_keepsMode (.need (.same (.note ..)))
  | wait => exact execWait_keepsMode s
  | esc t l m => exact execEsc_keepsMode t l m s
  -- protection control
  | sgdt | sidt => exact finish_keepsMode (storeTable_keepsMode ..)
  | lgdt | lidt =>
    exact finish_keepsMode (.after (loadTable_changesNothing ..) fun _ => .same ⟨id, rfl, rfl, rfl, rfl, rfl, rfl⟩)
  | sldt | str => exact finish_keepsMode (.need (writePlace_keepsMode ..))
  | lldt => exact execLldt_keepsMode ..
  | ltr => exact execLtr_keepsMode ..
  | smsw => exact finish_keepsMode (.andThen (writePlace_keepsMode ..) fun _ => .same (.drawn ..))
  | lmsw => exact execLmsw_keepsMode ..
  | lar =>
    exact finish_keepsMode (.need (readRm_then_keepsMode fun _ =>
      ((SameMode.testedState ..).trans (.selectorResult ..)).trans (.drawn ..)))
  | lsl => exact finish_keepsMode (.need (readRm_then_keepsMode fun _ => (SameMode.testedState ..).trans (.selectorResult ..)))
  | verr | verw => exact finish_keepsMode (.need (readRm_then_keepsMode fun _ => (SameMode.testedState ..).trans (.setZf ..)))
  | arpl => exact execArpl_keepsMode ..

end

/-! ### Every step keeps the mode -/

section
variable {s : State}

theorem beginStep_modeKept (s : State) : ModeKept s (beginStep s) := .of_eq rfl rfl rfl rfl rfl rfl

theorem deliverHere_modeKept (s : State) (vector : Byte) : ModeKept s (deliverHere s vector) := deliver_modeKept ..

/-- An event of the boundary is noted as taken and delivered, and the boundary goes on at the next one (60_exceptions.md
R551). -/
theorem deliverHere_phase_modeKept {u : State} (h : ModeKept s u) (vector : Byte) (p : Phase) :
    ModeKept s { deliverHere u vector with phase := p } :=
  (h.trans (deliverHere_modeKept u vector)).trans (.of_eq rfl rfl rfl rfl rfl rfl)

theorem takeNmi_modeKept (s : State) : ModeKept s (takeNmi s) := by
  have h : ModeKept s { s with nmiPending := false, nmiInService := true } := .of_eq rfl rfl rfl rfl rfl rfl
  exact deliverHere_phase_modeKept h 2 .mp

theorem takeEvent_modeKept {t : State} (h : takeEvent s = some t) : ModeKept s t := by
  have trapTaken : ModeKept s { s with stepTrap := false } := .of_eq rfl rfl rfl rfl rfl rfl
  have overrunTaken : ModeKept s { s with mpPending := false } := .of_eq rfl rfl rfl rfl rfl rfl
  unfold takeEvent at h
  split at h
  · cases h
    exact deliverHere_phase_modeKept trapTaken 1 .nmi
  split at h
  · cases h
    exact takeNmi_modeKept s
  split at h
  · cases h
    exact deliverHere_phase_modeKept overrunTaken 9 .intr
  split at h
  · cases h
    exact deliverHere_phase_modeKept (.refl s) s.pins.vector .done
  · cases h

/-- The CS:IP that the NMI out of shutdown saves is free, but the code segment stays as it is (60_exceptions.md R586). -/
theorem freeReturn_modeKept (s : State) : ModeKept s (freeReturn s) := by
  refine ⟨id, fun ⟨hf, hs⟩ => ⟨hf, fun hp x => ?_⟩⟩
  have h := hs hp x
  cases x <;> exact h

theorem shutdownStep_modeKept (s : State) : ModeKept s (shutdownStep s) := by
  unfold shutdownStep
  split
  · have h : ModeKept s { s with shutdown := false } := .of_eq rfl rfl rfl rfl rfl rfl
    exact h.trans ((freeReturn_modeKept _).trans (takeNmi_modeKept _))
  · exact .refl s

theorem SameSystem.modeKept {t : State} (h : SameSystem s t) (hf : t.flags = s.flags) : ModeKept s t :=
  .of_eq h.msw hf h.es h.cs h.ss h.ds

theorem masterAccess_modeKept (s : State) : ModeKept s (masterAccess s) :=
  (SameSystem.masterAccess s).modeKept (masterAccess_flags s)

theorem extTransfer_modeKept (s : State) (o : ExtOperand) : ModeKept s (extTransfer s o) := by
  have h := SameSystem.extTransfer s o
  refine .of_eq h.msw ?_ h.es h.cs h.ss h.ds
  unfold extTransfer
  split
  · split <;> rfl
  · rfl

theorem endInstr_modeKept (tf : Bool) (s : State) : ModeKept s (endInstr tf s) := .of_eq rfl rfl rfl rfl rfl rfl

theorem ResultKeepsMode.endOutcome {tf : Bool} {r : Result} (h : ResultKeepsMode s r) :
    ResultKeepsMode s (endOutcome tf r) := by
  cases r with
  | next t => exact .next ((h.kept t rfl).trans (endInstr_modeKept tf t))
  | fault f => exact nomatch f
  | refused r => exact .refused r

/-- Prefixes keep the mode one after another, and so does the instruction behind them. -/
theorem runPrefixed_keepsMode (i : Instr) (pfx : List Instr) (s : State) : ResultKeepsMode s (runPrefixed s i pfx) := by
  induction pfx generalizing s with
  | nil => exact exec_keepsMode i s
  | cons p rest ih =>
    have hp := exec_keepsMode p s
    unfold runPrefixed
    split
    · next t ht =>
      have h := hp.kept t ht
      split
      · exact .next h
      · exact ⟨fun u hu => h.trans ((ih t).kept u hu)⟩
    · next f _ => exact nomatch f
    · exact .refused _

/-- What a fetch raises is taken in the state before the instruction. -/
theorem fetchFault_exc {e : DecodeError} {st : Stop} (h : fetchFault s e = .inl st) : ∃ ev, st = .exc ev := by
  cases e with
  | truncated =>
    simp only [fetchFault] at h
    split at h <;> cases h <;> exact ⟨_, rfl⟩
  | undefinedOpcode | registerOperand | pushPopGroup => cases h; exact ⟨_, rfl⟩
  | unlistedGroup | adjustBase => cases h

theorem enterInstr_modeKept (s : State) (len : Nat) : ModeKept s (enterInstr s len) := .of_eq rfl rfl rfl rfl rfl rfl

theorem runInstr_keepsMode (s : State) : ResultKeepsMode s (runInstr s) := by
  have entered {len : Nat} {r : Result} (h : ResultKeepsMode (enterInstr s len) r) : ResultKeepsMode s r :=
    ⟨fun t ht => (enterInstr_modeKept s len).trans (h.kept t ht)⟩
  unfold runInstr
  split
  · split
    · exact .refused _
    · exact entered (runPrefixed_keepsMode ..).endOutcome
  · split
    · next st hst =>
      obtain ⟨ev, rfl⟩ := fetchFault_exc hst
      exact entered (finish_keepsMode (.exc ev)).endOutcome
    · exact .refused _

theorem activeStep_keepsMode (s : State) : ResultKeepsMode s (activeStep s) := by
  unfold activeStep
  split
  · next t ht => exact .next (takeEvent_modeKept ht)
  · split
    · exact .next (.of_eq rfl rfl rfl rfl rfl rfl)
    · exact runInstr_keepsMode s

/-- Every step but RESET's stays in protected mode and keeps what real mode guarantees, whatever it does: another bus agent's
access, an event, an instruction, a tick of a halted or shut-down processor. -/
theorem step_modeKept {s t : State} (hr : s.pins.reset = false) (h : step s = .next t) : ModeKept s t := by
  have hb := beginStep_modeKept s
  simp only [step, hr, Bool.false_eq_true, if_false] at h
  split at h
  · cases h
    exact hb.trans (masterAccess_modeKept _)
  split at h
  · cases h
    exact hb.trans (extTransfer_modeKept ..)
  split at h
  · cases h
    exact hb.trans (shutdownStep_modeKept _)
  · exact hb.trans ((activeStep_keepsMode _).kept t h)

end

/-! ### RESET -/

/-- While the RESET pin is active a step is RESET (70_reset_and_hazards.md R610). -/
theorem step_reset {s : State} (h : s.pins.reset = true) : step s = .next (resetNow s) := by simp [step, h]

section
variable (mem : List Host.Cell) (memMap : List Region) (pins : Pins) (io : List IoEvent) (draws : Nat) (bus : BusTime)

/-- RESET gives the values of Table 6 whatever it keeps (10_state.md R45). -/
theorem afterReset_values : ResetValues (State.afterReset mem memMap pins io draws bus) :=
  ⟨rfl, by simp [mswWord, State.afterReset], rfl, rfl, rfl, rfl, rfl, rfl, rfl, rfl, rfl,
    fun x => by cases x <;> rfl, fun x => by cases x <;> rfl, rfl, rfl, rfl, rfl, rfl, rfl, rfl, rfl⟩

theorem afterReset_realModeInvariant : RealModeInvariant (State.afterReset mem memMap pins io draws bus) :=
  ⟨fun _ => ⟨rfl, rfl⟩, fun _ x => by cases x <;> exact ⟨rfl, rfl, SegReg.real_writable 0⟩⟩

end

/-- RESET leaves every byte of memory as it was (log 37). -/
theorem resetNow_sameMemory (s : State) : SameMemory s (resetNow s) := State.load8_congr rfl rfl rfl

/-- Settles O48: a step without RESET keeps the mode, and RESET makes the invariant hold. -/
theorem stepKeepsRealModeInvariant : Obligations.StepKeepsRealModeInvariant := by
  intro s t hs h
  cases hr : s.pins.reset
  · exact (step_modeKept hr h).realMode hs
  · rw [step_reset hr] at h
    cases h
    exact afterReset_realModeInvariant ..

/-- Settles O46: the reset state and the state that a RESET step gives are both `State.afterReset`. -/
theorem resetGivesTableValues : Obligations.ResetGivesTableValues := by
  refine ⟨⟨afterReset_values .., rfl, plainMemory_reset, afterReset_realModeInvariant ..⟩, fun s hs => ?_⟩
  exact ⟨resetNow s, step_reset hs, afterReset_values .., rfl, resetNow_sameMemory s, rfl, rfl⟩

/-! ### Segment registers loaded in real mode -/

theorem SegReg.real_loaded (sel : Word) : LoadedReal (SegReg.real sel) sel := by
  refine ⟨rfl, ?_, rfl, rfl⟩
  have h := sel.isLt
  simp only [SegReg.real, BitVec.toNat_shiftLeft, BitVec.toNat_setWidth, Nat.shiftLeft_eq]
  omega

/-- The state in which MOV or POP has loaded a segment register in real mode (40_data_transfer.md R242, R247): a load of SS
inhibits interrupts for one instruction. -/
def State.loadReal (s : State) (x : SReg) (sel : Word) : State :=
  { s.setSeg x (SegReg.real sel) with inhibitInt := s.inhibitInt || decide (x = .ss) }

theorem loadSreg_real {s : State} (d : ReadGroup) {x : SReg} (sel : Word) (hx : x ≠ .cs) (h : s.msw.pe = false) :
    loadSreg s d x sel = .ok (s.loadReal x sel) := by
  cases x with
  | es => simp [loadSreg, loadDataSeg_real d .es sel h, State.loadReal, State.setSeg]
  | cs => exact absurd rfl hx
  | ss => simp [loadSreg, loadStackSeg_real d sel h, State.loadReal, pure, Except.pure]
  | ds => simp [loadSreg, loadDataSeg_real d .ds sel h, State.loadReal, State.setSeg]

/-- What a load of a segment register changes and what it leaves, SP being moved or not. -/
theorem loadReal_frame (s : State) (x : SReg) (sel sp : Word) :
    let t := (s.loadReal x sel).setSp sp
    LoadedReal (t.seg x) sel ∧ t.inhibitInt = (s.inhibitInt || decide (x = .ss)) ∧ t.flags = s.flags ∧
      SameButSeg s t x ∧ t.ip = s.ip ∧ SameMemory s t ∧ t.regs = { s.regs with sp := sp } := by
  cases x <;>
    exact ⟨SegReg.real_loaded sel, rfl, rfl, by constructor <;> rfl, rfl, State.load8_congr rfl rfl rfl, rfl⟩

theorem loadReal_setSp_same (s : State) (x : SReg) (sel : Word) :
    (s.loadReal x sel).setSp s.regs.sp = s.loadReal x sel := by cases x <;> rfl

theorem execMovSregRm_real {s : State} {x : SReg} {m : RM} (hx : x ≠ .cs) (h : s.msw.pe = false) (hm : CanRead s .word m) :
    execMovSregRm x m s = .next (s.loadReal x (valueOf s .word m)) := by
  simp [execMovSregRm, readRm_ok hm, loadSreg_real _ _ hx h]

theorem popSreg_real {s : State} {x : SReg} (hx : x ≠ .cs) (h : s.msw.pe = false) (hs : CanPopAt s 0) :
    popSreg s x = .ok ((s.loadReal x (stackTop s)).setSp (s.regs.sp + 2)) := by
  simp [popSreg, popWord_ok hs, loadSreg_real _ _ hx h, stackTop, pure, Except.pure]

/-- POP into a segment register (40_data_transfer.md R247). -/
theorem finish_popSreg_real {s : State} {x : SReg} (hx : x ≠ .cs) (h : s.msw.pe = false) (hs : CanPopAt s 0) :
    finish s (popSreg s x) = .next ((s.loadReal x (stackTop s)).setSp (s.regs.sp + 2)) := by
  rw [popSreg_real hx h hs, finish_ok]

theorem isPop_movSregRm (x : SReg) (m : RM) : isPop (.movSregRm x m) = false := rfl

/-- MOV and POP: the state they end in, in real mode. -/
theorem exec_segmentSource {i : Instr} {x : SReg} {v : State → Word} {Ready : State → Prop} {s : State}
    (hi : segmentSource i = some (x, v, Ready)) (h : s.msw.pe = false) (hr : Ready s) :
    exec i s = .next ((s.loadReal x (v s)).setSp (if isPop i then s.regs.sp + 2 else s.regs.sp)) := by
  unfold segmentSource at hi
  split at hi
  · next g m =>
    split at hi
    · cases hi
    · next hg =>
      cases hi
      rw [isPop_movSregRm, if_neg Bool.false_ne_true, loadReal_setSp_same]
      exact execMovSregRm_real hg h hr
  · cases hi
    exact finish_popSreg_real (by decide) h hr
  · cases hi
    exact finish_popSreg_real (by decide) h hr
  · cases hi
    exact finish_popSreg_real (by decide) h hr
  · cases hi

/-- LDS and LES in real mode (40_data_transfer.md R261). -/
theorem finish_loadPointer_real {s : State} {a : MemOp} (x : SReg) (r : RegNum) (h : s.msw.pe = false) (ha : CanReadPair s a) :
    finish s (loadPointer s x r a) = .next ((s.setSeg x (SegReg.real (secondWord s a))).setW r (firstWord s a)) := by
  simp [loadPointer, readPair_ok ha.1 ha.2, loadDataSeg_real _ _ _ h, firstWord, secondWord, pure, Except.pure]

/-- What LDS and LES change and what they leave. -/
theorem loadPointer_frame (s : State) (x : SReg) (r : RegNum) (sel off : Word) :
    let t := (s.setSeg x (SegReg.real sel)).setW r off
    LoadedReal (t.seg x) sel ∧ t.getW r = off ∧ t.inhibitInt = s.inhibitInt ∧ t.flags = s.flags ∧ SameButSeg s t x ∧
      t.ip = s.ip ∧ SameMemory s t ∧ RegsBut s t [r] := by
  have hseg : ((s.setSeg x (SegReg.real sel)).setW r off).seg x = SegReg.real sel :=
    (State.seg_congr (by simp) (by simp) (by simp) (by simp) x).trans (State.seg_setSeg s x _)
  refine ⟨?_, State.getW_setW .., by simp, by simp, ?_, by simp, State.load8_congr (by simp) (by simp) (by simp), ?_⟩
  · rw [hseg]
    exact SegReg.real_loaded sel
  · unfold SameButSeg
    rw [hseg]
    constructor <;> simp
  · intro q hq
    rw [State.getW_setW_ne _ _ (by simpa using hq)]
    exact State.getW_congr (by simp) q

/-- Settles O16: the state that each load ends in is known, and so is its frame. -/
theorem realModeSegmentLoads : Obligations.RealModeSegmentLoads := by
  refine ⟨fun i x v Ready s hi h hr => ?_, fun i x r a s hi h ha => ?_⟩
  · exact ⟨_, exec_segmentSource hi h hr, loadReal_frame s x (v s) _⟩
  · refine ⟨_, ?_, loadPointer_frame s x r (secondWord s a) (firstWord s a)⟩
    rcases hi with ⟨rfl, rfl⟩ | ⟨rfl, rfl⟩
    · exact finish_loadPointer_real .ds r h ha
    · exact finish_loadPointer_real .es r h ha

end Sys2Proof.Machine
end

section
/-! PROOFS. What the family of 20_memory.md says of physical memory: every step keeps its canonical form and its map, and
stores in RAM only (R92). By `Ends` again: one lemma for each operation that may store, and from these every instruction,
delivery and event. -/

namespace Sys2Proof.Machine

/-! ### What a change of state does to memory -/

/-- Memory stays in its canonical form, its map stays, no address but RAM gets a byte stored, and the reads go on in the same
step (20_memory.md R92, log 1, log 48). -/
structure MemoryKept (s t : State) : Prop where
  canonical : MemoryCanonical s → MemoryCanonical t
  memMap : t.memMap = s.memMap
  unstored : ∀ a : Phys, (s.memKind a).keeps = false → Memory.read t.mem a.toNat = Memory.read s.mem a.toNat
  step : t.bus.step = s.bus.step

/-- A change that stores nothing. -/
theorem MemoryKept.noStore {s t : State} (hm : t.mem = s.mem) (hk : t.memMap = s.memMap) (hb : t.bus.step = s.bus.step) :
    MemoryKept s t :=
  ⟨canonical_congr hm, hk, fun _ _ => by rw [hm], hb⟩

theorem MemoryKept.refl (s : State) : MemoryKept s s := .noStore rfl rfl rfl

theorem MemoryKept.trans {s t u : State} (h : MemoryKept s t) (k : MemoryKept t u) : MemoryKept s u where
  canonical hs := k.canonical (h.canonical hs)
  memMap := k.memMap.trans h.memMap
  unstored a ha := (k.unstored a (by rwa [State.memKind_congr h.memMap])).trans (h.unstored a ha)
  step := k.step.trans h.step

/-- The rest of the state may be anything. -/
theorem MemoryKept.thenNoStore {s t u : State} (h : MemoryKept s t) (hm : u.mem = t.mem) (hk : u.memMap = t.memMap)
    (hb : u.bus.step = t.bus.step) : MemoryKept s u := h.trans (.noStore hm hk hb)

section
variable (s : State)

theorem MemoryKept.setFlags (f : Flags) : MemoryKept s (s.setFlags f) := .noStore rfl rfl rfl

theorem MemoryKept.drawn (n : Nat) : MemoryKept s (s.drawn n) := .noStore rfl rfl rfl

theorem MemoryKept.jump (v : Word) : MemoryKept s (s.jump v) := .noStore rfl rfl rfl

theorem MemoryKept.flush : MemoryKept s s.flush := .noStore rfl rfl rfl

theorem MemoryKept.ite {t u : State} {c : Prop} [Decidable c] (ht : MemoryKept s t) (hu : MemoryKept s u) :
    MemoryKept s (if c then t else u) := by
  split
  · exact ht
  · exact hu

theorem MemoryKept.setW (r : RegNum) (v : Word) : MemoryKept s (s.setW r v) := .noStore (by simp) (by simp) (by simp)

theorem MemoryKept.setReg (w : Width) (r : RegNum) (v : Val w) : MemoryKept s (s.setReg w r v) :=
  .noStore (by simp) (by simp) (by simp)

theorem MemoryKept.setSeg (x : SReg) (g : SegReg) : MemoryKept s (s.setSeg x g) := .noStore (by simp) (by simp) (by simp)

theorem MemoryKept.store8 (a : Phys) (v : Byte) : MemoryKept s (s.store8 a v) where
  canonical := State.canonical_store8 s a v
  memMap := State.store8_memMap s a v
  unstored b hb := by
    rw [State.store8_mem]
    split
    · next ha =>
      have hne : b ≠ a := by rintro rfl; exact absurd (ha.symm.trans hb) (by decide)
      exact Memory.read_write_ne s.mem v (by rwa [ne_eq, BitVec.toNat_inj])
    · rfl
  step := by simp

theorem MemoryKept.store16 (a : Phys) (v : Word) : MemoryKept s (s.store16 a v) :=
  (MemoryKept.store8 s a _).trans (.store8 ..)

theorem MemoryKept.poke16 (x : SReg) (o v : Word) : MemoryKept s (poke16 s x o v) :=
  (MemoryKept.store8 s _ _).trans (.store8 ..)

theorem MemoryKept.poke (w : Width) (x : SReg) (o : Word) (v : Val w) : MemoryKept s (poke s w x o v) := by
  cases w
  · exact .store8 ..
  · exact .poke16 ..

theorem MemoryKept.putPlace (w : Width) (p : Place) (v : Val w) : MemoryKept s (putPlace s w p v) := by
  cases p with
  | reg r => exact .setReg ..
  | mem x o => exact .poke ..

theorem MemoryKept.pushRaw (v : Word) : MemoryKept s (pushRaw s v) := (MemoryKept.poke16 ..).trans (.setW _ .r4 _)

theorem MemoryKept.pushAllRaw (l : List Word) : MemoryKept s (l.foldl Machine.pushRaw s) := by
  induction l generalizing s with
  | nil => exact .refl s
  | cons v rest ih => exact (MemoryKept.pushRaw s v).trans (ih _)

theorem MemoryKept.pushCode (code : Option Word) : MemoryKept s (pushCode s code) := by
  cases code with
  | none => exact .refl s
  | some c => exact .pushRaw s c

theorem MemoryKept.setAccessed (a : Phys) (d : Desc) : MemoryKept s (setAccessed s a d) := by
  unfold Machine.setAccessed
  split
  · exact .refl s
  · exact .store8 ..

theorem MemoryKept.loadCache (x : SReg) (sel : Word) (p : Phys × Desc) : MemoryKept s (loadCache s x sel p) :=
  (MemoryKept.setAccessed ..).trans (.setSeg ..)

theorem MemoryKept.loadCs (sel : Word) (p : Phys × Desc) (cpl : Nat) (off : Word) : MemoryKept s (loadCs s sel p cpl off) :=
  (MemoryKept.loadCache ..).trans (.jump ..)

theorem MemoryKept.farReal (sel off : Word) : MemoryKept s (farReal s sel off) := (MemoryKept.setSeg ..).trans (.jump ..)

theorem MemoryKept.validateDataSeg (x : SReg) : MemoryKept s (validateDataSeg s x) := by
  unfold Machine.validateDataSeg
  simp only
  split
  · exact .setSeg ..
  · exact .refl s

/-! A task switch (45_protected_transfer.md R440). -/

theorem MemoryKept.tssStore (base : Phys) (l : List (Nat × Word)) : MemoryKept s (tssStore s base l) := by
  induction l generalizing s with
  | nil => exact .refl s
  | cons e rest ih => exact (MemoryKept.store16 ..).trans (ih _)

theorem MemoryKept.saveTask (mode : SwitchMode) (ret : Word) : MemoryKept s (saveTask s mode ret) :=
  (MemoryKept.tssStore ..).trans (.drawn ..)

theorem MemoryKept.markOldAvailable : MemoryKept s (markOldAvailable s) := .store8 ..

theorem MemoryKept.markBusy (a : Phys) (d : Desc) : MemoryKept s (markBusy s a d) := .store8 ..

theorem MemoryKept.commitSwitch (tsel : Word) (a : Phys) (t : Desc) (mode : SwitchMode) (ret : Word) :
    MemoryKept s (commitSwitch s tsel a t mode ret) := by
  have saved := MemoryKept.saveTask s mode ret
  have oldMarked := saved.trans (.ite (c := mode = .nest) _
    (.store16 _ (t.base + BitVec.ofNat 24 tssLayout.backLink) s.tr.sel) (.markOldAvailable _))
  have newMarked := oldMarked.trans (.ite (c := mode = .iret) _ (.refl _) (.markBusy _ a t))
  exact newMarked.thenNoStore rfl rfl rfl

end

/-! ### Operations that keep memory -/

/-- A part of an instruction that keeps memory, whether it answers or raises. -/
abbrev KeepsMemory (s : State) (r : M State) : Prop := Ends (MemoryKept s) (MemoryKept s) r

/-- One part after another. -/
theorem Ends.chain {s : State} {x : M State} {f : State → M State} (hx : KeepsMemory s x)
    (hf : ∀ t, KeepsMemory t (f t)) : KeepsMemory s (x >>= f) :=
  .bind hx fun t ht => (hf t).mono (fun _ => ht.trans) fun _ => ht.trans

/-- A part that begins in a state changed already. -/
theorem Ends.onward {s t : State} {r : M State} (h : MemoryKept s t) (hr : KeepsMemory t r) : KeepsMemory s r :=
  hr.mono (fun _ => h.trans) fun _ => h.trans

/-- One part after another, run in the new task of a switch. -/
theorem Ends.inTask_chain {s : State} {x : M State} {f : State → M State} (hx : KeepsMemory s x)
    (hf : ∀ t, KeepsMemory t (f t)) : KeepsMemory s (Machine.inTask s x >>= f) :=
  .chain (.inTask (.refl s) hx) hf

section
variable (s : State)

/-! Operands. -/

theorem modifyRm_keepsMemory {w : Width} {m : RM} {f : State → Val w → Val w × State}
    (hf : ∀ v, MemoryKept s (f s v).2) :
    KeepsMemory s (modifyRm s w m f) :=
  .after (checkWrite_changesNothing ..) fun _ => .after (readPlace_changesNothing ..) fun v =>
    .ok ((hf v).trans (.putPlace ..))

theorem writePlace_keepsMemory (w : Width) (p : Place) (v : Val w) : KeepsMemory s (writePlace s w p v) :=
  .after (checkWrite_changesNothing ..) fun _ => .ok (.putPlace ..)

theorem memWrite_keepsMemory (w : Width) (x : SReg) (o : Word) (v : Val w) : KeepsMemory s (memWrite s w x o v) :=
  .after (memCheck_changesNothing ..) fun _ => .ok (.poke ..)

theorem storeTable_keepsMemory (a : MemOp) (t : TableReg) : KeepsMemory s (storeTable s a t) :=
  .after (memCheck_changesNothing ..) fun _ => .after (memCheck_changesNothing ..) fun _ =>
    .after (memCheck_changesNothing ..) fun _ =>
    .ok ((((MemoryKept.poke16 ..).trans (.poke16 ..)).trans (.poke16 ..)).trans (.drawn ..))

/-! The stack. -/

theorem push_keepsMemory (v : Word) : KeepsMemory s (push s v) :=
  .chain (memWrite_keepsMemory ..) fun _ => .ok (.setW ..)

theorem copyDisplay_keepsMemory (n : Nat) : KeepsMemory s (copyDisplay s n) := by
  induction n generalizing s with
  | zero => exact .ok (.refl s)
  | succ n ih =>
    exact .after (memRead_changesNothing ..) fun v => .chain (.onward (.setW ..) (push_keepsMemory _ v)) ih

theorem keepProgress_keepsMemory {r : M State} (h : KeepsMemory s r) : KeepsMemory s (keepProgress s r) := by
  rcases r with (e | ⟨e, t, ip⟩) | t
  · exact .excIn (.refl s)
  · exact .excIn (h.raised e t ip rfl)
  · exact .ok (h.answered t rfl)

theorem pushAll_keepsMemory (l : List Word) : KeepsMemory s (pushAll s l) := by
  induction l generalizing s with
  | nil => exact .ok (.refl s)
  | cons v rest ih => exact .chain (keepProgress_keepsMemory s (push_keepsMemory s v)) ih

theorem popInto_keepsMemory (r : RegNum) : KeepsMemory s (popInto s r) :=
  .after (memRead_changesNothing ..) fun _ => .ok ((MemoryKept.setW s .r4 _).trans (.setW ..))

theorem popStep_keepsMemory (r : Option RegNum) : KeepsMemory s (popStep s r) := by
  cases r with
  | none => exact .after (memRead_changesNothing ..) fun _ => .ok (.setW ..)
  | some r => exact popInto_keepsMemory s r

theorem popAll_keepsMemory (l : List (Option RegNum)) : KeepsMemory s (popAll s l) := by
  induction l generalizing s with
  | nil => exact .ok (.refl s)
  | cons r rest ih => exact .chain (keepProgress_keepsMemory s (popStep_keepsMemory s r)) ih

/-! Segment registers. -/

theorem loadDataSeg_keepsMemory (g : ReadGroup) (x : SReg) (sel : Word) : KeepsMemory s (loadDataSeg s g x sel) :=
  .ite (fun _ => .ok (.setSeg ..)) fun _ => .ite (fun _ => .ok (.setSeg ..)) fun _ => .descriptor fun _ =>
    .need <| .need <| .need <| .ok (.loadCache ..)

theorem loadStackSeg_keepsMemory (g : ReadGroup) (sel : Word) : KeepsMemory s (loadStackSeg s g sel) :=
  .ite (fun _ => .ok (.setSeg ..)) fun _ => .need <| .descriptor fun _ =>
    .need <| .need <| .need <| .need <| .ok (.loadCache ..)

theorem loadSreg_keepsMemory (d : ReadGroup) (g : SReg) (sel : Word) : KeepsMemory s (loadSreg s d g sel) := by
  cases g with
  | es => exact loadDataSeg_keepsMemory s d .es sel
  | cs => exact .exc _
  | ss => exact .chain (loadStackSeg_keepsMemory s d sel) fun _ => .ok (.noStore rfl rfl rfl)
  | ds => exact loadDataSeg_keepsMemory s d .ds sel

theorem popSreg_keepsMemory (g : SReg) : KeepsMemory s (popSreg s g) :=
  .after (memRead_changesNothing ..) fun v => .chain (loadSreg_keepsMemory s .descriptor g v) fun _ => .ok (.setW ..)

theorem loadPointer_keepsMemory (x : SReg) (r : RegNum) (a : MemOp) : KeepsMemory s (loadPointer s x r a) :=
  .after (readPair_changesNothing ..) fun _ => .chain (loadDataSeg_keepsMemory ..) fun _ => .ok (.setW ..)

/-! Task switches (45_protected_transfer.md R440, R448). -/

theorem checkIp_keepsMemory : KeepsMemory s (checkIp s) := .need (.ok (.refl s))

theorem switchLdt_keepsMemory (ext : Bool) : KeepsMemory s (switchLdt s ext) :=
  .ite (fun _ => .ok (.refl s)) fun _ => .need <| .descriptor fun _ => .need <| .ok (.noStore rfl rfl rfl)

theorem switchCs_keepsMemory (ext : Bool) : KeepsMemory s (switchCs s ext) :=
  .need <| .descriptor fun _ => .need <| .need <| .need <| .ok (.loadCache ..)

theorem switchSs_keepsMemory (ext : Bool) : KeepsMemory s (switchSs s ext) :=
  .need <| .descriptor fun _ => .need <| .need <| .need <| .ok (.loadCache ..)

theorem switchData_keepsMemory (x : SReg) (ext : Bool) : KeepsMemory s (switchData s x ext) :=
  .ite (fun _ => .ok (.refl s)) fun _ => .descriptor fun _ => .need <| .need <| .need <| .ok (.loadCache ..)

theorem switchTasks_keepsMemory (tsel : Word) (a : Phys) (t : Desc) (mode : SwitchMode) (ret : Word) (ext : Bool) :
    KeepsMemory s (switchTasks s tsel a t mode ret ext) :=
  .need <| .onward (.commitSwitch ..) <|
    .inTask_chain (switchLdt_keepsMemory _ ext) fun _ =>
    .inTask_chain (switchCs_keepsMemory _ ext) fun _ =>
    .inTask_chain (switchSs_keepsMemory _ ext) fun _ =>
    .inTask_chain (switchData_keepsMemory _ .ds ext) fun _ =>
    .inTask_chain (switchData_keepsMemory _ .es ext) fun t => .ok (.flush t)

/-- A task switch, then the test of the new task's IP. -/
theorem switchThenCheckIp_keepsMemory (tsel : Word) (a : Phys) (t : Desc) (mode : SwitchMode) (ret : Word) (ext : Bool) :
    KeepsMemory s (switchTasks s tsel a t mode ret ext >>= fun s1 => inTask s1 (checkIp s1)) :=
  .chain (switchTasks_keepsMemory ..) fun t => .inTask (.refl t) (checkIp_keepsMemory t)

/-! Gates and deliveries (60_exceptions.md R561 to R570). -/

theorem taskEntry_keepsMemory (ev : Event) (g : Desc) (ret : Word) : KeepsMemory s (taskEntry s ev g ret) := by
  refine .need <| .descriptor fun t => .need <| .need <| .chain (switchTasks_keepsMemory ..) fun s1 =>
    .inTask_chain ?_ fun s2 => .inTask (.refl s2) (checkIp_keepsMemory s2)
  split
  · exact push_keepsMemory ..
  · exact .ok (.refl s1)

theorem gateInner_keepsMemory (ev : Event) (g : Desc) (c : Phys × Desc) (ret : Word) :
    KeepsMemory s (gateInner s ev g c ret) :=
  .after (innerStack_changesNothing ..) fun (nss, nsp, sp) => .need <| .need <| .ok <|
    have newStack : MemoryKept s ((loadCache s .ss nss sp).setSp nsp) := (MemoryKept.loadCache ..).trans (.setW ..)
    have entered := newStack.trans (.loadCs _ g.selector c (arDpl c.2.ar) g.offset)
    have oldStackPushed := (entered.trans (.pushRaw ..)).trans (.pushRaw ..)
    have returnPushed := ((oldStackPushed.trans (.pushRaw ..)).trans (.pushRaw ..)).trans (.pushRaw ..)
    ((returnPushed.trans (.pushCode ..)).trans (.setFlags ..)).trans (.drawn ..)

theorem gateSame_keepsMemory (ev : Event) (g : Desc) (c : Phys × Desc) (ret : Word) :
    KeepsMemory s (gateSame s ev g c ret) :=
  .after (checkPush_changesNothing ..) fun _ => .need <| .ok <|
    have returnPushed := ((MemoryKept.pushRaw s s.flagsWord).trans (.pushRaw _ s.cs.sel)).trans (.pushRaw _ ret)
    have entered := returnPushed.trans (.loadCs _ g.selector c s.cpl g.offset)
    ((entered.trans (.pushCode ..)).trans (.setFlags ..)).trans (.drawn ..)

theorem gateEntry_keepsMemory (ev : Event) (g : Desc) (ret : Word) : KeepsMemory s (gateEntry s ev g ret) :=
  .need <| .descriptor fun c => .need <| .need <| .ite (fun _ => gateInner_keepsMemory s ev g c ret) fun _ =>
    .ite (fun _ => gateSame_keepsMemory s ev g c ret) fun _ => .exc _

theorem protEntry_keepsMemory (ev : Event) (ret : Word) : KeepsMemory s (protEntry s ev ret) :=
  .need <| .need <| .need <| .need <|
    .ite (fun _ => taskEntry_keepsMemory s ev _ ret) fun _ => gateEntry_keepsMemory s ev _ ret

theorem realEntry_memoryKept (n : Nat) (ret : Word) : MemoryKept s ((realEntry s n ret).getD (enterShutdown s)) := by
  unfold realEntry
  split
  · exact .noStore rfl rfl rfl
  · have flagsPushed := (MemoryKept.pushRaw s s.flagsWord).trans (.drawn _ 1)
    have returnPushed := (flagsPushed.trans (.pushRaw _ s.cs.sel)).trans (.pushRaw _ ret)
    exact (returnPushed.trans (.setFlags ..)).trans (.farReal ..)

theorem deliverReal_memoryKept (n : Nat) (ret atIp : Word) : MemoryKept s (deliverReal s n ret atIp) := by
  have shutdown : MemoryKept s (enterShutdown s) := .noStore rfl rfl rfl
  unfold deliverReal
  split
  · exact realEntry_memoryKept s n ret
  · split
    · exact shutdown
    · split
      · exact realEntry_memoryKept s 8 atIp
      · exact shutdown

/-- The state in which the delivery begins that follows a failing one. -/
theorem nextDelivery_memoryKept {s : State} {ev : Event} {ret ip : Word} {st : Stop} (h : protEntry s ev ret = .error st) :
    MemoryKept s (st.nextDelivery s ip).1 :=
  ((protEntry_keepsMemory s ev ret).context h (.refl s)).thenNoStore rfl rfl rfl

theorem doubleFault_memoryKept (ret : Word) : MemoryKept s (doubleFault s ret) := by
  have hd := protEntry_keepsMemory s (.exn 8 (some 0)) ret
  unfold doubleFault
  split
  · next t ht => exact hd.answered t ht
  · next st hst => exact (hd.context (ip := ret) hst (.refl s)).thenNoStore rfl rfl rfl

theorem deliverFirst_memoryKept (ev : Event) (ret : Word) : MemoryKept s (deliverFirst s ev ret) := by
  unfold deliverFirst
  split
  · next t ht => exact (protEntry_keepsMemory s ev ret).answered t ht
  · next st hst =>
    refine (nextDelivery_memoryKept (ip := ret) hst).trans ?_
    simp only
    split
    · split
      · next t ht => exact (protEntry_keepsMemory ..).answered t ht
      · next st' hst' => exact (nextDelivery_memoryKept hst').trans (doubleFault_memoryKept ..)
    · exact doubleFault_memoryKept ..

theorem deliverProt_memoryKept (ev : Event) (ret atIp : Word) : MemoryKept s (deliverProt s ev ret atIp) := by
  unfold deliverProt
  split
  · exact deliverFirst_memoryKept s ev ret
  · split
    · next t ht => exact (protEntry_keepsMemory s ev ret).answered t ht
    · next st hst => exact (nextDelivery_memoryKept (ip := atIp) hst).trans (deliverFirst_memoryKept ..)

/-- Taking an exception or interrupt keeps memory (60_exceptions.md R560). -/
theorem deliver_memoryKept (ev : Event) (ret atIp : Word) : MemoryKept s (deliver s ev ret atIp) := by
  let s1 : State := { s.later .delivery with halted := false, cur := Cur.at s.cur.ip }
  let s2 := if s1.msw.pe then deliverProt s1 ev ret atIp else deliverReal s1 ev.vector.toNat ret atIp
  have begun : MemoryKept s s1 := .noStore rfl rfl rfl
  have delivered : MemoryKept s1 s2 := by
    unfold s2
    split
    · exact deliverProt_memoryKept ..
    · exact deliverReal_memoryKept ..
  have h := begun.trans delivered
  exact ⟨h.canonical, h.memMap, h.unstored, rfl⟩

/-! Transfers of control. -/

theorem setIP_keepsMemory (t : Word) : KeepsMemory s (setIP s t) := .need (.ok (.jump ..))

theorem jumpIf_keepsMemory (c : Bool) (d : Byte) : KeepsMemory s (jumpIf s c d) :=
  .ite (fun _ => setIP_keepsMemory ..) fun _ => .ok (.refl s)

theorem loopWhile_keepsMemory (c : Bool) (d : Byte) : KeepsMemory s (loopWhile s c d) :=
  .onward (.setW ..) (jumpIf_keepsMemory ..)

theorem callNear_keepsMemory (t : Word) : KeepsMemory s (callNear s t) :=
  .bind (setIP_keepsMemory s t) fun _ _ => .chain (push_keepsMemory ..) fun _ => .ok (.jump ..)

theorem retNear_keepsMemory (imm : Word) : KeepsMemory s (retNear s imm) :=
  .after (memRead_changesNothing ..) fun t => .chain (setIP_keepsMemory s t) fun _ => .ok (.setW ..)

theorem throughTaskGate_keepsMemory (g : Desc) (mode : SwitchMode) : KeepsMemory s (throughTaskGate s g mode) :=
  .need <| .descriptor fun _ => .need <| .need <| switchThenCheckIp_keepsMemory ..

theorem jmpFar_keepsMemory (sel off : Word) : KeepsMemory s (jmpFar s sel off) :=
  .ite (fun _ => .need <| .descriptor fun d =>
    .ite (fun _ => .after (directCode_changesNothing ..) fun _ => .need <| .ok (.loadCs ..)) fun _ =>
    .ite (fun _ => .after (gateVisible_changesNothing ..) fun _ => .after (gateCode_changesNothing ..) fun _ =>
      .need <| .ok (.loadCs ..)) fun _ =>
    .ite (fun _ => .after (gateVisible_changesNothing ..) fun _ => throughTaskGate_keepsMemory s d.2 .jmp) fun _ =>
    .ite (fun _ => .after (gateVisible_changesNothing ..) fun _ => switchThenCheckIp_keepsMemory ..) fun _ =>
    .exc _) fun _ => .ok (.farReal ..)

theorem MemoryKept.pushReturn : MemoryKept s (pushReturn s) := (MemoryKept.pushRaw ..).trans (.pushRaw ..)

theorem callSame_keepsMemory (sel : Word) (c : Phys × Desc) (off : Word) : KeepsMemory s (callSame s sel c off) :=
  .after (checkPush_changesNothing ..) fun _ => .need <| .ok ((MemoryKept.pushReturn s).trans (.loadCs ..))

theorem callInner_keepsMemory (g : Desc) (c : Phys × Desc) : KeepsMemory s (callInner s g c) :=
  .after (innerStack_changesNothing ..) fun (nss, nsp, sd) => .need <| .after (readParams_changesNothing ..) fun ps =>
    .need <| .ok <|
    have newStack : MemoryKept s ((loadCache s .ss nss sd).setSp nsp) := (MemoryKept.loadCache ..).trans (.setW ..)
    have entered := newStack.trans (.loadCs _ g.selector c (arDpl c.2.ar) g.offset)
    have oldStackPushed := (entered.trans (.pushRaw _ s.ss.sel)).trans (.pushRaw _ s.regs.sp)
    (((oldStackPushed.trans (.pushAllRaw _ ps)).trans (.pushRaw ..)).trans (.pushRaw ..)).trans (.flush _)

theorem callFarTo_keepsMemory (sel off : Word) : KeepsMemory s (callFarTo s sel off) :=
  .ite (fun _ => .need <| .descriptor fun d =>
    .ite (fun _ => .after (directCode_changesNothing ..) fun _ => callSame_keepsMemory s sel d off) fun _ =>
    .ite (fun _ => .after (gateVisible_changesNothing ..) fun _ => .after (gateCode_changesNothing ..) fun c =>
      .ite (fun _ => callInner_keepsMemory s d.2 c) fun _ => callSame_keepsMemory s _ c _) fun _ =>
    .ite (fun _ => .after (gateVisible_changesNothing ..) fun _ => throughTaskGate_keepsMemory s d.2 .nest) fun _ =>
    .ite (fun _ => .after (gateVisible_changesNothing ..) fun _ => switchThenCheckIp_keepsMemory ..) fun _ =>
    .exc _) fun _ =>
  .after (checkPush_changesNothing ..) fun _ => .ok ((MemoryKept.pushReturn s).trans (.farReal ..))

/-- A return to the same or an outer level (45_protected_transfer.md R433, R434). -/
theorem farReturn_keepsMemory (fl : Bool) (imm : Word) : KeepsMemory s (farReturn s fl imm) := by
  have returned (csel : Word) (c : Phys × Desc) (cpl : Nat) (off f : Word) :
      let s1 := loadCs s csel c cpl off
      MemoryKept s (if fl then s1.setFlags (s.poppedFlags f) else s1) :=
    (MemoryKept.loadCs s csel c cpl off).trans (.ite _ (.setFlags ..) (.refl _))
  have outer (csel ssel nsp off f : Word) (c sd : Phys × Desc) :=
    ((((returned csel c (rpl csel) off f).trans (.loadCache _ .ss ssel sd)).trans (.setW _ .r4 (nsp + imm))).trans
        (.validateDataSeg _ .es)).trans (.validateDataSeg _ .ds)
  refine .after (memRead_changesNothing ..) fun csel => .need <| .ite (fun _ => ?_) fun _ =>
    .after (checkStackTop_changesNothing ..) fun _ => .after (returnCode_changesNothing ..) fun c =>
    .after (memRead_changesNothing ..) fun ssel => .after (memRead_changesNothing ..) fun nsp =>
    .after (returnStack_changesNothing ..) fun sd => .after (memRead_changesNothing ..) fun off => ?_
  · cases fl
    · exact .after (returnCode_changesNothing ..) fun c => .after (memRead_changesNothing ..) fun off =>
        .need <| .ok ((returned csel c s.cpl off 0).trans (.setW _ .r4 _))
    · exact .after (checkStackTop_changesNothing ..) fun _ => .after (returnCode_changesNothing ..) fun c =>
        .after (memRead_changesNothing ..) fun off => .after (memRead_changesNothing ..) fun f =>
        .need <| .ok ((returned csel c s.cpl off f).trans (.setW _ .r4 _))
  · cases fl
    · exact .need <| .ok ((outer csel ssel nsp off 0 c sd).trans (.flush _))
    · exact .after (memRead_changesNothing ..) fun f => .need <| .ok ((outer csel ssel nsp off f c sd).trans (.flush _))

theorem retFarTo_keepsMemory (imm : Word) : KeepsMemory s (retFarTo s imm) :=
  .ite (fun _ => farReturn_keepsMemory ..) fun _ => .after (memRead_changesNothing ..) fun off =>
    .after (memRead_changesNothing ..) fun sel => .ok ((MemoryKept.farReal s sel off).trans (.setW _ .r4 _))

theorem iretReal_keepsMemory : KeepsMemory s (iretReal s) :=
  .after (memRead_changesNothing ..) fun off => .after (memRead_changesNothing ..) fun sel =>
    .after (memRead_changesNothing ..) fun f =>
    .ok (((MemoryKept.farReal s sel off).trans (.setFlags _ (s.poppedFlags f))).trans (.setW _ .r4 _))

theorem iretTask_keepsMemory : KeepsMemory s (iretTask s) :=
  .need <| .descriptor fun _ => .need <| .need <| switchThenCheckIp_keepsMemory ..

theorem returnFromInterrupt_keepsMemory : KeepsMemory s (returnFromInterrupt s) := by
  have opened (t : State) : KeepsMemory t (pure { t with nmiInService := false }) := .ok (.noStore rfl rfl rfl)
  exact .ite (fun _ => .chain (iretReal_keepsMemory s) opened) fun _ =>
    .ite (fun _ => .chain (iretTask_keepsMemory s) opened) fun _ => .chain (farReturn_keepsMemory s true 0) opened

/-! Strings and ports. -/

theorem stringRun_keepsMemory (compares : Bool) {prim : M State} (h : KeepsMemory s prim) :
    KeepsMemory s (stringRun s compares prim) := by
  unfold stringRun
  split
  · exact h
  · refine .ite (fun _ => .ok (.refl s)) fun _ => .chain h fun t => .ok ?_
    have counted := MemoryKept.setW t .r1 (s.regs.cx - 1)
    exact .ite _ counted (counted.thenNoStore rfl rfl rfl)

theorem MemoryKept.stepSi (w : Width) : MemoryKept s (stepSi s w) := .setW ..

theorem MemoryKept.stepDi (w : Width) : MemoryKept s (stepDi s w) := .setW ..

theorem MemoryKept.ioRead (w : Width) (port : Word) : MemoryKept s (ioRead s w port).2 := .noStore rfl rfl rfl

theorem MemoryKept.ioWrite (w : Width) (port : Word) (v : Val w) : MemoryKept s (ioWrite s w port v) := .noStore rfl rfl rfl

/-! Results and flags. -/

theorem MemoryKept.logic (w : Width) (r : Val w) : MemoryKept s (aluLogic w s r).2 := .noStore rfl rfl rfl

theorem MemoryKept.shiftOp (k : ShiftKind) (single : Bool) (n : Nat) (w : Width) (x : Val w) :
    MemoryKept s (shiftOp k single n w s x).2 := by
  unfold Machine.shiftOp
  split
  · exact .refl s
  · exact .noStore rfl rfl rfl

theorem MemoryKept.setWide (w : Width) (lo hi : Val w) : MemoryKept s (setWide s w lo hi) := by
  cases w
  · exact .setW s .r0 _
  · exact (MemoryKept.setW s .r0 lo).trans (.setW _ .r2 hi)

theorem MemoryKept.mulFlags (h : Bool) : MemoryKept s (mulFlags s h) := .noStore rfl rfl rfl

theorem MemoryKept.divFlags : MemoryKept s (divFlags s) := .noStore rfl rfl rfl

theorem MemoryKept.decimalEnd (ok : Bool) (al : Byte) (af cf : Bool) : MemoryKept s (decimalEnd s ok al af cf) :=
  .noStore rfl rfl rfl

theorem MemoryKept.setZf (z : Bool) : MemoryKept s (setZf s z) := .setFlags ..

theorem MemoryKept.testedState (sel : Word) : MemoryKept s (testedState s sel) := by
  unfold Machine.testedState
  refine .ite s (.refl s) ?_
  split
  · exact .ite s (.setAccessed ..) (.refl s)
  · exact .refl s

theorem MemoryKept.selectorResult (r : RegNum) (v : Option Word) : MemoryKept s (selectorResult s r v) := by
  cases v with
  | none => exact .setZf ..
  | some v => exact (MemoryKept.setW s r v).trans (.setZf ..)

end

/-- An operand that is read, then an update that depends on it. -/
theorem readRm_then_keepsMemory {s : State} {w : Width} {m : RM} {f : Val w → State} (h : ∀ v, MemoryKept s (f v)) :
    KeepsMemory s (readRm s w m >>= fun v => pure (f v)) :=
  .after (readRm_changesNothing ..) fun v => .ok (h v)

/-! ### Every instruction keeps memory -/

/-- What a meaning answers keeps memory. -/
structure ResultKeepsMemory (s : State) (r : Result) : Prop where
  kept : ∀ t, r = .next t → MemoryKept s t

theorem ResultKeepsMemory.next {s t : State} (h : MemoryKept s t) : ResultKeepsMemory s (.next t) :=
  ⟨by rintro _ ⟨⟩; exact h⟩

theorem ResultKeepsMemory.refused {s : State} (r : Refusal) : ResultKeepsMemory s (.refused r) := ⟨by rintro _ ⟨⟩⟩

section
variable {s : State}

/-- The end of a meaning: it has kept memory, and so does the exception it may take. -/
theorem finish_keepsMemory {r : M State} (h : KeepsMemory s r) : ResultKeepsMemory s (finish s r) := by
  rcases r with (e | ⟨e, t, ip⟩) | t
  · exact .next (deliver_memoryKept ..)
  · exact .next ((h.raised e t ip rfl).trans (deliver_memoryKept ..))
  · exact .next (h.answered t rfl)

/-- A meaning that cannot fail. -/
theorem finish_memoryKept {t : State} (h : MemoryKept s t) : ResultKeepsMemory s (finish s (.ok t)) := .next h

/-- A meaning that reads one operand and stores nothing. -/
theorem finish_readRm_keepsMemory {w : Width} {m : RM} {f : Val w → State} (h : ∀ v, MemoryKept s (f v)) :
    ResultKeepsMemory s (finish s (readRm s w m >>= fun v => pure (f v))) := finish_keepsMemory (readRm_then_keepsMemory h)

/-- A meaning that reads, computes and writes one operand. -/
theorem finish_modifyRm_keepsMemory {w : Width} {m : RM} {f : State → Val w → Val w × State}
    (h : ∀ v, MemoryKept s (f s v).2) : ResultKeepsMemory s (finish s (modifyRm s w m f)) :=
  finish_keepsMemory (modifyRm_keepsMemory s h)

/-- A part of the meaning of a string instruction. -/
theorem finish_stringRun_keepsMemory {compares : Bool} {prim : M State} (h : KeepsMemory s prim) :
    ResultKeepsMemory s (finish s (stringRun s compares prim)) := finish_keepsMemory (stringRun_keepsMemory s compares h)

end

section
variable (s : State)

theorem softInt_memoryKept (n : Byte) : MemoryKept s (softInt s n) := deliver_memoryKept ..

theorem execEnter_keepsMemory (v : Word) (l : Byte) : ResultKeepsMemory s (execEnter v l s) := by
  have setFrame (t : State) (frame : Word) : MemoryKept t ((t.setW .r5 frame).setSp (t.regs.sp - v)) :=
    (MemoryKept.setW t .r5 frame).trans (.setW _ .r4 _)
  exact finish_keepsMemory <| .chain (push_keepsMemory ..) fun s1 => .ite (fun _ => .ok (setFrame s1 _)) fun _ =>
    .chain (copyDisplay_keepsMemory ..) fun s2 => .chain (push_keepsMemory ..) fun s3 => .ok (setFrame s3 _)

theorem MemoryKept.waitHere : MemoryKept s (waitHere s) := .noStore rfl rfl rfl

theorem MemoryKept.escIssue (op : BitVec 6) (p : Place) : MemoryKept s (escIssue s op p) := .noStore rfl rfl rfl

theorem MemoryKept.note (c : Cur) : MemoryKept s (note s c) := .noStore rfl rfl rfl

theorem execEsc_keepsMemory (t l : BitVec 3) (m : RM) : ResultKeepsMemory s (execEsc t l m s) :=
  finish_keepsMemory <| .need <| .after (escCheck_changesNothing ..) fun _ =>
    .ite (fun _ => .ok (.waitHere s)) fun _ => .need <| .ok (.escIssue ..)

theorem execLldt_keepsMemory (m : RM) : ResultKeepsMemory s (execLldt m s) :=
  finish_keepsMemory <| .need <| .need <| .after (readRm_changesNothing ..) fun _ =>
    .ite (fun _ => .ok (.noStore rfl rfl rfl)) fun _ => .need <| .descriptor fun _ => .need <| .need <|
    .ok (.noStore rfl rfl rfl)

theorem execLtr_keepsMemory (m : RM) : ResultKeepsMemory s (execLtr m s) :=
  finish_keepsMemory <| .need <| .need <| .after (readRm_changesNothing ..) fun _ => .need <| .descriptor fun d =>
    .need <| .need <| .ok ((MemoryKept.markBusy s d.1 d.2).thenNoStore rfl rfl rfl)

theorem execArpl_keepsMemory (m : RM) (r : RegNum) : ResultKeepsMemory s (execArpl m r s) :=
  finish_keepsMemory <| .need <| .after (checkWrite_changesNothing ..) fun _ => readRm_then_keepsMemory fun _ =>
    .ite s ((MemoryKept.putPlace ..).trans (.setZf ..)) (.setZf ..)

theorem execPopRm_keepsMemory (m : RM) : ResultKeepsMemory s (execPopRm m s) :=
  finish_keepsMemory <| .after (memRead_changesNothing ..) fun _ => .after (checkWrite_changesNothing ..) fun _ =>
    .ok ((MemoryKept.putPlace ..).trans (.setW _ .r4 _))

/-- Every instruction keeps memory, and so does what stands in front of it (30_encoding.md R190). -/
theorem exec_keepsMemory (i : Instr) : ResultKeepsMemory s (exec i s) := by
  cases i with
  -- two-operand arithmetic and logic
  | addRmReg | adcRmReg | sbbRmReg | subRmReg | addRmImm | adcRmImm | sbbRmImm | subRmImm | addRm8Imm82 | adcRm8Imm82
  | sbbRm8Imm82 | subRm8Imm82 | addRmSext | adcRmSext | sbbRmSext | subRmSext =>
    exact finish_modifyRm_keepsMemory fun _ => .setFlags ..
  | orRmReg | andRmReg | xorRmReg | orRmImm | andRmImm | xorRmImm => exact finish_modifyRm_keepsMemory fun _ => .logic ..
  | addRegRm | adcRegRm | sbbRegRm | subRegRm =>
    exact finish_readRm_keepsMemory fun _ => (MemoryKept.setFlags ..).trans (.setReg ..)
  | orRegRm | andRegRm | xorRegRm => exact finish_readRm_keepsMemory fun _ => (MemoryKept.logic ..).trans (.setReg ..)
  | addAccImm | adcAccImm | sbbAccImm | subAccImm =>
    exact finish_memoryKept ((MemoryKept.setFlags ..).trans (.setReg _ _ .r0 _))
  | orAccImm | andAccImm | xorAccImm => exact finish_memoryKept ((MemoryKept.logic ..).trans (.setReg _ _ .r0 _))
  | cmpRmReg | cmpRmImm | cmpRm8Imm82 | cmpRmSext | cmpRegRm => exact finish_readRm_keepsMemory fun _ => .setFlags ..
  | testRmReg | testRmImm => exact finish_readRm_keepsMemory fun _ => .logic ..
  | cmpAccImm => exact finish_memoryKept (.setFlags ..)
  | testAccImm => exact finish_memoryKept (.logic ..)
  -- one-operand arithmetic, shifts and rotates
  | incReg r | decReg r => exact finish_modifyRm_keepsMemory (m := .reg r) fun _ => .setFlags ..
  | incRm | decRm | negRm => exact finish_modifyRm_keepsMemory fun _ => .setFlags ..
  | notRm => exact finish_modifyRm_keepsMemory fun _ => .refl s
  | rolImm | rolOne | rolCl | rorImm | rorOne | rorCl | rclImm | rclOne | rclCl | rcrImm | rcrOne | rcrCl | shlImm | shlOne
  | shlCl | shrImm | shrOne | shrCl | sarImm | sarOne | sarCl => exact finish_modifyRm_keepsMemory fun _ => .shiftOp ..
  | mulRm | imulRm => exact finish_readRm_keepsMemory fun _ => (MemoryKept.setWide ..).trans (.mulFlags ..)
  | imulRegRmImm16 | imulRegRmImm8 => exact finish_readRm_keepsMemory fun _ => (MemoryKept.setW ..).trans (.mulFlags ..)
  | divRm | idivRm =>
    exact finish_keepsMemory <| .after (readRm_changesNothing ..) fun _ => .need <| .need <|
      .ok ((MemoryKept.setWide ..).trans (.divFlags _))
  | daa | das => exact finish_memoryKept (.decimalEnd ..)
  | aaa | aas | aam | aad => exact finish_memoryKept (((MemoryKept.setW ..).trans (.setFlags ..)).trans (.drawn ..))
  | cbw | cwd => exact finish_memoryKept (.setW ..)
  -- data transfer
  | movRmReg | movRmImm | movRmSreg => exact finish_keepsMemory (writePlace_keepsMemory ..)
  | movRegRm => exact finish_readRm_keepsMemory fun _ => .setReg ..
  | movAccMoffs => exact finish_keepsMemory (.after (memRead_changesNothing ..) fun _ => .ok (.setReg _ _ .r0 _))
  | movMoffsAcc => exact finish_keepsMemory (memWrite_keepsMemory ..)
  | movRegImm => exact finish_memoryKept (.setReg ..)
  | movSregRm => exact finish_keepsMemory (.after (readRm_changesNothing ..) fun _ => loadSreg_keepsMemory ..)
  | lea => exact finish_memoryKept (.setW ..)
  | lds | les => exact finish_keepsMemory (loadPointer_keepsMemory ..)
  | xlat => exact finish_keepsMemory (.after (memRead_changesNothing ..) fun _ => .ok (.setReg s .byte .r0 _))
  | xchgRmReg => exact finish_modifyRm_keepsMemory fun _ => .setReg ..
  | xchgAxReg => exact finish_memoryKept ((MemoryKept.setW ..).trans (.setW ..))
  | pushSreg | pushReg | pushImm16 | pushImm8 => exact finish_keepsMemory (push_keepsMemory ..)
  | pushRm => exact finish_keepsMemory (.after (readRm_changesNothing ..) fun _ => push_keepsMemory ..)
  | pusha =>
    exact finish_keepsMemory <| .after (memCheck_changesNothing ..) fun _ => .after (memCheck_changesNothing ..) fun _ =>
      pushAll_keepsMemory ..
  | popa =>
    exact finish_keepsMemory <| .after (memCheck_changesNothing ..) fun _ => .after (memCheck_changesNothing ..) fun _ =>
      popAll_keepsMemory ..
  | popReg => exact finish_keepsMemory (popInto_keepsMemory ..)
  | popRm => exact execPopRm_keepsMemory ..
  | popEs | popSs | popDs => exact finish_keepsMemory (popSreg_keepsMemory ..)
  | pushf => exact finish_keepsMemory (.chain (push_keepsMemory ..) fun _ => .ok (.drawn ..))
  | popf =>
    exact finish_keepsMemory (.after (memRead_changesNothing ..) fun _ =>
      .ok ((MemoryKept.setFlags ..).trans (.setW _ .r4 _)))
  | lahf => exact finish_memoryKept ((MemoryKept.setReg s .byte .r4 _).trans (.drawn ..))
  | sahf => exact finish_memoryKept (.setFlags ..)
  | inImm | inDx => exact finish_keepsMemory (.need (.ok ((MemoryKept.ioRead ..).trans (.setReg _ _ .r0 _))))
  | outImm | outDx => exact finish_keepsMemory (.need (.ok (.ioWrite ..)))
  -- strings
  | movs =>
    exact finish_stringRun_keepsMemory <| .after (memRead_changesNothing ..) fun _ => .chain (memWrite_keepsMemory ..) fun _ =>
      .ok ((MemoryKept.stepSi ..).trans (.stepDi ..))
  | cmps =>
    exact finish_stringRun_keepsMemory <| .after (memRead_changesNothing ..) fun _ => .after (memRead_changesNothing ..) fun _ =>
      .ok (((MemoryKept.setFlags ..).trans (.stepSi ..)).trans (.stepDi ..))
  | scas =>
    exact finish_stringRun_keepsMemory <| .after (memRead_changesNothing ..) fun _ =>
      .ok ((MemoryKept.setFlags ..).trans (.stepDi ..))
  | lods =>
    exact finish_stringRun_keepsMemory <| .after (memRead_changesNothing ..) fun _ =>
      .ok ((MemoryKept.setReg _ _ .r0 _).trans (.stepSi ..))
  | stos => exact finish_stringRun_keepsMemory <| .chain (memWrite_keepsMemory ..) fun _ => .ok (.stepDi ..)
  | ins =>
    exact finish_stringRun_keepsMemory <| .need <| .after (memCheck_changesNothing ..) fun _ =>
      .ok (((MemoryKept.ioRead ..).trans (.poke ..)).trans (.stepDi ..))
  | outs =>
    exact finish_stringRun_keepsMemory <| .need <| .after (memRead_changesNothing ..) fun _ =>
      .ok ((MemoryKept.ioWrite ..).trans (.stepSi ..))
  -- transfers of control
  | jo | jno | jb | jnb | je | jne | jbe | jnbe | js | jns | jp | jnp | jl | jnl | jle | jnle | jcxz =>
    exact finish_keepsMemory (jumpIf_keepsMemory ..)
  | loop | loope | loopne => exact finish_keepsMemory (loopWhile_keepsMemory ..)
  | jmpRel8 | jmpRel16 => exact finish_keepsMemory (setIP_keepsMemory ..)
  | jmpRm => exact finish_keepsMemory (.after (readRm_changesNothing ..) fun _ => setIP_keepsMemory ..)
  | callRel => exact finish_keepsMemory (callNear_keepsMemory ..)
  | callRm => exact finish_keepsMemory (.after (readRm_changesNothing ..) fun _ => callNear_keepsMemory ..)
  | ret | retImm => exact finish_keepsMemory (retNear_keepsMemory ..)
  | jmpFar => exact finish_keepsMemory (jmpFar_keepsMemory ..)
  | jmpFarMem => exact finish_keepsMemory (.after (readPair_changesNothing ..) fun _ => jmpFar_keepsMemory ..)
  | callFar => exact finish_keepsMemory (callFarTo_keepsMemory ..)
  | callFarMem => exact finish_keepsMemory (.after (readPair_changesNothing ..) fun _ => callFarTo_keepsMemory ..)
  | retFar | retFarImm => exact finish_keepsMemory (retFarTo_keepsMemory ..)
  | iret => exact finish_keepsMemory (returnFromInterrupt_keepsMemory s)
  | enter => exact execEnter_keepsMemory ..
  | leave =>
    exact finish_keepsMemory (.after (memRead_changesNothing ..) fun _ => .ok ((MemoryKept.setW s .r4 _).trans (.setW ..)))
  | bound => exact finish_keepsMemory (.after (readPair_changesNothing ..) fun _ => .need (.ok (.refl s)))
  | int3 | intImm => exact .next (softInt_memoryKept ..)
  | into => exact .next (.ite s (softInt_memoryKept ..) (.refl s))
  -- processor control
  | clc | cmc | stc | cld | std => exact .next (.setFlags ..)
  | cli | sti | hlt | clts => exact finish_keepsMemory (.need (.ok (.noStore rfl rfl rfl)))
  | nop => exact .next (.refl s)
  | segPfx | repnePfx | repPfx => exact .next (.note ..)
  | lockPfx => exact finish_keepsMemory (.need (.ok (.note ..)))
  | wait => exact finish_keepsMemory (.need (.ite (fun _ => .ok (.waitHere s)) fun _ => .need (.ok (.refl s))))
  | esc => exact execEsc_keepsMemory ..
  -- protection control
  | sgdt | sidt => exact finish_keepsMemory (storeTable_keepsMemory ..)
  | lgdt | lidt =>
    exact finish_keepsMemory (.after (loadTable_changesNothing ..) fun _ => .ok (.noStore rfl rfl rfl))
  | sldt | str => exact finish_keepsMemory (.need (writePlace_keepsMemory ..))
  | lldt => exact execLldt_keepsMemory ..
  | ltr => exact execLtr_keepsMemory ..
  | smsw => exact finish_keepsMemory (.chain (writePlace_keepsMemory ..) fun _ => .ok (.drawn ..))
  | lmsw => exact finish_keepsMemory (.need (readRm_then_keepsMemory fun _ => .noStore rfl rfl rfl))
  | lar =>
    exact finish_keepsMemory (.need (readRm_then_keepsMemory fun _ =>
      ((MemoryKept.testedState ..).trans (.selectorResult ..)).trans (.drawn ..)))
  | lsl =>
    exact finish_keepsMemory (.need (readRm_then_keepsMemory fun _ =>
      (MemoryKept.testedState ..).trans (.selectorResult ..)))
  | verr | verw =>
    exact finish_keepsMemory (.need (readRm_then_keepsMemory fun _ =>
      (MemoryKept.testedState ..).trans (.setZf ..)))
  | arpl => exact execArpl_keepsMemory ..

/-! ### Every step keeps memory -/

/-- An event of the boundary, delivered (60_exceptions.md R551). -/
theorem MemoryKept.event {s u : State} (h : MemoryKept s u) (vector : Byte) (p : Phase) :
    MemoryKept s { deliverHere u vector with phase := p } :=
  (h.trans (deliver_memoryKept ..)).thenNoStore rfl rfl rfl

theorem takeNmi_memoryKept : MemoryKept s (takeNmi s) :=
  .event (s := s) (u := { s with nmiPending := false, nmiInService := true }) (.noStore rfl rfl rfl) 2 .mp

theorem takeEvent_memoryKept {t : State} (h : takeEvent s = some t) : MemoryKept s t := by
  unfold takeEvent at h
  split at h
  · cases h
    exact .event (s := s) (u := { s with stepTrap := false }) (.noStore rfl rfl rfl) 1 .nmi
  split at h
  · cases h
    exact takeNmi_memoryKept s
  split at h
  · cases h
    exact .event (s := s) (u := { s with mpPending := false }) (.noStore rfl rfl rfl) 9 .intr
  split at h
  · cases h
    exact .event (.refl s) s.pins.vector .done
  · cases h

theorem shutdownStep_memoryKept : MemoryKept s (shutdownStep s) := by
  have left : MemoryKept s (freeReturn { s with shutdown := false }) := .noStore rfl rfl rfl
  exact .ite s (left.trans (takeNmi_memoryKept _)) (.refl s)

theorem masterAccess_memoryKept : MemoryKept s (masterAccess s) := by
  unfold masterAccess
  split
  · exact .refl s
  · split
    · exact .store8 ..
    · exact .store16 ..

theorem extTransfer_memoryKept (o : ExtOperand) : MemoryKept s (extTransfer s o) := by
  unfold extTransfer
  split
  · split
    · exact ((MemoryKept.store8 s (o.addr 0) _).trans (.store8 _ (o.addr 1) _)).thenNoStore rfl rfl rfl
    · exact .noStore rfl rfl rfl
  · exact .noStore rfl rfl rfl

end

section
variable {s : State}

theorem ResultKeepsMemory.endOutcome {tf : Bool} {r : Result} (h : ResultKeepsMemory s r) :
    ResultKeepsMemory s (endOutcome tf r) := by
  cases r with
  | next t => exact .next ((h.kept t rfl).thenNoStore rfl rfl rfl)
  | fault f => exact nomatch f
  | refused r => exact .refused r

theorem runPrefixed_keepsMemory (i : Instr) (pfx : List Instr) (s : State) : ResultKeepsMemory s (runPrefixed s i pfx) := by
  induction pfx generalizing s with
  | nil => exact exec_keepsMemory s i
  | cons p rest ih =>
    unfold runPrefixed
    split
    · next t ht =>
      have h := (exec_keepsMemory s p).kept t ht
      split
      · exact .next h
      · exact ⟨fun u hu => h.trans ((ih t).kept u hu)⟩
    · next f _ => exact nomatch f
    · exact .refused _

theorem runInstr_keepsMemory (s : State) : ResultKeepsMemory s (runInstr s) := by
  have entered {len : Nat} {r : Result} (h : ResultKeepsMemory (enterInstr s len) r) : ResultKeepsMemory s r :=
    ⟨fun t ht => (MemoryKept.noStore (s := s) (t := enterInstr s len) rfl rfl rfl).trans (h.kept t ht)⟩
  unfold runInstr
  split
  · split
    · exact .refused _
    · exact entered (runPrefixed_keepsMemory ..).endOutcome
  · split
    · next st hst =>
      obtain ⟨ev, rfl⟩ := fetchFault_exc hst
      exact entered (finish_keepsMemory (.exc ev)).endOutcome
    · exact .refused _

theorem activeStep_keepsMemory (s : State) : ResultKeepsMemory s (activeStep s) := by
  unfold activeStep
  split
  · next t ht => exact .next (takeEvent_memoryKept s ht)
  · split
    · exact .next (.noStore rfl rfl rfl)
    · exact runInstr_keepsMemory s

/-- Every step but RESET's, once begun, keeps memory, whatever it does: another bus agent's access, an event, an instruction, a
tick of a halted or shut-down processor. -/
theorem step_memoryKept {t : State} (hr : s.pins.reset = false) (h : step s = .next t) : MemoryKept (beginStep s) t := by
  simp only [step, hr, Bool.false_eq_true, if_false] at h
  split at h
  · cases h
    exact masterAccess_memoryKept _
  split at h
  · cases h
    exact extTransfer_memoryKept ..
  split at h
  · cases h
    exact shutdownStep_memoryKept _
  · exact (activeStep_keepsMemory _).kept t h

/-- A byte of ROM, or one that nothing answers, reads the same as long as nothing is stored there (20_memory.md R92). -/
theorem load8_eq_of_unstored {t : State} {p : Phys} (hk : t.memMap = s.memMap) (hp : s.memKind p = .rom ∨ s.memKind p = .absent)
    (h : (s.memKind p).keeps = false → Memory.read t.mem p.toNat = Memory.read s.mem p.toNat) : t.load8 p = s.load8 p := by
  have hpt := State.memKind_congr hk p
  rcases hp with hp | hp
  · rw [State.load8_rom (hpt.trans hp), State.load8_rom hp, h (by rw [hp]; rfl)]
  · rw [State.load8_absent (hpt.trans hp), State.load8_absent hp]

/-- Settles O47: RESET leaves memory and its map alone, and every other step keeps memory from where it begins. -/
theorem stepKeepsMemoryCanonical : Obligations.StepKeepsMemoryCanonical := by
  intro s t h
  cases hr : s.pins.reset
  · have k := step_memoryKept hr h
    exact ⟨k.canonical, k.memMap, fun p hp => load8_eq_of_unstored k.memMap hp (k.unstored p), fun _ => k.step⟩
  · rw [step_reset hr] at h
    cases h
    exact ⟨id, rfl, fun p _ => resetNow_sameMemory s p, fun h => absurd h (by decide)⟩

end

end Sys2Proof.Machine
end

section
/-! PROOFS. Words in memory, the checks of an access, addresses and descriptors (20_memory.md R80 to R128), in numbers. -/

namespace Sys2Proof.Machine

/-! ### Words and their bytes -/

theorem loByte_toNat (v : Word) : (loByte v).toNat = v.toNat % 256 := by simp [loByte]

theorem hiByte_toNat (v : Word) : (hiByte v).toNat = v.toNat / 256 := by
  have h := v.isLt
  simp only [hiByte, BitVec.extractLsb'_toNat, Nat.shiftRight_eq_div_pow]
  omega

/-- A high part above a low part of `m` bits. -/
theorem append_toNat {n m : Nat} (hi : BitVec n) (lo : BitVec m) : (hi ++ lo).toNat = lo.toNat + hi.toNat * 2 ^ m := by
  rw [BitVec.toNat_append, ← Nat.shiftLeft_add_eq_or_of_lt lo.isLt, Nat.shiftLeft_eq, Nat.add_comm]

theorem wordOf_toNat (lo hi : Byte) : (wordOf lo hi).toNat = lo.toNat + hi.toNat * 256 := append_toNat hi lo

theorem State.load16_toNat (s : State) (a : Phys) :
    (s.load16 a).toNat = (s.load8 a).toNat + (s.load8 (a + 1)).toNat * 256 := wordOf_toNat ..

/-- Clearing the low bits of a word rounds it down to a multiple. -/
theorem clearLow_toNat (v : Word) (k : Nat) : (v &&& (BitVec.allOnes 16 <<< k)).toNat = v.toNat / 2 ^ k * 2 ^ k := by
  have hshift : v &&& (BitVec.allOnes 16 <<< k) = (v >>> k) <<< k := by
    apply BitVec.eq_of_getLsbD_eq
    intro i hi
    rw [BitVec.getLsbD_and, BitVec.getLsbD_shiftLeft, BitVec.getLsbD_shiftLeft, BitVec.getLsbD_ushiftRight,
      BitVec.getLsbD_allOnes]
    by_cases hk : i < k
    · simp [hk]
    · simp [hk, hi, show i - k < 16 by omega, show k + (i - k) = i by omega]
  have hle : v.toNat / 2 ^ k * 2 ^ k ≤ v.toNat := Nat.div_mul_le_self ..
  rw [hshift, BitVec.toNat_shiftLeft, BitVec.toNat_ushiftRight, Nat.shiftRight_eq_div_pow, Nat.shiftLeft_eq]
  exact Nat.mod_eq_of_lt (Nat.lt_of_le_of_lt hle v.isLt)

/-- The offset of a selector's descriptor in its table: index times 8 (20_memory.md R120). -/
theorem selectorOffset_toNat (sel : Word) : (sel &&& 0xFFF8).toNat = sel.toNat / 8 * 8 := clearLow_toNat sel 3

/-- The null selectors are 0000H to 0003H (R131). -/
theorem selNull_iff (sel : Word) : selNull sel = true ↔ sel.toNat < 4 := by
  have h : (sel &&& 0xFFFC).toNat = sel.toNat / 4 * 4 := clearLow_toNat sel 2
  rw [selNull, decide_eq_true_eq, ← BitVec.toNat_inj, h, show (0 : Word).toNat = 0 from rfl]
  omega

/-! ### Storing words -/

theorem State.succ_ne (a : Phys) : a + 1 ≠ a := by
  intro h
  have h' := congrArg BitVec.toNat h
  rw [BitVec.toNat_add] at h'
  have ha := a.isLt
  simp at h'
  omega

/-- Two bytes stored one after the other at two addresses. -/
theorem PlainMemory.load8_storeTwo {s : State} (h : PlainMemory s) {a b : Phys} (hne : b ≠ a) (lo hi : Byte) :
    ((s.store8 a lo).store8 b hi).load8 a = lo ∧ ((s.store8 a lo).store8 b hi).load8 b = hi ∧
      ∀ p, p ≠ a → p ≠ b → ((s.store8 a lo).store8 b hi).load8 p = s.load8 p := by
  have hlo := State.load8_store8 s a a lo h
  have hhi := State.load8_store8 _ b b hi (h.store8 a lo)
  rw [if_pos rfl] at hlo hhi
  exact ⟨(State.load8_store8_ne _ hi hne.symm).trans hlo, hhi, fun p hp hq =>
    (State.load8_store8_ne _ hi hq).trans (State.load8_store8_ne s lo hp)⟩

/-- A word stored lies low byte first at its address and the next one, and every other byte stays (R80, R83). -/
theorem PlainMemory.load8_store16 {s : State} (h : PlainMemory s) (a : Phys) (v : Word) :
    (s.store16 a v).load8 a = loByte v ∧ (s.store16 a v).load8 (a + 1) = hiByte v ∧
      ∀ p, p ≠ a → p ≠ a + 1 → (s.store16 a v).load8 p = s.load8 p := h.load8_storeTwo (State.succ_ne a) _ _

theorem load8_poke16_lo {s : State} (x : SReg) (o v : Word) (h : PlainMemory s) :
    peek8 (poke16 s x o v) x o = loByte v := by
  rw [← loByte_wordOf (peek8 (poke16 s x o v) x o) (peek8 (poke16 s x o v) x (o + 1))]
  exact congrArg loByte (peek16_poke16 s x o v h)

theorem load8_poke16_hi {s : State} (x : SReg) (o v : Word) (h : PlainMemory s) :
    peek8 (poke16 s x o v) x (o + 1) = hiByte v := by
  rw [← hiByte_wordOf (peek8 (poke16 s x o v) x o) (peek8 (poke16 s x o v) x (o + 1))]
  exact congrArg hiByte (peek16_poke16 s x o v h)

/-- A byte of memory that other masters write, too, reads as theirs or as the last one stored (R151, R160). -/
theorem State.load8_store8_shared {s : State} {a : Phys} (v : Byte) (hc : MemoryCanonical s) (hk : s.memKind a = .shared) :
    (s.store8 a v).load8 a = (Config.otherWrote s.bus.step s.bus.gap a.toNat).getD v := by
  have hkeep : (s.memKind a).keeps = true := by rw [hk]; rfl
  rw [State.load8_shared (s := s.store8 a v) hk, State.store8_mem, if_pos hkeep, Memory.read_write _ _ _ _ hc, if_pos rfl]
  rfl

/-- Settles O51: what a read finds after a store, for each kind of memory. -/
theorem wordsAreStoredLowByteFirst : Obligations.WordsAreStoredLowByteFirst := by
  refine ⟨fun s a v h => ?_, fun s x o v h => ?_, fun s a p v hk => ?_, fun s a => State.load8_absent, fun s a v hc hk => ?_,
    fun s a => State.load8_device⟩
  · obtain ⟨hlo, hhi, hrest⟩ := h.load8_store16 a v
    refine ⟨by rw [hlo, loByte_toNat], by rw [hhi, hiByte_toNat], ?_, hrest⟩
    rw [State.load16, hlo, hhi, wordOf_loByte_hiByte]
  · exact ⟨by rw [load8_poke16_lo x o v h, loByte_toNat], by rw [load8_poke16_hi x o v h, hiByte_toNat],
      peek16_poke16 s x o v h, fun p hp => load8_poke s .word x o v hp⟩
  · have hkeep : (s.memKind a).keeps = false := by rcases hk with hk | hk | hk <;> rw [hk] <;> rfl
    exact State.load8_store8_notKept s v hkeep p
  · exact ⟨State.load8_store8_shared v hc hk, fun p hp => State.load8_store8_ne s v hp⟩

/-! ### The checks of an access -/

/-- The exception of an access that is refused (20_memory.md R113 to R117). -/
def refusedAccess (s : State) (x : SReg) (a : Access) : Stop :=
  .exc { vector := faultVector s x a, code := some 0, ext := false, isInt := false }

/-- The exception of an access outside the segment is that of its limit check. -/
theorem limitStop_eq_refusedAccess {s : State} {x : SReg} {a : Access} (hv : s.msw.pe = true → (s.seg x).valid = true)
    (ht : s.msw.pe = true → typeOk (s.seg x).ar a = true) : limitStop s x = refusedAccess s x a := by
  cases hp : s.msw.pe
  · simp [limitStop, refusedAccess, faultVector, hp, protection, Event.exn]
  · by_cases hx : x = .ss
    · subst hx
      simp [limitStop, refusedAccess, faultVector, hp, hv hp, ht hp, stackFault, Event.exn]
    · simp [limitStop, refusedAccess, faultVector, hp, hx, protection, Event.exn]

/-- A segment that is not valid, or whose rights do not permit the access, raises #GP(0). -/
theorem protection_eq_refusedAccess {s : State} {x : SReg} {a : Access}
    (h : (s.seg x).valid = false ∨ typeOk (s.seg x).ar a = false) : protection 0 = refusedAccess s x a := by
  have hv : ¬ (s.msw.pe = true ∧ x = .ss ∧ (s.seg x).valid = true ∧ typeOk (s.seg x).ar a = true) := by
    rintro ⟨-, -, hv, ht⟩
    rcases h with h | h
    · exact absurd (hv.symm.trans h) (by decide)
    · exact absurd (ht.symm.trans h) (by decide)
  rw [refusedAccess, faultVector, if_neg hv]
  rfl

/-- The first check that fails decides the exception: the segment's validity, its rights, its limit (R113 to R117). -/
theorem memCheck_refused {s : State} {x : SReg} {off n : Nat} {a : Access} (h : ¬ Accessible s x off n a) :
    memCheck s x off n a = .error (refusedAccess s x a) := by
  rw [← memCheck_ok_iff] at h
  unfold memCheck at h ⊢
  cases hp : s.msw.pe <;> simp only [hp, if_true, Bool.false_eq_true, if_false] at h ⊢
  · have real : ¬ s.msw.pe = true := by simp [hp]
    rw [need_error _ (by simpa using h), limitStop_eq_refusedAccess (absurd · real) (absurd · real)]
  cases hv : (s.seg x).valid
  · rw [← protection_eq_refusedAccess (.inl hv)]
    rfl
  cases ht : typeOk (s.seg x).ar a
  · rw [← protection_eq_refusedAccess (.inr ht)]
    rfl
  rw [← limitStop_eq_refusedAccess (fun _ => hv) (fun _ => ht)]
  simp only [hv, ht, need_true, ok_bind', need_eq_ok, Bool.not_eq_true] at h ⊢
  exact need_error _ h

/-- Settles O52: what passes, and what the first failing check raises. -/
theorem accessChecksFollowSegmentRules : Obligations.AccessChecksFollowSegmentRules :=
  fun _ _ _ _ _ => ⟨memCheck_ok, memCheck_refused⟩

/-! ### Effective and physical addresses -/

theorem eaBase_toNat (s : State) (b : EaBase) : (eaBase s b).toNat = baseSum s b % 65536 := by
  cases b with
  | bxsi | bxdi | bpsi | bpdi => exact BitVec.toNat_add ..
  | si | di | bp | bx => exact (Nat.mod_eq_of_lt (BitVec.isLt _)).symm

theorem sextByte_toNat (d : Byte) : (sextByte d).toNat = if d.toNat < 128 then d.toNat else d.toNat + 65280 := by
  have hd := d.isLt
  rw [sextByte, BitVec.toNat_signExtend, BitVec.msb_eq_decide, BitVec.toNat_setWidth]
  split <;> split <;> simp_all <;> omega

theorem baseSeg_eq (b : EaBase) : baseSeg b = baseSegment b := by cases b <;> rfl

/-- Settles O54: the sums modulo 64K, then the physical address by `segAddr_toNat`, whose second case a sum below 1M and
protected mode exclude. -/
theorem operandAddresses : Obligations.OperandAddresses := by
  refine ⟨fun s b d e => ⟨eaBase_toNat s b, ?_, ?_, rfl⟩, fun s b d e h => ?_, fun s a g h => ?_, fun s x o hp => ?_,
    fun s x o hp hlt => ?_⟩
  · rw [ea, BitVec.toNat_add, eaBase_toNat, sextByte_toNat]
    exact Nat.mod_add_mod ..
  · rw [ea, BitVec.toNat_add, eaBase_toNat]
    exact Nat.mod_add_mod ..
  · simp [opSeg, overridden, h, defaultSeg, baseSeg_eq]
  · simp [opSeg, overridden, h]
  · rcases segAddr_toNat s x o with h | ⟨hr, -⟩
    · exact h
    · exact absurd (hp.symm.trans hr) (by decide)
  · rcases segAddr_toNat s x o with h | ⟨-, -, hge, -⟩
    · rw [h]
      exact Nat.mod_eq_of_lt (by omega)
    · omega

/-! ### Descriptors -/

/-- Where the table that a selector names begins and ends (20_memory.md R120, R127). -/
def tableBase (s : State) (sel : Word) : Phys := if selLocal sel then s.ldtr.base else s.gdtr.base

/-- The last offset of that table. -/
def tableLimit (s : State) (sel : Word) : Word := if selLocal sel then s.ldtr.limit else s.gdtr.limit

/-- The selector names a descriptor inside its table: the LDT must be valid (R127, R128). -/
def InTable (s : State) (sel : Word) : Prop :=
  (selLocal sel = true → s.ldtr.valid = true) ∧ sel.toNat / 8 * 8 + 7 ≤ (tableLimit s sel).toNat

/-- Where the descriptor of a selector lies (R121). -/
def descriptorAddress (s : State) (sel : Word) : Phys := tableBase s sel + (sel &&& 0xFFF8).setWidth 24

theorem inTable_iff (s : State) (sel : Word) :
    ((!selLocal sel || s.ldtr.valid) && decide ((sel &&& 0xFFF8).toNat + 7 ≤ (tableLimit s sel).toNat)) = true ↔
      InTable s sel := by
  rw [InTable, selectorOffset_toNat, Bool.and_eq_true, decide_eq_true_eq]
  cases selLocal sel <;> simp

theorem fetchDescriptor_inTable {s : State} {sel : Word} (h : InTable s sel) :
    fetchDescriptor s sel = some (descriptorAddress s sel, descAt s (descriptorAddress s sel)) :=
  if_pos ((inTable_iff s sel).2 h)

theorem fetchDescriptor_notInTable {s : State} {sel : Word} (h : ¬ InTable s sel) : fetchDescriptor s sel = none :=
  if_neg fun hb => h ((inTable_iff s sel).1 hb)

theorem fetchDescriptor_ne_none_iff (s : State) (sel : Word) : fetchDescriptor s sel ≠ none ↔ InTable s sel := by
  by_cases h : InTable s sel
  · simp [h, fetchDescriptor_inTable]
  · simp [h, fetchDescriptor_notInTable]

/-- What a fetch gives is the descriptor that lies at the selector's address. -/
theorem fetchDescriptor_eq_some {s : State} {sel : Word} {a : Phys} {d : Desc} (h : fetchDescriptor s sel = some (a, d)) :
    a = descriptorAddress s sel ∧ d = descAt s a := by
  rw [fetchDescriptor_inTable ((fetchDescriptor_ne_none_iff s sel).1 (by simp [h]))] at h
  cases h
  exact ⟨rfl, rfl⟩

theorem descriptorAddress_toNat (s : State) (sel : Word) :
    (descriptorAddress s sel).toNat = ((tableBase s sel).toNat + sel.toNat / 8 * 8) % 2 ^ 24 := by
  have h := sel.isLt
  rw [descriptorAddress, BitVec.toNat_add, BitVec.toNat_setWidth, selectorOffset_toNat,
    Nat.mod_eq_of_lt (a := sel.toNat / 8 * 8) (by omega)]

/-- The fields of a descriptor by its bytes (R121). -/
theorem descAt_fields (s : State) (a : Phys) :
    (descAt s a).limit.toNat = (s.load8 a).toNat + (s.load8 (a + 1)).toNat * 256 ∧
      (descAt s a).base.toNat =
        (s.load8 (a + 2)).toNat + (s.load8 (a + 3)).toNat * 256 + (s.load8 (a + 4)).toNat * 65536 ∧
      (descAt s a).ar = s.load8 (a + 5) := by
  have h3 : a + 2 + 1 = a + 3 := BitVec.add_assoc ..
  have h5 : a + 4 + 1 = a + 5 := BitVec.add_assoc ..
  refine ⟨s.load16_toNat a, ?_, ?_⟩
  · rw [Desc.base, append_toNat, descAt]
    simp only [State.load16_toNat, h3]
    rw [State.load16, loByte_wordOf]
    rfl
  · rw [Desc.ar, descAt, ← h5]
    exact hiByte_wordOf ..

/-- Settles O55: which selectors name a descriptor, then where it lies and its fields in numbers. -/
theorem descriptorsComeFromTheirTables : Obligations.DescriptorsComeFromTheirTables := by
  refine fun s sel => ⟨(fetchDescriptor_ne_none_iff s sel).symm, fun a d h => ?_⟩
  obtain ⟨rfl, rfl⟩ := fetchDescriptor_eq_some h
  exact ⟨descriptorAddress_toNat s sel, descAt_fields s _⟩

/-! ### The other agents on the bus -/

theorem beginStep_eq_latched (s : State) : beginStep s = Latched s := rfl

theorem PlainMemory.latched {s : State} (h : PlainMemory s) : PlainMemory (Latched s) := h.congr rfl rfl

theorem PlainMemory.load8_latched {s : State} (h : PlainMemory s) (p : Phys) : (Latched s).load8 p = s.load8 p :=
  h.steady.load8_congr (t := Latched s) rfl rfl p

theorem masterAccess_none {s : State} (h : s.pins.busWrite = none) : masterAccess s = s := by simp [masterAccess, h]

/-- What another master writes lands in memory, low byte first (20_memory.md R162). -/
theorem load8_masterAccess {s : State} {b : BusWrite} (hp : PlainMemory s) (h : s.pins.busWrite = some b) :
    (masterAccess s).load8 b.addr = loByte b.value ∧
      (b.width = .word → (masterAccess s).load8 (b.addr + 1) = hiByte b.value) ∧
      ∀ p, p ≠ b.addr → (b.width = .word → p ≠ b.addr + 1) → (masterAccess s).load8 p = s.load8 p := by
  cases hw : b.width with
  | byte =>
    rw [show masterAccess s = s.store8 b.addr (loByte b.value) by simp [masterAccess, h, hw]]
    exact ⟨State.load8_store8_ram s _ hp.1 (hp.2.memKind _), by rintro ⟨⟩, fun p hne _ => State.load8_store8_ne s _ hne⟩
  | word =>
    rw [show masterAccess s = s.store16 b.addr b.value by simp [masterAccess, h, hw]]
    obtain ⟨hlo, hhi, hrest⟩ := hp.load8_store16 b.addr b.value
    exact ⟨hlo, fun _ => hhi, fun p hne hne' => hrest p hne (hne' rfl)⟩

/-- Two offsets of one segment have two addresses. -/
theorem physAddr_inj {pe : Bool} {g : SegReg} {o p : Word} (h : physAddr pe g o = physAddr pe g p) : o = p :=
  segAddr_inj { State.reset with msw := { State.reset.msw with pe := pe }, ds := g } .ds h

theorem ExtOperand.addr_one_ne (o : ExtOperand) : o.addr 1 ≠ o.addr 0 := by
  intro h
  have h' := congrArg BitVec.toNat (physAddr_inj h)
  simp only [BitVec.toNat_ofNat] at h'
  omega

/-- While PEREQ is active a step is the transfer of the operand's next word. -/
theorem step_transfer {s : State} {o : ExtOperand} (hr : s.pins.reset = false) (hh : s.pins.hold = false)
    (hq : s.pins.pereq = true) (ho : s.ext = some o) : step s = .next (extTransfer (Latched s) o) := by
  simp [step, hr, hh, transferDue, hq, ho, beginStep_eq_latched]

/-- A transfer from the extension records the word and stores it (20_memory.md R170). -/
theorem extTransfer_in {s : State} {o : ExtOperand} (h : o.fits = true) (hw : o.write = true) :
    extTransfer s o = { transferIn s o with ext := some { o with off := o.off + 2 } } := by simp [extTransfer, h, hw]

theorem extTransfer_registers (s : State) (o : ExtOperand) :
    (extTransfer s o).flags = s.flags ∧ (extTransfer s o).regs = s.regs ∧ (extTransfer s o).ip = s.ip := by
  cases hf : o.fits
  · rw [extTransfer_over hf]
    exact ⟨rfl, rfl, rfl⟩
  cases hw : o.write
  · rw [extTransfer_out hf hw]
    exact ⟨rfl, rfl, rfl⟩
  · rw [extTransfer_in hf hw]
    exact ⟨rfl, rfl, rfl⟩

/-- What a transfer from the extension leaves in memory. -/
theorem load8_extTransfer_in {s : State} {o : ExtOperand} (hp : PlainMemory s) (h : o.fits = true) (hw : o.write = true) :
    let v := Config.ioIn s.io.length 0x00FA
    (extTransfer s o).load8 (o.addr 0) = loByte v ∧ (extTransfer s o).load8 (o.addr 1) = hiByte v ∧
      ∀ p, p ≠ o.addr 0 → p ≠ o.addr 1 → (extTransfer s o).load8 p = s.load8 p := by
  have hread (p : Phys) : (extTransfer s o).load8 p = ((s.store8 (o.addr 0) (loByte (Config.ioIn s.io.length 0x00FA))).store8
      (o.addr 1) (hiByte (Config.ioIn s.io.length 0x00FA))).load8 p := by
    rw [extTransfer_in h hw]
    exact State.load8_congr rfl rfl rfl p
  simp only [hread]
  exact hp.load8_storeTwo o.addr_one_ne _ _

/-- Settles O59: with HOLD a step is the other master's access, with PEREQ the extension's transfer. -/
theorem otherBusAgentsAccessMemory : Obligations.OtherBusAgentsAccessMemory := by
  refine ⟨fun s hr hh => ?_, fun s o hr hh hq ho => ?_⟩
  · refine ⟨_, step_hold hr hh, masterAccess_flags _, masterAccess_regs _, masterAccess_ip _, .masterAccess _, fun hb => ?_,
      fun b hb hp => ?_⟩
    · rw [masterAccess_none (s := beginStep s) hb]
      exact fun _ => rfl
    · obtain ⟨hlo, hhi, hrest⟩ := load8_masterAccess hp.latched hb
      exact ⟨by rw [beginStep_eq_latched, hlo, loByte_toNat], fun hw => by rw [beginStep_eq_latched, hhi hw, hiByte_toNat],
        fun p hne hne' => (hrest p hne hne').trans (hp.load8_latched p)⟩
  · obtain ⟨hflags, hregs, hip⟩ := extTransfer_registers (Latched s) o
    refine ⟨_, step_transfer hr hh hq ho, hflags, hregs, hip, .extTransfer _ o, fun hf => ?_, fun hf => ?_⟩
    · rw [← o.fits_iff, Bool.not_eq_true] at hf
      rw [extTransfer_over hf]
      exact ⟨rfl, rfl, rfl, State.load8_congr rfl rfl rfl⟩
    have hf' := o.fits_iff.2 hf
    rcases Bool.eq_false_or_eq_true o.write with hw | hw
    · have hin := extTransfer_in (s := Latched s) hf' hw
      refine ⟨by rw [hin]; rfl, by rw [hin], ⟨false, 0x00FA, .word, Config.ioIn s.io.length 0x00FA⟩, by rw [hin]; rfl, rfl, rfl,
        fun h => absurd (hw.symm.trans h) (by decide), fun _ => ⟨rfl, fun hp => ?_⟩⟩
      obtain ⟨hlo, hhi, hrest⟩ := load8_extTransfer_in hp.latched hf' hw
      exact ⟨(congrArg BitVec.toNat hlo).trans (loByte_toNat _), (congrArg BitVec.toNat hhi).trans (hiByte_toNat _),
        fun p hne hne' => (hrest p hne hne').trans (hp.load8_latched p)⟩
    · rw [extTransfer_out hf' hw]
      refine ⟨rfl, rfl, _, rfl, rfl, rfl, fun _ => ⟨rfl, ?_, State.load8_congr rfl rfl rfl⟩,
        fun h => absurd (hw.symm.trans h) (by decide)⟩
      rw [wordOf_toNat, Nat.mul_comm]
      rfl

end Sys2Proof.Machine
end

section
/-! PROOFS. Loading DS, ES and SS in protected mode (20_memory.md R131 to R133): which exception a load raises, the state it
ends in, and what it leaves. -/

namespace Sys2Proof.Machine

/-! ### What a load raises -/

theorem selCode_false (sel : Word) : selCode sel false = sel &&& 0xFFFC := by simp [selCode, bit]

theorem selNull_eq_false {sel : Word} (h : 4 ≤ sel.toNat) : selNull sel = false := by
  rw [← Bool.not_eq_true, selNull_iff]
  omega

/-- The privilege test of a data segment fails (20_memory.md R132). -/
theorem dataPrivOk_eq_false_iff (s : State) (ar : Byte) (sel : Word) :
    dataPrivOk s ar sel = false ↔
      ¬ (arE ar = true ∧ arC ar = true) ∧ (arDpl ar < s.cpl ∨ arDpl ar < rpl sel) := by
  rw [← Bool.not_eq_true]
  simp only [dataPrivOk, Bool.or_eq_true, Bool.and_eq_true, decide_eq_true_eq, not_or, not_and_or, not_le]

section
variable {s : State} {sel : Word}

/-- A selector whose descriptor fails a check raises the exception of the first check that fails (R132). -/
theorem loadDataSeg_fault (hs : Steady s) (g : ReadGroup) (x : SReg) (hp : s.msw.pe = true) (hn : 4 ≤ sel.toNat) {n : Byte}
    {c : Word} (h : dataLoadFault s sel = some (n, c)) : loadDataSeg s g x sel = .error (.exc (.exn n (some c))) := by
  simp only [loadDataSeg, hp, selNull_eq_false hn, needDescriptor, hs.fetchDescriptor_later, selCode_false, Bool.not_true,
    Bool.false_eq_true, if_false]
  unfold dataLoadFault at h
  split at h
  · next hf =>
    cases h
    rw [hf]
    rfl
  next a d hf =>
  rw [hf, ok_bind']
  split at h
  · next hr =>
    cases h
    rw [need_error _ hr]
    rfl
  next hr =>
  rw [need_ok _ (by simpa using hr), ok_bind']
  split at h
  · next hd =>
    cases h
    rw [need_error _ ((dataPrivOk_eq_false_iff ..).2 hd)]
    rfl
  next hd =>
  rw [need_ok _ (Bool.eq_true_of_not_eq_false fun hf => hd ((dataPrivOk_eq_false_iff ..).1 hf)), ok_bind']
  split at h
  · next hP =>
    cases h
    rw [need_error _ hP]
    rfl
  · cases h

/-- With every check passed the register takes the descriptor (R132). -/
theorem loadDataSeg_passed (hs : Steady s) (g : ReadGroup) (x : SReg) (hp : s.msw.pe = true) (hn : 4 ≤ sel.toNat)
    {p : Phys × Desc} (hf : fetchDescriptor s sel = some p) (h : dataLoadFault s sel = none) :
    loadDataSeg s g x sel = .ok (loadCache s x sel p) := by
  simp only [dataLoadFault, hf] at h
  split at h
  · cases h
  next hr =>
  split at h
  · cases h
  next hd =>
  split at h
  · cases h
  next hP =>
  exact loadDataSeg_ok g x hp (selNull_eq_false hn) ((hs.fetchDescriptor_later g sel).trans hf) (by simpa using hr)
    (Bool.eq_true_of_not_eq_false fun h => hd ((dataPrivOk_eq_false_iff ..).1 h)) (by simpa using hP)

/-- The same for SS (R133). -/
theorem loadStackSeg_fault (hs : Steady s) (g : ReadGroup) (hp : s.msw.pe = true) {n : Byte} {c : Word}
    (h : stackLoadFault s sel = some (n, c)) : loadStackSeg s g sel = .error (.exc (.exn n (some c))) := by
  simp only [loadStackSeg, hp, needDescriptor, hs.fetchDescriptor_later, selCode_false, Bool.not_true, Bool.false_eq_true,
    if_false]
  unfold stackLoadFault at h
  split at h
  · next hn =>
    cases h
    rw [(selNull_iff sel).2 hn]
    rfl
  next hn =>
  rw [selNull_eq_false (by omega), Bool.not_false, need_true, ok_bind']
  split at h
  · next hf =>
    cases h
    rw [hf]
    rfl
  next a d hf =>
  rw [hf, ok_bind']
  split at h
  · next hbad =>
    cases h
    by_cases hr : rpl sel = s.cpl
    · rw [need_ok _ (by simpa using hr), ok_bind']
      cases hw : arWritable d.ar
      · rfl
      · have hd : arDpl d.ar ≠ s.cpl := by simpa [hr, hw] using hbad
        rw [need_true, ok_bind', need_error _ (by simpa using hd)]
        rfl
    · rw [need_error _ (by simpa using hr)]
      rfl
  next hgood =>
  obtain ⟨hr, hd, hw⟩ : rpl sel = s.cpl ∧ arDpl d.ar = s.cpl ∧ arWritable d.ar = true := by simpa using hgood
  split at h
  · next hP =>
    cases h
    simp [hr, hd, hw, hP, stackFault]
  · cases h

theorem loadStackSeg_passed (hs : Steady s) (g : ReadGroup) (hp : s.msw.pe = true) {p : Phys × Desc}
    (hf : fetchDescriptor s sel = some p) (h : stackLoadFault s sel = none) :
    loadStackSeg s g sel = .ok (loadCache s .ss sel p) := by
  simp only [stackLoadFault, hf] at h
  split at h
  · cases h
  next hn =>
  split at h
  · cases h
  next hgood =>
  obtain ⟨hr, hd, hw⟩ : rpl sel = s.cpl ∧ arDpl p.2.ar = s.cpl ∧ arWritable p.2.ar = true := by simpa using hgood
  split at h
  · cases h
  next hP =>
  exact loadStackSeg_ok g hp (selNull_eq_false (by omega)) ((hs.fetchDescriptor_later g sel).trans hf) hr hw hd
    (by simpa using hP)

end

/-! ### What a load changes and what it leaves -/

/-- A state in which the segment register `x` alone has been loaded: a load of SS inhibits interrupts for one instruction. -/
structure OnlySegLoaded (s u : State) (x : SReg) : Prop where
  regs : u.regs = s.regs
  flags : u.flags = s.flags
  ip : u.ip = s.ip
  inhibit : u.inhibitInt = (s.inhibitInt || decide (x = .ss))
  rest : SameButSeg s u x

theorem SameButSeg.of_setSeg {s u : State} (h : SameSystem s u) (x : SReg) (g : SegReg) (b : Bool) :
    SameButSeg s { u.setSeg x g with inhibitInt := b } x := by
  cases h
  cases x <;> constructor <;> first | rfl | assumption

theorem SameButSeg.setW {s u : State} {x : SReg} (h : SameButSeg s u x) (r : RegNum) (v : Word) :
    SameButSeg s (u.setW r v) x := by
  unfold SameButSeg
  rw [(SameSystem.setW u r v).seg x, State.setW_inhibitInt]
  exact SameSystem.trans h (.setW u r v)

theorem SameSystem.setAccessed (s : State) (a : Phys) (d : Desc) : SameSystem s (setAccessed s a d) := by
  constructor <;> simp

/-- The state after MOV or POP has loaded a segment register in protected mode, but for SP. -/
def State.loadProt (s : State) (x : SReg) (sel : Word) (p : Phys × Desc) : State :=
  { loadCache s x sel p with inhibitInt := s.inhibitInt || decide (x = .ss) }

theorem loadProt_eq_loadCache {s : State} {x : SReg} {sel : Word} {p : Phys × Desc} (hx : x ≠ .ss) :
    s.loadProt x sel p = loadCache s x sel p := by
  cases x with
  | ss => exact absurd rfl hx
  | es | cs | ds => simp [State.loadProt, loadCache, State.setSeg]

/-- The state after DS or ES has been loaded with a null selector (20_memory.md R131). -/
def State.loadNull (s : State) (x : SReg) (sel : Word) : State := s.setSeg x { s.seg x with sel := sel, valid := false }

theorem onlySegLoaded_loadProt (s : State) (x : SReg) (sel : Word) (p : Phys × Desc) :
    OnlySegLoaded s (s.loadProt x sel p) x where
  regs := by simp [State.loadProt, loadCache]
  flags := by simp [State.loadProt, loadCache]
  ip := by simp [State.loadProt, loadCache]
  inhibit := rfl
  rest := .of_setSeg (.setAccessed ..) x _ _

theorem onlySegLoaded_loadNull (s : State) {x : SReg} (sel : Word) (hx : x ≠ .ss) : OnlySegLoaded s (s.loadNull x sel) x where
  regs := by simp [State.loadNull]
  flags := by simp [State.loadNull]
  ip := by simp [State.loadNull]
  inhibit := by simp [State.loadNull, hx]
  rest := by
    have h := SameButSeg.of_setSeg (.refl s) x { s.seg x with sel := sel, valid := false } s.inhibitInt
    cases x <;> exact h

/-- The cache holds the descriptor, and its accessed bit is set in memory, whatever register is written behind the load. -/
theorem loadedFrom_loadProt {s : State} (hm : PlainMemory s) (x : SReg) (sel : Word) (a : Phys) (r : RegNum) (v : Word) :
    LoadedFrom s ((s.loadProt x sel (a, descAt s a)).setW r v) x sel a (descAt s a) := by
  have hseg : ((s.loadProt x sel (a, descAt s a)).setW r v).seg x = (descAt s a).cache sel := by
    rw [(SameSystem.setW ..).seg]
    exact (State.seg_congr rfl rfl rfl rfl x).trans (loadCache_seg ..)
  have hread (p : Phys) : ((s.loadProt x sel (a, descAt s a)).setW r v).load8 p = (setAccessed s a (descAt s a)).load8 p :=
    (State.load8_congr (by simp [State.loadProt]) (by simp [State.loadProt]) (by simp [State.loadProt]) p).trans
      (loadCache_load8 s x sel (a, descAt s a) p)
  obtain ⟨hset, hrest⟩ := load8_setAccessed s a hm
  exact ⟨hseg, (hread _).trans hset, fun p hp => (hread p).trans (hrest p hp)⟩

theorem loadNull_setW (s : State) (x : SReg) (sel : Word) (r : RegNum) (v : Word) :
    ((s.loadNull x sel).setW r v).seg x = { s.seg x with sel := sel, valid := false } ∧
      SameMemory s ((s.loadNull x sel).setW r v) :=
  ⟨((SameSystem.setW ..).seg x).trans (State.seg_setSeg ..),
    State.load8_congr (by simp [State.loadNull]) (by simp [State.loadNull]) (by simp [State.loadNull])⟩

/-! ### MOV and POP -/

/-- What the checks of a load raise, for SS and for the others. -/
def loadFault (s : State) (x : SReg) (sel : Word) : Option (Byte × Word) :=
  if x = .ss then stackLoadFault s sel else dataLoadFault s sel

section
variable {s : State} {x : SReg} {sel : Word}

theorem loadSreg_null (d : ReadGroup) (hx : x ≠ .cs) (hss : x ≠ .ss) (hp : s.msw.pe = true) (hn : sel.toNat < 4) :
    loadSreg s d x sel = .ok (s.loadNull x sel) := by
  have h (y : SReg) := loadDataSeg_null (s := s) d y hp ((selNull_iff sel).2 hn)
  cases x with
  | es => exact h .es
  | cs => exact absurd rfl hx
  | ss => exact absurd rfl hss
  | ds => exact h .ds

theorem loadSreg_fault (d : ReadGroup) (hs : Steady s) (hx : x ≠ .cs) (hp : s.msw.pe = true) (hn : x = .ss ∨ 4 ≤ sel.toNat)
    {n : Byte} {c : Word} (h : loadFault s x sel = some (n, c)) : loadSreg s d x sel = .error (.exc (.exn n (some c))) := by
  cases x with
  | es => exact loadDataSeg_fault hs d .es hp (hn.resolve_left (by decide)) h
  | cs => exact absurd rfl hx
  | ss => rw [loadSreg, loadStackSeg_fault hs d hp h, error_bind']
  | ds => exact loadDataSeg_fault hs d .ds hp (hn.resolve_left (by decide)) h

theorem loadSreg_passed (d : ReadGroup) (hs : Steady s) (hx : x ≠ .cs) (hp : s.msw.pe = true) (hn : x = .ss ∨ 4 ≤ sel.toNat)
    {p : Phys × Desc} (hf : fetchDescriptor s sel = some p) (h : loadFault s x sel = none) :
    loadSreg s d x sel = .ok (s.loadProt x sel p) := by
  cases x with
  | es =>
    rw [loadProt_eq_loadCache (by decide)]
    exact loadDataSeg_passed hs d .es hp (hn.resolve_left (by decide)) hf h
  | cs => exact absurd rfl hx
  | ss =>
    rw [loadSreg, loadStackSeg_passed hs d hp hf h]
    simp [State.loadProt, pure, Except.pure]
  | ds =>
    rw [loadProt_eq_loadCache (by decide)]
    exact loadDataSeg_passed hs d .ds hp (hn.resolve_left (by decide)) hf h

end

/-- SP after MOV or POP into a segment register. -/
def spAfterLoad (i : Instr) (s : State) : Word := if isPop i then s.regs.sp + 2 else s.regs.sp

theorem setSp_sp {s u : State} (h : u.regs = s.regs) : u.setSp s.regs.sp = u := by
  rw [← h]
  rfl

/-- MOV and POP are a load of a segment register whose selector has been read: a load that answers is followed by the move of
SP, and one that fails raises its exception with nothing changed. -/
theorem exec_segmentSource_load {i : Instr} {x : SReg} {v : State → Word} {Ready : State → Prop} {s : State}
    (hi : segmentSource i = some (x, v, Ready)) (hr : Ready s) :
    x ≠ .cs ∧ ∃ d,
      (∀ u, u.regs = s.regs → loadSreg s d x (v s) = .ok u → exec i s = .next (u.setSp (spAfterLoad i s))) ∧
      ∀ n c, loadSreg s d x (v s) = .error (.exc (.exn n (some c))) → TakesException i s n (some c) := by
  have popped (g : SReg) (hs : CanPopAt s 0) :
      (∀ u, loadSreg s .descriptor g (stackTop s) = .ok u → finish s (popSreg s g) = .next (u.setSp (s.regs.sp + 2))) ∧
      ∀ e, loadSreg s .descriptor g (stackTop s) = .error (.exc e) →
        finish s (popSreg s g) = .next (deliver s e s.cur.ip s.cur.ip) := by
    rw [popSreg, popWord_ok hs, ok_bind', ← stackTop]
    exact ⟨fun u hu => by rw [hu]; rfl, fun e he => by rw [he]; rfl⟩
  unfold segmentSource at hi
  split at hi
  · next g m =>
    split at hi
    · cases hi
    next hg =>
    cases hi
    have moved : exec (.movSregRm x m) s = finish s (loadSreg s s.movDescriptor x (valueOf s .word m)) := by
      rw [exec, execMovSregRm, readRm_ok hr, ok_bind']
    refine ⟨hg, s.movDescriptor, fun u hu h => ?_, fun n c h => ?_⟩
    · rw [moved, h, spAfterLoad, isPop_movSregRm, if_neg Bool.false_ne_true, setSp_sp hu]
      rfl
    · rw [TakesException, moved, h]
      rfl
  · cases hi
    exact ⟨by decide, .descriptor, fun u _ => (popped .es hr).1 u, fun n c => (popped .es hr).2 _⟩
  · cases hi
    exact ⟨by decide, .descriptor, fun u _ => (popped .ss hr).1 u, fun n c => (popped .ss hr).2 _⟩
  · cases hi
    exact ⟨by decide, .descriptor, fun u _ => (popped .ds hr).1 u, fun n c => (popped .ds hr).2 _⟩
  · cases hi

/-! ### LDS and LES -/

theorem loadPointer_eq {s : State} {a : MemOp} (x : SReg) (r : RegNum) (ha : CanReadPair s a) :
    loadPointer s x r a =
      loadDataSeg s .descriptor x (secondWord s a) >>= fun u => pure (u.setW r (firstWord s a)) := by
  rw [loadPointer, readPair_ok ha.1 ha.2, ok_bind', firstWord, secondWord]

theorem exec_loadPointer {i : Instr} {x : SReg} {r : RegNum} {a : MemOp} (h : i = .lds r a ∧ x = .ds ∨ i = .les r a ∧ x = .es)
    (s : State) : x ≠ .ss ∧ exec i s = finish s (loadPointer s x r a) := by
  rcases h with ⟨rfl, rfl⟩ | ⟨rfl, rfl⟩
  · exact ⟨by decide, rfl⟩
  · exact ⟨by decide, rfl⟩

/-- Settles O17: the three outcomes of the load, each followed by the move of SP or the load of the register. -/
theorem protectedModeSegmentLoads : Obligations.ProtectedModeSegmentLoads := by
  refine ⟨fun i x v Ready s hi hp hm hr => ?_, fun i x r a s hi hp hm ha => ?_⟩
  · obtain ⟨hx, d, hanswers, hraises⟩ := exec_segmentSource_load hi hr
    have moved {u : State} (hu : OnlySegLoaded s u x) :
        let t := u.setSp (spAfterLoad i s)
        t.flags = s.flags ∧ SameButSeg s t x ∧ t.inhibitInt = (s.inhibitInt || decide (x = .ss)) ∧ t.ip = s.ip ∧
          t.regs = { s.regs with sp := spAfterLoad i s } :=
      ⟨hu.flags, hu.rest.setW .r4 _, hu.inhibit, hu.ip, by rw [State.setSp_regs, hu.regs]⟩
    refine ⟨fun hss hn => ?_, fun hn n c hf => ?_, fun hn hf a' d' hd => ?_⟩
    · have hu := onlySegLoaded_loadNull s (v s) hss
      obtain ⟨hseg, hmem⟩ := loadNull_setW s x (v s) .r4 (spAfterLoad i s)
      exact ⟨_, hanswers _ hu.regs (loadSreg_null d hx hss hp hn), hseg, hmem, moved hu⟩
    · exact hraises n c (loadSreg_fault d hm.steady hx hp hn hf)
    · obtain ⟨-, rfl⟩ := fetchDescriptor_eq_some hd
      have hu := onlySegLoaded_loadProt s x (v s) (a', descAt s a')
      exact ⟨_, hanswers _ hu.regs (loadSreg_passed d hm.steady hx hp hn hd hf), loadedFrom_loadProt hm x _ a' .r4 _, moved hu⟩
  · obtain ⟨hx, hexec⟩ := exec_loadPointer hi s
    rw [loadPointer_eq x r ha] at hexec
    have moved {u : State} (hu : OnlySegLoaded s u x) :
        let t := u.setW r (firstWord s a)
        t.getW r = firstWord s a ∧ t.flags = s.flags ∧ SameButSeg s t x ∧ t.inhibitInt = s.inhibitInt ∧ t.ip = s.ip ∧
          RegsBut s t [r] :=
      ⟨State.getW_setW .., by simp [hu.flags], hu.rest.setW r _, by simp [hu.inhibit, hx], by simp [hu.ip], fun q hq => by
        rw [State.getW_setW_ne _ _ (by simpa using hq)]
        exact State.getW_congr hu.regs q⟩
    refine ⟨fun hn => ?_, fun hn n c hf => ?_, fun hn hf a' d' hd => ?_⟩
    · rw [loadDataSeg_null _ x hp ((selNull_iff _).2 hn)] at hexec
      obtain ⟨hseg, hmem⟩ := loadNull_setW s x (secondWord s a) r (firstWord s a)
      exact ⟨_, hexec, hseg, hmem, moved (onlySegLoaded_loadNull s _ hx)⟩
    · rw [loadDataSeg_fault hm.steady _ x hp hn hf] at hexec
      exact hexec
    · obtain ⟨-, rfl⟩ := fetchDescriptor_eq_some hd
      rw [loadDataSeg_passed hm.steady _ x hp hn hd hf, ← loadProt_eq_loadCache hx] at hexec
      exact ⟨_, hexec, loadedFrom_loadProt hm x _ a' r _, moved (onlySegLoaded_loadProt ..)⟩

end Sys2Proof.Machine
end

section
/-! PROOFS. The accesses of an instruction in their order: the first that is refused ends it with its exception (20_memory.md
R110, R111, R117). -/

namespace Sys2Proof.Machine

/-! ### Making tests in their order -/

/-- The computation makes the tests in their order: an access refused ends it with its exception, and once all have passed
`P` holds of it. A condition that fails says nothing more. -/
def TestsThen {α : Type} (s : State) (P : M α → Prop) : List OperandCheck → M α → Prop
  | [], r => P r
  | .condition p :: l, r => p → TestsThen s P l r
  | .access x off n a :: l, r =>
    (Accessible s x off n a → TestsThen s P l r) ∧ (¬ Accessible s x off n a → r = .error (refusedAccess s x a))

/-- The computation is nothing but the tests `l`: when they pass it answers `v`. -/
abbrev Tests {α : Type} (s : State) (l : List OperandCheck) (r : M α) (v : α) : Prop := TestsThen s (· = .ok v) l r

/-- The computation begins with the tests `l`. -/
abbrev BeginsWith {α : Type} (s : State) (l : List OperandCheck) (r : M α) : Prop :=
  TestsThen s (fun _ => True) l r

section
variable {α β : Type} {s : State} {P : M α → Prop} {l l' : List OperandCheck} {r : M α} {f : α → M β} {v : α} {u : β}

/-- The first access refused, with all tests before it passed, decides the outcome. -/
theorem TestsThen.refused {x : SReg} {off n : Nat} {a : Access} {before after : List OperandCheck}
    (h : TestsThen s P (before ++ .access x off n a :: after) r) (hb : ∀ c ∈ before, c.Passes s)
    (ha : ¬ Accessible s x off n a) : r = .error (refusedAccess s x a) := by
  induction before with
  | nil => exact h.2 ha
  | cons c before ih =>
    have hc : c.Passes s := hb c List.mem_cons_self
    have hrest : ∀ c ∈ before, c.Passes s := fun c hm => hb c (List.mem_cons_of_mem _ hm)
    cases c with
    | condition p => exact ih (h hc) hrest
    | access y o m b => exact ih (h.1 hc) hrest

/-- What follows a computation that is nothing but tests adds its own tests to them. -/
theorem Tests.andThen {Q : M β → Prop} (h : Tests s l r v) (hf : TestsThen s Q l' (f v)) :
    TestsThen s Q (l ++ l') (r >>= f) := by
  induction l with
  | nil =>
    obtain rfl : r = .ok v := h
    exact hf
  | cons c l ih =>
    cases c with
    | condition p => exact fun hp => ih (h hp)
    | access x off n a => exact ⟨fun ha => ih (h.1 ha), fun hn => by rw [h.2 hn]; rfl⟩

theorem Tests.map (h : Tests s l r v) (hf : f v = .ok u) : Tests s l (r >>= f) u := by
  have hthen := h.andThen (Q := (· = .ok u)) (f := f) (l' := []) hf
  rwa [List.append_nil] at hthen

/-- Whatever follows, the tests stay the first. -/
theorem BeginsWith.bind (h : BeginsWith s l r) : BeginsWith s l (r >>= f) := by
  induction l with
  | nil => trivial
  | cons c l ih =>
    cases c with
    | condition p => exact fun hp => ih (h hp)
    | access x off n a => exact ⟨fun ha => ih (h.1 ha), fun hn => by rw [h.2 hn]; rfl⟩

theorem Tests.bind (h : Tests s l r v) : BeginsWith s l (r >>= f) := by
  have hthen := h.andThen (Q := fun _ => True) (f := f) (l' := []) trivial
  rwa [List.append_nil] at hthen

theorem Tests.beginsWith (h : Tests s l r v) : BeginsWith s l r := by
  have hbind := h.bind (f := pure)
  rwa [bind_pure] at hbind

/-- A requirement that is met leaves the tests to what follows. -/
theorem TestsThen.need {f : Unit → M α} {b : Bool} {e : Stop} (hb : b = true) (h : TestsThen s P l (f ())) :
    TestsThen s P l (Machine.need b e >>= f) := by
  rw [need_ok e hb]
  exact h

/-- Tests depend on the mode and the segment registers alone. -/
theorem TestsThen.congr {t : State} (hst : SameSystem s t) (h : TestsThen t P l r) : TestsThen s P l r := by
  induction l with
  | nil => exact h
  | cons c l ih =>
    cases c with
    | condition p => exact fun hp => ih (h hp)
    | access x off n a =>
      have hfault : refusedAccess t x a = refusedAccess s x a := by
        simp only [refusedAccess, faultVector, hst.msw, hst.seg]
      rw [TestsThen, Accessible.congr hst.msw (hst.seg x), hfault] at h
      exact ⟨fun ha => ih (h.1 ha), h.2⟩
end

/-! ### The tests of the operations -/

theorem memCheck_tests (s : State) (x : SReg) (off n : Nat) (a : Access) :
    Tests s [.access x off n a] (memCheck s x off n a) () := ⟨memCheck_ok, memCheck_refused⟩

theorem memRead_tests (s : State) (w : Width) (x : SReg) (off : Word) :
    Tests s [.access x off.toNat w.bytes .read] (memRead s w x off) (peek s w x off) := (memCheck_tests ..).map rfl

theorem memWrite_tests (s : State) (w : Width) (x : SReg) (off : Word) (v : Val w) :
    Tests s [.access x off.toNat w.bytes .write] (memWrite s w x off v) (poke s w x off v) := (memCheck_tests ..).map rfl

theorem memReadNth_tests (s : State) (x : SReg) (off : Word) (k : Nat) :
    Tests s [.access x (off.toNat + 2 * k) 2 .read] (memReadNth s x off k) (peek16 s x (off + BitVec.ofNat 16 (2 * k))) :=
  (memCheck_tests ..).map rfl

theorem readRm_tests (s : State) (w : Width) (m : RM) :
    Tests s (accessRm s w .read m) (readRm s w m) (valueOf s w m) := by
  cases m with
  | reg r => exact (rfl : readRm s w (.reg r) = .ok (valueOf s w (.reg r)))
  | mem a => exact memRead_tests ..

theorem checkWrite_tests (s : State) (w : Width) (m : RM) :
    Tests s (accessRm s w .write m) (checkWrite s w (place s m)) () := by
  cases m with
  | reg r => exact (rfl : checkWrite s w (place s (.reg r)) = .ok ())
  | mem a => exact memCheck_tests ..

theorem writePlace_tests (s : State) (w : Width) (m : RM) (v : Val w) :
    Tests s (accessRm s w .write m) (writePlace s w (place s m) v) (putPlace s w (place s m) v) :=
  (checkWrite_tests ..).map rfl

theorem modifyRm_beginsWith (s : State) (w : Width) (m : RM) (f : State → Val w → Val w × State) :
    BeginsWith s (accessRm s w .write m) (modifyRm s w m f) := (checkWrite_tests ..).bind

theorem readPair_tests (s : State) (a : MemOp) :
    Tests s (accessWords s a 2 .read) (readPair s a)
      (peek16 s (opSeg s a) (ea s a + BitVec.ofNat 16 0), peek16 s (opSeg s a) (ea s a + BitVec.ofNat 16 2)) :=
  (memReadNth_tests ..).andThen ((memReadNth_tests ..).map rfl)

theorem storeTable_beginsWith (s : State) (a : MemOp) (t : TableReg) :
    BeginsWith s (accessWords s a 3 .write) (storeTable s a t) :=
  (memCheck_tests ..).andThen <| (memCheck_tests ..).andThen (memCheck_tests ..).bind

theorem push_tests (s : State) (v : Word) : Tests s [accessPush s 1] (push s v) (pushRaw s v) :=
  (memWrite_tests s .word .ss (s.regs.sp - 2) v).map rfl

theorem checkPushAt_tests (s : State) (k : Nat) : Tests s [accessPush s k] (checkPushAt s k) () := memCheck_tests ..

theorem checkPush_two_tests (s : State) : Tests s [accessPush s 1, accessPush s 2] (checkPush s 2) () :=
  have first : Tests s [accessPush s 1] (checkPush s 1) () := checkPushAt_tests s 1
  first.andThen (checkPushAt_tests s 2)

theorem stackWord_tests (s : State) (k : Word) :
    Tests s [accessPop s k] (stackWord s k) (peek16 s .ss (s.regs.sp + k)) := memRead_tests s .word ..

/-- POPA checks the word at the top of the stack before it pops (40_data_transfer.md R249). -/
theorem checkTop_tests (s : State) : Tests s [accessPop s 0] (memCheck s .ss s.regs.sp.toNat 2 .read) () := by
  have htop : accessPop s 0 = .access .ss s.regs.sp.toNat 2 .read := by simp [accessPop]
  rw [htop]
  exact memCheck_tests ..

theorem popWord_tests (s : State) : Tests s [accessPop s 0] (popWord s) (stackTop s) := (checkTop_tests s).map rfl

theorem setIP_tests (s : State) (t : Word) : Tests s [.condition (TargetOk s t)] (setIP s t) (s.jump t) :=
  fun h => setIP_ok h

theorem needCpl0_tests (s : State) : Tests s [.condition (s.cpl = 0)] (needCpl0 s) () := fun h => need_ok _ (decide_eq_true h)

theorem needProtected_tests (s : State) : Tests s [.condition (s.msw.pe = true)] (needProtected s) () := fun h => need_ok _ h

theorem ioTest_of_allowed {s : State} (h : IoAllowed s) : (!s.msw.pe || decide (s.cpl ≤ s.ioplNum)) = true := by
  cases hp : s.msw.pe
  · rfl
  · exact decide_eq_true (h hp)

theorem loadTable_beginsWith (s : State) (a : MemOp) :
    BeginsWith s (.condition (s.cpl = 0) :: accessWords s a 3 .read) (loadTable s a) :=
  (needCpl0_tests s).andThen <| (memReadNth_tests ..).andThen <| (memReadNth_tests ..).andThen (memReadNth_tests ..).bind

theorem callNear_beginsWith (s : State) (t : Word) :
    BeginsWith s [.condition (TargetOk s t), accessPush s 1] (callNear s t) := (setIP_tests s t).andThen (push_tests ..).bind

theorem callFarTo_beginsWith (s : State) (sel off : Word) :
    BeginsWith s [.condition (s.msw.pe = false), accessPush s 1, accessPush s 2] (callFarTo s sel off) := fun hp => by
  rw [callFarTo, hp]
  exact (checkPush_two_tests s).bind

theorem retFarTo_beginsWith (s : State) (imm : Word) :
    BeginsWith s [.condition (s.msw.pe = false), accessPop s 0, accessPop s 2] (retFarTo s imm) := fun hp => by
  rw [retFarTo, hp]
  exact (stackWord_tests s 0).andThen (stackWord_tests s 2).bind

theorem returnFromInterrupt_beginsWith (s : State) :
    BeginsWith s [.condition (s.msw.pe = false), accessPop s 0, accessPop s 2, accessPop s 4] (returnFromInterrupt s) :=
  fun hp => by
    rw [returnFromInterrupt, hp]
    exact BeginsWith.bind ((stackWord_tests s 0).andThen <| (stackWord_tests s 2).andThen (stackWord_tests s 4).bind)

theorem escCheck_tests (op : BitVec 6) (m : RM) (hp : s.msw.pe = true) :
    Tests s (accessRm s .word (if Config.escWrites op then .write else .read) m) (escCheck s op (place s m)) () := by
  cases m with
  | reg r => exact (rfl : escCheck s op (place s (.reg r)) = .ok ())
  | mem a =>
    rw [place, escCheck, if_pos hp]
    exact memCheck_tests ..

/-- The tests of an iteration, when there is one. -/
theorem stringRun_beginsWith {s : State} {compares : Bool} {prim : M State} {l : List OperandCheck} (hi : Iterates s)
    (h : BeginsWith s l prim) : BeginsWith s l (stringRun s compares prim) := by
  unfold stringRun
  split
  · exact h
  · next k hk =>
    have hcx : s.regs.cx ≠ 0 := hi.resolve_left (by simp [hk])
    rw [if_neg hcx]
    exact h.bind

/-! ### ENTER and its display -/

/-- BP steps down, and the word it then points at is pushed (44_control_transfer.md R390). -/
def displayStep (s : State) : State := pushRaw (s.setW .r5 (s.regs.bp - 2)) (peek16 s .ss (s.regs.bp - 2))

/-- The tests of the copy of `n` words of the display. -/
def displayChecks (s : State) (n : Nat) : List OperandCheck :=
  (List.range n).flatMap fun j => [.access .ss (displayWord s (j + 1)).toNat 2 .read, accessPush s (j + 1)]

theorem SameSystem.displayStep (s : State) : SameSystem s (displayStep s) := (SameSystem.setW ..).trans (.pushRaw ..)

theorem displayStep_bp (s : State) : (displayStep s).regs.bp = s.regs.bp - 2 := by simp [displayStep]; rfl

theorem displayStep_sp (s : State) : (displayStep s).regs.sp = s.regs.sp - 2 := by simp [displayStep]; rfl

/-- Stepping down `i` words, then `j`. -/
theorem sub_twice_add (v : Word) (i j : Nat) :
    v - BitVec.ofNat 16 (2 * i) - BitVec.ofNat 16 (2 * j) = v - BitVec.ofNat 16 (2 * (j + i)) := by
  rw [Nat.mul_add, BitVec.ofNat_add, BitVec.sub_sub, BitVec.add_comm]

/-- After `i` pushes, the `j`-th push to come. -/
theorem accessPush_of_sp {s t : State} {i : Nat} (h : t.regs.sp = s.regs.sp - BitVec.ofNat 16 (2 * i)) (j : Nat) :
    accessPush t j = accessPush s (j + i) := by
  rw [accessPush, accessPush, h, sub_twice_add]

theorem displayWord_displayStep (s : State) (j : Nat) : displayWord (displayStep s) j = displayWord s (j + 1) := by
  rw [displayWord, displayStep_bp, displayWord]
  exact sub_twice_add _ 1 j

theorem displayChecks_succ (s : State) (n : Nat) :
    displayChecks s (n + 1) =
      [.access .ss (displayWord s 1).toNat 2 .read, accessPush s 1] ++ displayChecks (displayStep s) n := by
  have hstep (j : Nat) := accessPush_of_sp (i := 1) (displayStep_sp s) j
  simp only [displayChecks, List.range_succ_eq_map, List.flatMap_cons, List.flatMap_map, displayWord_displayStep, hstep]

theorem copyDisplay_tests (s : State) (n : Nat) : Tests s (displayChecks s n) (copyDisplay s n) (displayStep^[n] s) := by
  induction n generalizing s with
  | zero => exact (rfl : copyDisplay s 0 = .ok s)
  | succ n ih =>
    rw [displayChecks_succ, Function.iterate_succ_apply]
    have read : Tests s [.access .ss (displayWord s 1).toNat 2 .read] _ _ := memRead_tests s .word .ss (s.regs.bp - 2)
    have pushed : Tests s [accessPush s 1] _ (displayStep s) :=
      (push_tests (s.setW .r5 (s.regs.bp - 2)) (peek16 s .ss (s.regs.bp - 2))).congr (.setW ..)
    exact read.andThen (pushed.andThen ((ih (displayStep s)).congr (.displayStep s)))

theorem iterate_displayStep_sp (s : State) (n : Nat) :
    (displayStep^[n] s).regs.sp = s.regs.sp - BitVec.ofNat 16 (2 * n) := by
  induction n generalizing s with
  | zero => simp
  | succ n ih =>
    rw [Function.iterate_succ_apply, ih, displayStep_sp]
    exact sub_twice_add _ 1 n

theorem SameSystem.iterate_displayStep (s : State) (n : Nat) : SameSystem s (Machine.displayStep^[n] s) := by
  induction n generalizing s with
  | zero => exact .refl s
  | succ n ih => exact (SameSystem.displayStep s).trans (ih _)

/-- The tests of ENTER after its first push: those of the display, from the state with BP pushed. -/
theorem displayChecks_pushRaw (s : State) (v : Word) (n : Nat) :
    displayChecks (pushRaw s v) n = (List.range n).flatMap fun j =>
      [.access .ss (displayWord s (j + 1)).toNat 2 .read, accessPush s (j + 2)] := by
  have hbp (j : Nat) : displayWord (pushRaw s v) j = displayWord s j := by rw [displayWord, pushRaw_regs, displayWord]
  have hpush (j : Nat) := accessPush_of_sp (i := 1) (pushRaw_sp s v) j
  simp only [displayChecks, hbp, hpush]

/-- The tests of ENTER at a level above 0, after that of its first push. -/
def frameChecks (s : State) (level : Nat) : List OperandCheck :=
  ((List.range (level - 1)).flatMap fun j => [.access .ss (displayWord s (j + 1)).toNat 2 .read, accessPush s (j + 2)]) ++
    [accessPush s (level + 1)]

/-- After BP the display is copied, and then the new frame's address is pushed. -/
theorem copyDisplay_push_beginsWith {s : State} {level : Nat} (hl : level ≠ 0) (v frame : Word) {f : State → M State} :
    BeginsWith s (frameChecks s level) (copyDisplay (pushRaw s v) (level - 1) >>= fun t => push t frame >>= f) := by
  obtain ⟨n, rfl⟩ := Nat.exists_eq_succ_of_ne_zero hl
  have copied := (copyDisplay_tests (pushRaw s v) n).congr (.pushRaw s v)
  have moved := (SameSystem.pushRaw s v).trans (.iterate_displayStep (pushRaw s v) n)
  have pushed := (push_tests (displayStep^[n] (pushRaw s v)) frame).congr moved
  have hsp : (displayStep^[n] (pushRaw s v)).regs.sp = s.regs.sp - BitVec.ofNat 16 (2 * (n + 1)) := by
    rw [iterate_displayStep_sp, pushRaw_sp]
    exact sub_twice_add _ 1 n
  rw [displayChecks_pushRaw] at copied
  rw [accessPush_of_sp hsp, Nat.add_comm] at pushed
  exact Tests.andThen copied (Tests.bind pushed)

/-! ### Every instruction -/

/-- The instruction's meaning begins with its tests. -/
def MakesItsTests (i : Instr) (s : State) : Prop :=
  ∃ r : M State, exec i s = finish s r ∧ BeginsWith s (operandChecks s i) r

theorem MakesItsTests.of_eq {s : State} {i : Instr} {l : List OperandCheck} {r : M State} (hl : operandChecks s i = l)
    (he : exec i s = finish s r) (h : BeginsWith s l r) : MakesItsTests i s := ⟨r, he, hl ▸ h⟩

/-- An instruction that answers without a test. -/
theorem MakesItsTests.ofNone {s : State} {i : Instr} {r : M State} (hl : operandChecks s i = []) (he : exec i s = finish s r) :
    MakesItsTests i s := .of_eq hl he trivial

theorem enter_makesItsTests (s : State) (v : Word) (l : Byte) : MakesItsTests (.enter v l) s := by
  refine .of_eq (l := [accessPush s 1] ++ if l.toNat % 32 = 0 then [] else frameChecks s (l.toNat % 32)) rfl rfl
    ((push_tests s s.regs.bp).andThen ?_)
  by_cases hl : l.toNat % 32 = 0
  · rw [if_pos hl]
    trivial
  · simp only [if_neg hl]
    exact copyDisplay_push_beginsWith hl ..

theorem exec_makesItsTests (i : Instr) (s : State) : MakesItsTests i s := by
  cases i with
  | addRmReg w m | orRmReg w m | adcRmReg w m | sbbRmReg w m | andRmReg w m | subRmReg w m | xorRmReg w m
  | addRmImm m | orRmImm m | adcRmImm m | sbbRmImm m | andRmImm m | subRmImm m | xorRmImm m
  | addRm8Imm82 m | adcRm8Imm82 m | sbbRm8Imm82 m | subRm8Imm82 m
  | addRmSext m | adcRmSext m | sbbRmSext m | subRmSext m
  | incRm w m | decRm w m | negRm w m | notRm w m | xchgRmReg w m
  | rolImm w m | rolOne w m | rolCl w m | rorImm w m | rorOne w m | rorCl w m
  | rclImm w m | rclOne w m | rclCl w m | rcrImm w m | rcrOne w m | rcrCl w m
  | shlImm w m | shlOne w m | shlCl w m | shrImm w m | shrOne w m | shrCl w m | sarImm w m | sarOne w m | sarCl w m =>
    exact .of_eq (by cases m <;> rfl) rfl (modifyRm_beginsWith ..)
  | addRegRm w r m | orRegRm w r m | adcRegRm w r m | sbbRegRm w r m | andRegRm w r m | subRegRm w r m | xorRegRm w r m
  | cmpRegRm w r m | cmpRmReg w m | cmpRmImm m | cmpRm8Imm82 m | cmpRmSext m | testRmReg w m | testRmImm m
  | mulRm w m | imulRm w m | divRm w m | idivRm w m | imulRegRmImm16 r m | imulRegRmImm8 r m
  | movRegRm w r m | movSregRm g m | jmpRm m =>
    exact .of_eq (by cases m <;> rfl) rfl (readRm_tests ..).bind
  | movRmReg w m | movRmImm m | movRmSreg m => exact .of_eq (by cases m <;> rfl) rfl (writePlace_tests ..).beginsWith
  | smsw m => exact .of_eq (by cases m <;> rfl) rfl (writePlace_tests ..).bind
  | movAccMoffs => exact .of_eq rfl rfl (memRead_tests ..).bind
  | movMoffsAcc => exact .of_eq rfl rfl (memWrite_tests ..).beginsWith
  | xlat => exact .of_eq rfl rfl (memRead_tests s .byte ..).bind
  | leave => exact .of_eq rfl rfl (memRead_tests s .word ..).bind
  | lds | les | bound | jmpFarMem => exact .of_eq rfl rfl (readPair_tests ..).bind
  | callFarMem => exact .of_eq rfl rfl ((readPair_tests ..).andThen (callFarTo_beginsWith s _ _))
  | callFar => exact .of_eq rfl rfl (callFarTo_beginsWith s _ _)
  | callRel => exact .of_eq rfl rfl (callNear_beginsWith s _)
  | callRm => exact .of_eq rfl rfl ((readRm_tests ..).andThen (callNear_beginsWith s _))
  | ret | retImm => exact .of_eq rfl rfl (popWord_tests s).bind
  | retFar | retFarImm => exact .of_eq rfl rfl (retFarTo_beginsWith s _)
  | iret => exact .of_eq rfl rfl (returnFromInterrupt_beginsWith s)
  | lgdt | lidt => exact .of_eq rfl rfl (loadTable_beginsWith s _).bind
  | sgdt | sidt => exact .of_eq rfl rfl (storeTable_beginsWith ..)
  | lmsw => exact .of_eq rfl rfl ((needCpl0_tests s).andThen (readRm_tests ..).bind)
  | lldt | ltr =>
    exact .of_eq rfl rfl (fun ⟨hp, hc⟩ => .need hp <| .need (decide_eq_true hc) (readRm_tests ..).bind)
  | sldt | str => exact .of_eq rfl rfl ((needProtected_tests s).andThen (writePlace_tests ..).beginsWith)
  | lar | lsl | verr | verw => exact .of_eq rfl rfl ((needProtected_tests s).andThen (readRm_tests ..).bind)
  | arpl => exact .of_eq rfl rfl ((needProtected_tests s).andThen (checkWrite_tests ..).bind)
  | esc =>
    exact .of_eq rfl rfl (fun ⟨hem, hts, hp⟩ => .need (by rw [hem, hts]; rfl) (escCheck_tests _ _ hp).bind)
  | popRm => exact .of_eq rfl rfl ((popWord_tests s).andThen (checkWrite_tests ..).bind)
  | popReg | popEs | popSs | popDs | popf => exact .of_eq rfl rfl (popWord_tests s).bind
  | popa => exact .of_eq rfl rfl ((checkTop_tests s).andThen (memCheck_tests ..).bind)
  | pushRm => exact .of_eq rfl rfl ((readRm_tests ..).andThen (push_tests ..).beginsWith)
  | pushReg | pushSreg | pushImm16 | pushImm8 => exact .of_eq rfl rfl (push_tests ..).beginsWith
  | pushf => exact .of_eq rfl rfl (push_tests ..).bind
  | pusha => exact .of_eq rfl rfl ((checkPushAt_tests s 1).andThen (checkPushAt_tests s 8).bind)
  | enter v l => exact enter_makesItsTests s v l
  | movs w =>
    exact .of_eq rfl rfl (fun hi => stringRun_beginsWith hi ((memRead_tests ..).andThen (memWrite_tests ..).bind))
  | cmps w =>
    have second := (memRead_tests (s.later .second) w .es s.regs.di).congr (by constructor <;> rfl)
    exact .of_eq rfl rfl (fun hi => stringRun_beginsWith hi ((memRead_tests ..).andThen (Tests.bind second)))
  | scas w | lods w => exact .of_eq rfl rfl (fun hi => stringRun_beginsWith hi (memRead_tests ..).bind)
  | stos w => exact .of_eq rfl rfl (fun hi => stringRun_beginsWith hi (memWrite_tests ..).bind)
  | ins w =>
    exact .of_eq rfl rfl (fun ⟨hi, hio⟩ =>
      stringRun_beginsWith hi <| .need (ioTest_of_allowed hio) (memCheck_tests ..).bind)
  | outs w =>
    exact .of_eq rfl rfl (fun ⟨hi, hio⟩ =>
      stringRun_beginsWith hi <| .need (ioTest_of_allowed hio) (memRead_tests ..).bind)
  -- no access through a segment: conditions alone, then nothing to test
  | jo | jno | jb | jnb | je | jne | jbe | jnbe | js | jns | jp | jnp | jl | jnl | jle | jnle | jcxz | loop | loope | loopne
  | jmpRel8 | jmpRel16 | jmpFar | inImm | inDx | outImm | outDx | cli | sti | clts | hlt | lockPfx | wait =>
    exact .ofNone rfl rfl
  | incReg | decReg => exact .ofNone (r := modifyRm _ _ (.reg _) _) rfl rfl
  | _ => exact .ofNone (r := .ok _) rfl rfl

/-- Settles O53: the first access refused is among the tests that the instruction's meaning begins with. -/
theorem refusedOperandsLeaveStateUnchanged : Obligations.RefusedOperandsLeaveStateUnchanged := by
  intro i s before after x off n a hl hb ha
  obtain ⟨r, hexec, hr⟩ := exec_makesItsTests i s
  rw [hl] at hr
  rw [TakesException, hexec, hr.refused hb ha]
  rfl

end Sys2Proof.Machine
end

section
/-! PROOFS. The decoder and the encoder undo each other (30_encoding.md R180 to R228). `ReadsInstr` says what a part of the
decoder does with the bytes behind those read so far: one lemma for each part, and from these every row of the opcode map. -/

namespace Sys2Proof.Machine

/-! ### What a part of the decoder does -/

/-- A part of the decoder, behind the bytes `pre` of an instruction: what it answers is well-formed and has been read byte
for byte, and what it finds wrong, other than a lack of bytes, is wrong whatever follows. -/
structure ReadsInstr (pre : List Byte) (d : List Byte → Decoded) : Prop where
  encoded : ∀ bs i rest, d bs = .ok (i, rest) → i.WellFormed ∧ encode i ++ rest = pre ++ bs
  final : ∀ bs more e, d bs = .error e → e ≠ .truncated → d (bs ++ more) = .error e

section
variable {pre : List Byte}

theorem ReadsInstr.ok {i : Instr} (hw : i.WellFormed) (he : encode i = pre) : ReadsInstr pre fun bs => .ok (i, bs) :=
  ⟨by rintro bs _ _ ⟨⟩; exact ⟨hw, by rw [he]⟩, by rintro _ _ _ ⟨⟩⟩

theorem ReadsInstr.error (e : DecodeError) : ReadsInstr pre fun _ => .error e :=
  ⟨by rintro _ _ _ ⟨⟩, by rintro _ _ _ ⟨⟩ _; rfl⟩

theorem ReadsInstr.congr {d d' : List Byte → Decoded} (he : ∀ bs, d' bs = d bs) (h : ReadsInstr pre d) :
    ReadsInstr pre d' := funext he ▸ h

theorem ReadsInstr.withByte {k : Byte → List Byte → Decoded} (h : ∀ v, ReadsInstr (pre ++ [v]) (k v)) :
    ReadsInstr pre fun bs => withByte bs k where
  encoded bs i rest hd := by
    cases bs with
    | nil => cases hd
    | cons v bs => simpa using (h v).encoded bs i rest hd
  final bs more e hd he := by
    cases bs with
    | nil => cases hd; exact absurd rfl he
    | cons v bs => exact (h v).final bs more e hd he

theorem ReadsInstr.withWord {k : Word → List Byte → Decoded} (h : ∀ v, ReadsInstr (pre ++ wordBytes v) (k v)) :
    ReadsInstr pre fun bs => withWord bs k where
  encoded bs i rest hd := by
    match bs with
    | [] | [_] => cases hd
    | lo :: hi :: bs => simpa [wordBytes] using (h (wordOf lo hi)).encoded bs i rest hd
  final bs more e hd he := by
    match bs with
    | [] | [_] => cases hd; exact absurd rfl he
    | lo :: hi :: bs => exact (h (wordOf lo hi)).final bs more e hd he

theorem ReadsInstr.withImm {w : Width} {k : Imm → List Byte → Decoded}
    (h : ∀ v, v.width = w → ReadsInstr (pre ++ v.bytes) (k v)) : ReadsInstr pre fun bs => withImm w bs k := by
  cases w with
  | byte => exact .withByte fun v => h (.b v) rfl
  | word => exact .withWord fun v => h (.w v) rfl

/-- The operand behind a mod-reg-r/m byte (R183, R198). [BP] with no displacement is never read: its number is the direct
offset's. -/
theorem ReadsInstr.withOperand {b : Byte} {k : RM → List Byte → Decoded}
    (h : ∀ m, m.wf = true → ReadsInstr (pre ++ modRM (b.extractLsb' 3 3) m) (k m)) :
    ReadsInstr (pre ++ [b]) fun bs => withOperand (b.extractLsb' 6 2).toNat (b.extractLsb' 0 3) bs k := by
  have hb := modRMByte_fields b
  generalize b.extractLsb' 3 3 = reg at h hb
  generalize b.extractLsb' 0 3 = rm at hb ⊢
  generalize b.extractLsb' 6 2 = mod at hb ⊢
  subst hb
  have hmod : mod = 0 ∨ mod = 1 ∨ mod = 2 ∨ mod = 3 := by revert mod; decide
  obtain rfl | rfl | rfl | rfl := hmod
  · by_cases hrm : rm = 6
    · subst hrm
      refine .congr (d := (Sys2Proof.withWord · fun o => k (.mem (.direct o)))) (fun _ => rfl) (.withWord fun o => ?_)
      rw [List.append_assoc]
      exact h (.mem (.direct o)) rfl
    · have hbase : EaBase.ofBits rm ≠ .bp := fun hbp => hrm (by rw [← EaBase.bits_ofBits rm, hbp]; rfl)
      have hk := h (.mem (.based (EaBase.ofBits rm))) (decide_eq_true hbase)
      rw [modRM, EaBase.bits_ofBits] at hk
      exact .congr (fun _ => if_neg hrm) hk
  · refine .withByte fun d => ?_
    have hk := h (.mem (.disp8 (EaBase.ofBits rm) d)) rfl
    rwa [modRM, EaBase.bits_ofBits, ← List.singleton_append, ← List.append_assoc] at hk
  · refine .congr (d := (Sys2Proof.withWord · fun d => k (.mem (.disp16 (EaBase.ofBits rm) d)))) (fun _ => rfl)
      (.withWord fun d => ?_)
    have hk := h (.mem (.disp16 (EaBase.ofBits rm) d)) rfl
    rwa [modRM, EaBase.bits_ofBits, ← List.singleton_append, ← List.append_assoc] at hk
  · have hk := h (.reg (RegNum.ofBits rm)) rfl
    rwa [modRM, RegNum.bits_ofBits] at hk

/-- The reg field of a mod-reg-r/m byte is one of eight. -/
theorem exists_regNum_bits (reg : BitVec 3) : ∃ r : RegNum, reg = r.bits := ⟨RegNum.ofBits reg, by simp⟩

theorem ReadsInstr.withModRM {k : BitVec 3 → RM → List Byte → Decoded}
    (h : ∀ (r : RegNum) m, m.wf = true → ReadsInstr (pre ++ modRM r.bits m) (k r.bits m)) :
    ReadsInstr pre fun bs => withModRM bs k := by
  refine .withByte fun b => .withOperand ?_
  obtain ⟨r, hr⟩ := exists_regNum_bits (b.extractLsb' 3 3)
  rw [hr]
  exact h r

theorem ReadsInstr.withGroup {member : BitVec 3 → Except DecodeError (RM → List Byte → Decoded)}
    (h : ∀ (r : RegNum) k, member r.bits = .ok k → ∀ m, m.wf = true → ReadsInstr (pre ++ modRM r.bits m) (k m)) :
    ReadsInstr pre fun bs => withGroup bs member := by
  refine .withByte fun b => ?_
  obtain ⟨r, hr⟩ := exists_regNum_bits (b.extractLsb' 3 3)
  cases hk : member (b.extractLsb' 3 3) with
  | error e => exact .error e
  | ok k =>
    refine .withOperand ?_
    rw [hr] at hk ⊢
    exact h r k hk

theorem ReadsInstr.memOnly {m : RM} {k : MemOp → List Byte → Decoded} (h : ∀ a, m = .mem a → ReadsInstr pre (k a)) :
    ReadsInstr pre fun bs => memOnly m fun a => k a bs := by
  cases m with
  | reg r => exact .error _
  | mem a => exact h a rfl

/-! The forms of operands behind an opcode. -/

theorem ReadsInstr.plain {i : Instr} (hw : i.WellFormed) (he : encode i = pre) : ReadsInstr pre fun bs => plain i bs :=
  .ok hw he

theorem ReadsInstr.byteArg {f : Byte → Instr} (h : ∀ v, (f v).WellFormed ∧ encode (f v) = pre ++ [v]) :
    ReadsInstr pre fun bs => byteArg f bs := .withByte fun v => .ok (h v).1 (h v).2

theorem ReadsInstr.wordArg {f : Word → Instr} (h : ∀ v, (f v).WellFormed ∧ encode (f v) = pre ++ wordBytes v) :
    ReadsInstr pre fun bs => wordArg f bs := .withWord fun v => .ok (h v).1 (h v).2

theorem ReadsInstr.farArg {f : Word → Word → Instr}
    (h : ∀ o c, (f o c).WellFormed ∧ encode (f o c) = pre ++ wordBytes o ++ wordBytes c) :
    ReadsInstr pre fun bs => farArg f bs :=
  .withWord fun o => .withWord fun c => .ok (h o c).1 (h o c).2

theorem ReadsInstr.immArg {w : Width} {f : Imm → Instr}
    (h : ∀ v, v.width = w → (f v).WellFormed ∧ encode (f v) = pre ++ v.bytes) :
    ReadsInstr pre fun bs => immArg w f bs :=
  .withImm fun v hv => .ok (h v hv).1 (h v hv).2

theorem ReadsInstr.rmReg {f : RM → RegNum → Instr}
    (h : ∀ m r, (f m r).wf = m.wf ∧ encode (f m r) = pre ++ modRM r.bits m) : ReadsInstr pre fun bs => rmReg f bs :=
  .withModRM fun r m hm => .ok ((h m _).1.trans hm) (by rw [(h m _).2, RegNum.ofBits_bits])

theorem ReadsInstr.memReg {f : RegNum → MemOp → Instr}
    (h : ∀ r a, (f r a).wf = a.wf ∧ encode (f r a) = pre ++ modRM r.bits (.mem a)) :
    ReadsInstr pre fun bs => memReg f bs := by
  refine .withModRM fun r m hm => .memOnly ?_
  rintro a rfl
  exact .ok ((h _ a).1.trans hm) (by rw [(h _ a).2, RegNum.ofBits_bits])

theorem ReadsInstr.adjust {i : Instr} (hw : i.WellFormed) (he : encode i = pre ++ [0x0A]) :
    ReadsInstr pre fun bs => adjust i bs := by
  refine .withByte fun b => ?_
  by_cases hb : b = 0x0A
  · subst hb
    exact .congr (fun _ => rfl) (.ok hw he)
  · exact .congr (fun _ => if_neg hb) (.error _)

end

/-! ### The groups -/

theorem immGroup_reads (w : Width) : ReadsInstr [opW 0x80 w] (immGroup w) := by
  refine .withModRM fun r m hm => .withImm ?_
  rintro v rfl
  cases r <;> exact .ok hm rfl

theorem immGroup82_reads : ReadsInstr [0x82] immGroup82 := by
  refine .withGroup fun r k hk m hm => ?_
  cases r <;> cases hk <;> exact .byteArg fun _ => ⟨hm, rfl⟩

theorem immGroup83_reads : ReadsInstr [0x83] immGroup83 := by
  refine .withGroup fun r k hk m hm => ?_
  cases r <;> cases hk <;> exact .byteArg fun _ => ⟨hm, rfl⟩

theorem shiftImmGroup_reads (w : Width) : ReadsInstr [opW 0xC0 w] (shiftImmGroup w) := by
  refine .withGroup fun r k hk m hm => ?_
  cases r <;> cases hk <;> exact .byteArg fun _ => ⟨hm, rfl⟩

theorem shiftOneGroup_reads (w : Width) : ReadsInstr [opW 0xD0 w] (shiftOneGroup w) := by
  refine .withGroup fun r k hk m hm => ?_
  cases r <;> cases hk <;> exact .ok hm rfl

theorem shiftClGroup_reads (w : Width) : ReadsInstr [opW 0xD2 w] (shiftClGroup w) := by
  refine .withGroup fun r k hk m hm => ?_
  cases r <;> cases hk <;> exact .ok hm rfl

theorem unaryGroup_reads (w : Width) : ReadsInstr [opW 0xF6 w] (unaryGroup w) := by
  refine .withGroup fun r k hk m hm => ?_
  cases r <;> cases hk
  case r0 => exact .immArg fun v hv => ⟨hm, by subst hv; rfl⟩
  all_goals exact .ok hm rfl

theorem groupFE_reads : ReadsInstr [0xFE] groupFE := by
  refine .withGroup fun r k hk m hm => ?_
  cases r <;> cases hk <;> exact .ok hm rfl

theorem groupFF_reads : ReadsInstr [0xFF] groupFF := by
  refine .withModRM fun r m hm => ?_
  cases r
  case r3 | r5 => exact .memOnly (by rintro a rfl; exact .ok hm rfl)
  case r7 => exact .error _
  all_goals exact .ok hm rfl

theorem movImmGroup_reads (w : Width) : ReadsInstr [opW 0xC6 w] (movImmGroup w) := by
  refine .withGroup fun r k hk m hm => ?_
  cases r <;> cases hk
  exact .immArg fun v hv => ⟨hm, by subst hv; rfl⟩

theorem movFromSreg_reads : ReadsInstr [0x8C] movFromSreg := by
  refine .withGroup fun r k hk m hm => ?_
  cases r <;> cases hk <;> exact .ok hm rfl

theorem movToSreg_reads : ReadsInstr [0x8E] movToSreg := by
  refine .withGroup fun r k hk m hm => ?_
  cases r <;> cases hk <;> exact .ok hm rfl

theorem popGroup_reads : ReadsInstr [0x8F] popGroup := by
  refine .withModRM fun r m hm => ?_
  cases r
  case r0 => exact .ok hm rfl
  all_goals exact .error _

theorem group0F00_reads : ReadsInstr [0x0F, 0x00] group0F00 := by
  refine .withGroup fun r k hk m hm => ?_
  cases r <;> cases hk <;> exact .ok hm rfl

theorem group0F01_reads : ReadsInstr [0x0F, 0x01] group0F01 := by
  refine .withGroup fun r k hk m hm => ?_
  cases r <;> cases hk
  case r4 | r6 => exact .ok hm rfl
  all_goals exact .memOnly (by rintro a rfl; exact .ok hm rfl)

/-! ### The opcode map -/

/-- The opcode byte at a row and column of the opcode map (R201 to R206). -/
def opcodeAt (row col : Nat) : Byte := BitVec.ofNat 8 (16 * row + col)

theorem opcodeAt_div_mod (b : Byte) : opcodeAt (b.toNat / 16) (b.toNat % 16) = b := by
  simp [opcodeAt, Nat.div_add_mod]

theorem decode0F_reads : ReadsInstr [0x0F] decode0F := by
  refine .withByte fun b => ?_
  obtain ⟨n, hn⟩ := b
  match n with
  | 0 => exact group0F00_reads
  | 1 => exact group0F01_reads
  | 2 | 3 => exact .rmReg fun _ _ => ⟨rfl, rfl⟩
  | 6 => exact .ok rfl rfl
  | 4 | 5 | n + 7 => exact .error _

theorem decodeRow0_reads {n : Nat} (hn : n < 16) : ReadsInstr [opcodeAt 0 n] (decodeRow0 n) := by
  unfold decodeRow0
  match n, hn with
  | 0, _ | 1, _ | 2, _ | 3, _ | 8, _ | 9, _ | 10, _ | 11, _ => exact .rmReg fun _ _ => ⟨rfl, rfl⟩
  | 4, _ | 5, _ | 12, _ | 13, _ => exact .immArg fun v hv => ⟨rfl, by rw [encode, hv]; rfl⟩
  | 6, _ | 7, _ | 14, _ => exact .plain rfl rfl
  | 15, _ => exact decode0F_reads
  | n + 16, _ => omega

theorem decodeRow1_reads {n : Nat} (hn : n < 16) : ReadsInstr [opcodeAt 1 n] (decodeRow1 n) := by
  unfold decodeRow1
  match n, hn with
  | 0, _ | 1, _ | 2, _ | 3, _ | 8, _ | 9, _ | 10, _ | 11, _ => exact .rmReg fun _ _ => ⟨rfl, rfl⟩
  | 4, _ | 5, _ | 12, _ | 13, _ => exact .immArg fun v hv => ⟨rfl, by rw [encode, hv]; rfl⟩
  | 6, _ | 7, _ | 14, _ | 15, _ => exact .plain rfl rfl
  | n + 16, _ => omega

theorem decodeRow2_reads {n : Nat} (hn : n < 16) : ReadsInstr [opcodeAt 2 n] (decodeRow2 n) := by
  unfold decodeRow2
  match n, hn with
  | 0, _ | 1, _ | 2, _ | 3, _ | 8, _ | 9, _ | 10, _ | 11, _ => exact .rmReg fun _ _ => ⟨rfl, rfl⟩
  | 4, _ | 5, _ | 12, _ | 13, _ => exact .immArg fun v hv => ⟨rfl, by rw [encode, hv]; rfl⟩
  | 6, _ | 7, _ | 14, _ | 15, _ => exact .plain rfl rfl
  | n + 16, _ => omega

theorem decodeRow3_reads {n : Nat} (hn : n < 16) : ReadsInstr [opcodeAt 3 n] (decodeRow3 n) := by
  unfold decodeRow3
  match n, hn with
  | 0, _ | 1, _ | 2, _ | 3, _ | 8, _ | 9, _ | 10, _ | 11, _ => exact .rmReg fun _ _ => ⟨rfl, rfl⟩
  | 4, _ | 5, _ | 12, _ | 13, _ => exact .immArg fun v hv => ⟨rfl, by rw [encode, hv]; rfl⟩
  | 6, _ | 7, _ | 14, _ | 15, _ => exact .plain rfl rfl
  | n + 16, _ => omega

theorem decodeRow4_reads {n : Nat} (hn : n < 16) : ReadsInstr [opcodeAt 4 n] (decodeRow4 n) := by
  unfold decodeRow4
  interval_cases n <;> exact .plain rfl rfl

theorem decodeRow5_reads {n : Nat} (hn : n < 16) : ReadsInstr [opcodeAt 5 n] (decodeRow5 n) := by
  unfold decodeRow5
  interval_cases n <;> exact .plain rfl rfl

theorem decodeRow6_reads {n : Nat} (hn : n < 16) : ReadsInstr [opcodeAt 6 n] (decodeRow6 n) := by
  unfold decodeRow6
  match n, hn with
  | 0, _ | 1, _ | 12, _ | 13, _ | 14, _ | 15, _ => exact .plain rfl rfl
  | 2, _ => exact .memReg fun _ _ => ⟨rfl, rfl⟩
  | 3, _ => exact .rmReg fun _ _ => ⟨rfl, rfl⟩
  | 4, _ | 5, _ | 6, _ | 7, _ => exact .error _
  | 8, _ => exact .wordArg fun _ => ⟨rfl, rfl⟩
  | 9, _ => exact .withModRM fun _ _ hm => .wordArg fun _ => ⟨hm, by rw [encode, RegNum.ofBits_bits]; rfl⟩
  | 10, _ => exact .byteArg fun _ => ⟨rfl, rfl⟩
  | 11, _ => exact .withModRM fun _ _ hm => .byteArg fun _ => ⟨hm, by rw [encode, RegNum.ofBits_bits]; rfl⟩
  | n + 16, _ => omega

theorem decodeRow7_reads {n : Nat} (hn : n < 16) : ReadsInstr [opcodeAt 7 n] (decodeRow7 n) := by
  unfold decodeRow7
  interval_cases n <;> exact .byteArg fun _ => ⟨rfl, rfl⟩

theorem decodeRow8_reads {n : Nat} (hn : n < 16) : ReadsInstr [opcodeAt 8 n] (decodeRow8 n) := by
  unfold decodeRow8
  match n, hn with
  | 0, _ => exact immGroup_reads .byte
  | 1, _ => exact immGroup_reads .word
  | 2, _ => exact immGroup82_reads
  | 3, _ => exact immGroup83_reads
  | 4, _ | 5, _ | 6, _ | 7, _ | 8, _ | 9, _ | 10, _ | 11, _ => exact .rmReg fun _ _ => ⟨rfl, rfl⟩
  | 12, _ => exact movFromSreg_reads
  | 13, _ => exact .memReg fun _ _ => ⟨rfl, rfl⟩
  | 14, _ => exact movToSreg_reads
  | 15, _ => exact popGroup_reads
  | n + 16, _ => omega

theorem decodeRow9_reads {n : Nat} (hn : n < 16) : ReadsInstr [opcodeAt 9 n] (decodeRow9 n) := by
  unfold decodeRow9
  match n, hn with
  | 10, _ => exact .farArg fun _ _ => ⟨rfl, rfl⟩
  | 0, _ | 1, _ | 2, _ | 3, _ | 4, _ | 5, _ | 6, _ | 7, _ | 8, _ | 9, _ | 11, _ | 12, _ | 13, _ | 14, _ | 15, _ =>
    exact .plain rfl rfl
  | n + 16, _ => omega

theorem decodeRowA_reads {n : Nat} (hn : n < 16) : ReadsInstr [opcodeAt 10 n] (decodeRowA n) := by
  unfold decodeRowA
  match n, hn with
  | 0, _ | 1, _ | 2, _ | 3, _ => exact .wordArg fun _ => ⟨rfl, rfl⟩
  | 8, _ | 9, _ => exact .immArg fun v hv => ⟨rfl, by rw [encode, hv]; rfl⟩
  | 4, _ | 5, _ | 6, _ | 7, _ | 10, _ | 11, _ | 12, _ | 13, _ | 14, _ | 15, _ => exact .plain rfl rfl
  | n + 16, _ => omega

theorem decodeRowB_reads {n : Nat} (hn : n < 16) : ReadsInstr [opcodeAt 11 n] (decodeRowB n) := by
  unfold decodeRowB
  interval_cases n <;> exact .immArg fun v hv => ⟨rfl, by rw [encode, hv]; rfl⟩

theorem decodeRowC_reads {n : Nat} (hn : n < 16) : ReadsInstr [opcodeAt 12 n] (decodeRowC n) := by
  unfold decodeRowC
  match n, hn with
  | 0, _ => exact shiftImmGroup_reads .byte
  | 1, _ => exact shiftImmGroup_reads .word
  | 2, _ | 10, _ => exact .wordArg fun _ => ⟨rfl, rfl⟩
  | 4, _ | 5, _ => exact .memReg fun _ _ => ⟨rfl, rfl⟩
  | 6, _ => exact movImmGroup_reads .byte
  | 7, _ => exact movImmGroup_reads .word
  | 8, _ => exact .withWord fun _ => .byteArg fun _ => ⟨rfl, rfl⟩
  | 13, _ => exact .byteArg fun _ => ⟨rfl, rfl⟩
  | 3, _ | 9, _ | 11, _ | 12, _ | 14, _ | 15, _ => exact .plain rfl rfl
  | n + 16, _ => omega

theorem esc_reads {b : Byte} {t : BitVec 3} (hb : 0xD8 ||| t.setWidth 8 = b) :
    ReadsInstr [b] fun bs => withModRM bs fun l m rest => .ok (.esc t l m, rest) :=
  .withModRM fun _ _ hm => .ok hm (by subst hb; rfl)

theorem decodeRowD_reads {n : Nat} (hn : n < 16) : ReadsInstr [opcodeAt 13 n] (decodeRowD n) := by
  unfold decodeRowD
  match n, hn with
  | 0, _ => exact shiftOneGroup_reads .byte
  | 1, _ => exact shiftOneGroup_reads .word
  | 2, _ => exact shiftClGroup_reads .byte
  | 3, _ => exact shiftClGroup_reads .word
  | 4, _ | 5, _ => exact .adjust rfl rfl
  | 6, _ => exact .error _
  | 7, _ => exact .plain rfl rfl
  | 8, _ | 9, _ | 10, _ | 11, _ | 12, _ | 13, _ | 14, _ | 15, _ => exact esc_reads rfl
  | n + 16, _ => omega

theorem decodeRowE_reads {n : Nat} (hn : n < 16) : ReadsInstr [opcodeAt 14 n] (decodeRowE n) := by
  unfold decodeRowE
  match n, hn with
  | 8, _ | 9, _ => exact .wordArg fun _ => ⟨rfl, rfl⟩
  | 10, _ => exact .farArg fun _ _ => ⟨rfl, rfl⟩
  | 0, _ | 1, _ | 2, _ | 3, _ | 4, _ | 5, _ | 6, _ | 7, _ | 11, _ => exact .byteArg fun _ => ⟨rfl, rfl⟩
  | 12, _ | 13, _ | 14, _ | 15, _ => exact .plain rfl rfl
  | n + 16, _ => omega

theorem decodeRowF_reads {n : Nat} (hn : n < 16) : ReadsInstr [opcodeAt 15 n] (decodeRowF n) := by
  unfold decodeRowF
  match n, hn with
  | 1, _ => exact .error _
  | 6, _ => exact unaryGroup_reads .byte
  | 7, _ => exact unaryGroup_reads .word
  | 14, _ => exact groupFE_reads
  | 15, _ => exact groupFF_reads
  | 0, _ | 2, _ | 3, _ | 4, _ | 5, _ | 8, _ | 9, _ | 10, _ | 11, _ | 12, _ | 13, _ => exact .plain rfl rfl
  | n + 16, _ => omega

theorem decodeOp_reads (b : Byte) : ReadsInstr [b] (decodeOp b) := by
  have hcol : b.toNat % 16 < 16 := Nat.mod_lt _ (by decide)
  have hrow : b.toNat / 16 < 16 := by have := b.isLt; omega
  have hb := opcodeAt_div_mod b
  unfold decodeOp
  generalize b.toNat % 16 = n at hcol hb
  generalize b.toNat / 16 = row at hrow hb
  subst hb
  match row, hrow with
  | 0, _ => exact decodeRow0_reads hcol
  | 1, _ => exact decodeRow1_reads hcol
  | 2, _ => exact decodeRow2_reads hcol
  | 3, _ => exact decodeRow3_reads hcol
  | 4, _ => exact decodeRow4_reads hcol
  | 5, _ => exact decodeRow5_reads hcol
  | 6, _ => exact decodeRow6_reads hcol
  | 7, _ => exact decodeRow7_reads hcol
  | 8, _ => exact decodeRow8_reads hcol
  | 9, _ => exact decodeRow9_reads hcol
  | 10, _ => exact decodeRowA_reads hcol
  | 11, _ => exact decodeRowB_reads hcol
  | 12, _ => exact decodeRowC_reads hcol
  | 13, _ => exact decodeRowD_reads hcol
  | 14, _ => exact decodeRowE_reads hcol
  | 15, _ => exact decodeRowF_reads hcol
  | n + 16, _ => omega

theorem decode_reads : ReadsInstr [] decode := .withByte decodeOp_reads

/-- Settles O42: the decoder reads byte for byte. -/
theorem encodeUndoesDecode : Obligations.EncodeUndoesDecode := decode_reads.encoded

/-! ### Reading back what the encoder writes -/

section
variable {m : RM} {reg : BitVec 3} {tail rest : List Byte}

/-- An operand with a displacement or an immediate behind it. -/
theorem withModRM_modRM_append {k : BitVec 3 → RM → List Byte → Decoded} (h : m.wf = true) :
    withModRM (modRM reg m ++ tail ++ rest) k = k reg m (tail ++ rest) := by
  rw [List.append_assoc, withModRM_modRM reg m _ k h]

theorem withGroup_modRM_append {member : BitVec 3 → Except DecodeError (RM → List Byte → Decoded)}
    {k : RM → List Byte → Decoded} (hk : member reg = .ok k) (h : m.wf = true) :
    withGroup (modRM reg m ++ tail ++ rest) member = k m (tail ++ rest) := by
  rw [List.append_assoc, withGroup_modRM reg m _ member h, hk]

theorem withImm_bytes_of {w : Width} {k : Imm → List Byte → Decoded} {v : Imm} (hv : v.width = w) :
    withImm w (v.bytes ++ rest) k = k v rest := hv ▸ withImm_bytes v rest k

theorem immArg_bytes {w : Width} {f : Imm → Instr} {v : Imm} (hv : v.width = w) :
    immArg w f (v.bytes ++ rest) = .ok (f v, rest) := withImm_bytes_of hv

theorem wordArg_wordBytes {f : Word → Instr} {v : Word} : wordArg f (wordBytes v ++ rest) = .ok (f v, rest) :=
  withWord_wordBytes v rest _

theorem withWord_wordBytes_append {v : Word} {k : Word → List Byte → Decoded} :
    withWord (wordBytes v ++ tail ++ rest) k = k v (tail ++ rest) := by rw [List.append_assoc, withWord_wordBytes]

theorem farArg_wordBytes {f : Word → Word → Instr} {o c : Word} :
    farArg f (wordBytes o ++ wordBytes c ++ rest) = .ok (f o c, rest) :=
  withWord_wordBytes_append.trans wordArg_wordBytes

theorem rmReg_modRM {f : RM → RegNum → Instr} {r : RegNum} (h : m.wf = true) :
    rmReg f (modRM r.bits m ++ rest) = .ok (f m r, rest) := by
  rw [rmReg, withModRM_modRM _ _ _ _ h, RegNum.ofBits_bits]

/-- The direction bit: the register first. -/
theorem regRm_modRM {f : RegNum → RM → Instr} {r : RegNum} (h : m.wf = true) :
    rmReg (fun m r => f r m) (modRM r.bits m ++ rest) = .ok (f r m, rest) := rmReg_modRM h

theorem memReg_modRM {f : RegNum → MemOp → Instr} {r : RegNum} {a : MemOp} (h : a.wf = true) :
    memReg f (modRM r.bits (.mem a) ++ rest) = .ok (f r a, rest) := by
  rw [memReg, withModRM_modRM _ (.mem a) _ _ h, RegNum.ofBits_bits]
  rfl

end

/-- ESC's opcode bytes carry three bits of its operation code (R483). -/
theorem decodeOp_esc (t : BitVec 3) (bs : List Byte) :
    decodeOp (0xD8 ||| t.setWidth 8) bs = withModRM bs fun l m rest => .ok (.esc t l m, rest) := by
  obtain ⟨r, rfl⟩ := exists_regNum_bits t
  cases r <;> rfl

theorem decode_encode (i : Instr) (rest : List Byte) (h : i.WellFormed) : decode (encode i ++ rest) = .ok (i, rest) := by
  cases i with
  | addRmReg w m r | orRmReg w m r | adcRmReg w m r | sbbRmReg w m r | andRmReg w m r | subRmReg w m r | xorRmReg w m r
  | cmpRmReg w m r | testRmReg w m r | xchgRmReg w m r | movRmReg w m r =>
    cases w <;> exact rmReg_modRM h
  | addRegRm w r m | orRegRm w r m | adcRegRm w r m | sbbRegRm w r m | andRegRm w r m | subRegRm w r m | xorRegRm w r m
  | cmpRegRm w r m | movRegRm w r m =>
    cases w <;> exact regRm_modRM h
  | arpl m r => exact rmReg_modRM h
  | lar r m | lsl r m => exact regRm_modRM h
  | bound r a | lea r a | les r a | lds r a => exact memReg_modRM h
  | addAccImm v | orAccImm v | adcAccImm v | sbbAccImm v | andAccImm v | subAccImm v | xorAccImm v | cmpAccImm v
  | testAccImm v =>
    rw [encode]
    generalize hv : v.width = w
    cases w <;> exact immArg_bytes hv
  | addRmImm m v | orRmImm m v | adcRmImm m v | sbbRmImm m v | andRmImm m v | subRmImm m v | xorRmImm m v | cmpRmImm m v =>
    rw [encode]
    generalize hv : v.width = w
    cases w <;>
    · change immGroup _ (modRM _ m ++ v.bytes ++ rest) = _
      rw [immGroup, withModRM_modRM_append h, withImm_bytes_of hv]
      rfl
  | movRmImm m v =>
    rw [encode]
    generalize hv : v.width = w
    cases w <;>
    · change movImmGroup _ (modRM _ m ++ v.bytes ++ rest) = _
      exact (withGroup_modRM_append rfl h).trans (immArg_bytes hv)
  | testRmImm m v =>
    rw [encode]
    generalize hv : v.width = w
    cases w <;>
    · change unaryGroup _ (modRM _ m ++ v.bytes ++ rest) = _
      exact (withGroup_modRM_append rfl h).trans (immArg_bytes hv)
  | movRegImm r v =>
    rw [encode]
    generalize hv : v.width = w
    cases w <;> cases r <;> exact immArg_bytes hv
  | addRm8Imm82 m v | adcRm8Imm82 m v | sbbRm8Imm82 m v | subRm8Imm82 m v | cmpRm8Imm82 m v =>
    change immGroup82 (modRM _ m ++ [v] ++ rest) = _
    exact (withGroup_modRM_append rfl h).trans rfl
  | addRmSext m v | adcRmSext m v | sbbRmSext m v | subRmSext m v | cmpRmSext m v =>
    change immGroup83 (modRM _ m ++ [v] ++ rest) = _
    exact (withGroup_modRM_append rfl h).trans rfl
  | rolImm w m v | rorImm w m v | rclImm w m v | rcrImm w m v | shlImm w m v | shrImm w m v | sarImm w m v =>
    cases w <;>
    · change shiftImmGroup _ (modRM _ m ++ [v] ++ rest) = _
      exact (withGroup_modRM_append rfl h).trans rfl
  | rolOne w m | rorOne w m | rclOne w m | rcrOne w m | shlOne w m | shrOne w m | sarOne w m =>
    cases w <;>
    · change shiftOneGroup _ (modRM _ m ++ rest) = _
      exact withGroup_modRM _ m rest _ h
  | rolCl w m | rorCl w m | rclCl w m | rcrCl w m | shlCl w m | shrCl w m | sarCl w m =>
    cases w <;>
    · change shiftClGroup _ (modRM _ m ++ rest) = _
      exact withGroup_modRM _ m rest _ h
  | notRm w m | negRm w m | mulRm w m | imulRm w m | divRm w m | idivRm w m =>
    cases w <;>
    · change unaryGroup _ (modRM _ m ++ rest) = _
      exact withGroup_modRM _ m rest _ h
  | incRm w m | decRm w m =>
    cases w
    · change groupFE (modRM _ m ++ rest) = _
      exact withGroup_modRM _ m rest _ h
    · change groupFF (modRM _ m ++ rest) = _
      exact withModRM_modRM _ m rest _ h
  | callRm m | jmpRm m | pushRm m =>
    change groupFF (modRM _ m ++ rest) = _
    exact withModRM_modRM _ m rest _ h
  | callFarMem a | jmpFarMem a =>
    change groupFF (modRM _ (.mem a) ++ rest) = _
    exact withModRM_modRM _ (.mem a) rest _ h
  | popRm m =>
    change popGroup (modRM _ m ++ rest) = _
    exact withModRM_modRM _ m rest _ h
  | movRmSreg m g =>
    change movFromSreg (modRM _ m ++ rest) = _
    cases g <;> exact withGroup_modRM _ m rest _ h
  | movSregRm g m =>
    obtain ⟨hg, hm⟩ := Bool.and_eq_true_iff.1 h
    change movToSreg (modRM _ m ++ rest) = _
    cases g
    case cs => exact absurd rfl (of_decide_eq_true hg)
    all_goals exact withGroup_modRM _ m rest _ hm
  | sldt m | str m | lldt m | ltr m | verr m | verw m =>
    change group0F00 (modRM _ m ++ rest) = _
    exact withGroup_modRM _ m rest _ h
  | smsw m | lmsw m =>
    change group0F01 (modRM _ m ++ rest) = _
    exact withGroup_modRM _ m rest _ h
  | sgdt a | sidt a | lgdt a | lidt a =>
    change group0F01 (modRM _ (.mem a) ++ rest) = _
    exact withGroup_modRM _ (.mem a) rest _ h
  | imulRegRmImm16 r m v =>
    change decodeRow6 9 (modRM r.bits m ++ wordBytes v ++ rest) = _
    rw [decodeRow6, withModRM_modRM_append h, RegNum.ofBits_bits, wordArg_wordBytes]
  | imulRegRmImm8 r m v =>
    change decodeRow6 11 (modRM r.bits m ++ [v] ++ rest) = _
    rw [decodeRow6, withModRM_modRM_append h, RegNum.ofBits_bits]
    rfl
  | esc t l m =>
    change decodeOp _ (modRM l m ++ rest) = _
    rw [decodeOp_esc, withModRM_modRM _ _ _ _ h]
  | pushImm16 v | retImm v | retFarImm v | callRel v | jmpRel16 v => exact wordArg_wordBytes
  | movAccMoffs w o | movMoffsAcc w o => cases w <;> exact wordArg_wordBytes
  | callFar o c | jmpFar o c => exact farArg_wordBytes
  | enter v l =>
    change decodeRowC 8 (wordBytes v ++ [l] ++ rest) = _
    rw [decodeRowC, withWord_wordBytes_append]
    rfl
  | xchgAxReg r =>
    cases r
    case r0 => exact absurd h Bool.false_ne_true
    all_goals rfl
  | incReg r | decReg r | pushReg r | popReg r | pushSreg r | segPfx r => cases r <;> rfl
  | ins w | outs w | movs w | cmps w | stos w | lods w | scas w | inDx w | outDx w | inImm w | outImm w => cases w <;> rfl
  | _ => rfl

/-- Settles O41: constructor by constructor, the encoder's bytes are read back. -/
theorem decodeUndoesEncode : Obligations.DecodeUndoesEncode := decode_encode

end Sys2Proof.Machine
end

section
/-! PROOFS. Fetching (30_encoding.md R181, R190, R220 to R226; 10_state.md R29): what the step finds at CS:IP, the prefixes in
front of an instruction, and the bytes that are none. -/

namespace Sys2Proof.Machine

/-! ### Prefixes -/

/-- Prefixes are single bytes, whatever follows them (R190). -/
theorem exists_byte_of_isPrefix {p : Instr} (h : p.isPrefix = true) :
    ∃ b, encode p = [b] ∧ ∀ bs, decodeOp b bs = .ok (p, bs) := by
  have hw : p.WellFormed ∧ ∃ b, encode p = [b] := by
    unfold Instr.isPrefix at h
    split at h
    case h_5 => cases h
    all_goals exact ⟨rfl, _, rfl⟩
  obtain ⟨hwf, b, hb⟩ := hw
  refine ⟨b, hb, fun bs => ?_⟩
  have hd := decode_encode p bs hwf
  rwa [hb] at hd

theorem length_flatMap_prefixes {pfx : List Instr} (hp : ∀ p ∈ pfx, p.isPrefix = true) :
    (pfx.flatMap encode).length = pfx.length := by
  rw [List.length_flatMap, List.map_congr_left (g := fun _ => 1)]
  · simp
  · intro p hpm
    obtain ⟨b, hb, -⟩ := exists_byte_of_isPrefix (hp p hpm)
    rw [hb]
    rfl

/-- What is fetched behind prefixes. -/
def behind (pfx : List Instr) (f : Fetched) : Fetched := { f with pfx := pfx ++ f.pfx, len := f.len + pfx.length }

theorem decodeSeq_cons_prefix {p : Instr} {b : Byte} {bs : List Byte} (hp : p.isPrefix = true)
    (hd : decodeOp b bs = .ok (p, bs)) : decodeSeq (b :: bs) = (decodeSeq bs).map (behind [p]) := by
  rw [decodeSeq, hd]
  simp only [hp, if_true]
  cases decodeSeq bs <;> rfl

/-- Prefixes are noted in their order, and what is behind them is decoded as it is without them (R184, R190). -/
theorem decodeSeq_prefixes {pfx : List Instr} (hp : ∀ p ∈ pfx, p.isPrefix = true) (bs : List Byte) :
    decodeSeq (pfx.flatMap encode ++ bs) = (decodeSeq bs).map (behind pfx) := by
  induction pfx with
  | nil => cases h : decodeSeq bs <;> simp [h, Except.map, behind]
  | cons p pfx ih =>
    obtain ⟨hp1, hp⟩ := List.forall_mem_cons.1 hp
    obtain ⟨b, hb, hd⟩ := exists_byte_of_isPrefix hp1
    rw [List.flatMap_cons, hb, List.append_assoc, List.singleton_append, decodeSeq_cons_prefix hp1 (hd _), ih hp]
    cases decodeSeq bs <;> simp [Except.map, behind, Nat.add_assoc]

theorem decodeSeq_of_error {bs : List Byte} {e : DecodeError} (h : decode bs = .error e) : decodeSeq bs = .error e := by
  cases bs with
  | nil => cases h; rfl
  | cons b bs =>
    have hd : decodeOp b bs = .error e := h
    rw [decodeSeq, hd]

theorem decodeSeq_encode {i : Instr} (hw : i.WellFormed) (hi : i.isPrefix = false) (rest : List Byte) :
    decodeSeq (encode i ++ rest) = .ok { pfx := [], instr := i, len := (encode i).length } := by
  have hd := decode_encode i rest hw
  have hlen : (encode i ++ rest).length - rest.length = (encode i).length := by simp
  generalize encode i ++ rest = bs at hd hlen
  cases bs with
  | nil => cases hd
  | cons b bs =>
    have hop : decodeOp b bs = .ok (i, rest) := hd
    rw [decodeSeq, hop]
    simp only [hi, Bool.false_eq_true, if_false, ← hlen, List.length_cons]

/-- Part of an instruction's bytes lacks the rest, and nothing else is wrong with it. -/
theorem decode_take_encode {i : Instr} (hw : i.WellFormed) {n : Nat} (hn : n < (encode i).length) :
    decode ((encode i).take n) = .error .truncated := by
  have hi : decode ((encode i).take n ++ (encode i).drop n) = .ok (i, []) := by
    rw [List.take_append_drop, ← List.append_nil (encode i), decode_encode i [] hw]
  cases hd : decode ((encode i).take n) with
  | error e =>
    by_cases he : e = .truncated
    · rw [he]
    · rw [decode_reads.final _ _ _ hd he] at hi
      cases hi
  | ok r =>
    obtain ⟨j, rest⟩ := r
    obtain ⟨hj, hbs⟩ := decode_reads.encoded _ _ _ hd
    rw [List.nil_append] at hbs
    rw [← hbs, List.append_assoc, decode_encode j _ hj] at hi
    have hdrop : rest ++ (encode i).drop n = [] := congrArg Prod.snd (Except.ok.inj hi)
    exact absurd (List.append_eq_nil_iff.1 hdrop).2 (List.drop_eq_nil_iff.not.2 (by omega))

/-- Nor is anything else wrong with part of the bytes of prefixes and an instruction. -/
theorem decodeSeq_take_encodeAll {pfx : List Instr} {i : Instr} (hp : ∀ p ∈ pfx, p.isPrefix = true) (hw : i.WellFormed)
    {n : Nat} (hn : n < (encodeAll pfx i).length) : decodeSeq ((encodeAll pfx i).take n) = .error .truncated := by
  induction pfx generalizing n with
  | nil => exact decodeSeq_of_error (decode_take_encode hw hn)
  | cons p pfx ih =>
    obtain ⟨hp1, hp⟩ := List.forall_mem_cons.1 hp
    obtain ⟨b, hb, hd⟩ := exists_byte_of_isPrefix hp1
    have hall : encodeAll (p :: pfx) i = b :: encodeAll pfx i := by simp [encodeAll, hb]
    rw [hall] at hn ⊢
    cases n with
    | zero => rfl
    | succ n => rw [List.take_succ_cons, decodeSeq_cons_prefix hp1 (hd _), ih hp (by simpa using hn)]; rfl

/-! ### The bytes at CS:IP -/

theorem bytesAtHand_latched (s : State) : bytesAtHand (Latched s) = min 10 (s.cs.limit.toNat + 1 - s.ip.toNat) := rfl

/-- Where no store has fallen into the prefetch queue the fetch finds the bytes of memory (20_memory.md R166). -/
theorem take_fetchBytes {s : State} {bs : List Byte} (hs : s.stale = []) (hb : BytesAt s bs)
    (hlen : bs.length ≤ bytesAtHand (Latched s)) : (fetchBytes (Latched s)).take bs.length = bs := by
  refine List.ext_getElem (by simpa [fetchBytes] using hlen) fun k _ hk => ?_
  have hbyte : fetchByte (Latched s) (segAddr s .cs (s.ip + BitVec.ofNat 16 k)) = bs[k] := by
    rw [← hb k bs[k] (List.getElem?_eq_getElem hk)]
    simp [fetchByte, show (Latched s).stale = [] from hs]
  simp only [List.getElem_take, Machine.fetchBytes, List.getElem_map, List.getElem_range]
  exact hbyte

/-- Bytes inside the code segment, ten at most, are fetched with whatever follows them. -/
theorem CodeAt.fetchBytes {s : State} {bs : List Byte} (h : CodeAt s bs) (hs : s.stale = []) (hlen : bs.length ≤ 10) :
    ∃ more, fetchBytes (Latched s) = bs ++ more := by
  obtain ⟨hin, hb⟩ := h
  have htake := take_fetchBytes hs hb (by rw [bytesAtHand_latched]; omega)
  exact ⟨_, (List.take_append_drop bs.length _).symm.trans (by rw [htake])⟩

/-- When there are no more bytes at hand, these are all that is fetched. -/
theorem BytesAt.fetchBytes {s : State} {bs : List Byte} (h : BytesAt s bs) (hs : s.stale = [])
    (hlen : bs.length = bytesAtHand (Latched s)) : fetchBytes (Latched s) = bs := by
  rw [← take_fetchBytes hs h hlen.le, List.take_of_length_le (by simp [Machine.fetchBytes, hlen])]

/-! ### The step at a quiet boundary -/

theorem step_eq_runInstr {s : State} (he : Executing s) (hq : QuietBoundary s) : step s = runInstr (Latched s) := by
  obtain ⟨hreset, hshut, hhalt, hhold, hext⟩ := he
  have htransfer : transferDue s = none := by
    unfold transferDue
    rcases hext with h | h <;> simp [h]
  have hactive : activeStep (beginStep s) = runInstr (beginStep s) := by
    unfold activeStep
    rw [show takeEvent (beginStep s) = none from hq]
    exact if_neg (by simp [show (beginStep s).halted = false from hhalt])
  simp only [step, hreset, hhold, htransfer, hshut, Bool.false_eq_true, if_false]
  exact hactive

theorem hasRep_iff {pfx : List Instr} : hasRep pfx = true ↔ .repPfx ∈ pfx ∨ .repnePfx ∈ pfx := by
  simp [hasRep, and_or_left, exists_or]

theorem runInstr_of_decoded {s : State} {f : Fetched} (h : decodeSeq (fetchBytes (Latched s)) = .ok f)
    (hr : (.repPfx ∈ f.pfx ∨ .repnePfx ∈ f.pfx) → f.instr.isString = true) :
    runInstr (Latched s) = endOutcome s.flags.tf (runPrefixed (Entered s f.len) f.instr f.pfx) := by
  have hrep : ¬ (hasRep f.pfx && !f.instr.isString) = true := by
    rw [Bool.and_eq_true, hasRep_iff, Bool.not_eq_true']
    exact fun ⟨hp, hn⟩ => Bool.false_ne_true (hn.symm.trans (hr hp))
  unfold runInstr
  rw [h]
  exact if_neg hrep

/-- Settles O45: the bytes decode to the prefixes and the instruction, which the step runs. -/
theorem stepRunsPrefixedInstruction : Obligations.StepRunsPrefixedInstruction := by
  intro s pfx i he hq hw hi hp hs hlen hcode hr
  obtain ⟨more, hfetch⟩ := hcode.fetchBytes hs hlen
  have hdec : decodeSeq (fetchBytes (Latched s)) = .ok (behind pfx ⟨[], i, (encode i).length⟩) := by
    rw [hfetch, encodeAll, List.append_assoc, decodeSeq_prefixes hp, decodeSeq_encode hw hi]
    rfl
  have hbehind : behind pfx ⟨[], i, (encode i).length⟩ = ⟨pfx, i, (encodeAll pfx i).length⟩ := by
    simp [behind, encodeAll, length_flatMap_prefixes hp, Nat.add_comm]
  rw [hbehind] at hdec
  rw [step_eq_runInstr he hq, runInstr_of_decoded hdec hr]

/-! ### Bytes that are no instruction -/

theorem fetchRaises_of_error {s : State} {e : DecodeError} {v : Byte} {c : Option Word} (he : Executing s)
    (hq : QuietBoundary s) (hd : decodeSeq (fetchBytes (Latched s)) = .error e)
    (hf : fetchFault (Latched s) e = .inl (.exc (.exn v c))) : FetchRaises s v c := by
  unfold FetchRaises
  rw [step_eq_runInstr he hq, runInstr, hd]
  simp only [hf]
  rfl

/-- A register operand where memory is required (R221). -/
theorem memReg_register {f : RegNum → MemOp → Instr} {r q : RegNum} {rest : List Byte} :
    memReg f (modRM r.bits (.reg q) ++ rest) = .error .registerOperand := withModRM_modRM _ (.reg q) rest _ rfl

/-- Undefined bytes are told from what they are alone, whatever follows (R220, R221, R226). -/
theorem decode_undefinedBytes {bs : List Byte} (h : UndefinedBytes bs) (rest : List Byte) :
    decode (bs ++ rest) = .error .undefinedOpcode ∨ decode (bs ++ rest) = .error .registerOperand := by
  cases h with
  | opcode b hb =>
    left
    fin_cases hb <;> rfl
  | twoByte b hb =>
    left
    change decode0F (b :: rest) = _
    obtain rfl | rfl | hb := hb
    · rfl
    · rfl
    · obtain ⟨n, hn⟩ := b
      obtain ⟨k, rfl⟩ := Nat.exists_eq_add_of_le' (show 7 ≤ n from hb)
      rfl
  | movCs b hb =>
    left
    have hreg : b.extractLsb' 3 3 = 1 := by
      refine BitVec.eq_of_toNat_eq ?_
      simpa [Nat.shiftRight_eq_div_pow] using hb
    change movToSreg (b :: rest) = _
    exact withGroup_error b rest _ _ (by rw [hreg]; rfl)
  | registerOperand b r q hb =>
    right
    fin_cases hb <;> exact memReg_register
  | farRegister k q hk =>
    right
    change groupFF (modRM k (.reg q) ++ rest) = _
    rcases hk with rfl | rfl <;> exact withModRM_modRM _ (.reg q) rest _ rfl
  | tableRegister k q hk =>
    right
    change group0F01 (modRM k (.reg q) ++ rest) = _
    obtain ⟨r, rfl⟩ := exists_regNum_bits k
    cases r
    case r0 | r1 | r2 | r3 => exact withGroup_modRM _ (.reg q) rest _ rfl
    all_goals exact absurd hk (by decide)

theorem decode_undefinedPushPop {bs : List Byte} (h : UndefinedPushPop bs) (rest : List Byte) :
    decode (bs ++ rest) = .error .pushPopGroup := by
  cases h with
  | pop k m hk hm =>
    change popGroup (modRM k m ++ rest) = _
    obtain ⟨r, rfl⟩ := exists_regNum_bits k
    cases r
    case r0 => exact absurd rfl hk
    all_goals exact withModRM_modRM _ m rest _ hm
  | push m hm =>
    change groupFF (modRM 7 m ++ rest) = _
    exact withModRM_modRM _ m rest _ hm

/-- What is wrong with the bytes behind prefixes is wrong with all of them, and none of the prefixes is executed
(log 30). -/
theorem decodeSeq_prefixes_error {pfx : List Instr} {bs : List Byte} {e : DecodeError}
    (hp : ∀ p ∈ pfx, p.isPrefix = true) (h : decode bs = .error e) :
    decodeSeq (pfx.flatMap encode ++ bs) = .error e := by
  rw [decodeSeq_prefixes hp, decodeSeq_of_error h]
  rfl

theorem fetchFault_truncated_of_full {s : State} (h : bytesAtHand s = 10) : fetchFault s .truncated = .inl invalidOpcode :=
  if_neg (by simp [h, maxLength])

theorem fetchFault_truncated_of_end {s : State} (h : bytesAtHand s < 10) : fetchFault s .truncated = .inl (protection 0) :=
  if_pos h

/-- Settles O58: the fetch of such bytes answers with its error. -/
theorem bytesThatAreNoInstruction : Obligations.BytesThatAreNoInstruction := by
  refine ⟨fun s pfx bs he hq hs hp hlen hcode => ?_, fun s pfx i he hq hs hp hw _ => ?_⟩
  · obtain ⟨more, hfetch⟩ := hcode.fetchBytes hs hlen
    rw [List.append_assoc] at hfetch
    refine ⟨fun hu => ?_, fun hu => ?_⟩
    · rcases decode_undefinedBytes hu more with hd | hd <;>
        exact fetchRaises_of_error he hq (hfetch ▸ decodeSeq_prefixes_error hp hd) rfl
    · exact fetchRaises_of_error he hq (hfetch ▸ decodeSeq_prefixes_error hp (decode_undefinedPushPop hu more)) rfl
  · intro bs room
    have truncated {n : Nat} (hn : n < bs.length) (hhand : bytesAtHand (Latched s) = n) (hb : BytesAt s (bs.take n)) :
        decodeSeq (fetchBytes (Latched s)) = .error .truncated := by
      rw [hb.fetchBytes hs (by rw [List.length_take, hhand]; omega)]
      exact decodeSeq_take_encodeAll hp hw hn
    refine ⟨fun hlong hroom hb => ?_, fun hover hroom hb => ?_⟩
    · have hhand : bytesAtHand (Latched s) = 10 := min_eq_left hroom
      exact fetchRaises_of_error he hq (truncated hlong hhand hb) (fetchFault_truncated_of_full hhand)
    · have hhand : bytesAtHand (Latched s) = room := min_eq_right hroom.le
      exact fetchRaises_of_error he hq (truncated hover hhand hb) (fetchFault_truncated_of_end (hhand ▸ hroom))

end Sys2Proof.Machine
end

section
/-! PROOFS. Moves and exchanges (40_data_transfer.md R241, R242, R256, R259, R260): each instruction's end state is named first;
what it changes and what it leaves is then read off the operations it is made of. -/

namespace Sys2Proof.Machine

/-! ### Moves -/

theorem finish_writePlace {s : State} {w : Width} {m : RM} (v : Val w) (h : CanWrite s w m) :
    finish s (writePlace s w (place s m) v) = .next (putPlace s w (place s m) v) := by
  rw [writePlace_ok v h, finish_ok]

/-- The high half of a word's sign extension is its sign bit sixteen times (41_arithmetic.md R301). -/
theorem signWord_eq (v : Word) : (if v.msb then 0xFFFF else 0 : Word) = (v.signExtend 32).extractLsb' 16 16 := by
  refine BitVec.eq_of_getLsbD_eq fun k hk => ?_
  rw [BitVec.getLsbD_extractLsb', BitVec.getLsbD_signExtend, show (0xFFFF : Word) = BitVec.allOnes 16 from rfl]
  have hbeyond : ¬ 16 + k < 16 := by omega
  rw [if_neg hbeyond]
  cases v.msb with
  | false => simp
  | true => simp only [if_true, BitVec.getLsbD_allOnes, hk, show 16 + k < 32 by omega, decide_true, Bool.and_true]

/-- Every move ends with its destination written and nothing else done. -/
theorem exec_moveForm {i : Instr} {o : Move} {s : State} (hi : moveForm i = some o) (hw : CanWrite s o.w o.dst)
    (hr : o.Ready s) : exec i s = .next (putPlace s o.w (place s o.dst) (o.value s)) := by
  cases i with
  | movRmReg | movRmImm | movRmSreg =>
    cases hi
    exact finish_writePlace _ hw
  | movRegRm w r m =>
    cases hi
    rw [exec, execMovRegRm, readRm_ok hr]
    rfl
  | movAccMoffs w a =>
    cases hi
    have hread : readRm s w (.mem (.direct a)) = .ok _ := readRm_ok hr
    change finish s (readRm s w (.mem (.direct a)) >>= _) = _
    rw [hread]
    rfl
  | movMoffsAcc w a =>
    cases hi
    exact congrArg (finish s) (memWrite_ok (s.acc w) hw)
  | movRegImm | lea | cbw =>
    cases hi
    rfl
  | xlat =>
    cases hi
    have hread : memRead s .byte (overridden s .ds) (s.regs.bx + zextByte s.al) = .ok _ := memRead_ok hr
    rw [exec, execXlat, hread]
    rfl
  | cwd =>
    cases hi
    rw [exec, execCwd, signWord_eq]
    rfl
  | sldt | str =>
    cases hi
    have hp : needProtected s = .ok () := need_ok _ hr
    change finish s (needProtected s >>= _) = _
    rw [hp]
    exact finish_writePlace _ hw
  | _ => cases hi

/-! ### Exchanges -/

theorem State.getReg_setReg_ne (s : State) (w : Width) {q r : RegNum} (v : Val w) (h : q ≠ r) :
    (s.setReg w r v).getReg w q = s.getReg w q := by
  cases w with
  | byte => exact State.getB_setB_ne s v h
  | word => exact State.getW_setW_ne s v h

/-- The state after XCHG: the register takes the operand, then the operand takes what the register held (R256). -/
def exchanged (s : State) (w : Width) (m : RM) (r : RegNum) : State :=
  putPlace (s.setReg w r (valueOf s w m)) w (place s m) (s.getReg w r)

theorem SameSystem.putPlace (s : State) (w : Width) (p : Place) (v : Val w) : SameSystem s (putPlace s w p v) := by
  cases p with
  | reg r => exact .setReg s w r v
  | mem x o => exact .poke s w x o v

theorem RegsBut.trans {s t u : State} {l k : List RegNum} (h : RegsBut s t l) (h' : RegsBut t u k) : RegsBut s u (l ++ k) :=
  fun r hr => (h' r fun hk => hr (List.mem_append_right l hk)).trans (h r fun hl => hr (List.mem_append_left k hl))

theorem RegsBut.mono {s t : State} {l k : List RegNum} (h : RegsBut s t l) (hl : l ⊆ k) : RegsBut s t k :=
  fun r hr => h r fun hm => hr (hl hm)

theorem OnlyReg.congr {s s' t t' : State} {w : Width} {r : RegNum} (h : OnlyReg s t w r) (hs : s'.regs = s.regs)
    (ht : t'.regs = t.regs) : OnlyReg s' t' w r := by
  have words (q : RegNum) (hq : t.getW q = s.getW q) : t'.getW q = s'.getW q :=
    (State.getW_congr ht q).trans (hq.trans (State.getW_congr hs q).symm)
  cases w with
  | byte =>
    exact ⟨fun q hq => words q (h.1 q hq), fun q hq =>
      (State.getB_congr ht q).trans ((h.2 q hq).trans (State.getB_congr hs q).symm)⟩
  | word => exact fun q hq => words q (h q hq)

theorem exchanged_reg (s : State) (w : Width) (q r : RegNum) :
    exchanged s w (.reg q) r = (s.setReg w r (s.getReg w q)).setReg w q (s.getReg w r) := rfl

theorem exchanged_mem (s : State) (w : Width) (a : MemOp) (r : RegNum) :
    exchanged s w (.mem a) r = poke (s.setReg w r (valueOf s w (.mem a))) w (opSeg s a) (ea s a) (s.getReg w r) := rfl

theorem exchanged_frame (s : State) (w : Width) (m : RM) (r : RegNum) : OnlyExchanged s (exchanged s w m r) w m r := by
  have hsys : SameSystem s (exchanged s w m r) := (SameSystem.setReg ..).trans (.putPlace ..)
  cases m with
  | reg q =>
    rw [exchanged_reg] at hsys ⊢
    have hfirst := OnlyReg.setReg s w r (s.getReg w q)
    have hsecond := OnlyReg.setReg (s.setReg w r (s.getReg w q)) w q (s.getReg w r)
    refine ⟨hsys, by simp, by simp, State.load8_congr (by simp) (by simp) (by simp), ?_⟩
    cases w with
    | byte => exact ⟨hfirst.1.trans hsecond.1, fun x hr hq => (hsecond.2 x hq).trans (hfirst.2 x hr)⟩
    | word => exact RegsBut.trans hfirst hsecond
  | mem a =>
    rw [exchanged_mem] at hsys ⊢
    refine ⟨hsys, by simp, by simp, (OnlyReg.setReg s w r _).congr rfl (poke_regs ..), fun p hp => ?_⟩
    have hreg := SameSystem.setReg s w r (valueOf s w (.mem a))
    have hout : ¬ Touches (s.setReg w r (valueOf s w (.mem a))) w (opSeg s a) (ea s a) p := by
      rwa [Touches, segAddr_congr hreg.msw (hreg.seg _), segAddr_congr hreg.msw (hreg.seg _)]
    exact (load8_poke _ w (opSeg s a) (ea s a) _ hout).trans (State.load8_congr (by simp) (by simp) (by simp) p)

theorem exchanged_operand {s : State} (hm : PlainMemory s) (w : Width) (m : RM) (r : RegNum) :
    valueIn s (exchanged s w m r) w m = s.getReg w r := by
  cases m with
  | reg q => exact State.getReg_setReg ..
  | mem a => exact peek_poke _ w (opSeg s a) (ea s a) _ (hm.congr (by simp) (by simp))

theorem exchanged_register (s : State) (w : Width) (m : RM) (r : RegNum) :
    (exchanged s w m r).getReg w r = valueOf s w m := by
  cases m with
  | reg q =>
    by_cases h : r = q
    · subst h
      exact State.getReg_setReg ..
    · exact (State.getReg_setReg_ne _ w _ h).trans (State.getReg_setReg ..)
  | mem a => exact (State.getReg_congr (poke_regs ..) w r).trans (State.getReg_setReg ..)

theorem exec_xchgRmReg {s : State} {w : Width} {m : RM} (r : RegNum) (h : CanWrite s w m) :
    exec (.xchgRmReg w m r) s = .next (exchanged s w m r) := congrArg (finish s) (modifyRm_ok _ h)

/-- XCHG AX,rw is XCHG of AX, as an operand, and the register. -/
theorem exec_xchgAxReg (r : RegNum) (s : State) : exec (.xchgAxReg r) s = .next (exchanged s .word (.reg .r0) r) := rfl

/-- Two registers that change places can be named in either order. -/
theorem OnlyExchanged.symm {s t : State} {q r : RegNum} (h : OnlyExchanged s t .word (.reg q) r) :
    OnlyExchanged s t .word (.reg r) q := by
  obtain ⟨hsys, hip, hflags, hmem, hregs⟩ := h
  exact ⟨hsys, hip, hflags, hmem, RegsBut.mono hregs (by simp)⟩

/-- Settles O11: a move is one operand written, an exchange a register and an operand. -/
theorem movesAndExchanges : Obligations.MovesAndExchanges := by
  refine ⟨fun i o s hi hm hw hr => ?_, fun w m r s hm hw => ?_, fun r s => ?_⟩
  · obtain ⟨hvalue, honly, hflags⟩ := putPlace_spec (.refl s) rfl rfl rfl hm o.w o.dst (o.value s)
    exact ⟨_, exec_moveForm hi hw hr, hvalue, hflags, honly⟩
  · exact ⟨_, exec_xchgRmReg r hw, exchanged_operand hm w m r, exchanged_register s w m r, exchanged_frame s w m r⟩
  · exact ⟨_, exec_xchgAxReg r s, State.getReg_setReg _ .word .r0 (s.getW r), exchanged_register s .word (.reg .r0) r,
      (exchanged_frame ..).symm⟩

end Sys2Proof.Machine
end

section
/-! PROOFS. The stack instructions of 40_data_transfer.md: PUSH, PUSHF, PUSHA, POP, POPA, POPF; and LAHF and SAHF. -/

namespace Sys2Proof.Machine

/-! ### What stays -/

theorem SameMemory.trans {s t u : State} (h : SameMemory s t) (k : SameMemory t u) : SameMemory s u :=
  fun p => (k p).trans (h p)

theorem SameMemory.setW (s : State) (r : RegNum) (v : Word) : SameMemory s (s.setW r v) :=
  State.load8_congr (by simp) (by simp) (by simp)

theorem RegsBut.setW (s : State) (r : RegNum) (v : Word) : RegsBut s (s.setW r v) [r] := fun q hq =>
  State.getW_setW_ne s v (by simpa using hq)

/-- Nothing but general registers has been written; free values may have been drawn. -/
structure OnlyGeneral (s t : State) : Prop where
  system : SameSystem s t
  ip : t.ip = s.ip
  flags : t.flags = s.flags
  memory : SameMemory s t

theorem OnlyGeneral.refl (s : State) : OnlyGeneral s s := ⟨.refl s, rfl, rfl, fun _ => rfl⟩

theorem OnlyGeneral.trans {s t u : State} (h : OnlyGeneral s t) (k : OnlyGeneral t u) : OnlyGeneral s u :=
  ⟨h.system.trans k.system, k.ip.trans h.ip, k.flags.trans h.flags, h.memory.trans k.memory⟩

theorem OnlyGeneral.setW (s : State) (r : RegNum) (v : Word) : OnlyGeneral s (s.setW r v) :=
  ⟨.setW s r v, by simp, by simp, .setW s r v⟩

theorem OnlyGeneral.drawn (s : State) (n : Nat) : OnlyGeneral s (s.drawn n) :=
  ⟨.drawn s n, rfl, rfl, State.load8_congr rfl rfl rfl⟩

/-- What is read through a segment depends on memory and on the system part of the state. -/
theorem SameSystem.peek {s t : State} (h : SameSystem s t) (hm : SameMemory s t) (w : Width) (x : SReg) (o : Word) :
    peek t w x o = peek s w x o := by
  cases w <;> simp only [Machine.peek, peek16, peek8, segAddr_congr h.msw (h.seg x), hm _]

theorem OnlyGeneral.peek16 {s t : State} (h : OnlyGeneral s t) (x : SReg) (o : Word) : peek16 t x o = peek16 s x o :=
  h.system.peek h.memory .word x o

/-! ### PUSH and PUSHF -/

theorem finish_push {s : State} (v : Word) (h : CanPush s 1) : finish s (push s v) = .next (pushRaw s v) := by
  rw [push_ok v h, finish_ok]

theorem exec_pushForm {i : Instr} {o : Pushed} {s : State} (hi : pushForm i = some o) (hr : o.Ready s) (h : CanPush s 1) :
    exec i s = .next (pushRaw s (o.value s)) := by
  cases i with
  | pushSreg | pushReg | pushImm16 | pushImm8 =>
    cases hi
    exact finish_push _ h
  | pushRm m =>
    cases hi
    rw [exec, execPushRm, readRm_ok hr]
    exact finish_push _ h
  | _ => cases hi

theorem stackTop_pushRaw {s : State} (v : Word) (h : PlainMemory s) : stackTop (pushRaw s v) = v := by
  rw [stackTop, pushRaw_sp]
  exact peek16_pushRaw s v h

/-- The frame of a push: SP and the word pushed. -/
theorem pushRaw_frame (s : State) (v : Word) :
    (pushRaw s v).regs.sp = s.regs.sp - 2 ∧ (pushRaw s v).flags = s.flags ∧ SameSystem s (pushRaw s v) ∧
      (pushRaw s v).ip = s.ip ∧ RegsBut s (pushRaw s v) [.r4] ∧
      MemoryBut s (pushRaw s v) .word .ss (s.regs.sp - 2) := by
  refine ⟨by simp, by simp, .pushRaw s v, by simp, fun r hr => ?_, fun p hp => load8_pushRaw s v hp⟩
  have hregs : (pushRaw s v).regs = (s.setSp (s.regs.sp - 2)).regs := by simp
  exact (State.getW_congr hregs r).trans (RegsBut.setW s .r4 _ r hr)

/-- The defined flags read back from the image that PUSHF stores, whatever its undefined bits are (10_state.md R30, R31). -/
theorem Flags.ofWord_image (f : Flags) (u : Word) : Flags.ofWord (f.image u) = f := by
  have hiopl : (f.image u).extractLsb' 12 2 = f.iopl := by
    refine BitVec.eq_of_getLsbD_eq fun k hk => ?_
    rw [BitVec.getLsbD_extractLsb', Flags.image]
    obtain rfl | rfl : k = 0 ∨ k = 1 := by omega
    · simp only [BitVec.getLsbD_append, BitVec.getLsbD_ofBool]
      simp
    · simp only [BitVec.getLsbD_append, BitVec.getLsbD_ofBool]
      simp
  rw [Flags.ofWord, hiopl, Flags.image]
  simp only [BitVec.getLsbD_append, BitVec.getLsbD_ofBool]
  simp

theorem exec_pushf {s : State} (h : CanPush s 1) : exec .pushf s = .next ((pushRaw s s.flagsWord).drawn 1) := by
  rw [exec, execPushf, push_ok _ h]
  rfl

/-! ### POP -/

/-- The state after POP has put the top word into a register, or dropped it (40_data_transfer.md R244, R247, R249). -/
def popped (s : State) : Option RegNum → State
  | some r => (s.setSp (s.regs.sp + 2)).setW r (stackTop s)
  | none => s.setSp (s.regs.sp + 2)

theorem popInto_ok {s : State} (r : RegNum) (h : CanPopAt s 0) : popInto s r = .ok (popped s (some r)) := by
  rw [popInto, popWord_ok h]
  rfl

theorem popStep_ok {s : State} (o : Option RegNum) (h : CanPopAt s 0) : popStep s o = .ok (popped s o) := by
  cases o with
  | some r => exact popInto_ok r h
  | none => rw [popStep, popWord_ok h]; rfl

theorem OnlyGeneral.popped (s : State) (o : Option RegNum) : OnlyGeneral s (popped s o) := by
  have hsp := OnlyGeneral.setW s .r4 (s.regs.sp + 2)
  cases o with
  | some r => exact hsp.trans (.setW ..)
  | none => exact hsp

theorem popped_getW (s : State) (r : RegNum) : (popped s (some r)).getW r = stackTop s := State.getW_setW ..

theorem popped_sp (s : State) {o : Option RegNum} (h : o ≠ some .r4) : (popped s o).regs.sp = s.regs.sp + 2 := by
  cases o with
  | some r => exact State.getW_setW_ne (s.setSp (s.regs.sp + 2)) (q := .r4) _ fun hr => h (by rw [hr])
  | none => rfl

theorem popped_getW_ne (s : State) {o : Option RegNum} {q : RegNum} (hsp : q ≠ .r4) (h : o ≠ some q) :
    (popped s o).getW q = s.getW q := by
  have hmoved : (s.setSp (s.regs.sp + 2)).getW q = s.getW q := State.getW_setW_ne s _ hsp
  cases o with
  | some r => exact (State.getW_setW_ne _ _ fun hr => h (by rw [hr])).trans hmoved
  | none => exact hmoved

/-- The state after POP by 8F: the operand is written, then SP rises by 2 (R248). -/
def poppedRm (s : State) (m : RM) : State :=
  (putPlace s .word (place s m) (stackTop s)).setSp ((putPlace s .word (place s m) (stackTop s)).regs.sp + 2)

theorem exec_popRm {s : State} {m : RM} (h : CanPopAt s 0) (hw : CanWrite s .word m) :
    exec (.popRm m) s = .next (poppedRm s m) := by
  rw [exec, execPopRm, popWord_ok h, ok_bind', checkWrite_ok hw]
  rfl

theorem poppedRm_reg (s : State) (r : RegNum) :
    poppedRm s (.reg r) = (s.setW r (stackTop s)).setSp ((s.setW r (stackTop s)).regs.sp + 2) := rfl

theorem poppedRm_mem (s : State) (a : MemOp) :
    poppedRm s (.mem a) = (poke16 s (opSeg s a) (ea s a) (stackTop s)).setSp (s.regs.sp + 2) := by
  change (poke16 s _ _ _).setSp ((poke16 s _ _ _).regs.sp + 2) = _
  rw [poke16_regs]

theorem exec_popReg {s : State} (r : RegNum) (h : CanPopAt s 0) : exec (.popReg r) s = .next (popped s (some r)) := by
  rw [exec, execPopReg, popInto_ok r h, finish_ok]

theorem OnlyGeneral.poppedRm_reg (s : State) (r : RegNum) : OnlyGeneral s (poppedRm s (.reg r)) :=
  (OnlyGeneral.setW s r (stackTop s)).trans (.setW _ .r4 _)

theorem regsBut_popped (s : State) (r : RegNum) : RegsBut s (popped s (some r)) [.r4, r] :=
  RegsBut.trans (.setW s .r4 _) (.setW _ r _)

/-- POP by 8F to a register: a word popped into SP rises by 2 with it (R248, log 47). -/
theorem poppedRm_reg_facts (s : State) (r : RegNum) :
    (r ≠ .r4 → (poppedRm s (.reg r)).getW r = stackTop s ∧ (poppedRm s (.reg r)).regs.sp = s.regs.sp + 2) ∧
      (r = .r4 → (poppedRm s (.reg r)).regs.sp = stackTop s + 2) ∧ RegsBut s (poppedRm s (.reg r)) [.r4, r] := by
  rw [poppedRm_reg]
  refine ⟨fun hr => ⟨?_, ?_⟩, ?_, ?_⟩
  · exact (State.getW_setW_ne _ _ hr).trans (State.getW_setW ..)
  · exact congrArg (· + 2) (State.getW_setW_ne s (q := .r4) _ (Ne.symm hr))
  · rintro rfl
    rfl
  · exact (RegsBut.trans (.setW s r _) (.setW _ .r4 _)).mono (by simp)

/-- POP to memory: the word, SP, and nothing else (R248). -/
theorem poppedRm_mem_facts {s : State} (hm : PlainMemory s) (a : MemOp) :
    let t := poppedRm s (.mem a)
    valueIn s t .word (.mem a) = stackTop s ∧ t.regs.sp = s.regs.sp + 2 ∧ t.flags = s.flags ∧ SameSystem s t ∧
      t.ip = s.ip ∧ RegsBut s t [.r4] ∧ MemoryBut s t .word (opSeg s a) (ea s a) := by
  intro t
  have hpoke : t = (poke16 s (opSeg s a) (ea s a) (stackTop s)).setSp (s.regs.sp + 2) := poppedRm_mem s a
  have hsys : SameSystem s (poke16 s (opSeg s a) (ea s a) (stackTop s)) := .poke s .word _ _ _
  rw [hpoke]
  have hsp := OnlyGeneral.setW (poke16 s (opSeg s a) (ea s a) (stackTop s)) .r4 (s.regs.sp + 2)
  refine ⟨?_, rfl, rfl, hsys.trans hsp.system, rfl, fun q hq => ?_, fun p hp => ?_⟩
  · exact (hsp.peek16 ..).trans (peek16_poke16 s _ _ _ hm)
  · exact (RegsBut.setW _ .r4 _ q hq).trans (State.getW_congr (poke16_regs ..) q)
  · exact (hsp.memory p).trans (load8_poke s .word _ _ _ hp)

/-- Settles O12: the state after each push and pop, and its frame. -/
theorem pushAndPopMoveOneWord : Obligations.PushAndPopMoveOneWord := by
  refine ⟨fun i o s hi hm hr h => ?_, fun s hm h => ?_, fun i m s hi hm h hw => ?_⟩
  · exact ⟨_, exec_pushForm hi hr h, stackTop_pushRaw _ hm, pushRaw_frame s _⟩
  · obtain ⟨hsp, hflags, hsys, hip, hregs, hmem⟩ := pushRaw_frame s s.flagsWord
    have hdrawn := OnlyGeneral.drawn (pushRaw s s.flagsWord) 1
    have htop : stackTop ((pushRaw s s.flagsWord).drawn 1) = s.flagsWord :=
      (hdrawn.peek16 ..).trans (stackTop_pushRaw _ hm)
    refine ⟨_, exec_pushf h, ?_, hsp, hflags, hsys.trans hdrawn.system, hip, fun r hr => ?_, fun p hp => ?_⟩
    · rw [htop, State.flagsWord, Flags.ofWord_image]
    · exact (State.getW_congr rfl r).trans (hregs r hr)
    · exact (hdrawn.memory p).trans (hmem p hp)
  · cases i with
    | popReg r =>
      cases hi
      have hgen := OnlyGeneral.popped s (some r)
      exact ⟨_, exec_popReg r h, fun _ => popped_getW s r, fun hrm => (nomatch hrm),
        fun hne => popped_sp s fun hr => hne (by cases hr; rfl), hgen.flags, hgen.system, hgen.ip,
        regsBut_popped s r, hgen.memory⟩
    | popRm m' =>
      cases hi
      refine ⟨_, exec_popRm h hw, ?_⟩
      cases m with
      | reg r =>
        have hgen := OnlyGeneral.poppedRm_reg s r
        obtain ⟨hother, hsp, hregs⟩ := poppedRm_reg_facts s r
        exact ⟨fun hne => (hother fun hr => hne (by rw [hr])).1, fun heq => hsp (by cases heq; rfl),
          fun hne => (hother fun hr => hne (by rw [hr])).2, hgen.flags, hgen.system, hgen.ip, hregs, hgen.memory⟩
      | mem a =>
        obtain ⟨hvalue, hsp, hrest⟩ := poppedRm_mem_facts hm a
        exact ⟨fun _ => hvalue, fun heq => (nomatch heq), fun _ => hsp, hrest⟩
    | _ => cases hi

/-! ### POPF, LAHF and SAHF -/

/-- The flags that POPF leaves, said with its conditions on the mode and the privilege (R263). -/
theorem State.poppedFlags_eq (s : State) (v : Word) :
    s.poppedFlags v = { Flags.ofWord v with
      iopl := if s.msw.pe = true ∧ s.cpl = 0 then (Flags.ofWord v).iopl else s.flags.iopl
      nt := if s.msw.pe = true then (Flags.ofWord v).nt else s.flags.nt
      ief := if s.msw.pe = false ∨ s.cpl ≤ s.ioplNum then (Flags.ofWord v).ief else s.flags.ief } := by
  cases hp : s.msw.pe with
  | false => simp [State.poppedFlags, hp]
  | true => simp [State.poppedFlags, hp, Flags.ofWord]

theorem exec_popf {s : State} (h : CanPopAt s 0) :
    exec .popf s = .next ((s.setFlags (s.poppedFlags (stackTop s))).setSp (s.regs.sp + 2)) := by
  rw [exec, execPopf, popWord_ok h]
  rfl

/-- Settles O14: an unreadable top of the stack is the instruction's only test (O53); else the flags are loaded. -/
theorem popfLoadsFlags : Obligations.PopfLoadsFlags := by
  refine ⟨fun s h => ?_, fun s h => ?_⟩
  · exact refusedOperandsLeaveStateUnchanged .popf s [] [] .ss _ 2 .read rfl (fun c hc => nomatch hc) h
  · have hflags := SameSystem.setFlags s (s.poppedFlags (stackTop s))
    refine ⟨_, exec_popf h, s.poppedFlags_eq (stackTop s), rfl, hflags.trans (.setW _ .r4 _), rfl, ?_, ?_⟩
    · exact RegsBut.setW (s.setFlags _) .r4 _
    · exact SameMemory.setW (s.setFlags _) .r4 _

/-- The low byte of the image of FLAGS holds the five flags that LAHF copies (R264). -/
theorem loByte_flagsWord (s : State) :
    let b := loByte s.flagsWord
    b.getLsbD 7 = s.flags.sf ∧ b.getLsbD 6 = s.flags.zf ∧ b.getLsbD 4 = s.flags.af ∧ b.getLsbD 2 = s.flags.pf ∧
      b.getLsbD 0 = s.flags.cf := by
  have himage : Flags.ofWord s.flagsWord = s.flags := Flags.ofWord_image ..
  have hlow (k : Nat) (hk : k < 8) : (loByte s.flagsWord).getLsbD k = s.flagsWord.getLsbD k := by
    simp only [loByte, BitVec.getLsbD_extractLsb', hk, decide_true, Bool.true_and, Nat.zero_add]
  refine ⟨?_, ?_, ?_, ?_, ?_⟩
  · exact (hlow 7 (by decide)).trans (congrArg Flags.sf himage)
  · exact (hlow 6 (by decide)).trans (congrArg Flags.zf himage)
  · exact (hlow 4 (by decide)).trans (congrArg Flags.af himage)
  · exact (hlow 2 (by decide)).trans (congrArg Flags.pf himage)
  · exact (hlow 0 (by decide)).trans (congrArg Flags.cf himage)

/-- Settles O15: LAHF writes AH alone, SAHF flags alone. -/
theorem flagsMoveThroughAh : Obligations.FlagsMoveThroughAh := by
  refine ⟨fun s => ?_, fun s => ?_⟩
  · have hah : ((s.setB .r4 (loByte s.flagsWord)).drawn 1).ah = loByte s.flagsWord := State.getB_setB ..
    obtain ⟨hsf, hzf, haf, hpf, hcf⟩ := loByte_flagsWord s
    have honly : OnlyReg s (s.setB .r4 (loByte s.flagsWord)) .byte .r4 := OnlyReg.setReg s .byte .r4 _
    refine ⟨_, rfl, ?_⟩
    rw [hah]
    exact ⟨hsf, hzf, haf, hpf, hcf, by simp, (SameSystem.setB ..).trans (.drawn _ 1), by simp, honly.congr rfl rfl,
      State.load8_congr (by simp) (by simp) (by simp)⟩
  · exact ⟨_, rfl, rfl, rfl, rfl, rfl, rfl, rfl, ⟨rfl, rfl, rfl, rfl, rfl⟩, .setFlags s _, rfl,
      fun _ _ => rfl, fun _ => rfl⟩

end Sys2Proof.Machine
end

section
/-! PROOFS. PUSHA and POPA (40_data_transfer.md R246, R249): any run of pushes, and any run of pops into registers
other than SP, by induction on the words moved. -/

namespace Sys2Proof.Machine

/-! ### Runs of pushes -/

theorem pushAll_ok {s : State} {l : List Word} (h : CanPush s l.length) : pushAll s l = .ok (l.foldl pushRaw s) := by
  induction l generalizing s with
  | nil => rfl
  | cons v l ih =>
    have hfirst : CanPush s 1 := fun k h1 h2 => h k h1 (h2.trans (by simp))
    rw [pushAll, push_ok v hfirst]
    exact ih (h.pushRaw v)

theorem SameSystem.foldl_pushRaw (s : State) (l : List Word) : SameSystem s (l.foldl Machine.pushRaw s) := by
  induction l generalizing s with
  | nil => exact .refl s
  | cons v l ih => exact (SameSystem.pushRaw s v).trans (ih _)

/-- Only SP moves, by 2 with each word. -/
theorem foldl_pushRaw_registers (s : State) (l : List Word) :
    (l.foldl pushRaw s).regs = { s.regs with sp := s.regs.sp - BitVec.ofNat 16 (2 * l.length) } ∧
      (l.foldl pushRaw s).flags = s.flags ∧ (l.foldl pushRaw s).ip = s.ip := by
  induction l generalizing s with
  | nil => simp
  | cons v l ih =>
    obtain ⟨hregs, hflags, hip⟩ := ih (pushRaw s v)
    refine ⟨hregs.trans ?_, hflags.trans (pushRaw_flags s v), hip.trans (pushRaw_ip s v)⟩
    rw [pushRaw_regs, List.length_cons, ← sub_twice_add s.regs.sp 1 l.length]
    rfl

/-- The byte `k + 1` below SP after a push is the byte `k + 3` below SP before it. -/
theorem sub_two_sub (v : Word) (k : Nat) : v - 2 - BitVec.ofNat 16 (k + 1) = v - BitVec.ofNat 16 (k + 2 + 1) := by
  rw [BitVec.sub_sub, show k + 2 + 1 = 2 + (k + 1) by omega, BitVec.ofNat_add 2 (k + 1)]
  rfl

/-- The bytes below SP that the words take are all that changes. -/
theorem load8_foldl_pushRaw {s : State} {l : List Word} {p : Phys}
    (h : ∀ k, k < 2 * l.length → p ≠ segAddr s .ss (s.regs.sp - BitVec.ofNat 16 (k + 1))) :
    (l.foldl pushRaw s).load8 p = s.load8 p := by
  induction l generalizing s with
  | nil => rfl
  | cons v l ih =>
    rw [List.length_cons] at h
    have hrest : ∀ k, k < 2 * l.length →
        p ≠ segAddr (pushRaw s v) .ss ((pushRaw s v).regs.sp - BitVec.ofNat 16 (k + 1)) := fun k hk => by
      rw [segAddr_pushRaw, pushRaw_sp, sub_two_sub]
      exact h (k + 2) (by omega)
    have hword : ¬ Touches s .word .ss (s.regs.sp - 2) p := by
      rintro (hp | ⟨-, hp⟩)
      · exact h 1 (by omega) hp
      · have hhigh : s.regs.sp - 2 + 1 = s.regs.sp - BitVec.ofNat 16 (0 + 1) := by bv_omega
        exact h 0 (by omega) (hhigh ▸ hp)
    exact (ih hrest).trans (load8_pushRaw s v hword)

/-- Later pushes leave a word above SP alone, as long as they do not run round the segment. -/
theorem peek16_foldl_pushRaw_above {s : State} {l : List Word} (hl : 2 * l.length + 2 ≤ 2 ^ 16) :
    peek16 (l.foldl pushRaw s) .ss s.regs.sp = peek16 s .ss s.regs.sp := by
  have hbyte (j : Nat) (hj : j < 2) :
      (l.foldl pushRaw s).load8 (segAddr s .ss (s.regs.sp + BitVec.ofNat 16 j)) =
        s.load8 (segAddr s .ss (s.regs.sp + BitVec.ofNat 16 j)) :=
    load8_foldl_pushRaw fun k hk heq => by
      have hoff := segAddr_inj s .ss heq
      bv_omega
  have hsys := SameSystem.foldl_pushRaw s l
  have hlow := hbyte 0 (by decide)
  rw [show s.regs.sp + BitVec.ofNat 16 0 = s.regs.sp by simp] at hlow
  simp only [peek16, peek8, segAddr_congr hsys.msw (hsys.seg .ss), hlow]
  exact congrArg _ (hbyte 1 (by decide))

/-- Each word lies at its place below the old SP. -/
theorem peek16_foldl_pushRaw {s : State} (hm : PlainMemory s) {l : List Word} (hl : 2 * l.length ≤ 2 ^ 16) {k : Nat}
    {v : Word} (hv : l[k]? = some v) : peek16 (l.foldl pushRaw s) .ss (s.regs.sp - BitVec.ofNat 16 (2 * k + 2)) = v := by
  induction l generalizing s k with
  | nil => cases hv
  | cons u l ih =>
    rw [List.length_cons] at hl
    cases k with
    | zero =>
      cases hv
      have habove := peek16_foldl_pushRaw_above (s := pushRaw s v) (l := l) (by omega)
      rw [pushRaw_sp] at habove
      exact habove.trans (peek16_pushRaw s v hm)
    | succ k =>
      have hlater := ih (hm.pushRaw u) (by omega) hv
      rwa [pushRaw_sp, sub_two_sub s.regs.sp (2 * k + 1)] at hlater

/-- The words that PUSHA pushes, in their order (R246). -/
def generalRegisters (s : State) : List Word :=
  [s.regs.ax, s.regs.cx, s.regs.dx, s.regs.bx, s.regs.sp, s.regs.bp, s.regs.si, s.regs.di]

theorem generalRegisters_get (s : State) (r : RegNum) : (generalRegisters s)[r.bits.toNat]? = some (s.getW r) := by
  cases r <;> rfl

theorem exec_pusha {s : State} (h : CanPush s 8) : exec .pusha s = .next ((generalRegisters s).foldl pushRaw s) := by
  have hfirst : checkPushAt s 1 = .ok () := memCheck_ok (h 1 (by decide) (by decide))
  have hlast : checkPushAt s 8 = .ok () := memCheck_ok (h 8 (by decide) (by decide))
  have hall : pushAll s (generalRegisters s) = .ok _ := pushAll_ok h
  rw [exec, execPusha, hfirst, ok_bind', hlast, ok_bind', ← generalRegisters, hall, finish_ok]

/-! ### Runs of pops -/

/-- After one pop, the `k`-th word above SP is the next one above the old SP. -/
theorem add_two_add (v : Word) (k : Nat) : v + 2 + BitVec.ofNat 16 (2 * k) = v + BitVec.ofNat 16 (2 * (k + 1)) := by
  rw [BitVec.add_assoc, Nat.mul_succ, Nat.add_comm, BitVec.ofNat_add]
  rfl

theorem popAll_ok {s : State} {l : List (Option RegNum)} (hl : some .r4 ∉ l)
    (h : ∀ k, k < l.length → CanPopAt s (BitVec.ofNat 16 (2 * k))) : popAll s l = .ok (l.foldl popped s) := by
  induction l generalizing s with
  | nil => rfl
  | cons o l ih =>
    rw [List.mem_cons, not_or] at hl
    have hfirst : CanPopAt s 0 := h 0 (by simp)
    have hsys := (OnlyGeneral.popped s o).system
    rw [popAll, popStep_ok o hfirst]
    refine ih hl.2 fun k hk => ?_
    have hword := h (k + 1) (by simpa using hk)
    rwa [CanPopAt, Accessible.congr hsys.msw (hsys.seg .ss), popped_sp s (Ne.symm hl.1), add_two_add]

theorem OnlyGeneral.foldl_popped (s : State) (l : List (Option RegNum)) : OnlyGeneral s (l.foldl Machine.popped s) := by
  induction l generalizing s with
  | nil => exact .refl s
  | cons o l ih => exact (OnlyGeneral.popped s o).trans (ih _)

theorem foldl_popped_sp {s : State} {l : List (Option RegNum)} (hl : some .r4 ∉ l) :
    (l.foldl popped s).regs.sp = s.regs.sp + BitVec.ofNat 16 (2 * l.length) := by
  induction l generalizing s with
  | nil => simp
  | cons o l ih =>
    rw [List.mem_cons, not_or] at hl
    rw [List.foldl_cons, ih hl.2, popped_sp s (Ne.symm hl.1), add_two_add, List.length_cons]

theorem foldl_popped_getW_ne {s : State} {l : List (Option RegNum)} {q : RegNum} (hsp : q ≠ .r4) (hq : some q ∉ l) :
    (l.foldl popped s).getW q = s.getW q := by
  induction l generalizing s with
  | nil => rfl
  | cons o l ih =>
    rw [List.mem_cons, not_or] at hq
    exact (ih hq.2).trans (popped_getW_ne s hsp (Ne.symm hq.1))

/-- Each register named once takes the word of its place above the old SP. -/
theorem foldl_popped_getW {s : State} {l : List (Option RegNum)} (hl : some .r4 ∉ l) (hn : l.Nodup) {k : Nat} {r : RegNum}
    (hr : l[k]? = some (some r)) : (l.foldl popped s).getW r = peek16 s .ss (s.regs.sp + BitVec.ofNat 16 (2 * k)) := by
  have hsp : r ≠ .r4 := by
    rintro rfl
    exact hl (List.mem_of_getElem? hr)
  induction l generalizing s k with
  | nil => cases hr
  | cons o l ih =>
    rw [List.nodup_cons] at hn
    cases k with
    | zero =>
      cases hr
      rw [List.foldl_cons, foldl_popped_getW_ne hsp hn.1, popped_getW]
      simp [stackTop]
    | succ k =>
      rw [List.mem_cons, not_or] at hl
      rw [List.foldl_cons, ih hl.2 hn.2 hr, popped_sp s (Ne.symm hl.1), (OnlyGeneral.popped s o).peek16,
        add_two_add]

/-- Where POPA puts the words, from the top of the stack on (R249). -/
def popaTargets : List (Option RegNum) := [some .r7, some .r6, some .r5, none, some .r3, some .r2, some .r1, some .r0]

theorem exec_popa {s : State} (h : ∀ k, k < 8 → CanPopAt s (BitVec.ofNat 16 (2 * k))) :
    exec .popa s = .next (popaTargets.foldl popped s) := by
  have hfirst : memCheck s .ss s.regs.sp.toNat 2 .read = .ok () := memCheck_ok (by simpa [CanPopAt] using h 0 (by decide))
  have hlast : memCheck s .ss (s.regs.sp + 14).toNat 2 .read = .ok () := memCheck_ok (h 7 (by decide))
  have hall : popAll s popaTargets = .ok _ := popAll_ok (by decide) h
  rw [exec, execPopa, hfirst, ok_bind', hlast, ok_bind', ← popaTargets, hall, finish_ok]

/-- Settles O13: PUSHA is a run of eight pushes, POPA a run of eight pops. -/
theorem pushAllAndPopAll : Obligations.PushAllAndPopAll := by
  refine ⟨fun s hm h => ?_, fun s h => ?_⟩
  · obtain ⟨hregs, hflags, hip⟩ := foldl_pushRaw_registers s (generalRegisters s)
    refine ⟨_, exec_pusha h, fun r => ?_, by rw [hregs]; rfl, hflags, .foldl_pushRaw .., hip, fun r hr => ?_,
      fun p hp => ?_⟩
    · exact peek16_foldl_pushRaw hm (by simp [generalRegisters]) (generalRegisters_get s r)
    · exact (State.getW_congr (s := s.setSp _) hregs r).trans (RegsBut.setW s .r4 _ r hr)
    · exact load8_foldl_pushRaw hp
  · have hgen := OnlyGeneral.foldl_popped s popaTargets
    refine ⟨_, exec_popa h, fun r hr => ?_, foldl_popped_sp (by decide), hgen.flags, hgen.system, hgen.ip, hgen.memory⟩
    have hplace : popaTargets[7 - r.bits.toNat]? = some (some r) := by
      cases r with
      | r4 => exact absurd rfl hr
      | _ => rfl
    rw [foldl_popped_getW (by decide) (by decide) hplace, Nat.mul_sub]

end Sys2Proof.Machine
end

section
/-! PROOFS. Transfers through a port, by IN and OUT and by an iteration of INS and OUTS (40_data_transfer.md R257, R258;
43_string.md R356, R357, R360; 20_memory.md R94). -/

namespace Sys2Proof.Machine

/-! ### The privilege test -/

theorem needIopl_ok {s : State} (h : IoAllowed s) : needIopl s = .ok () := need_ok _ (ioTest_of_allowed h)

theorem needIopl_error {s : State} (h : ¬ IoAllowed s) : needIopl s = .error (protection 0) := by
  obtain ⟨hp, hcpl⟩ := Classical.not_imp.1 h
  exact need_error _ (by simpa [hp] using hcpl)

/-! ### The I/O record -/

/-- The bus operations of one access, put before the record, are an access to the port (20_memory.md R94). -/
theorem portAccess_ioOperations (old : List IoEvent) (output : Bool) (w : Width) (port v : Word) :
    PortAccess old ((ioOperations output w port v).reverse ++ old) output w port v := by
  refine ⟨fun h => ?_, fun h => ?_⟩
  · rw [OddPortWord, ← ioSplit_iff] at h
    rw [ioOperations, if_neg h]
    rfl
  · rw [OddPortWord, ← ioSplit_iff] at h
    rw [ioOperations, if_pos h]
    have hzext (b : Byte) : (zextByte b).toNat = b.toNat := BitVec.toNat_setWidth_of_le (by decide)
    exact ⟨_, _, rfl, (hzext _).trans (loByte_toNat v), (hzext _).trans (hiByte_toNat v)⟩

theorem portAccess_ioRead (s : State) (w : Width) (port : Word) :
    PortAccess s.io (ioRead s w port).2.io false w port ((ioRead s w port).1.setWidth 16) := portAccess_ioOperations ..

theorem portAccess_ioWrite (s : State) (w : Width) (port : Word) (v : Val w) :
    PortAccess s.io (ioWrite s w port v).io true w port (v.setWidth 16) := portAccess_ioOperations ..

theorem portAnswers_ioRead (s : State) (w : Width) (port : Word) : PortAnswers s w port (ioRead s w port).1 := by
  refine ⟨fun h => ?_, fun h => ?_⟩
  · exact ioRead_whole s w port fun hsplit => h ((ioSplit_iff ..).1 hsplit)
  · obtain ⟨rfl, hodd⟩ := h
    rw [ioRead_split s port ((ioSplit_iff ..).2 ⟨rfl, hodd⟩), wordOf_toNat, loByte_toNat, loByte_toNat, Nat.mul_comm]

/-- Nothing but the I/O record and memory has been written. -/
structure OnlyPortUsed (s u : State) : Prop where
  regs : u.regs = s.regs
  flags : u.flags = s.flags
  ip : u.ip = s.ip
  system : SameButIo s u

theorem OnlyPortUsed.ioRead (s : State) (w : Width) (port : Word) : OnlyPortUsed s (ioRead s w port).2 :=
  ⟨rfl, rfl, rfl, by constructor <;> rfl⟩

theorem OnlyPortUsed.ioWrite (s : State) (w : Width) (port : Word) (v : Val w) : OnlyPortUsed s (ioWrite s w port v) :=
  ⟨rfl, rfl, rfl, by constructor <;> rfl⟩

theorem SameButIo.trans {s t u : State} (h : SameButIo s t) (k : SameSystem t u) : SameButIo s u := by
  unfold SameButIo
  rw [k.io]
  exact SameSystem.trans h k

/-! ### IN and OUT -/

theorem portIn_ok {s : State} (w : Width) (port : Word) (h : IoAllowed s) :
    portIn s w port = .ok ((ioRead s w port).2.setAcc w (ioRead s w port).1) := by
  rw [portIn, needIopl_ok h]
  rfl

theorem portOut_ok {s : State} (w : Width) (port : Word) (h : IoAllowed s) :
    portOut s w port = .ok (ioWrite s w port (s.acc w)) := by
  rw [portOut, needIopl_ok h]
  rfl

/-- The four forms of IN and OUT are a read or a write of their port. -/
theorem exec_portForm {i : Instr} {out : Bool} {w : Width} {port : Word} {s : State}
    (hi : portForm s i = some (out, w, port)) :
    exec i s = finish s (if out = true then portOut s w port else portIn s w port) := by
  cases i with
  | inImm | inDx | outImm | outDx =>
    cases hi
    rfl
  | _ => cases hi

theorem portForm_refused {i : Instr} {out : Bool} {w : Width} {port : Word} {s : State}
    (hi : portForm s i = some (out, w, port)) (h : ¬ IoAllowed s) : TakesException i s 13 (some 0) := by
  rw [TakesException, exec_portForm hi, portOut, portIn, needIopl_error h]
  cases out <;> rfl

/-! ### Iterations -/

/-- The state at the end of an iteration, from the state in which its element has been moved (43_string.md R360, R361). -/
def endIteration (s : State) (compares : Bool) (u : State) : State :=
  match s.cur.rep with
  | none => u
  | some k =>
    if s.regs.cx = 1 || (compares && repeatEnds k u.flags.zf) then u.setW .r1 (s.regs.cx - 1)
    else (u.setW .r1 (s.regs.cx - 1)).setIp s.cur.ip

theorem endIteration_none {s : State} (compares : Bool) (u : State) (h : s.cur.rep = none) :
    endIteration s compares u = u := by rw [endIteration, h]

theorem endIteration_some {s : State} {k : RepKind} (compares : Bool) (u : State) (h : s.cur.rep = some k) :
    endIteration s compares u =
      if s.regs.cx = 1 || (compares && repeatEnds k u.flags.zf) then u.setW .r1 (s.regs.cx - 1)
      else (u.setW .r1 (s.regs.cx - 1)).setIp s.cur.ip := by rw [endIteration, h]

theorem stringRun_ok {s u : State} {compares : Bool} {prim : M State} (hi : Iterates s) (h : prim = .ok u) :
    stringRun s compares prim = .ok (endIteration s compares u) := by
  subst h
  cases hrep : s.cur.rep with
  | none => rw [stringRun, hrep, endIteration_none compares u hrep]
  | some k =>
    have hcx : s.regs.cx ≠ 0 := hi.resolve_left (by simp [hrep])
    simp only [stringRun, hrep, if_neg hcx, endIteration_some compares u hrep]
    rfl

theorem stringRun_error {s : State} {compares : Bool} {prim : M State} {e : Stop} (hi : Iterates s) (h : prim = .error e) :
    stringRun s compares prim = .error e := by
  subst h
  cases hrep : s.cur.rep with
  | none => rw [stringRun, hrep]
  | some k =>
    have hcx : s.regs.cx ≠ 0 := hi.resolve_left (by simp [hrep])
    simp only [stringRun, hrep, if_neg hcx]
    rfl

theorem repeatEnds_iff (k : RepKind) (zf : Bool) : repeatEnds k zf = true ↔ ComparisonEnds k zf := by
  cases k <;> simp [repeatEnds, ComparisonEnds]

/-- The end of an iteration writes CX and IP alone. -/
structure OnlyIterated (u t : State) : Prop where
  system : SameSystem u t
  flags : t.flags = u.flags
  regs : RegsBut u t [.r1]
  memory : SameMemory u t

theorem onlyIterated_endIteration (s : State) (compares : Bool) (u : State) :
    OnlyIterated u (endIteration s compares u) := by
  have hcx := OnlyGeneral.setW u .r1 (s.regs.cx - 1)
  have hregs := RegsBut.setW u .r1 (s.regs.cx - 1)
  unfold endIteration
  split
  · exact ⟨.refl u, rfl, fun _ _ => rfl, fun _ => rfl⟩
  · split
    · exact ⟨hcx.system, hcx.flags, hregs, hcx.memory⟩
    · have hip : SameSystem (u.setW .r1 (s.regs.cx - 1)) ((u.setW .r1 (s.regs.cx - 1)).setIp s.cur.ip) := by
        constructor <;> rfl
      exact ⟨hcx.system.trans hip, hcx.flags, fun r hr => (State.getW_congr rfl r).trans (hregs r hr),
        hcx.memory.trans (State.load8_congr rfl rfl rfl)⟩

/-- How an iteration ends, when the move of its element has left CX and IP alone (R360, R361). -/
theorem iterationEnds_endIteration {s u : State} (compares : Bool) (hcx : u.regs.cx = s.regs.cx) (hip : u.ip = s.ip) :
    IterationEnds s (endIteration s compares u) compares := by
  have hflags : (endIteration s compares u).flags = u.flags := (onlyIterated_endIteration s compares u).flags
  unfold IterationEnds
  cases hrep : s.cur.rep with
  | none =>
    rw [endIteration_none compares u hrep]
    exact ⟨hcx, hip⟩
  | some k =>
    have hends : (s.regs.cx = 1 || (compares && repeatEnds k u.flags.zf)) = true ↔
        s.regs.cx = 1 ∨ (compares = true ∧ ComparisonEnds k u.flags.zf) := by
      rw [Bool.or_eq_true, Bool.and_eq_true, repeatEnds_iff, decide_eq_true_eq]
    simp only [hflags, ← hends]
    rw [endIteration_some compares u hrep]
    refine ⟨?_, fun h => ?_, fun h => ?_⟩
    · split <;> rfl
    · rw [if_pos h]
      exact (State.setW_ip ..).trans hip
    · rw [if_neg h]
      rfl

/-! ### INS and OUTS -/

/-- The end of an iteration that has used a port and moved the index register `r`. -/
theorem portIteration_frame {s u : State} (hu : OnlyPortUsed s u) {r : RegNum} (hr : r ≠ .r1) (v : Word) :
    let t := endIteration s false (u.setW r v)
    t.getW r = v ∧ IterationEnds s t false ∧ t.flags = s.flags ∧ SameButIo s t ∧ RegsBut s t [.r1, r] ∧
      SameSystem u t ∧ SameMemory u t := by
  intro t
  have hmoved := OnlyGeneral.setW u r v
  have hend := onlyIterated_endIteration s false (u.setW r v)
  have hsys : SameSystem u t := hmoved.system.trans hend.system
  have hother (q : RegNum) (hq : q ≠ r) : (u.setW r v).getW q = s.getW q :=
    (State.getW_setW_ne u v hq).trans (State.getW_congr hu.regs q)
  have hregs : RegsBut s (u.setW r v) [r] := fun q hq => hother q (by simpa using hq)
  refine ⟨?_, iterationEnds_endIteration false (hother .r1 hr.symm) (hmoved.ip.trans hu.ip),
    hend.flags.trans (hmoved.flags.trans hu.flags), hu.system.trans hsys, (hregs.trans hend.regs).mono (by simp), hsys,
    hmoved.memory.trans hend.memory⟩
  exact (hend.regs r (by simpa using hr)).trans (State.getW_setW ..)

/-- The state in which INS has stored its element, DI not moved yet (R356). -/
def received (s : State) (w : Width) : State :=
  poke (ioRead s w s.regs.dx).2 w .es s.regs.di (ioRead s w s.regs.dx).1

theorem received_onlyPortUsed (s : State) (w : Width) : OnlyPortUsed s (received s w) :=
  ⟨poke_regs .., poke_flags .., poke_ip .., (OnlyPortUsed.ioRead s w _).system.trans (.poke ..)⟩

theorem peek_received {s : State} (hm : PlainMemory s) (w : Width) :
    peek (received s w) w .es s.regs.di = (ioRead s w s.regs.dx).1 := peek_poke _ w .es s.regs.di _ (hm.congr rfl rfl)

theorem received_memoryBut (s : State) (w : Width) : MemoryBut s (received s w) w .es s.regs.di := fun p hp =>
  (load8_poke (ioRead s w s.regs.dx).2 w .es s.regs.di _ hp).trans (State.load8_congr rfl rfl rfl p)

theorem stepDi_received (s : State) (w : Width) :
    stepDi (received s w) w = (received s w).setW .r7 (s.regs.di + stringStep s w) := by
  have hu := received_onlyPortUsed s w
  rw [stepDi, delta, hu.regs, hu.flags]
  rfl

theorem exec_ins {s : State} {w : Width} (hi : Iterates s) (hio : IoAllowed s)
    (ha : Accessible s .es s.regs.di.toNat w.bytes .write) :
    exec (.ins w) s = .next (endIteration s false ((received s w).setW .r7 (s.regs.di + stringStep s w))) := by
  rw [exec, execIns, needIopl_ok hio, ok_bind', memCheck_ok ha, ok_bind', ← stepDi_received]
  exact congrArg (finish s) (stringRun_ok hi rfl)

theorem exec_outs {s : State} {w : Width} (hi : Iterates s) (hio : IoAllowed s) (ha : SourceReadable s w) :
    exec (.outs w) s = .next
      (endIteration s false ((ioWrite s w s.regs.dx (stringSource s w)).setW .r6 (s.regs.si + stringStep s w))) := by
  rw [exec, execOuts, needIopl_ok hio, ok_bind', srcSeg, memRead_ok ha, ok_bind']
  exact congrArg (finish s) (stringRun_ok hi rfl)

/-- An iteration that begins with the privilege test raises #GP(0) when it fails (R356, R357, 60_exceptions.md R590). -/
theorem portIteration_refused {s : State} {i : Instr} {f : Unit → M State}
    (he : exec i s = finish s (stringRun s false (needIopl s >>= f))) (hi : Iterates s) (h : ¬ IoAllowed s) :
    TakesException i s 13 (some 0) := by
  have hprim : (needIopl s >>= f) = .error (protection 0) := by rw [needIopl_error h]; rfl
  rw [TakesException, he, stringRun_error hi hprim]
  rfl

/-- IN and OUT with the privilege: the access is recorded, and the accumulator is handed over or loaded. -/
theorem portForm_allowed {i : Instr} {out : Bool} {w : Width} {port : Word} {s : State}
    (hi : portForm s i = some (out, w, port)) (h : IoAllowed s) :
    ∃ t, exec i s = .next t ∧ t.flags = s.flags ∧ SameButIo s t ∧ t.ip = s.ip ∧ SameMemory s t ∧
      (out = true → PortAccess s.io t.io true w port ((s.acc w).setWidth 16) ∧ RegsBut s t []) ∧
      (out = false → PortAnswers s w port (t.acc w) ∧ PortAccess s.io t.io false w port ((t.acc w).setWidth 16) ∧
        OnlyReg s t w .r0) := by
  rw [exec_portForm hi]
  cases out with
  | true =>
    rw [if_pos rfl, portOut_ok w port h]
    exact ⟨_, rfl, rfl, (OnlyPortUsed.ioWrite s w port _).system, rfl, State.load8_congr rfl rfl rfl,
      fun _ => ⟨portAccess_ioWrite s w port _, fun _ _ => rfl⟩, fun h => nomatch h⟩
  | false =>
    rw [if_neg Bool.false_ne_true, portIn_ok w port h]
    have hacc : ((ioRead s w port).2.setAcc w (ioRead s w port).1).acc w = (ioRead s w port).1 := State.getReg_setReg ..
    refine ⟨_, rfl, by simp, (OnlyPortUsed.ioRead s w port).system.trans (.setReg ..), by simp,
      State.load8_congr (by simp) (by simp) (by simp), fun h => (nomatch h), fun _ => ?_⟩
    rw [hacc, State.setAcc_io]
    exact ⟨portAnswers_ioRead s w port, portAccess_ioRead s w port,
      (OnlyReg.setReg (ioRead s w port).2 w .r0 _).congr rfl rfl⟩

/-- Settles O20: IN and OUT, then INS and OUTS as the end of an iteration that has used its port. -/
theorem portTransfers : Obligations.PortTransfers := by
  refine ⟨fun i out w port s hi => ⟨portForm_refused hi, portForm_allowed hi⟩, fun w s hi hio => ?_,
    fun w s hm hi hio ha => ?_, fun w s hi hio ha => ?_⟩
  · exact ⟨portIteration_refused rfl hi hio, portIteration_refused rfl hi hio⟩
  · obtain ⟨hdi, hends, hflags, hbut, hregs, hsys, hmem⟩ :=
      portIteration_frame (received_onlyPortUsed s w) (r := .r7) (by decide) (s.regs.di + stringStep s w)
    refine ⟨_, exec_ins hi hio ha, ?_⟩
    have hio' : (received s w).io = (ioRead s w s.regs.dx).2.io := poke_io ..
    rw [hsys.peek hmem, peek_received hm, hsys.io, hio']
    exact ⟨portAnswers_ioRead s w _, portAccess_ioRead s w _, hdi, hends, hflags, hbut, hregs,
      fun p hp => (hmem p).trans (received_memoryBut s w p hp)⟩
  · obtain ⟨hsi, hends, hflags, hbut, hregs, hsys, hmem⟩ :=
      portIteration_frame (.ioWrite s w s.regs.dx (stringSource s w)) (r := .r6) (by decide) (s.regs.si + stringStep s w)
    refine ⟨_, exec_outs hi hio ha, ?_⟩
    rw [hsys.io]
    exact ⟨portAccess_ioWrite s w s.regs.dx _, hsi, hends, hflags, hbut, hregs,
      SameMemory.trans (State.load8_congr rfl rfl rfl) hmem⟩

end Sys2Proof.Machine
end

section
/-! PROOFS. A step runs the instruction at CS:IP (40_data_transfer.md R240, 30_encoding.md R180): that of an instruction
behind prefixes, with none, since every encoding fits in ten bytes (R181). -/

namespace Sys2Proof.Machine

theorem length_wordBytes (v : Word) : (wordBytes v).length = 2 := rfl

/-- The mod-reg-r/m byte and at most two bytes of displacement. -/
theorem length_modRM_le (k : BitVec 3) (m : RM) : (modRM k m).length ≤ 3 := by
  cases m with
  | reg r => exact Nat.le_of_ble_eq_true rfl
  | mem a => cases a <;> exact Nat.le_of_ble_eq_true rfl

theorem length_immBytes_le (v : Imm) : v.bytes.length ≤ 2 := by cases v <;> exact Nat.le_of_ble_eq_true rfl

/-- An opcode byte and its operand. -/
theorem length_operand_le (op : Byte) (k : BitVec 3) (m : RM) : (op :: modRM k m).length ≤ 4 :=
  Nat.succ_le_succ (length_modRM_le k m)

/-- An opcode byte, its operand and an immediate. -/
theorem length_operand_append_le (op : Byte) (k : BitVec 3) (m : RM) {l : List Byte} (h : l.length ≤ 2) :
    (op :: modRM k m ++ l).length ≤ 6 := by
  rw [List.length_append]
  exact Nat.add_le_add (length_operand_le op k m) h

/-- No instruction has more than six bytes without its prefixes (30_encoding.md R181). -/
theorem length_encode_le (i : Instr) : (encode i).length ≤ 6 := by
  cases i with
  | addRmImm | orRmImm | adcRmImm | sbbRmImm | andRmImm | subRmImm | xorRmImm | cmpRmImm | movRmImm | testRmImm =>
    exact length_operand_append_le _ _ _ (length_immBytes_le _)
  | addRm8Imm82 | addRmSext | adcRm8Imm82 | adcRmSext | sbbRm8Imm82 | sbbRmSext | subRm8Imm82 | subRmSext | cmpRm8Imm82
  | cmpRmSext | imulRegRmImm8 | rolImm | rorImm | rclImm | rcrImm | shlImm | shrImm | sarImm =>
    exact length_operand_append_le _ _ _ (l := [_]) (Nat.le_of_ble_eq_true rfl)
  | imulRegRmImm16 => exact length_operand_append_le _ _ _ (length_wordBytes _).le
  | addRmReg | addRegRm | orRmReg | orRegRm | adcRmReg | adcRegRm | sbbRmReg | sbbRegRm | andRmReg | andRegRm | subRmReg
  | subRegRm | xorRmReg | xorRegRm | cmpRmReg | cmpRegRm | bound | arpl | testRmReg | xchgRmReg | movRmReg | movRegRm
  | movRmSreg | lea | movSregRm | popRm | rolOne | rolCl | rorOne | rorCl | rclOne | rclCl | rcrOne | rcrCl | shlOne
  | shlCl | shrOne | shrCl | sarOne | sarCl | les | lds | esc | notRm | negRm | mulRm | imulRm | divRm | idivRm | incRm
  | decRm | callRm | callFarMem | jmpRm | jmpFarMem | pushRm =>
    exact (length_operand_le ..).trans (by decide)
  | sldt | str | lldt | ltr | verr | verw | sgdt | sidt | lgdt | lidt | smsw | lmsw | lar | lsl =>
    exact (Nat.succ_le_succ (length_operand_le ..)).trans (by decide)
  | addAccImm | orAccImm | adcAccImm | sbbAccImm | andAccImm | subAccImm | xorAccImm | cmpAccImm | testAccImm | movRegImm =>
    exact Nat.succ_le_succ ((length_immBytes_le _).trans (by decide))
  -- opcode and immediates alone: a list of known length
  | _ => exact Nat.le_of_ble_eq_true rfl

/-- Settles O44: the case of O45 without prefixes. -/
theorem stepRunsDecodedInstruction : Obligations.StepRunsDecodedInstruction := by
  intro s i he hq hw hi hs hcode
  exact stepRunsPrefixedInstruction s [] i he hq hw hi (fun p hp => nomatch hp) hs
    ((length_encode_le i).trans (by decide)) hcode (fun h => nomatch h)

end Sys2Proof.Machine
end

section
/-! PROOFS. Additions, subtractions and comparisons (41_arithmetic.md R280 to R287, R292; 42_logic.md R324, R325): every
form ends with its flags and its destination written, or its flags alone; what these are in whole numbers is said
once. -/

namespace Sys2Proof.Machine

/-! ### Writing flags and one operand -/

/-- The end of an arithmetic operation on an operand: its flags, then its result. -/
def written (s : State) (w : Width) (m : RM) (f : Flags) (v : Val w) : State := putPlace (s.setFlags f) w (place s m) v

theorem written_spec {s : State} (h : PlainMemory s) (w : Width) (m : RM) (f : Flags) (v : Val w) :
    valueIn s (written s w m f v) w m = v ∧ OnlyOperand s (written s w m f v) w m ∧ (written s w m f v).flags = f :=
  putPlace_spec (.setFlags s f) rfl rfl rfl h w m v

theorem OnlyFlags.setFlags (s : State) (f : Flags) : OnlyFlags s (s.setFlags f) :=
  ⟨.setFlags s f, rfl, fun _ _ => rfl, fun _ => rfl⟩

theorem OnlyFlags.drawn {s t : State} (h : OnlyFlags s t) (n : Nat) : OnlyFlags s (t.drawn n) := by
  obtain ⟨hsys, hip, hregs, hmem⟩ := h
  exact ⟨hsys.trans (.drawn t n), hip, hregs, hmem⟩

theorem finish_modifyRm {s : State} {w : Width} {m : RM} (f : State → Val w → Val w × State) (h : CanWrite s w m) :
    finish s (modifyRm s w m f) = .next (putPlace (f s (valueOf s w m)).2 w (place s m) (f s (valueOf s w m)).1) := by
  rw [modifyRm_ok f h, finish_ok]

theorem finish_aluToReg {s : State} {w : Width} {m : RM} (op : AluOp) (r : RegNum) (h : CanRead s w m) :
    finish s (aluToReg op s w r m) =
      .next (putPlace (op w s (s.getReg w r) (valueOf s w m)).2 w (.reg r)
        (op w s (s.getReg w r) (valueOf s w m)).1) := by
  rw [aluToReg_ok op h, finish_ok]
  rfl

theorem finish_aluTest {s : State} {w : Width} {m : RM} (op : AluOp) (b : Val w) (h : CanRead s w m) :
    finish s (aluTest op s w m b) = .next (op w s (valueOf s w m) b).2 := by
  rw [aluTest_ok op b h, finish_ok]

/-! ### The flags in whole numbers -/

theorem Flags.add_control (f : Flags) (w : Width) (a b : Val w) (c : Bool) : SameControlFlags f (f.add w a b c) :=
  ⟨rfl, rfl, rfl, rfl, rfl⟩

theorem Flags.sub_control (f : Flags) (w : Width) (a b : Val w) (c : Bool) : SameControlFlags f (f.sub w a b c) :=
  ⟨rfl, rfl, rfl, rfl, rfl⟩

theorem Flags.sub_subtractionFlags (f : Flags) (w : Width) (a b : Val w) (c : Bool) :
    SubtractionFlags (f.sub w a b c) w a b (bit c) := ⟨rfl, rfl, sub_of w f a b c⟩

/-- What was subtracted, added again, gives the first operand. -/
theorem subRes_add_toNat (w : Width) (a b : Val w) (c : Bool) :
    ((subRes w a b c).toNat + b.toNat + bit c) % 2 ^ w.bits = a.toNat := by
  have hadd : addRes w (subRes w a b c) b c = a := by simp only [addRes, subRes]; abel
  rw [← addRes_toNat, hadd]

/-! ### ADD, ADC, SUB, SBB -/

/-- The carry or borrow that goes into a two-operand instruction. -/
def TwoOp.carryBit (o : TwoOp) (s : State) : Bool := o.carry && s.flags.cf

theorem TwoOp.carryIn_eq (o : TwoOp) (s : State) : o.carryIn s = bit (o.carryBit s) := rfl

theorem exec_additionForm {i : Instr} {o : TwoOp} {s : State} (hi : additionForm i = some o) (hw : CanWrite s o.w o.dst)
    (hr : o.SecondReadable s) :
    exec i s = .next (written s o.w o.dst (s.flags.add o.w (valueOf s o.w o.dst) (o.second s) (o.carryBit s))
      (addRes o.w (valueOf s o.w o.dst) (o.second s) (o.carryBit s))) := by
  cases i with
  | addRmReg | addRmImm | addRm8Imm82 | addRmSext | adcRmReg | adcRmImm | adcRm8Imm82 | adcRmSext =>
    cases hi
    exact finish_modifyRm _ hw
  | addRegRm | adcRegRm =>
    cases hi
    exact finish_aluToReg _ _ hr
  | addAccImm | adcAccImm =>
    cases hi
    rfl
  | _ => cases hi

theorem exec_subtractionForm {i : Instr} {o : TwoOp} {s : State} (hi : subtractionForm i = some o)
    (hw : CanWrite s o.w o.dst) (hr : o.SecondReadable s) :
    exec i s = .next (written s o.w o.dst (s.flags.sub o.w (valueOf s o.w o.dst) (o.second s) (o.carryBit s))
      (subRes o.w (valueOf s o.w o.dst) (o.second s) (o.carryBit s))) := by
  cases i with
  | subRmReg | subRmImm | subRm8Imm82 | subRmSext | sbbRmReg | sbbRmImm | sbbRm8Imm82 | sbbRmSext =>
    cases hi
    exact finish_modifyRm _ hw
  | subRegRm | sbbRegRm =>
    cases hi
    exact finish_aluToReg _ _ hr
  | subAccImm | sbbAccImm =>
    cases hi
    rfl
  | _ => cases hi

/-- Settles O1: every form writes its flags and its sum. -/
theorem additionWritesSum : Obligations.AdditionWritesSum := by
  intro i o s hi hm hw hr
  obtain ⟨hvalue, honly, hflags⟩ := written_spec hm o.w o.dst
    (s.flags.add o.w (valueOf s o.w o.dst) (o.second s) (o.carryBit s))
    (addRes o.w (valueOf s o.w o.dst) (o.second s) (o.carryBit s))
  refine ⟨_, exec_additionForm hi hw hr, ?_⟩
  simp only [hvalue, hflags, o.carryIn_eq]
  exact ⟨addRes_toNat .., rfl, rfl, add_of .., add_status .., Flags.add_control .., honly⟩

/-- Settles O2: every form writes its flags and its difference. -/
theorem subtractionWritesDifference : Obligations.SubtractionWritesDifference := by
  intro i o s hi hm hw hr
  obtain ⟨hvalue, honly, hflags⟩ := written_spec hm o.w o.dst
    (s.flags.sub o.w (valueOf s o.w o.dst) (o.second s) (o.carryBit s))
    (subRes o.w (valueOf s o.w o.dst) (o.second s) (o.carryBit s))
  refine ⟨_, exec_subtractionForm hi hw hr, ?_⟩
  simp only [hvalue, hflags, o.carryIn_eq]
  exact ⟨subRes_add_toNat .., Flags.sub_subtractionFlags .., sub_status .., Flags.sub_control .., honly⟩

/-! ### CMP and TEST -/

theorem exec_compareForm {i : Instr} {o : TwoOp} {s : State} (hi : compareForm i = some o) (hd : CanRead s o.w o.dst)
    (hr : o.SecondReadable s) :
    exec i s = .next (aluSub o.w s (valueOf s o.w o.dst) (o.second s)).2 := by
  cases i with
  | cmpRmReg | cmpRmImm | cmpRm8Imm82 | cmpRmSext =>
    cases hi
    exact finish_aluTest aluSub _ hd
  | cmpRegRm w r m =>
    cases hi
    rw [exec, execCmpRegRm, readRm_ok hr]
    rfl
  | cmpAccImm =>
    cases hi
    rfl
  | _ => cases hi

theorem exec_testForm {i : Instr} {o : TwoOp} {s : State} (hi : testForm i = some o) (hd : CanRead s o.w o.dst) :
    exec i s = .next (aluAnd o.w s (valueOf s o.w o.dst) (o.second s)).2 := by
  cases i with
  | testRmReg | testRmImm =>
    cases hi
    exact finish_aluTest aluAnd _ hd
  | testAccImm =>
    cases hi
    rfl
  | _ => cases hi

/-- Settles O3: CMP leaves the flags of the difference, TEST those of the AND. -/
theorem compareAndTestSetFlagsOnly : Obligations.CompareAndTestSetFlagsOnly := by
  refine ⟨fun i o s hi hd hr => ?_, fun i o s hi hd hr => ?_⟩
  · have hdiff := subRes_add_toNat o.w (valueOf s o.w o.dst) (o.second s) false
    exact ⟨_, exec_compareForm hi hd hr, subRes o.w (valueOf s o.w o.dst) (o.second s) false, hdiff,
      Flags.sub_subtractionFlags .., sub_status .., Flags.sub_control .., .setFlags s _⟩
  · exact ⟨_, exec_testForm hi hd, valueOf s o.w o.dst &&& o.second s, fun k => BitVec.getLsbD_and, rfl, rfl,
      logic_status .., ⟨rfl, rfl, rfl, rfl, rfl⟩, (OnlyFlags.setFlags s _).drawn 1⟩

/-! ### INC, DEC, NEG, NOT -/

/-- What computes the result and the flags of each. -/
def OneOp.op : OneOp → UnOp
  | .inc => unInc
  | .dec => unDec
  | .neg => unNeg
  | .not => unNot

/-- They write flags alone into the state they compute with. -/
theorem OneOp.op_state (o : OneOp) (w : Width) (s : State) (a : Val w) :
    (o.op w s a).2 = s.setFlags (o.op w s a).2.flags := by
  cases o <;> rfl

theorem exec_oneOperandForm {i : Instr} {o : OneOp} {w : Width} {m : RM} {s : State}
    (hi : oneOperandForm i = some (o, w, m)) (hw : CanWrite s w m) :
    exec i s = .next (written s w m (o.op w s (valueOf s w m)).2.flags (o.op w s (valueOf s w m)).1) := by
  rw [written, ← o.op_state]
  cases i with
  | incReg | incRm | decReg | decRm | negRm | notRm =>
    cases hi
    exact finish_modifyRm _ hw
  | _ => cases hi

theorem one_toNat (w : Width) : (1 : Val w).toNat = 1 := by cases w <;> rfl

theorem one_toInt (w : Width) : (1 : Val w).toInt = 1 := by cases w <;> rfl

theorem bit_false : bit false = 0 := rfl

/-- Only the most negative number has no negative of its width. -/
theorem signedOverflow_neg (w : Width) (a : Val w) :
    signedOverflow w.bits (-a.toInt) = decide (a.toNat = 2 ^ (w.bits - 1)) := by
  have ha := a.isLt
  rw [BitVec.toInt_eq_toNat_cond, signedOverflow, decide_eq_decide]
  cases w <;> simp only [Width.bits] at * <;> norm_num at * <;> split <;> omega

/-- INC adds 1 with every flag but CF (R283). -/
theorem unInc_effect (w : Width) (s : State) (a : Val w) :
    OneOp.inc.Effect w a (unInc w s a).1 s.flags (unInc w s a).2.flags := by
  have hsum := addRes_toNat w a 1 false
  have hof := add_of w s.flags a 1 false
  have hdigit : 16 ≤ a.toNat % 16 + (1 : Val w).toNat % 16 + bit false ↔ a.toNat % 16 = 15 := by
    rw [one_toNat, bit_false]
    omega
  rw [one_toNat, bit_false] at hsum
  rw [one_toInt, bit_false, Nat.cast_zero, add_zero] at hof
  exact ⟨hsum, rfl, decide_eq_decide.2 hdigit, hof, (add_status s.flags w a 1 false).congr rfl rfl rfl⟩

/-- DEC subtracts 1 with every flag but CF (R286). -/
theorem unDec_effect (w : Width) (s : State) (a : Val w) :
    OneOp.dec.Effect w a (unDec w s a).1 s.flags (unDec w s a).2.flags := by
  have hdiff := subRes_add_toNat w a 1 false
  have hof := sub_of w s.flags a 1 false
  have hdigit : a.toNat % 16 < (1 : Val w).toNat % 16 + bit false ↔ a.toNat % 16 = 0 := by
    rw [one_toNat, bit_false]
    omega
  rw [one_toNat, bit_false] at hdiff
  rw [one_toInt, bit_false, Nat.cast_zero, sub_zero] at hof
  exact ⟨hdiff, rfl, decide_eq_decide.2 hdigit, hof, (sub_status s.flags w a 1 false).congr rfl rfl rfl⟩

/-- NEG subtracts from 0 (R287). -/
theorem unNeg_effect (w : Width) (s : State) (a : Val w) :
    OneOp.neg.Effect w a (unNeg w s a).1 s.flags (unNeg w s a).2.flags := by
  have hzero : (0 : Val w).toNat = 0 := BitVec.toNat_zero
  have hzeroInt : (0 : Val w).toInt = 0 := BitVec.toInt_zero
  have hdiff := subRes_add_toNat w 0 a false
  have hof := sub_of w s.flags 0 a false
  have hborrow : (0 : Val w).toNat < a.toNat + bit false ↔ a.toNat ≠ 0 := by
    rw [hzero, bit_false]
    omega
  have hdigit : (0 : Val w).toNat % 16 < a.toNat % 16 + bit false ↔ a.toNat % 16 ≠ 0 := by
    rw [hzero, bit_false]
    omega
  rw [hzero, bit_false] at hdiff
  rw [hzeroInt, bit_false, Nat.cast_zero, sub_zero, zero_sub, signedOverflow_neg] at hof
  exact ⟨hdiff, decide_eq_decide.2 hborrow, decide_eq_decide.2 hdigit, hof, sub_status ..⟩

/-- NOT turns every bit and leaves the flags (42_logic.md R325). -/
theorem unNot_effect (w : Width) (s : State) (a : Val w) :
    OneOp.not.Effect w a (unNot w s a).1 s.flags (unNot w s a).2.flags := by
  have hnot : (~~~a).toNat = 2 ^ w.bits - 1 - a.toNat := BitVec.toNat_not
  have hlt := a.isLt
  exact ⟨by simp only [unNot]; omega, rfl⟩

theorem OneOp.op_effect (o : OneOp) (w : Width) (s : State) (a : Val w) :
    o.Effect w a (o.op w s a).1 s.flags (o.op w s a).2.flags := by
  cases o with
  | inc => exact unInc_effect w s a
  | dec => exact unDec_effect w s a
  | neg => exact unNeg_effect w s a
  | not => exact unNot_effect w s a

theorem OneOp.op_control (o : OneOp) (w : Width) (s : State) (a : Val w) :
    SameControlFlags s.flags (o.op w s a).2.flags := by
  cases o <;> exact ⟨rfl, rfl, rfl, rfl, rfl⟩

/-- Settles O5: every form writes the flags and the result of its operation. -/
theorem oneOperandArithmetic : Obligations.OneOperandArithmetic := by
  intro i o w m s hi hm hw
  obtain ⟨hvalue, honly, hflags⟩ := written_spec hm w m (o.op w s (valueOf s w m)).2.flags (o.op w s (valueOf s w m)).1
  refine ⟨_, exec_oneOperandForm hi hw, ?_⟩
  rw [hvalue, hflags]
  exact ⟨o.op_effect .., o.op_control .., honly⟩

end Sys2Proof.Machine
end

section
/-! PROOFS. Multiplication and division (41_arithmetic.md R293 to R297): what the double-width register holds once its
halves are written, and that the exact product, quotient and remainder fit in the halves written. -/

namespace Sys2Proof.Machine

/-! ### Writing registers and flags -/

theorem OnlyRegs.setW (s : State) (r : RegNum) (v : Word) : OnlyRegs s (s.setW r v) [r] :=
  ⟨.setW s r v, by simp, .setW s r v, .setW s r v⟩

theorem OnlyRegs.trans {s t u : State} {l k : List RegNum} (h : OnlyRegs s t l) (h' : OnlyRegs t u k) :
    OnlyRegs s u (l ++ k) := by
  obtain ⟨hsys, hip, hregs, hmem⟩ := h
  obtain ⟨hsys', hip', hregs', hmem'⟩ := h'
  exact ⟨hsys.trans hsys', hip'.trans hip, hregs.trans hregs', hmem.trans hmem'⟩

/-- Flags written after registers. -/
theorem OnlyRegs.thenFlags {s t u : State} {l : List RegNum} (h : OnlyRegs s t l) (hf : OnlyFlags t u) :
    OnlyRegs s u l := by
  have hboth : OnlyRegs s u (l ++ []) := h.trans hf
  rwa [List.append_nil] at hboth

theorem OnlyFlags.mulFlags (s : State) (high : Bool) : OnlyFlags s (mulFlags s high) := (OnlyFlags.setFlags s _).drawn 4

theorem OnlyFlags.divFlags (s : State) : OnlyFlags s (divFlags s) := (OnlyFlags.setFlags s _).drawn 6

theorem mulFlags_cf (s : State) (high : Bool) : (mulFlags s high).flags.cf = high := rfl

theorem mulFlags_of (s : State) (high : Bool) : (mulFlags s high).flags.of = (mulFlags s high).flags.cf := rfl

theorem mulFlags_control {s t : State} (high : Bool) (h : t.flags = s.flags) :
    SameControlFlags s.flags (mulFlags t high).flags := by
  rw [← h]
  exact ⟨rfl, rfl, rfl, rfl, rfl⟩

theorem divFlags_control {s t : State} (h : t.flags = s.flags) : SameControlFlags s.flags (divFlags t).flags := by
  rw [← h]
  exact ⟨rfl, rfl, rfl, rfl, rfl⟩

theorem getW_mulFlags (s : State) (high : Bool) (r : RegNum) : (mulFlags s high).getW r = s.getW r :=
  State.getW_congr rfl r

theorem wideNat_mulFlags (s : State) (high : Bool) (w : Width) : wideNat (mulFlags s high) w = wideNat s w := by
  cases w <;> rfl

theorem wideInt_mulFlags (s : State) (high : Bool) (w : Width) : wideInt (mulFlags s high) w = wideInt s w := by
  cases w <;> rfl

theorem quotientIn_divFlags (s : State) (w : Width) : quotientIn (divFlags s) w = quotientIn s w := by
  cases w <;> rfl

theorem remainderIn_divFlags (s : State) (w : Width) : remainderIn (divFlags s) w = remainderIn s w := by
  cases w <;> rfl

/-! ### The double-width register -/

section
variable (s : State) (w : Width) (lo hi : Val w)

theorem setWide_flags : (setWide s w lo hi).flags = s.flags := by
  cases w <;> rfl

theorem OnlyRegs.setWide : OnlyRegs s (setWide s w lo hi) (wideRegs w) := by
  cases w with
  | byte => exact .setW s .r0 _
  | word => exact (OnlyRegs.setW s .r0 lo).trans (.setW _ .r2 hi)

theorem quotientIn_setWide : quotientIn (setWide s w lo hi) w = lo := by
  cases w with
  | byte => exact loByte_wordOf lo hi
  | word => rfl

theorem remainderIn_setWide : remainderIn (setWide s w lo hi) w = hi := by
  cases w with
  | byte => exact hiByte_wordOf lo hi
  | word => rfl

theorem wideNat_setWide : wideNat (setWide s w lo hi) w = lo.toNat + hi.toNat * 2 ^ w.bits := by
  cases w with
  | byte => exact wordOf_toNat lo hi
  | word => exact Nat.add_comm ..

theorem wideInt_setWide : wideInt (setWide s w lo hi) w = 2 ^ w.bits * hi.toInt + lo.toNat := by
  cases w with
  | byte => exact BitVec.toInt_append
  | word => exact congrArg (· + (lo.toNat : Int)) (Int.mul_comm ..)
end

theorem wideAcc_eq (s : State) (w : Width) : wideAcc s w = wideNat s w := by
  cases w <;> rfl

theorem wideAccInt_eq (s : State) (w : Width) : wideAccInt s w = wideInt s w := by
  cases w with
  | byte => rfl
  | word =>
    have happend : (s.regs.dx ++ s.regs.ax).toInt = 2 ^ 16 * s.regs.dx.toInt + s.regs.ax.toNat := BitVec.toInt_append
    exact happend.trans (congrArg (· + (s.regs.ax.toNat : Int)) (Int.mul_comm ..))

/-! ### What fits in a width -/

/-- A number below the square of the width's range is its low half and its high half. -/
theorem ofNat_halves (n : Nat) {p : Nat} (h : p < 2 ^ n * 2 ^ n) :
    (BitVec.ofNat n p).toNat + (BitVec.ofNat n (p / 2 ^ n)).toNat * 2 ^ n = p := by
  have hhigh : p / 2 ^ n % 2 ^ n = p / 2 ^ n := Nat.mod_eq_of_lt (Nat.div_lt_of_lt_mul h)
  rw [BitVec.toNat_ofNat, BitVec.toNat_ofNat, hhigh, Nat.mul_comm, Nat.mod_add_div]

theorem toInt_ofInt_of_fits (w : Width) {p : Int} (h : signedOverflow w.bits p = false) :
    (BitVec.ofInt w.bits p).toInt = p := by
  rw [signedOverflow, decide_eq_false_iff_not, not_or, not_lt, not_le] at h
  obtain ⟨hge, hlt⟩ := h
  exact BitVec.toInt_ofInt_eq_self (by cases w <;> decide) hge hlt

/-- A product of two signed numbers of a width is its low half and its signed high half. -/
theorem ofInt_halves (w : Width) (a b : Val w) :
    2 ^ w.bits * (BitVec.ofInt w.bits (a.toInt * b.toInt / 2 ^ w.bits)).toInt +
      (BitVec.ofInt w.bits (a.toInt * b.toInt)).toNat = a.toInt * b.toInt := by
  have hle := BitVec.toInt_mul_toInt_le (x := a) (y := b)
  have hge := BitVec.le_toInt_mul_toInt (x := a) (y := b)
  have hhigh : signedOverflow w.bits (a.toInt * b.toInt / 2 ^ w.bits) = false := by
    rw [signedOverflow, decide_eq_false_iff_not]
    cases w <;> simp only [Width.bits] at * <;> omega
  have hlow : ((a.toInt * b.toInt % (2 ^ w.bits : Nat)).toNat : Int) = a.toInt * b.toInt % 2 ^ w.bits := by
    rw [Int.toNat_of_nonneg (Int.emod_nonneg _ (by positivity)), Nat.cast_pow, Nat.cast_ofNat]
  rw [toInt_ofInt_of_fits w hhigh, BitVec.toNat_ofInt, hlow, Int.mul_ediv_add_emod]

theorem remainder_fits (w : Width) (a : Int) (v : Val w) (hv : v.toInt ≠ 0) :
    signedOverflow w.bits (a.tmod v.toInt) = false := by
  have hlt : (a.tmod v.toInt).natAbs < v.toInt.natAbs := by
    rw [Int.natAbs_tmod]
    exact Nat.mod_lt _ (Int.natAbs_pos.2 hv)
  have hle := BitVec.le_toInt v
  have hge := BitVec.toInt_lt (x := v)
  rw [signedOverflow, decide_eq_false_iff_not]
  omega

/-! ### MUL and IMUL -/

theorem exec_mulRm {s : State} {w : Width} {m : RM} (h : CanRead s w m) :
    exec (.mulRm w m) s =
      let p := (s.acc w).toNat * (valueOf s w m).toNat
      .next (mulFlags (setWide s w (BitVec.ofNat _ p) (BitVec.ofNat _ (p / 2 ^ w.bits))) (decide (2 ^ w.bits ≤ p))) := by
  rw [exec, execMulRm, readRm_ok h]
  rfl

theorem exec_imulRm {s : State} {w : Width} {m : RM} (h : CanRead s w m) :
    exec (.imulRm w m) s =
      let p := (s.acc w).toInt * (valueOf s w m).toInt
      .next (mulFlags (setWide s w (BitVec.ofInt _ p) (BitVec.ofInt _ (p / 2 ^ w.bits))) (signedOverflow w.bits p)) := by
  rw [exec, execImulRm, readRm_ok h]
  simp only [fitsSigned_eq, Bool.not_not]
  rfl

theorem finish_imulInto {s : State} {m : RM} (r : RegNum) (v : Word) (h : CanRead s .word m) :
    finish s (imulInto s r m v) =
      let p := (valueOf s .word m).toInt * v.toInt
      .next (mulFlags (s.setW r (BitVec.ofInt 16 p)) (signedOverflow 16 p)) := by
  rw [imulInto, readRm_ok h]
  simp only [fitsSigned_eq, Bool.not_not]
  rfl

/-- The frame of a multiplication into the double-width register. -/
theorem mulFlags_setWide (s : State) (w : Width) (lo hi : Val w) (high : Bool) :
    SameControlFlags s.flags (mulFlags (setWide s w lo hi) high).flags ∧
      OnlyRegs s (mulFlags (setWide s w lo hi) high) (wideRegs w) :=
  ⟨mulFlags_control _ (setWide_flags ..), (OnlyRegs.setWide ..).thenFlags (.mulFlags ..)⟩

/-- Settles O6: the products by what the halves written hold; the read of a memory operand is the only test of each
form (O53). -/
theorem multiplicationWritesProduct : Obligations.MultiplicationWritesProduct := by
  refine ⟨fun w m s h => ?_, fun w m s h => ?_, fun r m v i s hi h => ?_, fun i w a s hi h => ?_⟩
  · have hlt : (s.acc w).toNat * (valueOf s w m).toNat < 2 ^ w.bits * 2 ^ w.bits :=
      Nat.mul_lt_mul'' (s.acc w).isLt (valueOf s w m).isLt
    refine ⟨_, exec_mulRm h, ?_, mulFlags_cf .., mulFlags_of .., mulFlags_setWide ..⟩
    rw [wideNat_mulFlags, wideNat_setWide, ofNat_halves w.bits hlt]
  · refine ⟨_, exec_imulRm h, ?_, mulFlags_cf .., mulFlags_of .., mulFlags_setWide ..⟩
    rw [wideInt_mulFlags, wideInt_setWide, ofInt_halves]
  · have hexec : exec i s = finish s (imulInto s r m v) := by
      obtain rfl | ⟨b, rfl, rfl⟩ := hi <;> rfl
    refine ⟨_, hexec.trans (finish_imulInto r v h), ?_, mulFlags_cf .., mulFlags_of ..,
      mulFlags_control _ (State.setW_flags ..), (OnlyRegs.setW ..).thenFlags (.mulFlags ..)⟩
    rw [getW_mulFlags, State.getW_setW]
    exact BitVec.toInt_ofInt _
  · have hchecks : operandChecks s i = [] ++ .access (opSeg s a) (ea s a).toNat w.bytes .read :: [] := by
      obtain rfl | rfl | ⟨rfl, r, ⟨v, rfl⟩ | ⟨b, rfl⟩⟩ := hi <;> rfl
    exact refusedOperandsLeaveStateUnchanged i s [] [] _ _ _ .read hchecks (fun c hc => nomatch hc) h

/-! ### DIV and IDIV -/

/-- Two requirements that stop an instruction with the same exception. -/
theorem finish_needs (s t : State) (a b : Bool) (e : Stop) :
    finish s (do need a e; need b e; pure t) = if a = true ∧ b = true then .next t else finish s (.error e) := by
  cases a <;> cases b <;> rfl

/-- The states in which a division ends: with its results, or in the delivery of exception 0. -/
theorem exec_divRm {s : State} {w : Width} {m : RM} (h : CanRead s w m) :
    exec (.divRm w m) s =
      if (valueOf s w m).toNat ≠ 0 ∧ wideNat s w / (valueOf s w m).toNat < 2 ^ w.bits then
        .next (divFlags (setWide s w (BitVec.ofNat _ (wideNat s w / (valueOf s w m).toNat))
          (BitVec.ofNat _ (wideNat s w % (valueOf s w m).toNat))))
      else .next (deliver s (.exn 0 none) s.cur.ip s.cur.ip) := by
  have hzero : valueOf s w m = 0 ↔ (valueOf s w m).toNat = 0 := BitVec.toNat_inj.symm
  rw [exec, execDivRm, readRm_ok h, ← wideAcc_eq]
  refine (finish_needs ..).trans ?_
  simp only [decide_eq_true_eq, ne_eq, hzero]
  rfl

theorem exec_idivRm {s : State} {w : Width} {m : RM} (h : CanRead s w m) :
    exec (.idivRm w m) s =
      if (valueOf s w m).toInt ≠ 0 ∧ signedOverflow w.bits ((wideInt s w).tdiv (valueOf s w m).toInt) = false then
        .next (divFlags (setWide s w (BitVec.ofInt _ ((wideInt s w).tdiv (valueOf s w m).toInt))
          (BitVec.ofInt _ ((wideInt s w).tmod (valueOf s w m).toInt))))
      else .next (deliver s (.exn 0 none) s.cur.ip s.cur.ip) := by
  have hzero : valueOf s w m = 0 ↔ (valueOf s w m).toInt = 0 := by
    rw [← BitVec.toInt_zero (w := w.bits)]
    exact BitVec.toInt_inj.symm
  rw [exec, execIdivRm, readRm_ok h, ← wideAccInt_eq]
  refine (finish_needs ..).trans ?_
  simp only [decide_eq_true_eq, ne_eq, hzero, fitsSigned_eq, Bool.not_eq_true']
  rfl

/-- The state after a division: `lo` is the quotient, `hi` the remainder, the six status flags are free. -/
theorem divFlags_setWide (s : State) (w : Width) (lo hi : Val w) :
    quotientIn (divFlags (setWide s w lo hi)) w = lo ∧ remainderIn (divFlags (setWide s w lo hi)) w = hi ∧
      SameControlFlags s.flags (divFlags (setWide s w lo hi)).flags ∧
      OnlyRegs s (divFlags (setWide s w lo hi)) (wideRegs w) := by
  refine ⟨?_, ?_, divFlags_control (setWide_flags ..), (OnlyRegs.setWide ..).thenFlags (.divFlags _)⟩
  · rw [quotientIn_divFlags, quotientIn_setWide]
  · rw [remainderIn_divFlags, remainderIn_setWide]

/-- Settles O7: results where both requirements are met, exception 0 where one of them is not. -/
theorem divisionResultsAndErrors : Obligations.DivisionResultsAndErrors := by
  refine ⟨fun w m s h hv hq => ?_, fun w m s h hv hq => ?_, fun w m s h hbad => ?_, fun w m s h hbad => ?_⟩
  · have hr : wideNat s w % (valueOf s w m).toNat < 2 ^ w.bits :=
      (Nat.mod_lt _ (Nat.pos_of_ne_zero hv)).trans (valueOf s w m).isLt
    obtain ⟨hlo, hhi, hframe⟩ := divFlags_setWide s w _ _
    refine ⟨_, (exec_divRm h).trans (if_pos ⟨hv, hq⟩), ?_, ?_, hframe⟩
    · rw [hlo, BitVec.toNat_ofNat, Nat.mod_eq_of_lt hq]
    · rw [hhi, BitVec.toNat_ofNat, Nat.mod_eq_of_lt hr]
  · obtain ⟨hlo, hhi, hframe⟩ := divFlags_setWide s w _ _
    refine ⟨_, (exec_idivRm h).trans (if_pos ⟨hv, hq⟩), ?_, ?_, hframe⟩
    · rw [hlo, toInt_ofInt_of_fits w hq]
    · rw [hhi, toInt_ofInt_of_fits w (remainder_fits w _ _ hv)]
  · exact (exec_divRm h).trans (if_neg fun ⟨hv, hq⟩ => hbad.elim hv (not_le.2 hq))
  · exact (exec_idivRm h).trans (if_neg fun ⟨hv, hq⟩ => hbad.elim hv (Bool.eq_false_iff.1 hq))

end Sys2Proof.Machine
end

section
/-! PROOFS. The decimal adjust instructions (41_arithmetic.md R288 to R291, R298, R299): the frame of each of the three
ends first, then the adjusted digits in whole numbers. -/

namespace Sys2Proof.Machine

/-! ### AAA and AAS -/

theorem adjusts_iff (s : State) : adjusts s = true ↔ lowDigitAdjusts s := by
  rw [adjusts, lowDigitAdjusts, Bool.or_eq_true, decide_eq_true_eq]

theorem lowDigit_toNat (b : Byte) : (b &&& 0x0F).toNat = b.toNat % 16 := by
  rw [BitVec.toNat_and]
  exact Nat.and_two_pow_sub_one_eq_mod b.toNat 4

theorem lowDigit_add_six (b : Byte) : ((b + 6) &&& 0x0F).toNat = (b.toNat + 6) % 16 := by
  have hadd : (b + 6).toNat = (b.toNat + 6) % 256 := BitVec.toNat_add b 6
  rw [lowDigit_toNat, hadd]
  omega

theorem lowDigit_sub_six (b : Byte) : ((b - 6) &&& 0x0F).toNat = (b.toNat + 250) % 16 := by
  have hsub : (b - 6).toNat = (256 - 6 + b.toNat) % 256 := BitVec.toNat_sub b 6
  rw [lowDigit_toNat, hsub]
  omega

/-- The end of AAA and AAS: `lo` and `hi` in AL and AH where an adjustment is due, else the low digit alone. -/
def asciiEnd (s : State) (lo hi : Byte) : State :=
  ((s.setW .r0 (if adjusts s then wordOf lo hi else wordOf (s.al &&& 0x0F) s.ah)).setFlags
    (asciiFlags s (adjusts s))).drawn 5

section
variable (s : State) (lo hi : Byte)

theorem asciiEnd_adjusted (h : lowDigitAdjusts s) : (asciiEnd s lo hi).al = lo ∧ (asciiEnd s lo hi).ah = hi ∧
    (asciiEnd s lo hi).flags.af = true ∧ (asciiEnd s lo hi).flags.cf = true := by
  have hadj : adjusts s = true := (adjusts_iff s).2 h
  rw [asciiEnd, if_pos hadj]
  exact ⟨loByte_wordOf lo hi, hiByte_wordOf lo hi, hadj, hadj⟩

theorem asciiEnd_unadjusted (h : ¬ lowDigitAdjusts s) : (asciiEnd s lo hi).al.toNat = s.al.toNat % 16 ∧
    (asciiEnd s lo hi).ah = s.ah ∧ (asciiEnd s lo hi).flags.af = false ∧ (asciiEnd s lo hi).flags.cf = false := by
  have hadj : ¬ adjusts s = true := mt (adjusts_iff s).1 h
  have hal : loByte (wordOf (s.al &&& 0x0F) s.ah) = s.al &&& 0x0F := loByte_wordOf ..
  have hclear : adjusts s = false := Bool.eq_false_iff.2 hadj
  rw [asciiEnd, if_neg hadj]
  exact ⟨(congrArg BitVec.toNat hal).trans (lowDigit_toNat s.al), hiByte_wordOf .., hclear, hclear⟩

theorem asciiEnd_control : SameControlFlags s.flags (asciiEnd s lo hi).flags := ⟨rfl, rfl, rfl, rfl, rfl⟩

theorem asciiEnd_frame : OnlyRegs s (asciiEnd s lo hi) [.r0] :=
  (OnlyRegs.setW s .r0 _).thenFlags ((OnlyFlags.setFlags _ _).drawn 5)
end

/-! ### AAM and AAD -/

section
variable (s : State) (al ah : Byte)

theorem adjustEnd_al : (adjustEnd s al ah).al = al := loByte_wordOf al ah

theorem adjustEnd_ah : (adjustEnd s al ah).ah = ah := hiByte_wordOf al ah

theorem adjustEnd_status : StatusOf (adjustEnd s al ah).flags .byte al :=
  (szp_statusOf s.flags .byte al).congr rfl rfl rfl

theorem adjustEnd_control : SameControlFlags s.flags (adjustEnd s al ah).flags := ⟨rfl, rfl, rfl, rfl, rfl⟩

theorem adjustEnd_frame : OnlyRegs s (adjustEnd s al ah) [.r0] :=
  (OnlyRegs.setW s .r0 _).thenFlags ((OnlyFlags.setFlags _ _).drawn 3)
end

/-! ### Packed BCD numbers -/

/-- The decimal value of a byte is read off its two digits. -/
theorem bcdValue_of_digits {n h l : Nat} (hn : n = 16 * h + l) (hl : l ≤ 9) : bcdValue n = 10 * h + l ∧ n % 16 ≤ 9 := by
  rw [bcdValue]
  omega

/-- Digits `q` and `p`, added in binary and not yet carried, with 6 and 60H where there is a decimal carry. -/
theorem bcdValue_sum {q p low high n : Nat} (hq : q ≤ 18) (hp : p ≤ 19) (hlow : 10 ≤ p ∧ low = 1 ∨ ¬ 10 ≤ p ∧ low = 0)
    (hhigh : 100 ≤ 10 * q + p ∧ high = 1 ∨ ¬ 100 ≤ 10 * q + p ∧ high = 0)
    (hn : n = ((16 * q + p) % 256 + low * 6 + high * 96) % 256) :
    bcdValue n = (10 * q + p) % 100 ∧ n % 16 ≤ 9 := by
  have hdigits : n = 16 * (q + low - 10 * high) + (p - 10 * low) := by omega
  obtain ⟨hvalue, hdigit⟩ := bcdValue_of_digits hdigits (by omega)
  refine ⟨hvalue.trans ?_, hdigit⟩
  clear hn hdigits hvalue hdigit
  omega

/-- Digits `q'` and `p'` subtracted from `q` and `p` in binary, with 6 and 60H less where there is a borrow. -/
theorem bcdValue_difference {q p q' p' low high n : Nat} (hq : q ≤ 9) (hp : p ≤ 9) (hq' : q' ≤ 9) (hp' : p' ≤ 10)
    (hlow : p < p' ∧ low = 1 ∨ ¬ p < p' ∧ low = 0)
    (hhigh : 10 * q + p < 10 * q' + p' ∧ high = 1 ∨ ¬ 10 * q + p < 10 * q' + p' ∧ high = 0)
    (hn : n = ((16 * q + p + 256 - (16 * q' + p')) % 256 + low * 250 + high * 160) % 256) :
    bcdValue n = (10 * q + p + 100 - (10 * q' + p')) % 100 ∧ n % 16 ≤ 9 := by
  have hdigits : n = 16 * (q + 10 * high - q' - low) + (p + 10 * low - p') := by omega
  obtain ⟨hvalue, hdigit⟩ := bcdValue_of_digits hdigits (by omega)
  refine ⟨hvalue.trans ?_, hdigit⟩
  clear hn hdigits hvalue hdigit
  omega

/-! ### DAA and DAS -/

theorem bit_eq_decide {b : Bool} {p : Prop} [Decidable p] (h : b = decide p) : p ∧ bit b = 1 ∨ ¬ p ∧ bit b = 0 := by
  subst h
  by_cases hp : p <;> simp [bit, hp]

theorem addIf_toNat (b : Bool) (v k : Byte) : (if b then v + k else v).toNat = (v.toNat + bit b * k.toNat) % 256 := by
  have hv := v.isLt
  cases b with
  | false => simp only [Bool.false_eq_true, if_false, bit]; omega
  | true => simp only [if_true, bit, Nat.one_mul]; exact BitVec.toNat_add v k

theorem subIf_toNat (b : Bool) (v k : Byte) :
    (if b then v - k else v).toNat = (v.toNat + bit b * (256 - k.toNat)) % 256 := by
  have hv := v.isLt
  cases b with
  | false => simp only [Bool.false_eq_true, if_false, bit]; omega
  | true =>
    simp only [if_true, bit, Nat.one_mul, Nat.add_comm v.toNat]
    exact BitVec.toNat_sub v k

/-- What DAA makes of AL (R289). -/
def daaAl (s : State) : Byte :=
  if highAdjusts s then (if adjusts s then s.al + 6 else s.al) + 0x60 else if adjusts s then s.al + 6 else s.al

theorem daaAl_toNat (s : State) :
    (daaAl s).toNat = (s.al.toNat + bit (adjusts s) * 6 + bit (highAdjusts s) * 96) % 256 := by
  rw [daaAl, addIf_toNat, addIf_toNat, Nat.mod_add_mod]
  rfl

/-- What DAS makes of AL (R291). -/
def dasAl (s : State) : Byte :=
  if highAdjusts s then (if adjusts s then s.al - 6 else s.al) - 0x60 else if adjusts s then s.al - 6 else s.al

theorem dasAl_toNat (s : State) :
    (dasAl s).toNat = (s.al.toNat + bit (adjusts s) * 250 + bit (highAdjusts s) * 160) % 256 := by
  rw [dasAl, subIf_toNat, subIf_toNat, Nat.mod_add_mod]
  rfl

section
variable (s : State) (ok : Bool) (al : Byte) (af cf : Bool)

/-- On BCD inputs nothing is left free but OF. -/
theorem decimalEnd_al : (decimalEnd s true al af cf).al = al := State.getB_setB s .r0 al

theorem decimalEnd_status : StatusOf (decimalEnd s ok al af cf).flags .byte (decimalEnd s ok al af cf).al := by
  have hal : (decimalEnd s ok al af cf).al = if ok then al else loByte (s.freeWord 3) := State.getB_setB s .r0 _
  rw [hal]
  exact (szp_statusOf s.flags .byte _).congr rfl rfl rfl

theorem decimalEnd_control : SameControlFlags s.flags (decimalEnd s ok al af cf).flags := ⟨rfl, rfl, rfl, rfl, rfl⟩

theorem decimalEnd_frame : SameSystem s (decimalEnd s ok al af cf) ∧ (decimalEnd s ok al af cf).ip = s.ip ∧
    OnlyReg s (decimalEnd s ok al af cf) .byte .r0 ∧ SameMemory s (decimalEnd s ok al af cf) := by
  have hset := OnlyReg.setReg s .byte .r0 (if ok then al else loByte (s.freeWord 3))
  exact ⟨((SameSystem.setB ..).trans (.setFlags ..)).trans (.drawn ..), rfl, hset.congr rfl rfl,
    State.load8_congr rfl rfl rfl⟩
end

section
variable {s : State} {x y c : Nat}

/-- What a BCD addition leaves is among the inputs that DAA is defined for (R289). -/
theorem BcdSum.bcdSum (h : BcdSum s x y c) : Machine.bcdSum s.al s.flags.af s.flags.cf = true := by
  obtain ⟨hx, hx', hy, hy', hc, hal, haf, hcf⟩ := h
  simp only [Machine.bcdSum, haf, hcf, hal, bit, Bool.and_eq_true, Bool.or_eq_true, Bool.not_eq_true', decide_eq_true_eq,
    decide_eq_false_iff_not, Bool.and_eq_false_iff, Bool.not_eq_false']
  split <;> omega

/-- The low digit is adjusted exactly when the low digits have a decimal carry. -/
theorem BcdSum.adjusts (h : BcdSum s x y c) : Machine.adjusts s = decide (10 ≤ x % 16 + y % 16 + c) := by
  obtain ⟨hx, hx', hy, hy', hc, hal, haf, hcf⟩ := h
  rw [Machine.adjusts, hal, haf, ← Bool.decide_or, decide_eq_decide]
  omega

/-- The high digit is adjusted exactly when the bytes have a decimal carry. -/
theorem BcdSum.highAdjusts (h : BcdSum s x y c) :
    Machine.highAdjusts s = decide (100 ≤ bcdValue x + bcdValue y + c) := by
  obtain ⟨hx, hx', hy, hy', hc, hal, haf, hcf⟩ := h
  rw [Machine.highAdjusts, hal, hcf, ← Bool.decide_or, decide_eq_decide, bcdValue, bcdValue]
  omega

/-- The binary sum in AL becomes the packed BCD sum modulo 100. -/
theorem BcdSum.daaAl (h : BcdSum s x y c) :
    bcdValue (Machine.daaAl s).toNat = (bcdValue x + bcdValue y + c) % 100 ∧ (Machine.daaAl s).toNat % 16 ≤ 9 := by
  have hal := daaAl_toNat s
  have hlow := bit_eq_decide h.adjusts
  have hhigh := bit_eq_decide h.highAdjusts
  obtain ⟨hx, hx', hy, hy', hc, hsum, -, -⟩ := h
  have hvalue : bcdValue x + bcdValue y + c = 10 * (x / 16 + y / 16) + (x % 16 + y % 16 + c) := by
    rw [bcdValue, bcdValue]
    omega
  have hbinary : x + y + c = 16 * (x / 16 + y / 16) + (x % 16 + y % 16 + c) := by omega
  rw [hvalue] at hhigh ⊢
  rw [hsum, hbinary] at hal
  exact bcdValue_sum (by omega) (by omega) hlow hhigh hal
end

section
variable {s : State} {x y c : Nat}

theorem BcdDifference.bcdDifference (h : BcdDifference s x y c) :
    Machine.bcdDifference s.al s.flags.af s.flags.cf = true := by
  obtain ⟨hx, hx', hy, hy', hc, hal, haf, hcf⟩ := h
  simp only [Machine.bcdDifference, haf, hcf, hal, bit, Bool.and_eq_true, Bool.or_eq_true, Bool.not_eq_true',
    decide_eq_true_eq, decide_eq_false_iff_not]
  split <;> omega

/-- The low digit is adjusted exactly when the low digits have a borrow. -/
theorem BcdDifference.adjusts (h : BcdDifference s x y c) : Machine.adjusts s = decide (x % 16 < y % 16 + c) := by
  obtain ⟨hx, hx', hy, hy', hc, hal, haf, hcf⟩ := h
  rw [Machine.adjusts, hal, haf, ← Bool.decide_or, decide_eq_decide]
  omega

/-- The high digit is adjusted exactly when the bytes have a borrow. -/
theorem BcdDifference.highAdjusts (h : BcdDifference s x y c) :
    Machine.highAdjusts s = decide (bcdValue x < bcdValue y + c) := by
  obtain ⟨hx, hx', hy, hy', hc, hal, haf, hcf⟩ := h
  rw [Machine.highAdjusts, hal, hcf, ← Bool.decide_or, decide_eq_decide, bcdValue, bcdValue]
  omega

/-- The binary difference in AL becomes the packed BCD difference modulo 100. -/
theorem BcdDifference.dasAl (h : BcdDifference s x y c) :
    bcdValue (Machine.dasAl s).toNat = (bcdValue x + 100 - bcdValue y - c) % 100 ∧ (Machine.dasAl s).toNat % 16 ≤ 9 := by
  have hal := dasAl_toNat s
  have hlow := bit_eq_decide h.adjusts
  have hhigh := bit_eq_decide h.highAdjusts
  obtain ⟨hx, hx', hy, hy', hc, hdiff, -, -⟩ := h
  have hvalue : bcdValue y + c = 10 * (y / 16) + (y % 16 + c) := by
    rw [bcdValue]
    omega
  have hvalue' : bcdValue x = 10 * (x / 16) + x % 16 := by rw [bcdValue, Nat.mul_comm]
  have hbinary : x + 256 - y - c = 16 * (x / 16) + x % 16 + 256 - (16 * (y / 16) + (y % 16 + c)) := by omega
  rw [hvalue, hvalue'] at hhigh
  rw [Nat.sub_sub, hvalue, hvalue']
  rw [hdiff, hbinary] at hal
  exact bcdValue_difference hx' hx hy' (by omega) hlow hhigh hal
end

/-- Settles O8: each instruction ends in the one of the three ends that is its own. -/
theorem adjustInstructions : Obligations.AdjustInstructions := by
  refine ⟨fun s => ?aaa, fun s => ?aas, fun s => ?aam, fun s => ?aad, fun s => ?daa, fun s => ?das⟩
  case aaa =>
    refine ⟨asciiEnd s _ _, rfl, fun h => ?_, asciiEnd_unadjusted s _ _, asciiEnd_control .., asciiEnd_frame ..⟩
    obtain ⟨hal, hah, haf, hcf⟩ := asciiEnd_adjusted s _ _ h
    rw [hal, hah]
    refine ⟨lowDigit_add_six s.al, fun hle => ?_, haf, hcf⟩
    rw [if_neg (not_lt.2 hle), add_zero]
  case aas =>
    refine ⟨asciiEnd s _ _, rfl, fun h => ?_, asciiEnd_unadjusted s _ _, asciiEnd_control .., asciiEnd_frame ..⟩
    obtain ⟨hal, hah, haf, hcf⟩ := asciiEnd_adjusted s _ _ h
    rw [hal, hah]
    refine ⟨lowDigit_sub_six s.al, fun hle => ?_, haf, hcf⟩
    rw [if_neg (not_lt.2 hle), sub_zero]
  case aam =>
    have hal := s.al.isLt
    refine ⟨adjustEnd s _ _, rfl, ?_⟩
    rw [adjustEnd_al, adjustEnd_ah, BitVec.toNat_ofNat, BitVec.toNat_ofNat]
    exact ⟨by omega, by omega, adjustEnd_status .., adjustEnd_control .., adjustEnd_frame ..⟩
  case aad =>
    have hsum : (s.ah * 10 + s.al).toNat = (s.ah.toNat * 10 + s.al.toNat) % 256 := by
      rw [BitVec.toNat_add, BitVec.toNat_mul]
      exact Nat.mod_add_mod ..
    refine ⟨adjustEnd s _ _, rfl, ?_⟩
    rw [adjustEnd_al, adjustEnd_ah]
    exact ⟨rfl, hsum, adjustEnd_status .., adjustEnd_control .., adjustEnd_frame ..⟩
  case daa =>
    refine ⟨decimalEnd s _ (daaAl s) _ _, rfl, fun x y c h => ?_, decimalEnd_status .., decimalEnd_control ..,
      decimalEnd_frame ..⟩
    obtain ⟨hvalue, hdigit⟩ := h.daaAl
    rw [h.bcdSum, decimalEnd_al]
    exact ⟨hvalue, hdigit, h.highAdjusts, h.adjusts⟩
  case das =>
    refine ⟨decimalEnd s _ (dasAl s) _ _, rfl, fun x y c h => ?_, decimalEnd_status .., decimalEnd_control ..,
      decimalEnd_frame ..⟩
    obtain ⟨hvalue, hdigit⟩ := h.dasAl
    rw [h.bcdDifference, decimalEnd_al]
    exact ⟨hvalue, hdigit, h.highAdjusts, h.adjusts⟩

end Sys2Proof.Machine
end

section
/-! PROOFS. Logic, shifts and rotates (42_logic.md R320 to R323, R330 to R337): every form ends with its flags and its operand
written, some free bits having been drawn for flags that the spec leaves undefined (log 5); a count of zero writes back what
was read. -/

namespace Sys2Proof.Machine

/-! ### Writing one operand with flags that may be free -/

/-- The end of an operation on an operand that has drawn `n` free bits for undefined flags: its flags, then its result. -/
def writtenDrawing (s : State) (n : Nat) (w : Width) (m : RM) (f : Flags) (v : Val w) : State :=
  putPlace ((s.setFlags f).drawn n) w (place s m) v

theorem writtenDrawing_spec {s : State} (h : PlainMemory s) (n : Nat) (w : Width) (m : RM) (f : Flags) (v : Val w) :
    valueIn s (writtenDrawing s n w m f v) w m = v ∧ OnlyOperand s (writtenDrawing s n w m f v) w m ∧
      (writtenDrawing s n w m f v).flags = f :=
  putPlace_spec ((SameSystem.setFlags s f).trans (.drawn _ n)) rfl rfl rfl h w m v

/-! ### An operand that keeps its value -/

/-- The word register that holds a byte register is made of two byte registers (10_state.md R21). -/
theorem State.getW_home_halves (r : RegNum) :
    ∃ lo hi, ∀ s : State, s.getW (RegNum.home r) = wordOf (s.getB lo) (s.getB hi) := by
  cases r with
  | r0 | r4 => exact ⟨.r0, .r4, fun s => (wordOf_loByte_hiByte _).symm⟩
  | r1 | r5 => exact ⟨.r1, .r5, fun s => (wordOf_loByte_hiByte _).symm⟩
  | r2 | r6 => exact ⟨.r2, .r6, fun s => (wordOf_loByte_hiByte _).symm⟩
  | r3 | r7 => exact ⟨.r3, .r7, fun s => (wordOf_loByte_hiByte _).symm⟩

theorem OnlyReg.sameRegs {s t : State} {w : Width} {r : RegNum} (h : OnlyReg s t w r)
    (hr : t.getReg w r = s.getReg w r) : RegsBut s t [] := by
  intro q _
  cases w with
  | byte =>
    obtain ⟨hwords, hbytes⟩ := h
    have same (x : RegNum) : t.getB x = s.getB x := by
      by_cases hx : x = r
      · rw [hx]
        exact hr
      · exact hbytes x hx
    by_cases hq : q = RegNum.home r
    · obtain ⟨lo, hi, halves⟩ := State.getW_home_halves r
      rw [hq, halves, halves, same, same]
    · exact hwords q (by simpa using hq)
  | word =>
    by_cases hq : q = r
    · rw [hq]
      exact hr
    · exact h q (by simpa using hq)

theorem MemoryBut.sameMemory {s t : State} {w : Width} {x : SReg} {off : Word} (h : MemoryBut s t w x off)
    (hsys : SameSystem s t) (hv : peek t w x off = peek s w x off) : SameMemory s t := by
  have touched {o : Word} (ho : peek8 t x o = peek8 s x o) : t.load8 (segAddr s x o) = s.load8 (segAddr s x o) := by
    rwa [peek8, segAddr_congr hsys.msw (hsys.seg x)] at ho
  intro p
  by_cases hp : Touches s w x off p
  · cases w with
    | byte =>
      obtain rfl | ⟨hw, -⟩ := hp
      · exact touched hv
      · cases hw
    | word =>
      obtain rfl | ⟨-, rfl⟩ := hp
      · exact touched (by simpa [peek, peek16] using congrArg loByte hv)
      · exact touched (by simpa [peek, peek16] using congrArg hiByte hv)
  · exact h p hp

/-- Where only an operand may be written and it keeps its value, nothing but flags is written. -/
theorem OnlyOperand.onlyFlags {s t : State} {w : Width} {m : RM} (h : OnlyOperand s t w m)
    (hv : valueIn s t w m = valueOf s w m) : OnlyFlags s t := by
  obtain ⟨hsys, hip, hframe⟩ := h
  cases m with
  | reg r =>
    obtain ⟨hreg, hmem⟩ := hframe
    exact ⟨hsys, hip, hreg.sameRegs hv, hmem⟩
  | mem a =>
    obtain ⟨hregs, hmem⟩ := hframe
    exact ⟨hsys, hip, hregs, hmem.sameMemory hsys hv⟩

/-! ### AND, OR, XOR -/

/-- A boolean operation on every bit of two operands. -/
def BitOp.bitwise (f : BitOp) (w : Width) (a b : Val w) : Val w :=
  match f with
  | .and => a &&& b
  | .or => a ||| b
  | .xor => a ^^^ b

theorem BitOp.getLsbD_bitwise (f : BitOp) (w : Width) (a b : Val w) (k : Nat) :
    (f.bitwise w a b).getLsbD k = f.apply (a.getLsbD k) (b.getLsbD k) := by
  cases f with
  | and => exact BitVec.getLsbD_and
  | or => exact BitVec.getLsbD_or
  | xor => exact BitVec.getLsbD_xor

theorem Flags.logic_control (f : Flags) (w : Width) (v : Val w) (af : Bool) : SameControlFlags f (f.logic w v af) :=
  ⟨rfl, rfl, rfl, rfl, rfl⟩

theorem exec_logicForm {i : Instr} {f : BitOp} {o : TwoOp} {s : State} (hi : logicForm i = some (f, o))
    (hw : CanWrite s o.w o.dst) (hr : o.SecondReadable s) :
    exec i s = .next (writtenDrawing s 1 o.w o.dst
      (s.flags.logic o.w (f.bitwise o.w (valueOf s o.w o.dst) (o.second s)) (s.freeBit 0))
      (f.bitwise o.w (valueOf s o.w o.dst) (o.second s))) := by
  cases i with
  | andRmReg | andRmImm | orRmReg | orRmImm | xorRmReg | xorRmImm =>
    cases hi
    exact finish_modifyRm _ hw
  | andRegRm | orRegRm | xorRegRm =>
    cases hi
    exact finish_aluToReg _ _ hr
  | andAccImm | orAccImm | xorAccImm =>
    cases hi
    rfl
  | _ => cases hi

/-- Settles O4: every form writes its flags and its result. -/
theorem logicWritesBitwiseResult : Obligations.LogicWritesBitwiseResult := by
  intro i f o s hi hm hw hr
  obtain ⟨hvalue, honly, hflags⟩ := writtenDrawing_spec hm 1 o.w o.dst
    (s.flags.logic o.w (f.bitwise o.w (valueOf s o.w o.dst) (o.second s)) (s.freeBit 0))
    (f.bitwise o.w (valueOf s o.w o.dst) (o.second s))
  refine ⟨_, exec_logicForm hi hw hr, ?_⟩
  rw [hvalue, hflags]
  exact ⟨fun k _ => f.getLsbD_bitwise .., rfl, rfl, logic_status .., Flags.logic_control .., honly⟩

/-! ### The forms of the shifts and rotates -/

/-- The forms by 1, in which a shift or rotate may define OF (R331 to R337). -/
def CountSource.single (c : CountSource) : Bool := decide (c = .one)

theorem exec_shiftForm {i : Instr} {k : ShiftKind} {w : Width} {m : RM} {c : CountSource} {s : State}
    (hi : shiftForm i = some (k, w, m, c)) :
    exec i s = finish s (modifyRm s w m (shiftOp k c.single (c.count s) w)) := by
  cases i with
  | rolImm | rolOne | rolCl | rorImm | rorOne | rorCl | rclImm | rclOne | rclCl | rcrImm | rcrOne | rcrCl
  | shlImm | shlOne | shlCl | shrImm | shrOne | shrCl | sarImm | sarOne | sarCl =>
    cases hi
    rfl
  | _ => cases hi

/-- The flags that a count which is not zero leaves. -/
def shiftFlags (s : State) (k : ShiftKind) (single : Bool) (n : Nat) (w : Width) (x : Val w) : Flags :=
  let r := shiftRun k w n x s.flags.cf
  { if k.isShift then { s.flags.szp w r.1 with af := s.freeBit 0 } else s.flags with
    cf := r.2
    of := if single then shiftOf k w x s.flags.cf r.1 r.2 (s.freeBit 1) else s.freeBit 1 }

theorem shiftOp_counted (s : State) (k : ShiftKind) (single : Bool) {n : Nat} (w : Width) (x : Val w) (hn : n ≠ 0) :
    shiftOp k single n w s x =
      ((shiftRun k w n x s.flags.cf).1, (s.setFlags (shiftFlags s k single n w x)).drawn 2) := if_neg hn

theorem exec_shiftForm_counted {i : Instr} {k : ShiftKind} {w : Width} {m : RM} {c : CountSource} {s : State}
    (hi : shiftForm i = some (k, w, m, c)) (hn : c.count s ≠ 0) (hm : PlainMemory s) (hw : CanWrite s w m) :
    ∃ t, exec i s = .next t ∧ valueIn s t w m = (shiftRun k w (c.count s) (valueOf s w m) s.flags.cf).1 ∧
      OnlyOperand s t w m ∧ t.flags = shiftFlags s k c.single (c.count s) w (valueOf s w m) := by
  refine ⟨_, ?_, writtenDrawing_spec hm 2 w m _ _⟩
  rw [exec_shiftForm hi, finish_modifyRm _ hw, shiftOp_counted s k c.single w _ hn]
  rfl

/-- A count of zero writes back the operand that was read (R330). -/
theorem exec_shiftForm_zero {i : Instr} {k : ShiftKind} {w : Width} {m : RM} {c : CountSource} {s : State}
    (hi : shiftForm i = some (k, w, m, c)) (hn : c.count s = 0) (hw : CanWrite s w m) :
    exec i s = .next (putPlace s w (place s m) (valueOf s w m)) := by
  have hkept : shiftOp k c.single (c.count s) w s (valueOf s w m) = (valueOf s w m, s) := if_pos hn
  rw [exec_shiftForm hi, finish_modifyRm _ hw, hkept]

/-! ### Their flags -/

section
variable (s : State) (k : ShiftKind) (single : Bool) (n : Nat) (w : Width) (x : Val w)

theorem shiftFlags_control : SameControlFlags s.flags (shiftFlags s k single n w x) := by
  rw [shiftFlags]
  cases k.isShift <;> exact ⟨rfl, rfl, rfl, rfl, rfl⟩

variable {k}

theorem shiftFlags_status (h : k.isShift = true) :
    StatusOf (shiftFlags s k single n w x) w (shiftRun k w n x s.flags.cf).1 := by
  rw [shiftFlags, h]
  exact (szp_statusOf s.flags w _).congr rfl rfl rfl

/-- The rotates leave SF, ZF, AF and PF (R331). -/
theorem shiftFlags_rotate (h : k.isShift = false) :
    (shiftFlags s k single n w x).sf = s.flags.sf ∧ (shiftFlags s k single n w x).zf = s.flags.zf ∧
      (shiftFlags s k single n w x).af = s.flags.af ∧ (shiftFlags s k single n w x).pf = s.flags.pf := by
  rw [shiftFlags, h]
  exact ⟨rfl, rfl, rfl, rfl⟩
end

/-! ### Their results -/

section
variable {k : ShiftKind} {n : Nat} (w : Width) (x : Val w) (cf : Bool)

theorem shiftRun_shiftResult (hk : k.isShift = true) (hn : n ≠ 0) :
    ShiftResult k w n x (shiftRun k w n x cf).1 (shiftRun k w n x cf).2 := by
  cases k with
  | shl => exact ⟨(shiftRun_shl w n x cf).1, (shiftRun_shl w n x cf).2 hn⟩
  | shr => exact ⟨(shiftRun_shr w n x cf).1, (shiftRun_shr w n x cf).2 hn⟩
  | sar => exact ⟨(shiftRun_sar w n x cf).1, (shiftRun_sar w n x cf).2 hn⟩
  | rol | ror | rcl | rcr => cases hk

theorem shiftRun_rotateResult (hk : k.isShift = false) (hn : n ≠ 0) :
    RotateResult k w n x (shiftRun k w n x cf).1 cf (shiftRun k w n x cf).2 := by
  cases k with
  | rol =>
    obtain ⟨hvalue, hcf⟩ := shiftRun_rol w n x cf
    exact ⟨hvalue, by rw [hvalue, hcf hn]⟩
  | ror =>
    obtain ⟨hvalue, hcf⟩ := shiftRun_ror w n x cf
    exact ⟨hvalue, by rw [hvalue, hcf hn]⟩
  | rcl => exact shiftRun_rcl w n x cf
  | rcr => exact shiftRun_rcr w n x cf
  | shl | shr | sar => cases hk

theorem shiftOf_shift (hk : k.isShift = true) (v : Val w) (cf' free : Bool) :
    shiftOf k w x cf v cf' free = singleShiftOf k w x v cf' := by
  cases k with
  | shl =>
    rw [shiftOf, BitVec.msb_eq_decide]
    rfl
  | shr => exact BitVec.msb_eq_decide x
  | sar => rfl
  | rol | ror | rcl | rcr => cases hk

/-- ROR leaves OF undefined in its single form too (90_conflicts.md C6). -/
theorem shiftOf_rotate (hk : k.isShift = false) (v : Val w) (cf' free : Bool) :
    SingleRotateOf k w x v cf cf' (shiftOf k w x cf v cf' free) := by
  cases k with
  | rol | rcl | rcr => rfl
  | ror => trivial
  | shl | shr | sar => cases hk
end

/-- Settles O10: the count's run of single steps turns the operand as a whole. -/
theorem rotatesTurnBits : Obligations.RotatesTurnBits := by
  intro i k w m c s hi hk hn hm hw
  have hrotate : k.isShift = false := by rcases hk with rfl | rfl | rfl | rfl <;> rfl
  obtain ⟨t, ht, hvalue, honly, hflags⟩ := exec_shiftForm_counted hi hn hm hw
  refine ⟨t, ht, ?_⟩
  rw [hvalue, hflags]
  obtain ⟨hsf, hzf, haf, hpf⟩ := shiftFlags_rotate s c.single (c.count s) w (valueOf s w m) hrotate
  refine ⟨shiftRun_rotateResult w _ _ hrotate hn, ?_, hsf, hzf, haf, hpf, shiftFlags_control .., honly⟩
  rintro rfl
  exact shiftOf_rotate w _ _ hrotate ..

/-- Settles O9: the count's run of single steps multiplies or divides; without a step the operand keeps its value. -/
theorem shiftsMultiplyAndDivide : Obligations.ShiftsMultiplyAndDivide := by
  refine ⟨fun i k w m c s hi hk hn hm hw => ?_, fun i k w m c s hi hn hm hw => ?_⟩
  · have hshift : k.isShift = true := by rcases hk with rfl | rfl | rfl <;> rfl
    obtain ⟨t, ht, hvalue, honly, hflags⟩ := exec_shiftForm_counted hi hn hm hw
    refine ⟨t, ht, ?_⟩
    rw [hvalue, hflags]
    refine ⟨shiftRun_shiftResult w _ _ hshift hn, shiftFlags_status s _ _ w _ hshift, ?_, shiftFlags_control .., honly⟩
    rintro rfl
    exact shiftOf_shift w _ _ hshift ..
  · obtain ⟨hvalue, honly, hflags⟩ := putPlace_spec (.refl s) rfl rfl rfl hm w m (valueOf s w m)
    exact ⟨_, exec_shiftForm_zero hi hn hw, hflags, honly.onlyFlags hvalue⟩

end Sys2Proof.Machine
end

section
/-! PROOFS. The string instructions that move or compare an element in memory (43_string.md R350 to R355, R360): each moves or
compares its element, steps its index registers and ends the iteration, the last two said once for all five. -/

namespace Sys2Proof.Machine

/-! ### Stepping the index registers -/

/-- Advance one index register by the width, as DF says (R350): `stepSi` for SI, `stepDi` for DI. -/
def stepIndex (w : Width) (u : State) (r : RegNum) : State := u.setW r (u.getW r + delta u w)

theorem stepSi_eq (u : State) (w : Width) : stepSi u w = stepIndex w u .r6 := rfl

theorem stepDi_eq (u : State) (w : Width) : stepDi u w = stepIndex w u .r7 := rfl

theorem delta_eq_stringStep {s u : State} (h : u.flags.df = s.flags.df) (w : Width) : delta u w = stringStep s w := by
  rw [delta, h]
  rfl

section
variable (w : Width)

theorem OnlyGeneral.foldl_stepIndex (u : State) (idx : List RegNum) : OnlyGeneral u (idx.foldl (stepIndex w) u) := by
  induction idx generalizing u with
  | nil => exact .refl u
  | cons r idx ih => exact (OnlyGeneral.setW u r _).trans (ih (stepIndex w u r))

theorem RegsBut.foldl_stepIndex (u : State) (idx : List RegNum) : RegsBut u (idx.foldl (stepIndex w) u) idx := by
  induction idx generalizing u with
  | nil => exact fun _ _ => rfl
  | cons r idx ih => exact (RegsBut.setW u r _).trans (ih (stepIndex w u r))

theorem getW_foldl_stepIndex (u : State) {idx : List RegNum} (hn : idx.Nodup) {r : RegNum} (hr : r ∈ idx) :
    (idx.foldl (stepIndex w) u).getW r = u.getW r + delta u w := by
  induction idx generalizing u with
  | nil => nomatch hr
  | cons q idx ih =>
    obtain ⟨hq, hn⟩ := List.nodup_cons.1 hn
    rcases List.mem_cons.1 hr with rfl | hr
    · exact (RegsBut.foldl_stepIndex w (stepIndex w u r) idx r hq).trans (State.getW_setW ..)
    · have hne : r ≠ q := fun h => hq (h ▸ hr)
      have hdelta : delta (stepIndex w u q) w = delta u w :=
        delta_eq_stringStep (congrArg Flags.df (OnlyGeneral.setW u q _).flags) w
      rw [List.foldl_cons, ih (stepIndex w u q) hn hr, hdelta]
      exact congrArg (· + delta u w) (State.getW_setW_ne u _ hne)

end

/-! ### The element, then the end of the iteration -/

/-- An element has been moved or compared: nothing but memory, the flags other than DF and the listed registers has been
written. -/
structure ElementDone (s u : State) (l : List RegNum) : Prop where
  system : SameSystem s u
  ip : u.ip = s.ip
  df : u.flags.df = s.flags.df
  regs : RegsBut s u l

/-- The iteration of `s` has ended in `t`: its element was done in `u`, and the index registers `idx` have been stepped. -/
structure IterationDone (s u t : State) (compares : Bool) (w : Width) (l idx : List RegNum) : Prop where
  index : ∀ r ∈ idx, t.getW r = s.getW r + stringStep s w
  ends : IterationEnds s t compares
  flags : t.flags = u.flags
  system : SameSystem s t
  regs : RegsBut s t (l ++ (idx ++ [.r1]))
  element : SameSystem u t
  others : RegsBut u t (idx ++ [.r1])
  memory : SameMemory u t

/-- An iteration whose element is done ends so: index registers stepped, then CX and IP settled (R350, R360, R361). -/
theorem ElementDone.iterationDone {s u : State} {l idx : List RegNum} (h : ElementDone s u l) (compares : Bool) (w : Width)
    (hn : (.r1 :: (idx ++ l)).Nodup) :
    IterationDone s u (endIteration s compares (idx.foldl (stepIndex w) u)) compares w l idx := by
  obtain ⟨hcx, hn⟩ := List.nodup_cons.1 hn
  obtain ⟨hcx, hcxl⟩ := not_or.1 (mt List.mem_append.2 hcx)
  obtain ⟨hn, -, hl⟩ := List.nodup_append.1 hn
  have hstep := OnlyGeneral.foldl_stepIndex w u idx
  have hregs := RegsBut.foldl_stepIndex w u idx
  have hend := onlyIterated_endIteration s compares (idx.foldl (stepIndex w) u)
  have hsys := hstep.system.trans hend.system
  exact {
    index := fun r hr => by
      have hne : r ≠ .r1 := fun e => hcx (e ▸ hr)
      rw [hend.regs r (by simpa using hne), getW_foldl_stepIndex w u hn hr,
        h.regs r (fun hrl => hl r hr r hrl rfl), delta_eq_stringStep h.df]
    ends := iterationEnds_endIteration compares ((hregs .r1 hcx).trans (h.regs .r1 hcxl)) (hstep.ip.trans h.ip)
    flags := hend.flags.trans hstep.flags
    system := h.system.trans hsys
    regs := h.regs.trans (hregs.trans hend.regs)
    element := hsys
    others := hregs.trans hend.regs
    memory := hstep.memory.trans hend.memory }

/-- MOVS and STOS do their element by a store at ES:DI (R351, R355). -/
theorem ElementDone.poke (s : State) (w : Width) (v : Val w) : ElementDone s (poke s w .es s.regs.di v) [] :=
  ⟨.poke .., poke_ip .., by rw [poke_flags], fun r _ => State.getW_congr (poke_regs ..) r⟩

theorem OnlyReg.regsBut_r0 {s t : State} {w : Width} (h : OnlyReg s t w .r0) : RegsBut s t [.r0] := by
  cases w with
  | byte => exact h.1
  | word => exact h

/-- LODS does its element by a load of AL or AX (R354). -/
theorem ElementDone.setAcc (s : State) (w : Width) (v : Val w) : ElementDone s (s.setAcc w v) [.r0] :=
  ⟨.setReg .., State.setAcc_ip .., by rw [State.setAcc_flags], (OnlyReg.setReg s w .r0 v).regsBut_r0⟩

/-- CMPS and SCAS do their element by a subtraction that writes flags alone (R352, R353). -/
theorem ElementDone.aluSub (s : State) (w : Width) (a b : Val w) : ElementDone s (aluSub w s a b).2 [] :=
  ⟨.setFlags .., rfl, rfl, fun _ _ => rfl⟩

/-! ### What each instruction answers -/

/-- Every string instruction is one iteration (R360). -/
theorem exec_stringForm {i : Instr} {w : Width} (hi : i ∈ stringForms w) (s : State) :
    ∃ compares prim, exec i s = finish s (stringRun s compares prim) := by
  simp only [stringForms, List.mem_cons, List.not_mem_nil, or_false] at hi
  rcases hi with rfl | rfl | rfl | rfl | rfl | rfl | rfl <;> exact ⟨_, _, rfl⟩

theorem stringRun_cx_zero {s : State} {k : RepKind} (hrep : s.cur.rep = some k) (hcx : s.regs.cx = 0) (compares : Bool)
    (prim : M State) : stringRun s compares prim = .ok s := by
  simp only [stringRun, hrep, if_pos hcx]

section
variable {s : State} {w : Width}

theorem exec_movs (hi : Iterates s) (hs : SourceReadable s w) (hd : Accessible s .es s.regs.di.toNat w.bytes .write) :
    exec (.movs w) s = .next
      (endIteration s false ([.r6, .r7].foldl (stepIndex w) (poke s w .es s.regs.di (stringSource s w)))) := by
  rw [exec, execMovs, srcSeg, memRead_ok hs, ok_bind', memWrite_ok _ hd, ok_bind', stepSi_eq, stepDi_eq]
  exact congrArg (finish s) (stringRun_ok hi rfl)

theorem exec_stos (hi : Iterates s) (hd : Accessible s .es s.regs.di.toNat w.bytes .write) :
    exec (.stos w) s = .next
      (endIteration s false ([.r7].foldl (stepIndex w) (poke s w .es s.regs.di (s.acc w)))) := by
  rw [exec, execStos, memWrite_ok _ hd, ok_bind', stepDi_eq]
  exact congrArg (finish s) (stringRun_ok hi rfl)

theorem exec_lods (hi : Iterates s) (hs : SourceReadable s w) :
    exec (.lods w) s = .next
      (endIteration s false ([.r6].foldl (stepIndex w) (s.setAcc w (stringSource s w)))) := by
  rw [exec, execLods, srcSeg, memRead_ok hs, ok_bind', stepSi_eq]
  exact congrArg (finish s) (stringRun_ok hi rfl)

/-- CMPS reads its second operand in a state that has moved on by one bus place (20_memory.md R160, log 48); the mode and the
segment registers, on which the check depends, are the same there. -/
theorem exec_cmps (hi : Iterates s) (hs : SourceReadable s w) (hd : Accessible s .es s.regs.di.toNat w.bytes .read) :
    exec (.cmps w) s = .next (endIteration s true ([.r6, .r7].foldl (stepIndex w)
      (aluSub w s (stringSource s w) (peek (s.later .second) w .es s.regs.di)).2)) := by
  have hd' : Accessible (s.later .second) .es s.regs.di.toNat w.bytes .read := (Accessible.congr rfl rfl ..).2 hd
  rw [exec, execCmps, srcSeg, memRead_ok hs, ok_bind', memRead_ok hd', ok_bind', stepSi_eq, stepDi_eq]
  exact congrArg (finish s) (stringRun_ok hi rfl)

theorem exec_scas (hi : Iterates s) (hd : Accessible s .es s.regs.di.toNat w.bytes .read) :
    exec (.scas w) s = .next (endIteration s true ([.r7].foldl (stepIndex w)
      (aluSub w s (s.acc w) (peek s w .es s.regs.di)).2)) := by
  rw [exec, execScas, memRead_ok hd, ok_bind', stepDi_eq]
  exact congrArg (finish s) (stringRun_ok hi rfl)

end

/-! ### The element that was moved -/

section
variable {s t : State} {compares : Bool} {w : Width} {idx : List RegNum}

/-- After an element has been stored, it stands at ES:DI and every other byte is as before. -/
theorem IterationDone.stored {v : Val w} (hm : PlainMemory s)
    (h : IterationDone s (poke s w .es s.regs.di v) t compares w [] idx) :
    peek t w .es s.regs.di = v ∧ t.flags = s.flags ∧ MemoryBut s t w .es s.regs.di :=
  ⟨(h.element.peek h.memory ..).trans (peek_poke s w .es s.regs.di v hm), h.flags.trans (poke_flags ..),
    fun p hp => (h.memory p).trans (load8_poke s w .es s.regs.di v hp)⟩

/-- After an element has been loaded, the accumulator holds it and AH stays when it is a byte. -/
theorem IterationDone.loaded {v : Val w} (hacc : .r0 ∉ idx) (h : IterationDone s (s.setAcc w v) t compares w [.r0] idx) :
    t.acc w = v ∧ (w = .byte → t.ah = s.ah) ∧ t.flags = s.flags ∧ SameMemory s t := by
  have hax : t.getW .r0 = (s.setAcc w v).getW .r0 := h.others .r0 (by simpa using hacc)
  have hload : (s.setAcc w v).acc w = v := State.getReg_setReg ..
  refine ⟨Eq.trans ?_ hload, fun hw => ?_, h.flags.trans (State.setAcc_flags ..),
    SameMemory.trans (State.load8_congr (by simp) (by simp) (by simp)) h.memory⟩
  · cases w with
    | byte => exact congrArg loByte hax
    | word => exact hax
  · subst hw
    exact (congrArg hiByte hax).trans (State.getB_setB_ne s v (q := .r4) (by decide))

/-- After a comparison the flags are those of the difference (41_arithmetic.md R280), and memory is as before. -/
theorem IterationDone.compared {a b : Val w} (h : IterationDone s (aluSub w s a b).2 t compares w [] idx) :
    (∃ d : Val w, (d.toNat + b.toNat) % 2 ^ w.bits = a.toNat ∧ StatusOf t.flags w d) ∧
      SubtractionFlags t.flags w a b 0 ∧ SameControlFlags s.flags t.flags ∧ SameMemory s t := by
  have hflags : t.flags = s.flags.sub w a b false := h.flags
  rw [hflags]
  exact ⟨⟨subRes w a b false, subRes_add_toNat w a b false, sub_status ..⟩, Flags.sub_subtractionFlags ..,
    Flags.sub_control .., SameMemory.trans (State.load8_congr rfl rfl rfl) h.memory⟩

end

/-- Settles O18: nothing happens with CX = 0; else the element is stored or loaded and the iteration ends. -/
theorem stringMovesTransferOneElement : Obligations.StringMovesTransferOneElement := by
  refine ⟨fun i w k s hi hrep hcx => ?_, fun w s hm hi hs hd => ?_, fun w s hm hi hd => ?_, fun w s hi hs => ?_⟩
  · obtain ⟨compares, prim, he⟩ := exec_stringForm hi s
    rw [he, stringRun_cx_zero hrep hcx, finish_ok]
  · have hdone := (ElementDone.poke s w (stringSource s w)).iterationDone (idx := [.r6, .r7]) false w (by decide)
    obtain ⟨hvalue, hflags, hmem⟩ := hdone.stored hm
    exact ⟨_, exec_movs hi hs hd, hvalue, hdone.index .r6 (by simp), hdone.index .r7 (by simp), hdone.ends, hflags,
      hdone.system, hdone.regs.mono (by simp), hmem⟩
  · have hdone := (ElementDone.poke s w (s.acc w)).iterationDone (idx := [.r7]) false w (by decide)
    obtain ⟨hvalue, hflags, hmem⟩ := hdone.stored hm
    exact ⟨_, exec_stos hi hd, hvalue, hdone.index .r7 (by simp), hdone.ends, hflags, hdone.system,
      hdone.regs.mono (by simp), hmem⟩
  · have hdone := (ElementDone.setAcc s w (stringSource s w)).iterationDone (idx := [.r6]) false w (by decide)
    obtain ⟨hvalue, hah, hflags, hmem⟩ := hdone.loaded (by decide)
    exact ⟨_, exec_lods hi hs, hvalue, hah, hdone.index .r6 (by simp), hdone.ends, hflags, hdone.system,
      hdone.regs.mono (by simp), hmem⟩

/-- Settles O19: the element is compared by a subtraction that writes flags alone, and the iteration ends. -/
theorem stringComparesSetFlags : Obligations.StringComparesSetFlags := by
  refine ⟨fun w s hi hs hd => ?_, fun w s hi hd => ?_⟩
  · have hdone := (ElementDone.aluSub s w (stringSource s w) (peek (s.later .second) w .es s.regs.di)).iterationDone
      (idx := [.r6, .r7]) true w (by decide)
    obtain ⟨hdiff, hsub, hcontrol, hmem⟩ := hdone.compared
    exact ⟨_, exec_cmps hi hs hd, hdiff, hsub, hdone.index .r6 (by simp), hdone.index .r7 (by simp), hdone.ends, hcontrol,
      hdone.system, hdone.regs.mono (by simp), hmem⟩
  · have hdone := (ElementDone.aluSub s w (s.acc w) (peek s w .es s.regs.di)).iterationDone
      (idx := [.r7]) true w (by decide)
    obtain ⟨hdiff, hsub, hcontrol, hmem⟩ := hdone.compared
    exact ⟨_, exec_scas hi hd, hdiff, hsub, hdone.index .r7 (by simp), hdone.ends, hcontrol, hdone.system,
      hdone.regs.mono (by simp), hmem⟩

end Sys2Proof.Machine
end

section
/-! PROOFS. Transfers within the code segment (44_control_transfer.md R370 to R385): each instruction is a jump once its
condition holds and its target has been read; the target is tested before anything is written, and a jump writes IP alone. -/

namespace Sys2Proof.Machine

/-! ### Entering a target -/

/-- A jump writes IP alone; the prefetch queue it empties is no register (20_memory.md R165). -/
theorem onlyIp_jump (s : State) (ip : Word) : OnlyIp s (s.jump ip) ip :=
  ⟨rfl, rfl, by constructor <;> rfl, fun r _ => State.getW_congr rfl r, State.load8_congr rfl rfl rfl⟩

/-- A target outside the code segment is refused (44_control_transfer.md R370). -/
theorem setIP_refused {s : State} {ip : Word} (h : ¬ TargetOk s ip) : setIP s ip = .error (protection 0) := by
  obtain ⟨hp, hl⟩ := Classical.not_imp.1 h
  exact setIP_error hp (Nat.lt_of_not_le hl)

/-- A meaning that ends with #GP(0) takes that exception, with everything as it was (60_exceptions.md R536). -/
theorem takesException_of_protection {i : Instr} {s : State} {r : M State} (he : exec i s = finish s r)
    (hr : r = .error (protection 0)) : TakesException i s 13 (some 0) := by
  rw [TakesException, he, hr]
  rfl

/-! ### Short jumps -/

/-- The state in which a short jump decides: the LOOP forms have decremented CX (R382). -/
def counted (i : Instr) (s : State) : State := if isLoop i then s.setW .r1 (s.regs.cx - 1) else s

theorem counted_frame (i : Instr) (s : State) :
    OnlyGeneral s (counted i s) ∧
      (counted i s).regs = { s.regs with cx := if isLoop i then s.regs.cx - 1 else s.regs.cx } := by
  unfold counted
  cases isLoop i with
  | false => exact ⟨.refl s, rfl⟩
  | true => exact ⟨.setW s .r1 _, rfl⟩

/-- Every short jump is a jump on its condition, as a test decides it. -/
theorem exec_shortJumpForm {i : Instr} {c : Prop} {d : Byte} {s : State} (hi : shortJumpForm s i = some (c, d)) :
    ∃ b : Bool, (b = true ↔ c) ∧ exec i s = finish s (jumpIf (counted i s) b d) := by
  cases i with
  | jo | jb | je | js | jp =>
    cases hi
    exact ⟨_, .rfl, rfl⟩
  | jno | jnb | jne | jns | jnp | jbe | jnbe | jl | jnl | jle | jnle =>
    cases hi
    exact ⟨_, by simp, rfl⟩
  | jcxz | loop | loope | loopne =>
    cases hi
    exact ⟨_, by simp [← BitVec.toNat_inj], rfl⟩
  | _ => cases hi

/-- Settles O21: the jump is decided and its target tested in the state with CX counted, whose code segment is the same. -/
theorem shortJumpsFollowTheirConditions : Obligations.ShortJumpsFollowTheirConditions := by
  intro i c d s hi target Done
  obtain ⟨b, hb, he⟩ := exec_shortJumpForm hi
  obtain ⟨hcount, hregs⟩ := counted_frame i s
  have htaken (hc : c) : exec i s = finish s (setIP (counted i s) target) := by
    rw [he, hb.2 hc, jumpIf, if_pos rfl, relTarget, hcount.ip]
    rfl
  have hok : TargetOk (counted i s) target ↔ TargetOk s target := by
    rw [TargetOk, TargetOk, hcount.system.msw, hcount.system.cs]
  refine ⟨fun hc => ?_, fun hc ht => ?_, fun hc ht => ?_⟩
  · rw [he, Bool.eq_false_iff.2 (mt hb.1 hc)]
    exact ⟨_, rfl, hcount.ip, hcount.flags, hcount.system, hcount.memory, hregs⟩
  · obtain ⟨hip, hflags, hsys, -, hmem⟩ := onlyIp_jump (counted i s) target
    rw [htaken hc, setIP_ok (hok.2 ht)]
    exact ⟨_, rfl, hip, hflags.trans hcount.flags, hcount.system.trans hsys, hcount.memory.trans hmem, hregs⟩
  · exact takesException_of_protection (htaken hc) (setIP_refused (mt hok.1 ht))

/-! ### Near JMP, CALL and RET -/

theorem exec_nearJumpForm {i : Instr} {ip : Word} {Ready : Prop} {s : State} (hi : nearJumpForm s i = some (ip, Ready))
    (hr : Ready) : exec i s = finish s (setIP s ip) := by
  cases i with
  | jmpRel8 | jmpRel16 =>
    cases hi
    rfl
  | jmpRm m =>
    cases hi
    rw [exec, execJmpRm, readRm_ok hr]
    rfl
  | _ => cases hi

theorem exec_nearCallForm {i : Instr} {ip : Word} {Ready : Prop} {s : State} (hi : nearCallForm s i = some (ip, Ready))
    (hr : Ready) : exec i s = finish s (callNear s ip) := by
  cases i with
  | callRel =>
    cases hi
    rfl
  | callRm m =>
    cases hi
    rw [exec, execCallRm, readRm_ok hr]
    rfl
  | _ => cases hi

theorem exec_nearReturnForm {i : Instr} {n : Word} (s : State) (hi : nearReturnForm i = some n) :
    exec i s = finish s (retNear s n) := by
  cases i with
  | ret | retImm =>
    cases hi
    rfl
  | _ => cases hi

section
variable {s : State}

theorem callNear_ok {ip : Word} (ht : TargetOk s ip) (hp : CanPush s 1) : callNear s ip = .ok ((pushRaw s s.ip).jump ip) := by
  rw [callNear, setIP_ok ht, ok_bind', push_ok _ hp]
  rfl

theorem callNear_refused {ip : Word} (ht : ¬ TargetOk s ip) : callNear s ip = .error (protection 0) := by
  rw [callNear, setIP_refused ht, error_bind']

theorem retNear_ok (n : Word) (h : CanPopAt s 0) (ht : TargetOk s (stackTop s)) :
    retNear s n = .ok ((s.jump (stackTop s)).setSp (s.regs.sp + 2 + n)) := by
  rw [retNear, popWord_ok h, ok_bind', ← stackTop, setIP_ok ht]
  rfl

theorem retNear_refused (n : Word) (h : CanPopAt s 0) (ht : ¬ TargetOk s (stackTop s)) :
    retNear s n = .error (protection 0) := by
  rw [retNear, popWord_ok h, ok_bind', ← stackTop, setIP_refused ht, error_bind']

end

/-- Settles O22: a near transfer is a jump, after a push for CALL, before SP moves for RET. -/
theorem nearTransfers : Obligations.NearTransfers := by
  refine ⟨fun i ip Ready s hi hr => ?_, fun i ip Ready s hi hr hm => ?_, fun i n s hi h => ?_⟩
  · have he := exec_nearJumpForm hi hr
    refine ⟨fun ht => ⟨s.jump ip, ?_, onlyIp_jump s ip⟩, fun ht => takesException_of_protection he (setIP_refused ht)⟩
    rw [he, setIP_ok ht, finish_ok]
  · have he := exec_nearCallForm hi hr
    refine ⟨fun ht hp => ⟨(pushRaw s s.ip).jump ip, ?_, ?_⟩, fun ht => takesException_of_protection he (callNear_refused ht)⟩
    · rw [he, callNear_ok ht hp, finish_ok]
    · obtain ⟨hsp, hflags, hsys, -, hregs, hmem⟩ := pushRaw_frame s s.ip
      obtain ⟨hip, hflags', hsys', hregs', hmem'⟩ := onlyIp_jump (pushRaw s s.ip) ip
      have htop : stackTop ((pushRaw s s.ip).jump ip) = s.ip := (hsys'.peek hmem' .word ..).trans (stackTop_pushRaw _ hm)
      exact ⟨hip, htop, hsp, hflags'.trans hflags, hsys.trans hsys', hregs.trans hregs',
        fun p hp => (hmem' p).trans (hmem p hp)⟩
  · have he := exec_nearReturnForm s hi
    refine ⟨fun ht => ⟨(s.jump (stackTop s)).setSp (s.regs.sp + 2 + n), ?_, ?_⟩,
      fun ht => takesException_of_protection he (retNear_refused n h ht)⟩
    · rw [he, retNear_ok n h ht, finish_ok]
    · obtain ⟨hip, hflags, hsys, hregs, hmem⟩ := onlyIp_jump s (stackTop s)
      have hsp := OnlyGeneral.setW (s.jump (stackTop s)) .r4 (s.regs.sp + 2 + n)
      exact ⟨hip, rfl, hflags, hsys.trans hsp.system, hregs.trans (.setW _ .r4 _), hmem.trans hsp.memory⟩

end Sys2Proof.Machine
end

section
/-! PROOFS. Far transfers, INT and IRET in real mode (44_control_transfer.md R371 to R409; 60_exceptions.md R561, R585): each
is a run of pushes, or of words read from the stack, and a load of CS and IP; that IRET undoes INT follows from their frames. -/

namespace Sys2Proof.Machine

/-! ### Loading CS and IP -/

theorem SameSystem.sameButCs {s t : State} (h : SameSystem s t) : SameButCs s t :=
  show SameSystem { s with cs := t.cs } t from { h with cs := rfl }

theorem SameButCs.trans {s t u : State} (h : SameButCs s t) (k : SameButCs t u) : SameButCs s u :=
  have hcs : SameSystem { s with cs := u.cs } { t with cs := u.cs } := { h with cs := rfl }
  SameSystem.trans hcs k

/-- What is read through SS does not depend on CS. -/
theorem SameButCs.peek16_ss {s t : State} (h : SameButCs s t) (hm : SameMemory s t) (o : Word) :
    peek16 t .ss o = peek16 s .ss o :=
  SameSystem.peek h hm .word .ss o

/-- A far transfer in real mode: CS and IP, and nothing else (44_control_transfer.md R371). -/
structure FarEntered (s t : State) (sel off : Word) : Prop where
  cs : LoadedReal t.cs sel
  ip : t.ip = off
  flags : t.flags = s.flags
  system : SameButCs s t
  regs : t.regs = s.regs
  memory : SameMemory s t

theorem farEntered_farReal (s : State) (sel off : Word) : FarEntered s (farReal s sel off) sel off :=
  ⟨SegReg.real_loaded sel, rfl, rfl, by constructor <;> rfl, rfl, State.load8_congr rfl rfl rfl⟩

/-! ### Words pushed before a transfer -/

theorem PlainMemory.foldl_pushRaw {s : State} (l : List Word) (h : PlainMemory s) :
    PlainMemory (l.foldl Machine.pushRaw s) := by
  induction l generalizing s with
  | nil => exact h
  | cons v l ih => exact ih (h.pushRaw v)

/-- Words are pushed, and what follows writes neither memory nor any part of the processor but CS: each word lies at its place
below the old SP, and no other byte has changed. -/
theorem pushed_frame {s t : State} {l : List Word} (hm : PlainMemory s) (hl : 2 * l.length ≤ 2 ^ 16)
    (hsys : SameButCs (l.foldl pushRaw s) t) (hmem : SameMemory (l.foldl pushRaw s) t) :
    (∀ k v, l[k]? = some v → peek16 t .ss (s.regs.sp - BitVec.ofNat 16 (2 * k + 2)) = v) ∧ SameButCs s t ∧
      ∀ p, ¬ BelowTop s l.length p → t.load8 p = s.load8 p :=
  ⟨fun _ _ hv => (hsys.peek16_ss hmem _).trans (peek16_foldl_pushRaw hm hl hv),
    (SameSystem.foldl_pushRaw s l).sameButCs.trans hsys,
    fun p hp => (hmem p).trans (load8_foldl_pushRaw fun k hk h => hp ⟨k, hk, h⟩)⟩

/-- A word at a place below the old SP, said from the new one. -/
theorem stackAt_of_sp {t : State} {sp k o v : Word} (h : t.regs.sp = sp) (ho : sp + k = o) (hv : peek16 t .ss o = v) :
    stackAt t k = v := by rw [stackAt, h, ho, hv]

/-! ### JMP and CALL far -/

/-- The meaning of a far JMP or CALL once its pointer has been read. -/
theorem exec_farForm {i : Instr} {call : Bool} {sel off : Word} {Ready : Prop} {s : State}
    (hi : farForm s i = some (call, sel, off, Ready)) (hr : Ready) :
    exec i s = finish s (if call then callFarTo s sel off else jmpFar s sel off) := by
  cases i with
  | jmpFar | callFar =>
    cases hi
    rfl
  | jmpFarMem a =>
    cases hi
    rw [exec, execJmpFarMem, readPair_ok hr.1 hr.2]
    rfl
  | callFarMem a =>
    cases hi
    rw [exec, execCallFarMem, readPair_ok hr.1 hr.2]
    rfl
  | _ => cases hi

section
variable {s : State}

theorem jmpFar_real (sel off : Word) (h : s.msw.pe = false) : jmpFar s sel off = .ok (farReal s sel off) := by
  rw [jmpFar, h]
  rfl

theorem callFarTo_real (sel off : Word) (h : s.msw.pe = false) (hp : CanPush s 2) :
    callFarTo s sel off = .ok (farReal (pushReturn s) sel off) := by
  rw [callFarTo, h, checkPush_ok hp]
  rfl

/-- In real mode a stack without room is exception 13 (20_memory.md R117). -/
theorem checkPush_refused_real {n : Nat} (h : s.msw.pe = false) (hp : ¬ CanPush s n) :
    checkPush s n = .error (protection 0) := by
  induction n with
  | zero => exact absurd ((checkPush_ok_iff s 0).1 rfl) hp
  | succ n ih =>
    rw [checkPush]
    by_cases hn : CanPush s n
    · have hlast : ¬ Accessible s .ss (s.regs.sp - BitVec.ofNat 16 (2 * (n + 1))).toNat 2 .write := fun ha =>
        hp ((checkPush_ok_iff s (n + 1)).1 (by rw [checkPush, checkPush_ok hn, ok_bind', checkPushAt, memCheck_ok ha]))
      rw [checkPush_ok hn, ok_bind', checkPushAt]
      exact (memCheck_error hlast).resolve_right fun hpe => Bool.false_ne_true (h.symm.trans hpe.1)
    · rw [ih hn, error_bind']

theorem callFarTo_refused_real (sel off : Word) (h : s.msw.pe = false) (hp : ¬ CanPush s 2) :
    callFarTo s sel off = .error (protection 0) := by
  rw [callFarTo, h, checkPush_refused_real h hp]
  rfl

theorem pushReturn_eq (s : State) : pushReturn s = [s.cs.sel, s.ip].foldl pushRaw s := rfl

/-- CALL leaves its return address on the stack: the next instruction's offset on top of CS (R377). -/
theorem callFar_frame (hm : PlainMemory s) (sel off : Word) :
    let t := farReal (pushReturn s) sel off
    LoadedReal t.cs sel ∧ t.ip = off ∧ stackAt t 0 = s.ip ∧ stackAt t 2 = s.cs.sel ∧
      t.regs = { s.regs with sp := s.regs.sp - 4 } ∧ t.flags = s.flags ∧ SameButCs s t ∧
      ∀ p, ¬ BelowTop s 2 p → t.load8 p = s.load8 p := by
  obtain ⟨hregs, hflags, -⟩ := foldl_pushRaw_registers s [s.cs.sel, s.ip]
  have hfar := farEntered_farReal (pushReturn s) sel off
  rw [pushReturn_eq] at hfar ⊢
  obtain ⟨hword, hsys, hmem⟩ := pushed_frame hm (by simp) hfar.system hfar.memory
  have hregs := hfar.regs.trans hregs
  have hsp : (farReal ([s.cs.sel, s.ip].foldl pushRaw s) sel off).regs.sp = s.regs.sp - 4 := congrArg Regs.sp hregs
  exact ⟨hfar.cs, hfar.ip, stackAt_of_sp hsp (by bv_omega) (hword 1 s.ip rfl),
    stackAt_of_sp hsp (by bv_omega) (hword 0 s.cs.sel rfl), hregs, hfar.flags.trans hflags, hsys, hmem⟩

/-! ### RET far and IRET -/

theorem exec_farReturnForm {i : Instr} {n : Word} (s : State) (hi : farReturnForm i = some n) :
    exec i s = finish s (retFarTo s n) := by
  cases i with
  | retFar | retFarImm =>
    cases hi
    rfl
  | _ => cases hi

theorem retFarTo_real (n : Word) (h : s.msw.pe = false) (h0 : CanPopAt s 0) (h2 : CanPopAt s 2) :
    retFarTo s n = .ok ((farReal s (stackAt s 2) (stackAt s 0)).setSp (s.regs.sp + 4 + n)) := by
  rw [retFarTo, h, if_neg Bool.false_ne_true, farReturnReal, stackWord_ok h0, ok_bind', stackWord_ok h2]
  rfl

/-- The state in which IRET ends in real mode (R409; 60_exceptions.md R547). -/
def iretEntered (s : State) : State :=
  { ((farReal s (stackAt s 2) (stackAt s 0)).setFlags (s.poppedFlags (stackAt s 4))).setSp (s.regs.sp + 6) with
    nmiInService := false }

theorem exec_iret_real (h : s.msw.pe = false) (h0 : CanPopAt s 0) (h2 : CanPopAt s 2) (h4 : CanPopAt s 4) :
    exec .iret s = .next (iretEntered s) := by
  rw [exec, execIret, returnFromInterrupt, h, Bool.not_false, if_pos rfl, iretReal, stackWord_ok h0, ok_bind', stackWord_ok h2,
    ok_bind', stackWord_ok h4]
  rfl

/-- IRET takes IP, CS and FLAGS from the stack and opens NMI; nothing else changes. -/
theorem iretEntered_frame (s : State) :
    let u := iretEntered s
    u.ip = stackAt s 0 ∧ LoadedReal u.cs (stackAt s 2) ∧ u.flags = loadedFlags s (stackAt s 4) ∧
      u.regs = { s.regs with sp := s.regs.sp + 6 } ∧ SameButCs { s with nmiInService := false } u ∧ SameMemory s u :=
  ⟨rfl, SegReg.real_loaded _, s.poppedFlags_eq _, rfl, by constructor <;> rfl, State.load8_congr rfl rfl rfl⟩

end

/-- Settles O24: each far transfer in real mode ends in a state whose frame is known. -/
theorem realModeFarTransfers : Obligations.RealModeFarTransfers := by
  refine ⟨fun i call sel off Ready s hi h hm hr => ?_, fun i n s hi h h0 h2 => ?_, fun s h h0 h2 h4 => ?_⟩
  · have he := exec_farForm hi hr
    refine ⟨?_, ?_, ?_⟩
    · rintro rfl
      have hfar := farEntered_farReal s sel off
      refine ⟨farReal s sel off, ?_, hfar.cs, hfar.ip, hfar.flags, hfar.system, fun r _ => State.getW_congr hfar.regs r,
        hfar.memory⟩
      rw [he, if_neg Bool.false_ne_true, jmpFar_real sel off h, finish_ok]
    · rintro rfl hp
      refine ⟨_, ?_, callFar_frame hm sel off⟩
      rw [he, if_pos rfl, callFarTo_real sel off h hp, finish_ok]
    · rintro rfl hp
      exact takesException_of_protection he (callFarTo_refused_real sel off h hp)
  · have hfar := farEntered_farReal s (stackAt s 2) (stackAt s 0)
    have hsp := OnlyGeneral.setW (farReal s (stackAt s 2) (stackAt s 0)) .r4 (s.regs.sp + 4 + n)
    refine ⟨(farReal s (stackAt s 2) (stackAt s 0)).setSp (s.regs.sp + 4 + n), ?_, hfar.ip, hfar.cs, rfl, hfar.flags,
      hfar.system.trans hsp.system.sameButCs, hfar.memory.trans hsp.memory⟩
    rw [exec_farReturnForm s hi, retFarTo_real n h h0 h2, finish_ok]
  · exact ⟨_, exec_iret_real h h0 h2 h4, iretEntered_frame s⟩

/-! ### INT, INT 3 and INTO -/

/-- What entering a vector does to the state it begins in (60_exceptions.md R561). -/
structure VectorEntered (s u : State) (n : Nat) (ret : Word) : Prop where
  ip : u.ip = s.load16 (s.idtr.base + BitVec.ofNat 24 (4 * n))
  cs : LoadedReal u.cs (s.load16 (s.idtr.base + BitVec.ofNat 24 (4 * n) + 2))
  savedFlags : Flags.ofWord (peek16 u .ss (s.regs.sp - 2)) = s.flags
  savedCs : peek16 u .ss (s.regs.sp - 4) = s.cs.sel
  savedIp : peek16 u .ss (s.regs.sp - 6) = ret
  regs : u.regs = { s.regs with sp := s.regs.sp - 6 }
  flags : u.flags = { s.flags with ief := false, tf := false }
  system : SameButCs s u
  memory : ∀ p, ¬ BelowTop s 3 p → u.load8 p = s.load8 p
  plain : PlainMemory u

/-- Counting a drawn value is not seen by the pushes that follow. -/
theorem pushRaw_drawn (s : State) (n : Nat) (v : Word) : pushRaw (s.drawn n) v = (pushRaw s v).drawn n := rfl

theorem sameButCs_setFlags (s : State) (n : Nat) (f : Flags) : SameButCs s ((s.drawn n).setFlags f) :=
  ((SameSystem.drawn s n).trans (.setFlags ..)).sameButCs

section
variable {s : State}

/-- Entering a vector is one run of pushes, a load of the flags, and a far transfer (R561). -/
theorem realEntry_pushes (n : Nat) (ret : Word) (h : CanPush s 3) :
    realEntry s n ret = some (farReal
      ((([s.flagsWord, s.cs.sel, ret].foldl pushRaw s).drawn 1).setFlags { s.flags with ief := false, tf := false })
      (s.load16 (s.idtr.base + BitVec.ofNat 24 (4 * n) + 2)) (s.load16 (s.idtr.base + BitVec.ofNat 24 (4 * n)))) := by
  rw [realEntry_ok n ret h, pushRaw_drawn, pushRaw_drawn]
  rfl

/-- FLAGS, CS and the return offset lie on the stack, and the vector's CS and IP have been loaded (R561). -/
theorem realEntry_entered (n : Nat) (ret : Word) (hm : PlainMemory s) (h : CanPush s 3) :
    ∃ u, realEntry s n ret = some u ∧ VectorEntered s u n ret := by
  have hregs := (foldl_pushRaw_registers s [s.flagsWord, s.cs.sel, ret]).1
  have hplain := hm.foldl_pushRaw [s.flagsWord, s.cs.sel, ret]
  have hfar := farEntered_farReal
    ((([s.flagsWord, s.cs.sel, ret].foldl pushRaw s).drawn 1).setFlags { s.flags with ief := false, tf := false })
    (s.load16 (s.idtr.base + BitVec.ofNat 24 (4 * n) + 2)) (s.load16 (s.idtr.base + BitVec.ofNat 24 (4 * n)))
  have hsys := (sameButCs_setFlags _ 1 _).trans hfar.system
  obtain ⟨hword, hsys, hmem⟩ := pushed_frame hm (by simp) hsys hfar.memory
  have hflags := congrArg Flags.ofWord (hword 0 s.flagsWord rfl)
  exact ⟨_, realEntry_pushes n ret h, {
    ip := hfar.ip
    cs := hfar.cs
    savedFlags := hflags.trans (Flags.ofWord_image ..)
    savedCs := hword 1 s.cs.sel rfl
    savedIp := hword 2 ret rfl
    regs := hfar.regs.trans hregs
    flags := hfar.flags
    system := hsys
    memory := hmem
    plain := hplain.congr rfl rfl }⟩

/-- The state in which a delivery begins: the halt has ended, no prefixes are noted (60_exceptions.md R560). -/
def deliveryBegun (s : State) : State := { s.later .delivery with halted := false, cur := Cur.at s.cur.ip }

/-- The state in which the delivery that has come to `u` ends: the prefetch queue is empty (20_memory.md R165), and the place on
the bus is that of the instruction. -/
def deliveryEnded (s u : State) : State := { u.flush with bus := s.bus }

theorem deliver_real (ev : Event) (ret atIp : Word) (h : s.msw.pe = false) :
    deliver s ev ret atIp =
      deliveryEnded s (deliverReal (deliveryBegun s) ev.vector.toNat ret atIp) :=
  congrArg (deliveryEnded s) (if_neg (c := (deliveryBegun s).msw.pe = true) (Bool.eq_false_iff.1 h))

theorem canPush_deliveryBegun (n : Nat) : CanPush (deliveryBegun s) n ↔ CanPush s n := .rfl

/-- The end of a delivery writes nothing that another instruction sees; in memory that is plain, neither does the place on the
bus at which it read. -/
theorem VectorEntered.delivered {u : State} {n : Nat} {ret : Word} (hm : PlainMemory s)
    (h : VectorEntered (deliveryBegun s) u n ret) :
    EntersReal s (deliveryEnded s u) n ret ∧
      SameButCs { s with halted := false, cur := Cur.at s.cur.ip } (deliveryEnded s u) := by
  have hbegun : SameMemory s (deliveryBegun s) := hm.steady.load8_congr rfl rfl
  have hended : SameMemory u (deliveryEnded s u) := h.plain.steady.load8_congr rfl rfl
  have hword (o : Word) : peek16 (deliveryEnded s u) .ss o = peek16 u .ss o :=
    SameButCs.peek16_ss (by constructor <;> rfl) hended o
  have hentry (a : Phys) : (deliveryBegun s).load16 a = s.load16 a := by rw [State.load16, hbegun, hbegun, State.load16]
  have hsys : SameButCs { s with halted := false, cur := Cur.at s.cur.ip } (deliveryEnded s u) :=
    show SameSystem { s with halted := false, cur := Cur.at s.cur.ip, cs := u.cs } _ from { h.system with }
  refine ⟨⟨h.ip.trans (hentry _), hentry _ ▸ h.cs, ?_, ?_, ?_, h.regs, h.flags, hsys.halted, hsys.shutdown, fun p hp => ?_,
    hsys.es, hsys.ss, hsys.ds, hsys.msw, hsys.gdtr, hsys.idtr, hsys.ldtr, hsys.tr, hsys.pins, hsys.memMap, hsys.io, hsys.ext,
    hsys.cur⟩, hsys⟩
  · rw [hword]
    exact h.savedFlags
  · exact (hword _).trans h.savedCs
  · exact (hword _).trans h.savedIp
  · exact (hended p).trans ((h.memory p hp).trans (hbegun p))

/-- An INT instruction is the delivery of its vector, with the next instruction as return address (44_control_transfer.md R400,
R401). -/
theorem exec_interruptForm {i : Instr} {n : Byte} (hi : interruptForm i = some n) (ho : i = .into → s.flags.of = true) :
    exec i s = .next (softInt s n) := by
  cases i with
  | int3 | intImm =>
    cases hi
    rfl
  | into =>
    cases hi
    rw [exec, execInto, if_pos (ho rfl)]
  | _ => cases hi

theorem softInt_real (n : Byte) (h : s.msw.pe = false) :
    softInt s n = deliveryEnded s (deliverReal (deliveryBegun s) n.toNat s.ip s.cur.ip) :=
  deliver_real _ _ _ h

theorem softInt_entered (n : Byte) (h : s.msw.pe = false) (hm : PlainMemory s) (hn : 4 * n.toNat + 3 ≤ s.idtr.limit.toNat)
    (hp : CanPush s 3) :
    EntersReal s (softInt s n) n.toNat s.ip ∧
      SameButCs { s with halted := false, cur := Cur.at s.cur.ip } (softInt s n) := by
  have hplain : PlainMemory (deliveryBegun s) := hm.congr rfl rfl
  obtain ⟨u, hu, hentered⟩ := realEntry_entered n.toNat s.ip hplain ((canPush_deliveryBegun 3).2 hp)
  rw [softInt_real n h, deliverReal_ok (s := deliveryBegun s) s.ip s.cur.ip hn hu]
  exact hentered.delivered hm

/-- The state that a delivery without room on the stack leaves (60_exceptions.md R585). -/
def shutDown (s : State) : State := deliveryEnded s (enterShutdown (deliveryBegun s))

/-- The processor is shut down, the halt ended and the prefixes forgotten; nothing else changes. -/
theorem shutDown_frame (hm : PlainMemory s) :
    (shutDown s).shutdown = true ∧ (shutDown s).regs = s.regs ∧ (shutDown s).flags = s.flags ∧ (shutDown s).ip = s.ip ∧
      SameSystem { s with shutdown := true, halted := false, cur := Cur.at s.cur.ip } (shutDown s) ∧
      SameMemory s (shutDown s) := by
  refine ⟨?_, ?_, ?_, ?_, ?_, hm.steady.load8_congr ?_ ?_⟩
  case refine_5 => constructor <;> simp [shutDown, deliveryEnded, enterShutdown, deliveryBegun]
  all_goals simp [shutDown, deliveryEnded, enterShutdown, deliveryBegun]

theorem softInt_noStack (n : Byte) (h : s.msw.pe = false) (hn : 4 * n.toNat + 3 ≤ s.idtr.limit.toNat) (hp : ¬ CanPush s 3) :
    softInt s n = shutDown s := by
  rw [softInt_real n h, deliverReal_noStack (s := deliveryBegun s) s.ip s.cur.ip hn (mt (canPush_deliveryBegun 3).1 hp),
    shutDown]

end

/-- Settles O25: the vector is entered, or, without room on the stack, nothing but the conditions changes. -/
theorem realModeSoftwareInterrupts : Obligations.RealModeSoftwareInterrupts := by
  refine ⟨fun s ho => ?_, fun i n s hi ho h hm hn => ⟨fun hp => ?_, fun hp => ?_⟩⟩
  · rw [exec, execInto, if_neg (by simp [ho])]
  · exact ⟨softInt s n, exec_interruptForm hi ho, softInt_entered n h hm hn hp⟩
  · refine ⟨_, exec_interruptForm hi ho, ?_⟩
    rw [softInt_noStack n h hn hp]
    exact shutDown_frame hm

/-! ### IRET after INT -/

/-- The flags that an interrupt has saved are the ones IRET loads: in real mode IOPL and NT stay, and the interrupt has left
them (R409, R434). -/
theorem loadedFlags_saved {s t : State} {v : Word} (hv : Flags.ofWord v = s.flags) (hp : t.msw.pe = false)
    (hf : t.flags = { s.flags with ief := false, tf := false }) : loadedFlags t v = s.flags := by
  simp [loadedFlags, hv, hp, hf]

/-- Settles O26: the three words that INT pushed are the three that IRET reads. -/
theorem interruptReturnUndoesInterrupt : Obligations.InterruptReturnUndoesInterrupt := by
  intro n s t h hm hn hp he
  obtain rfl : softInt s n = t := by
    rw [exec_interruptForm (i := .intImm n) rfl nofun] at he
    cases he
    rfl
  obtain ⟨hentered, -⟩ := softInt_entered n h hm hn hp
  generalize softInt s n = t at hentered
  obtain ⟨-, -, hflags, hcs, hip, hregs, hloaded, -, -, hmem, hes, hss, hds, hmsw, -⟩ := hentered
  have hsp : t.regs.sp = s.regs.sp - 6 := congrArg Regs.sp hregs
  have hpe : t.msw.pe = false := (congrArg Msw.pe hmsw).trans h
  have hpop (j : Nat) (hj : 1 ≤ j ∧ j ≤ 3) (k : Word) (hk : s.regs.sp - 6 + k = s.regs.sp - BitVec.ofNat 16 (2 * j)) :
      CanPopAt t k := by
    rw [CanPopAt, hsp, hk, Accessible.congr (s := s) (x := .ss) hmsw hss]
    exact (hp j hj.1 hj.2).read_of_write
  have hret := exec_iret_real hpe (hpop 3 (by decide) 0 (by bv_omega)) (hpop 2 (by decide) 2 (by bv_omega))
    (hpop 1 (by decide) 4 (by bv_omega))
  obtain ⟨huip, hucs, huflags, huregs, husys, humem⟩ := iretEntered_frame t
  refine ⟨_, hret, huip.trans (stackAt_of_sp hsp (by bv_omega) hip), ?_, ?_, ?_, husys.es.trans hes,
    husys.ss.trans hss, husys.ds.trans hds, husys.msw.trans hmsw, husys.nmiInService,
    fun p hp => (humem p).trans (hmem p hp)⟩
  · rw [huregs, hregs]
    simp
  · rw [huflags, stackAt_of_sp hsp (o := s.regs.sp - 2) (by bv_omega) rfl]
    exact loadedFlags_saved hflags hpe hloaded
  · exact stackAt_of_sp hsp (o := s.regs.sp - 4) (k := 2) (by bv_omega) hcs ▸ hucs

end Sys2Proof.Machine
end

section
/-! PROOFS. ENTER, LEAVE and BOUND (44_control_transfer.md R390 to R392). ENTER is one run of pushes, of BP, the display and the
new frame's address, followed by a load of BP and SP; what it copies is the old display as long as no push has reached it. -/

namespace Sys2Proof.Machine

/-! ### Reading above the words pushed -/

theorem BelowTop.pushed {s : State} {v : Word} {n : Nat} {p : Phys} (h : BelowTop (pushRaw s v) n p) :
    BelowTop s (n + 1) p := by
  obtain ⟨k, hk, hp⟩ := h
  refine ⟨k + 2, by omega, hp.trans ?_⟩
  rw [segAddr_pushRaw, pushRaw_sp, sub_two_sub]

/-- The bytes of the word that a push writes lie below the old top. -/
theorem belowTop_of_touches {s : State} {n : Nat} {p : Phys} (h : Touches s .word .ss (s.regs.sp - 2) p) :
    BelowTop s (n + 1) p := by
  rcases h with hp | ⟨-, hp⟩
  · exact ⟨1, by omega, hp⟩
  · have hhigh : s.regs.sp - 2 + 1 = s.regs.sp - BitVec.ofNat 16 (0 + 1) := by bv_omega
    exact ⟨0, by omega, hhigh ▸ hp⟩

/-- A word of the stack that does not reach below the top reads the same after a push. -/
theorem peek16_pushRaw_apart {s : State} {o : Word} {n : Nat} (v : Word)
    (h : ∀ p, Touches s .word .ss o p → ¬ BelowTop s (n + 1) p) : peek16 (pushRaw s v) .ss o = peek16 s .ss o := by
  have hbyte (q : Word) (hq : Touches s .word .ss o (segAddr s .ss q)) : peek8 (pushRaw s v) .ss q = peek8 s .ss q := by
    rw [peek8, segAddr_pushRaw]
    exact load8_pushRaw s v fun ht => h _ hq (belowTop_of_touches ht)
  rw [peek16, peek16, hbyte o (.inl rfl), hbyte (o + 1) (.inr ⟨rfl, rfl⟩)]

/-! ### The display -/

/-- The words that a copy of `n` words of the display reads, each after the one before it has been pushed (R390). -/
def displayRead (s : State) : Nat → List Word
  | 0 => []
  | n + 1 => peek16 s .ss (displayWord s 1) :: displayRead (displayStep s) n

theorem length_displayRead (s : State) (n : Nat) : (displayRead s n).length = n := by
  induction n generalizing s with
  | zero => rfl
  | succ n ih => rw [displayRead, List.length_cons, ih]

/-- A push does not look at BP. -/
theorem pushRaw_setBp (s : State) (b v : Word) : pushRaw (s.setW .r5 b) v = (pushRaw s v).setW .r5 b := rfl

theorem State.setBp_setBp (s : State) (b c : Word) : (s.setW .r5 b).setW .r5 c = s.setW .r5 c := rfl

theorem foldl_pushRaw_setBp (s : State) (b : Word) (l : List Word) :
    l.foldl pushRaw (s.setW .r5 b) = (l.foldl pushRaw s).setW .r5 b := by
  induction l generalizing s with
  | nil => rfl
  | cons v l ih => rw [List.foldl_cons, pushRaw_setBp, ih, List.foldl_cons]

/-- Copying the display is pushing what it reads, but for BP. -/
theorem iterate_displayStep_eq (s : State) (n : Nat) :
    ∃ b, displayStep^[n] s = ((displayRead s n).foldl pushRaw s).setW .r5 b := by
  induction n generalizing s with
  | zero => exact ⟨s.regs.bp, rfl⟩
  | succ n ih =>
    obtain ⟨b, hb⟩ := ih (displayStep s)
    refine ⟨b, ?_⟩
    rw [Function.iterate_succ_apply, hb, displayStep, pushRaw_setBp, foldl_pushRaw_setBp, State.setBp_setBp]
    rfl

/-- Where the old display does not reach below the top of the stack, the words read are its own. -/
theorem displayRead_get {s : State} {n j : Nat} (hj : j < n)
    (h : ∀ i p, i < n → Touches s .word .ss (displayWord s (i + 1)) p → ¬ BelowTop s n p) :
    (displayRead s n)[j]? = some (peek16 s .ss (displayWord s (j + 1))) := by
  induction n generalizing s j with
  | zero => nomatch hj
  | succ n ih =>
    cases j with
    | zero => rfl
    | succ j =>
      have hpushed := ih (s := displayStep s) (Nat.lt_of_succ_lt_succ hj) fun i p hi ht hb => by
        rw [displayWord_displayStep] at ht
        exact h (i + 1) p (Nat.succ_lt_succ hi) ht hb.pushed
      have hword : peek16 (displayStep s) .ss (displayWord s (j + 2)) = peek16 s .ss (displayWord s (j + 2)) :=
        (peek16_pushRaw_apart _ fun p => h (j + 1) p hj).trans ((OnlyGeneral.setW s .r5 _).peek16 ..)
      rw [displayWord_displayStep, hword] at hpushed
      exact hpushed

/-! ### ENTER -/

/-- When every test passes, what a computation promises behind its tests holds. -/
theorem TestsThen.passed {α : Type} {s : State} {P : M α → Prop} {l : List OperandCheck} {r : M α} (h : TestsThen s P l r)
    (hl : ∀ c ∈ l, c.Passes s) : P r := by
  induction l with
  | nil => exact h
  | cons c l ih =>
    have hc := hl c List.mem_cons_self
    have hrest := fun d hd => hl d (List.mem_cons_of_mem _ hd)
    cases c with
    | condition p => exact ih (h hc) hrest
    | access x off n a => exact ih (h.1 hc) hrest

/-- The words that ENTER pushes at a nesting level (R390). -/
def frameWords (s : State) : Nat → List Word
  | 0 => [s.regs.bp]
  | m + 1 => s.regs.bp :: (displayRead (pushRaw s s.regs.bp) m ++ [s.regs.sp - 2])

theorem length_frameWords (s : State) (n : Nat) : (frameWords s n).length = n + 1 := by
  cases n with
  | zero => rfl
  | succ m => simp [frameWords, length_displayRead]

theorem frameWords_bp (s : State) (n : Nat) : (frameWords s n)[0]? = some s.regs.bp := by cases n <;> rfl

theorem frameWords_frame (s : State) {n : Nat} (hn : n ≠ 0) : (frameWords s n)[n]? = some (s.regs.sp - 2) := by
  obtain ⟨m, rfl⟩ := Nat.exists_eq_succ_of_ne_zero hn
  simp [frameWords, length_displayRead]

theorem frameWords_display {s : State} {n j : Nat} (h1 : 1 ≤ j) (hj : j < n)
    (h : ∀ j p, 1 ≤ j → j < n → Touches s .word .ss (displayWord s j) p → ¬ BelowTop s (n + 1) p) :
    (frameWords s n)[j]? = some (peek16 s .ss (displayWord s j)) := by
  obtain ⟨m, rfl⟩ := Nat.exists_eq_succ_of_ne_zero (Nat.ne_zero_of_lt hj)
  obtain ⟨i, rfl⟩ := Nat.exists_eq_succ_of_ne_zero (Nat.ne_zero_of_lt h1)
  have hi : i < m := Nat.lt_of_succ_lt_succ hj
  have hbp (k : Nat) : displayWord (pushRaw s s.regs.bp) k = displayWord s k := by
    rw [displayWord, pushRaw_regs, displayWord]
  have hread := displayRead_get (s := pushRaw s s.regs.bp) hi fun k p hk ht hb => by
    rw [hbp, Touches, segAddr_pushRaw, segAddr_pushRaw] at ht
    obtain ⟨b, hb, hp⟩ := hb.pushed
    exact h (k + 1) p (by omega) (by omega) ht ⟨b, by omega, hp⟩
  rw [hbp, peek16_pushRaw_apart _ fun p => h (i + 1) p h1 hj] at hread
  rw [frameWords, List.getElem?_cons_succ, List.getElem?_append_left (by rwa [length_displayRead]), hread]

/-- The state in which ENTER ends. -/
def entered (s : State) (n : Nat) (v : Word) : State :=
  (((frameWords s n).foldl pushRaw s).setW .r5 (s.regs.sp - 2)).setSp (((frameWords s n).foldl pushRaw s).regs.sp - v)

/-- The display is copied behind BP when its words can be read and the stack takes them. -/
theorem copyDisplay_ok {s : State} {m : Nat} (hp : CanPush s (m + 2))
    (hd : ∀ j, 1 ≤ j → j < m + 1 → Accessible s .ss (displayWord s j).toNat 2 .read) :
    copyDisplay (pushRaw s s.regs.bp) m = .ok (displayStep^[m] (pushRaw s s.regs.bp)) := by
  refine ((copyDisplay_tests (pushRaw s s.regs.bp) m).congr (.pushRaw s s.regs.bp)).passed ?_
  rw [displayChecks_pushRaw]
  intro c hc
  obtain ⟨j, hj, hc⟩ := List.mem_flatMap.1 hc
  have hj := List.mem_range.1 hj
  simp only [List.mem_cons, List.not_mem_nil, or_false] at hc
  rcases hc with rfl | rfl
  · exact hd (j + 1) (by omega) (by omega)
  · exact hp (j + 2) (by omega) (by omega)

/-- The frame's address is pushed behind the display. -/
theorem push_frame_ok {s : State} {m : Nat} (hp : CanPush s (m + 2)) (frame : Word) :
    ∃ b, push (displayStep^[m] (pushRaw s s.regs.bp)) frame =
      .ok (((s.regs.bp :: (displayRead (pushRaw s s.regs.bp) m ++ [frame])).foldl pushRaw s).setW .r5 b) := by
  obtain ⟨b, hb⟩ := iterate_displayStep_eq (pushRaw s s.regs.bp) m
  have hsys := (SameSystem.pushRaw s s.regs.bp).trans (.iterate_displayStep _ m)
  have hsp : (displayStep^[m] (pushRaw s s.regs.bp)).regs.sp = s.regs.sp - BitVec.ofNat 16 (2 * (m + 1)) := by
    rw [iterate_displayStep_sp, pushRaw_sp]
    exact sub_twice_add _ 1 m
  have hroom : CanPush (displayStep^[m] (pushRaw s s.regs.bp)) 1 := fun k h1 hk => by
    rw [Accessible.congr hsys.msw (hsys.seg .ss), hsp, sub_twice_add]
    exact hp _ (by omega) (by omega)
  refine ⟨b, ?_⟩
  rw [push_ok frame hroom, hb, pushRaw_setBp, List.foldl_cons, List.foldl_append]
  rfl

theorem exec_enter {s : State} (v : Word) (l : Byte) (hp : CanPush s (l.toNat % 32 + 1))
    (hd : ∀ j, 1 ≤ j → j < l.toNat % 32 → Accessible s .ss (displayWord s j).toNat 2 .read) :
    exec (.enter v l) s = .next (entered s (l.toNat % 32) v) := by
  have hfirst : CanPush s 1 := fun k h1 hk => hp k h1 (by omega)
  rw [exec, execEnter, push_ok _ hfirst, ok_bind']
  generalize l.toNat % 32 = n at hp hd ⊢
  cases n with
  | zero => rfl
  | succ m =>
    obtain ⟨b, hframe⟩ := push_frame_ok hp (pushRaw s s.regs.bp).regs.sp
    simp only [Nat.succ_ne_zero, if_false, Nat.add_sub_cancel, copyDisplay_ok hp hd, ok_bind', hframe]
    rw [pushRaw_sp, State.setBp_setBp]
    rfl

theorem OnlyGeneral.entered (s : State) (n : Nat) (v : Word) :
    OnlyGeneral ((frameWords s n).foldl pushRaw s) (entered s n v) :=
  (OnlyGeneral.setW ..).trans (.setW _ .r4 _)

/-- What ENTER writes: BP, SP and the words pushed. -/
theorem entered_frame (s : State) (n : Nat) (v : Word) :
    let t := entered s n v
    t.regs.bp = s.regs.sp - 2 ∧ t.regs.sp = s.regs.sp - 2 - BitVec.ofNat 16 (2 * n) - v ∧ t.flags = s.flags ∧
      SameSystem s t ∧ t.ip = s.ip ∧ RegsBut s t [.r4, .r5] ∧ ∀ p, ¬ BelowTop s (n + 1) p → t.load8 p = s.load8 p := by
  obtain ⟨hregs, hflags, hip⟩ := foldl_pushRaw_registers s (frameWords s n)
  have hgen := OnlyGeneral.entered s n v
  rw [length_frameWords] at hregs
  have hpushed : RegsBut s ((frameWords s n).foldl pushRaw s) [.r4] := fun r hr =>
    (State.getW_congr (s := s.setSp _) hregs r).trans (RegsBut.setW s .r4 _ r hr)
  have hset : RegsBut ((frameWords s n).foldl pushRaw s) (entered s n v) [.r5, .r4] :=
    RegsBut.trans (.setW _ .r5 _) (.setW _ .r4 _)
  refine ⟨rfl, ?_, hgen.flags.trans hflags, (SameSystem.foldl_pushRaw ..).trans hgen.system, hgen.ip.trans hip,
    (hpushed.trans hset).mono (by simp), fun p hp => ?_⟩
  · have hsp : ((frameWords s n).foldl pushRaw s).regs.sp = s.regs.sp - BitVec.ofNat 16 (2 * (n + 1)) :=
      congrArg Regs.sp hregs
    exact congrArg (· - v) (hsp.trans (sub_twice_add s.regs.sp 1 n).symm)
  · refine (hgen.memory p).trans (load8_foldl_pushRaw fun k hk h => hp ⟨k, ?_, h⟩)
    rwa [length_frameWords] at hk

/-- Each word pushed lies at its place below the new frame. -/
theorem peek16_entered {s : State} (hm : PlainMemory s) {n k : Nat} (v : Word) {w : Word} (hn : n < 32)
    (hw : (frameWords s n)[k]? = some w) :
    peek16 (entered s n v) .ss (s.regs.sp - 2 - BitVec.ofNat 16 (2 * k)) = w := by
  have hplace : s.regs.sp - 2 - BitVec.ofNat 16 (2 * k) = s.regs.sp - BitVec.ofNat 16 (2 * k + 2) :=
    sub_twice_add s.regs.sp 1 k
  have hlen : 2 * (frameWords s n).length ≤ 2 ^ 16 := by
    rw [length_frameWords]
    omega
  rw [hplace, (OnlyGeneral.entered s n v).peek16]
  exact peek16_foldl_pushRaw hm hlen hw

/-! ### LEAVE and BOUND -/

theorem exec_leave {s : State} (h : Accessible s .ss s.regs.bp.toNat 2 .read) :
    exec .leave s = .next ((s.setSp (s.regs.bp + 2)).setW .r5 (peek16 s .ss s.regs.bp)) := by
  have hread : memRead s .word .ss s.regs.bp = .ok (peek16 s .ss s.regs.bp) := memRead_ok (w := .word) h
  rw [exec, execLeave, hread]
  rfl

theorem exec_bound {s : State} (r : RegNum) {a : MemOp} (h : CanReadPair s a) :
    exec (.bound r a) s = finish s (need (decide ((firstWord s a).toInt ≤ (s.getW r).toInt) &&
      decide ((s.getW r).toInt ≤ (secondWord s a).toInt)) boundExceeded >>= fun _ => .ok s) := by
  rw [exec, execBound, readPair_ok h.1 h.2]
  rfl

/-- Settles O23: ENTER ends in `entered`, whose pushed words and frame are known; LEAVE writes two registers; BOUND has one
test. -/
theorem highLevelInstructions : Obligations.HighLevelInstructions := by
  refine ⟨?_, fun s h => ?_, fun r a s h => ⟨fun hin => ?_, fun hout => ?_⟩⟩
  · intro v l s n frame hm hp hd
    have hn : n < 32 := Nat.mod_lt _ (by decide)
    have hsaved := peek16_entered hm v hn (frameWords_bp s n)
    rw [Nat.mul_zero, BitVec.sub_zero] at hsaved
    obtain ⟨hbp, hsp, hflags, hsys, hip, hregs, hmem⟩ := entered_frame s n v
    exact ⟨_, exec_enter v l hp hd, hbp, hsp, hsaved, fun h0 => peek16_entered hm v hn (frameWords_frame s h0),
      fun hapart j h1 hj => peek16_entered hm v hn (frameWords_display h1 hj hapart), hflags, hsys, hip, hregs, hmem⟩
  · exact ⟨_, exec_leave h, rfl, rfl, rfl, OnlyRegs.trans (.setW s .r4 _) (.setW _ .r5 _)⟩
  · rw [exec_bound r h, need_ok _ (by simpa using hin)]
    rfl
  · have hfails : (decide ((firstWord s a).toInt ≤ (s.getW r).toInt) && decide ((s.getW r).toInt ≤ (secondWord s a).toInt)) =
        false := by
      simpa only [Bool.and_eq_false_iff, decide_eq_false_iff_not, Int.not_le] using hout
    rw [TakesException, exec_bound r h, need_error _ hfails]
    rfl

end Sys2Proof.Machine
end

section
/-! PROOFS. Far JMP and CALL in protected mode (45_protected_transfer.md R420 to R431): what the checks of a selector's target
answer, one lemma for each check; JMP and CALL as one operation, split by what the selector names; and the entry at the same
level, a run of pushes followed by a load of CS and IP. -/

namespace Sys2Proof.Machine

/-! ### Exceptions and descriptors -/

/-- A meaning that ends with an exception of its own takes it, with everything as it was (60_exceptions.md R536). -/
theorem takesException_of_error {i : Instr} {s : State} {r : M State} {v : Byte} {c : Option Word}
    (he : exec i s = finish s r) (hr : r = .error (.exc (.exn v c))) : TakesException i s v c := by
  rw [TakesException, he, hr]
  rfl

theorem selNull_eq_true {sel : Word} (h : sel.toNat < 4) : selNull sel = true := (selNull_iff sel).2 h

/-- In steady memory a descriptor that is looked up later is the one its table holds now. -/
theorem Steady.needDescriptor_some {s : State} (hs : Steady s) (g : ReadGroup) {sel : Word} {p : Phys × Desc}
    (hf : fetchDescriptor s sel = some p) (e : Stop) : needDescriptor (s.later g) sel e = .ok p := by
  rw [needDescriptor, hs.fetchDescriptor_later, hf]

theorem Steady.needDescriptor_none {s : State} (hs : Steady s) (g : ReadGroup) {sel : Word}
    (hf : fetchDescriptor s sel = none) (e : Stop) : needDescriptor (s.later g) sel e = .error e := by
  rw [needDescriptor, hs.fetchDescriptor_later, hf]

theorem Desc.isType_iff (d : Desc) (t : Nat) : d.isType t = true ↔ arS d.ar = false ∧ arType d.ar = t := by
  simp [Desc.isType]

/-- A descriptor has one type. -/
theorem Desc.isType_ne {d : Desc} {t u : Nat} (h : d.isType t = true) (hu : t ≠ u) : d.isType u = false :=
  Bool.eq_false_iff.2 fun h' => hu (((d.isType_iff t).1 h).2.symm.trans ((d.isType_iff u).1 h').2)

/-- A system descriptor or gate is no code segment. -/
theorem Desc.arCode_of_isType {d : Desc} {t : Nat} (h : d.isType t = true) : arCode d.ar = false := by
  simp [arCode, ((d.isType_iff t).1 h).1]

/-! ### Room on the stack -/

theorem canPush_succ_iff (s : State) (n : Nat) :
    CanPush s (n + 1) ↔
      CanPush s n ∧ Accessible s .ss (s.regs.sp - BitVec.ofNat 16 (2 * (n + 1))).toNat 2 .write := by
  rw [← checkPush_ok_iff, ← checkPush_ok_iff, ← memCheck_ok_iff, checkPush, checkPushAt, bind_eq_ok]
  exact ⟨fun ⟨_, h⟩ => h, fun h => ⟨(), h⟩⟩

/-- A stack without room raises the exception of its first word that does not fit. -/
theorem checkPush_refused {s : State} {n : Nat} (hp : ¬ CanPush s n) :
    checkPush s n = .error (refusedAccess s .ss .write) := by
  induction n with
  | zero => exact absurd ((checkPush_ok_iff s 0).1 rfl) hp
  | succ n ih =>
    rw [checkPush]
    by_cases hn : CanPush s n
    · rw [checkPush_ok hn, ok_bind', checkPushAt]
      exact memCheck_refused fun ha => hp ((canPush_succ_iff s n).2 ⟨hn, ha⟩)
    · rw [ih hn, error_bind']

/-! ### The checks of a target -/

section
variable {s : State} {sel : Word} {d : Desc}

theorem directCode_passed (h : DirectTarget s sel d) : directCode s sel d = .ok () := by
  obtain ⟨⟨-, ⟨hc, hd⟩ | ⟨hc, hr, hd⟩⟩, hP⟩ := h
  · simp [directCode, hc, hd, hP]
  · simp [directCode, hc, hr, hd, hP]

/-- Code that the level may not enter (R423, R424). -/
theorem directCode_refused
    (h : arC d.ar = true ∧ s.cpl < arDpl d.ar ∨ arC d.ar = false ∧ (s.cpl < rpl sel ∨ arDpl d.ar ≠ s.cpl)) :
    directCode s sel d = .error (protection (sel &&& 0xFFFC)) := by
  rw [directCode, selCode_false, need_error]
  · rfl
  · rcases h with ⟨hc, hd⟩ | ⟨hc, hd⟩
    · simpa [hc] using hd
    · simp only [hc, Bool.false_eq_true, if_false, Bool.and_eq_false_iff, decide_eq_false_iff_not, Nat.not_le]
      exact hd

theorem directCode_notPresent (h : DirectEnterable s sel d) (hP : arP d.ar = false) :
    directCode s sel d = .error (notPresent (sel &&& 0xFFFC)) := by
  rw [directCode, selCode_false, need_ok, hP]
  · rfl
  · rcases h.2 with ⟨hc, hd⟩ | ⟨hc, hr, hd⟩
    · simpa [hc] using hd
    · simp [hc, hr, hd]

theorem gateVisible_passed (hc : s.cpl ≤ arDpl d.ar) (hr : rpl sel ≤ arDpl d.ar) (hP : arP d.ar = true) :
    gateVisible s sel d = .ok () := by simp [gateVisible, hc, hr, hP]

/-- A gate or task state segment that is hidden or not present (R425). -/
theorem gateVisible_fault {n : Byte} {c : Word} (h : GateHidden s sel d n c) :
    gateVisible s sel d = .error (.exc (.exn n (some c))) := by
  obtain ⟨rfl, ⟨hd, rfl⟩ | ⟨hc, hr, hP, rfl⟩⟩ := h
  · rw [gateVisible, selCode_false, need_error]
    · rfl
    · simpa only [Bool.and_eq_false_iff, decide_eq_false_iff_not, Nat.not_le] using hd
  · rw [gateVisible, selCode_false, need_ok _ (by simp [hc, hr]), hP]
    rfl

end

/-- The privilege test on the code that a call gate names (R430, R431). -/
theorem gateEnterable_iff (s : State) (call : Bool) (d : Desc) :
    (if !call && !arC d.ar then decide (arDpl d.ar = s.cpl) else decide (arDpl d.ar ≤ s.cpl)) = true ↔
      GateEnterable s call d := by
  cases call <;> cases hc : arC d.ar <;> simp [GateEnterable, hc]
  exact Nat.le_of_eq

theorem gateCode_passed {s : State} (hs : Steady s) {call : Bool} {g : Desc} {p : Phys × Desc} (hn : 4 ≤ g.selector.toNat)
    (hf : fetchDescriptor s g.selector = some p) (hc : arCode p.2.ar = true) (he : GateEnterable s call p.2)
    (hP : arP p.2.ar = true) : gateCode s g (!call) = .ok p := by
  rw [gateCode, selNull_eq_false hn, Bool.not_false, need_true, ok_bind', hs.needDescriptor_some _ hf, ok_bind', hc,
    need_true, ok_bind', need_ok _ ((gateEnterable_iff ..).2 he), ok_bind', hP]
  rfl

/-- What a call gate names fails a check: the exception of the first that fails (R430, R431). -/
theorem gateCode_fault {s : State} (hs : Steady s) {call : Bool} {g : Desc} {n : Byte} {c : Word}
    (h : GateTargetFault s call g n c) : gateCode s g (!call) = .error (.exc (.exn n (some c))) := by
  rw [gateCode, selCode_false]
  rcases h with ⟨hn, rfl, rfl⟩ | ⟨hn, rfl, h⟩
  · rw [selNull_eq_true hn]
    rfl
  rw [selNull_eq_false hn, Bool.not_false, need_true, ok_bind']
  rcases h with ⟨hf, rfl⟩ | ⟨a, d, hf, h⟩
  · rw [hs.needDescriptor_none _ hf]
    rfl
  rw [hs.needDescriptor_some _ hf, ok_bind']
  rcases h with ⟨hbad, rfl⟩ | ⟨hc, he, hP, rfl⟩
  · by_cases hc : arCode d.ar = true
    · rw [need_ok _ hc, ok_bind', need_error]
      · rfl
      · exact Bool.eq_false_iff.2 fun he => hbad ⟨hc, (gateEnterable_iff ..).1 he⟩
    · rw [need_error _ (Bool.eq_false_iff.2 hc)]
      rfl
  · rw [need_ok _ hc, ok_bind', need_ok _ ((gateEnterable_iff ..).2 he), ok_bind', hP]
    rfl

/-! ### JMP and CALL as one operation -/

/-- The words that CALL pushes before it enters code at its own level; JMP pushes none (R431). -/
def returnWords (s : State) (call : Bool) : List Word := if call then [s.cs.sel, s.ip] else []

/-- JMP or CALL to code at the level that is kept: stack space, the target's limit, the pushes, CS and IP (R430, R431). -/
def enterSame (s : State) (call : Bool) (sel : Word) (c : Phys × Desc) (off : Word) : M State := do
  checkPush s (returnWords s call).length
  need (decide (off.toNat ≤ c.2.limit.toNat)) (protection 0)
  pure (loadCs ((returnWords s call).foldl pushRaw s) sel c s.cpl off)

/-- A far JMP or CALL in protected mode. -/
def farTransfer (s : State) (call : Bool) (sel off : Word) : M State :=
  if call then callFarProt s sel off else jmpFarProt s sel off

/-- How a far JMP or CALL asks for a task switch (R430, R431). -/
def switchMode (call : Bool) : SwitchMode := if call then .nest else .jmp

/-- A task switch with the test of the new task's IP (R440). -/
def switchTo (s : State) (sel : Word) (p : Phys × Desc) (mode : SwitchMode) : M State := do
  let s1 ← switchTasks s sel p.1 p.2 mode s.ip false
  inTask s1 (checkIp s1)

/-- The meaning of a far JMP or CALL in protected mode once its pointer has been read. -/
theorem exec_farTransfer {i : Instr} {call : Bool} {sel off : Word} {Ready : Prop} {s : State}
    (hi : farForm s i = some (call, sel, off, Ready)) (hr : Ready) (hp : s.msw.pe = true) :
    exec i s = finish s (farTransfer s call sel off) := by
  rw [exec_farForm hi hr, callFarTo, jmpFar, if_pos hp, if_pos hp, farTransfer]

section
variable {s : State} {call : Bool} {sel off : Word}

theorem farTransfer_null (hn : sel.toNat < 4) : farTransfer s call sel off = .error (protection 0) := by
  cases call <;> simp [farTransfer, callFarProt, jmpFarProt, selNull_eq_true hn]

section
variable (hs : Steady s) (hn : 4 ≤ sel.toNat)
include hs hn

theorem farTransfer_noDescriptor (hf : fetchDescriptor s sel = none) :
    farTransfer s call sel off = .error (protection (sel &&& 0xFFFC)) := by
  cases call <;>
    simp [farTransfer, callFarProt, jmpFarProt, selNull_eq_false hn, hs.needDescriptor_none _ hf, selCode_false]

variable {a : Phys} {d : Desc} (hf : fetchDescriptor s sel = some (a, d))
include hf

/-- To a code segment. -/
theorem farTransfer_code (hc : arCode d.ar = true) :
    farTransfer s call sel off = directCode s sel d >>= fun _ => enterSame s call sel (a, d) off := by
  cases call <;>
    simp only [farTransfer, callFarProt, jmpFarProt, selNull_eq_false hn, hs.needDescriptor_some _ hf, hc, Bool.not_false,
      need_true, ok_bind', if_true, Bool.false_eq_true, if_false] <;>
    rfl

/-- Through a call gate. -/
theorem farTransfer_callGate (hg : d.isType 4 = true) :
    farTransfer s call sel off = (do
      gateVisible s sel d
      let c ← gateCode s d (!call)
      if call && !arC c.2.ar && decide (arDpl c.2.ar < s.cpl) then callInner s d c
      else enterSame s call d.selector c d.offset) := by
  cases call <;>
    simp only [farTransfer, callFarProt, jmpFarProt, selNull_eq_false hn, hs.needDescriptor_some _ hf,
      Desc.arCode_of_isType hg, hg, Bool.not_false, Bool.not_true, need_true, ok_bind', if_true, Bool.false_eq_true, if_false,
      Bool.false_and, Bool.true_and] <;>
    rfl

/-- Through a task gate. -/
theorem farTransfer_taskGate (hg : d.isType 5 = true) :
    farTransfer s call sel off = gateVisible s sel d >>= fun _ => throughTaskGate s d (switchMode call) := by
  cases call <;>
    simp only [farTransfer, callFarProt, jmpFarProt, selNull_eq_false hn, hs.needDescriptor_some _ hf, switchMode,
      Desc.arCode_of_isType hg, Desc.isType_ne hg (u := 4) (by decide), hg, Bool.not_false, need_true, ok_bind', if_true,
      Bool.false_eq_true, if_false]

/-- To an available task state segment. -/
theorem farTransfer_task (hg : d.isType 1 = true) (hl : selLocal sel = false) :
    farTransfer s call sel off = gateVisible s sel d >>= fun _ => switchTo s sel (a, d) (switchMode call) := by
  cases call <;>
    simp only [farTransfer, callFarProt, jmpFarProt, selNull_eq_false hn, hs.needDescriptor_some _ hf, switchMode,
      Desc.arCode_of_isType hg, Desc.isType_ne hg (u := 4) (by decide), Desc.isType_ne hg (u := 5) (by decide), hg, hl,
      Bool.not_false, Bool.and_true, need_true, ok_bind', if_true, Bool.false_eq_true, if_false] <;>
    rfl

/-- To anything else. -/
theorem farTransfer_noTarget (hc : arCode d.ar = false) (hi : ¬ IndirectTarget sel d) :
    farTransfer s call sel off = .error (protection (sel &&& 0xFFFC)) := by
  simp only [IndirectTarget, not_or, Bool.not_eq_true, not_and, Bool.not_eq_false] at hi
  obtain ⟨h4, h5, h1⟩ := hi
  have hlast : (d.isType 1 && !selLocal sel) = false := by cases h : d.isType 1 <;> simp [h1, h]
  cases call <;>
    simp only [farTransfer, callFarProt, jmpFarProt, selNull_eq_false hn, hs.needDescriptor_some _ hf, hc, h4, h5, hlast,
      Bool.not_false, need_true, ok_bind', if_true, Bool.false_eq_true, if_false, selCode_false]

end

/-- The checks that come before those of the stack and the offset, in their order (R423, R424, R430, R431). -/
theorem farTransfer_directFault (hs : Steady s) {n : Byte} {c : Word} (h : DirectFault s sel n c) :
    farTransfer s call sel off = .error (.exc (.exn n (some c))) := by
  rcases h with ⟨hn, rfl, rfl⟩ | ⟨hn, rfl, ⟨hf, rfl⟩ | ⟨a, d, hf, ⟨hc, hi, rfl⟩ | ⟨hc, hpriv, rfl⟩ | ⟨he, hP, rfl⟩⟩⟩
  · exact farTransfer_null hn
  · exact farTransfer_noDescriptor hs hn hf
  · exact farTransfer_noTarget hs hn hf hc hi
  · rw [farTransfer_code hs hn hf hc, directCode_refused hpriv]
    rfl
  · rw [farTransfer_code hs hn hf he.1, directCode_notPresent he hP]
    rfl

/-! ### Entering code at the same level -/

variable {c : Phys × Desc}

theorem returnWords_length (s : State) (call : Bool) : (returnWords s call).length = if call then 2 else 0 := by
  cases call <;> rfl

theorem enterSame_noRoom (h : ¬ CanPush s 2) :
    enterSame s true sel c off = .error (refusedAccess s .ss .write) := by
  rw [enterSame, returnWords_length, if_pos rfl, checkPush_refused h]
  rfl

/-- The stack has room for what a JMP or CALL pushes. -/
theorem checkPush_returnWords (h : call = true → CanPush s 2) : checkPush s (returnWords s call).length = .ok () := by
  cases call
  · rfl
  · exact checkPush_ok (h rfl)

theorem enterSame_outside (h : call = true → CanPush s 2) (ho : c.2.limit.toNat < off.toNat) :
    enterSame s call sel c off = .error (protection 0) := by
  rw [enterSame, checkPush_returnWords h, ok_bind', need_error _ (by simpa using ho)]
  rfl

theorem enterSame_ok (h : call = true → CanPush s 2) (ho : off.toNat ≤ c.2.limit.toNat) :
    enterSame s call sel c off = .ok (loadCs ((returnWords s call).foldl pushRaw s) sel c s.cpl off) := by
  rw [enterSame, checkPush_returnWords h, ok_bind', need_ok _ (by simpa using ho)]
  rfl

end

/-- The accessed bit of a descriptor is set where its access byte still lies, and no other byte changes (20_memory.md R129). -/
theorem PlainMemory.load8_setAccessed {u : State} (hm : PlainMemory u) {a : Phys} {d : Desc} (hb : u.load8 (a + 5) = d.ar) :
    (Machine.setAccessed u a d).load8 (a + 5) = d.ar ||| 1 ∧
      ∀ p, p ≠ a + 5 → (Machine.setAccessed u a d).load8 p = u.load8 p := by
  rw [← (descAt_fields u a).2.2] at hb
  have h := Machine.load8_setAccessed u a hm
  have hsame : Machine.setAccessed u a d = Machine.setAccessed u a (descAt u a) := by
    rw [Machine.setAccessed, Machine.setAccessed, hb]
  rwa [hsame, ← hb]

theorem SameButCs.segAddr_ss {s t : State} (h : SameButCs s t) (o : Word) : segAddr t .ss o = segAddr s .ss o :=
  segAddr_congr (s := s) (x := .ss) h.msw h.ss o

/-- Nothing of the processor but CS changes when CS:IP are loaded. -/
theorem SameButCs.loadCs (s : State) (sel : Word) (p : Phys × Desc) (cpl : Nat) (off : Word) :
    SameButCs s (loadCs s sel p cpl off) := by
  have h := SameSystem.setAccessed s p.1 p.2
  exact show SameSystem { s with cs := _ } _ from { h with cs := rfl }

theorem loadCs_registers (s : State) (sel : Word) (p : Phys × Desc) (cpl : Nat) (off : Word) :
    (loadCs s sel p cpl off).regs = s.regs ∧ (loadCs s sel p cpl off).flags = s.flags := by
  simp [Machine.loadCs, loadCache]

/-- The bytes of a word pushed lie below the old top of the stack. -/
theorem belowTop_word (s : State) {n k : Nat} (hk : k < n) :
    BelowTop s n (segAddr s .ss (s.regs.sp - BitVec.ofNat 16 (2 * k + 2))) ∧
      BelowTop s n (segAddr s .ss (s.regs.sp - BitVec.ofNat 16 (2 * k + 2) + 1)) := by
  refine ⟨⟨2 * k + 1, by omega, rfl⟩, ⟨2 * k, by omega, ?_⟩⟩
  have hhigh : s.regs.sp - BitVec.ofNat 16 (2 * k + 2) + 1 = s.regs.sp - BitVec.ofNat 16 (2 * k + 1) := by
    rw [show 2 * k + 2 = (2 * k + 1) + 1 by omega, BitVec.ofNat_add, ← BitVec.sub_sub]
    simp
  rw [hhigh]

/-- Words pushed on the current stack, then a load of CS:IP from a descriptor that does not lie among them: the words can be
read back, and nothing but them, CS, IP, SP and the accessed bit has changed (R422). -/
theorem entersCode_pushed {s : State} (hm : PlainMemory s) {sel : Word} {a : Phys} {d : Desc} (hd : d = descAt s a)
    {l : List Word} (hl : 2 * l.length ≤ 2 ^ 16) (ha : ¬ BelowTop s l.length (a + 5)) (cpl : Nat) (off : Word) :
    let t := loadCs (l.foldl pushRaw s) sel (a, d) cpl off
    EntersCode s t sel a d off cpl l.length ∧
      ∀ k v, l[k]? = some v → peek16 t .ss (s.regs.sp - BitVec.ofNat 16 (2 * k + 2)) = v := by
  obtain ⟨hword, hsys, hmem⟩ := pushed_frame hm hl (.refl (l.foldl pushRaw s)) fun _ => rfl
  obtain ⟨hregs, hflags, -⟩ := foldl_pushRaw_registers s l
  have hcs := SameButCs.loadCs (l.foldl pushRaw s) sel (a, d) cpl off
  have hbyte : (l.foldl pushRaw s).load8 (a + 5) = d.ar := by rw [hmem _ ha, hd, (descAt_fields s a).2.2]
  obtain ⟨hset, hrest⟩ := (hm.foldl_pushRaw l).load8_setAccessed hbyte
  obtain ⟨hr, hf⟩ := loadCs_registers (l.foldl pushRaw s) sel (a, d) cpl off
  refine ⟨⟨rfl, rfl, hf.trans hflags, hr.trans hregs, hset, fun p hp hb => (hrest p hp).trans (hmem p hb), hsys.trans hcs⟩,
    fun k v hv => (hword k v hv).symm.trans ?_ |>.symm⟩
  have hk : k < l.length := (List.getElem?_eq_some_iff.1 hv).1
  have hread (p : Phys) (hp : BelowTop s l.length p) :
      (l.foldl pushRaw s).load8 p = (loadCs (l.foldl pushRaw s) sel (a, d) cpl off).load8 p :=
    (hrest p fun e => ha (e ▸ hp)).symm
  obtain ⟨hlo, hhi⟩ := belowTop_word s hk
  rw [peek16, peek16, peek8, peek8, peek8, peek8, hsys.segAddr_ss, hsys.segAddr_ss, (hsys.trans hcs).segAddr_ss,
    (hsys.trans hcs).segAddr_ss, hread _ hlo, hread _ hhi]

/-- The same for a JMP or CALL that has passed its checks: CALL leaves the return address on the stack. -/
theorem entersCode_same {s : State} (hm : PlainMemory s) (call : Bool) {sel sel' : Word} {a : Phys} {d : Desc}
    (hf : fetchDescriptor s sel' = some (a, d)) (hb : call = true → ¬ BelowTop s 2 (a + 5)) (off : Word) :
    let t := loadCs ((returnWords s call).foldl pushRaw s) sel (a, d) s.cpl off
    EntersCode s t sel a d off s.cpl (if call then 2 else 0) ∧
      (call = true → stackAt t 0 = s.ip ∧ stackAt t 2 = s.cs.sel) := by
  obtain ⟨-, hd⟩ := fetchDescriptor_eq_some hf
  cases call with
  | false =>
    have hnone : ¬ BelowTop s 0 (a + 5) := fun ⟨k, hk, _⟩ => absurd hk (by omega)
    exact ⟨(entersCode_pushed hm hd (l := []) (by simp) hnone s.cpl off).1, fun h => absurd h (by decide)⟩
  | true =>
    obtain ⟨hent, hword⟩ := entersCode_pushed (sel := sel) hm hd (l := [s.cs.sel, s.ip]) (by simp) (hb rfl) s.cpl off
    have hsp := congrArg Regs.sp hent.2.2.2.1
    exact ⟨hent, fun _ => ⟨stackAt_of_sp hsp (BitVec.add_zero _) (hword 1 s.ip rfl),
      stackAt_of_sp hsp (by simp; bv_omega) (hword 0 s.cs.sel rfl)⟩⟩

/-- Settles O27: the checks before the stack's, then the entry at the same level. -/
theorem protectedFarJumpsAndCalls : Obligations.ProtectedFarJumpsAndCalls := by
  intro i call sel off Ready s hi hp hm hr
  have he := exec_farTransfer hi hr hp
  refine ⟨fun n c h => takesException_of_error he (farTransfer_directFault hm.steady h), fun a d hn hf ht => ?_⟩
  rw [farTransfer_code hm.steady hn hf ht.1.1, directCode_passed ht, ok_bind'] at he
  refine ⟨?_, fun hpush ho => takesException_of_error he (enterSame_outside hpush ho), ?_, ?_⟩
  · rintro rfl hpush
    exact takesException_of_error he (enterSame_noRoom hpush)
  · rintro rfl ho
    rw [enterSame_ok (fun h => absurd h (by decide)) ho, finish_ok] at he
    obtain ⟨⟨hcs, hip, hflags, hregs, hset, hmem, hsys⟩, -⟩ :=
      entersCode_same (sel := sel) hm false hf (fun h => absurd h (by decide)) off
    refine ⟨_, he, hcs, hip, hflags, hset, fun p hp => hmem p hp fun ⟨k, hk, _⟩ => absurd hk (by simp), hsys, fun r _ =>
      State.getW_congr (hregs.trans (by simp)) r⟩
  · rintro rfl hpush ho hb
    rw [enterSame_ok (fun _ => hpush) ho, finish_ok] at he
    obtain ⟨hent, hstack⟩ := entersCode_same (sel := sel) hm true hf (fun _ => hb) off
    exact ⟨_, he, hent, hstack rfl⟩

end Sys2Proof.Machine
end

section
/-! PROOFS. JMP and CALL through call gates (45_protected_transfer.md R425, R427, R430 to R432): the stack of an inner level, the
words copied to it, and the entry at that level, a load of SS, SP, CS and IP followed by a run of pushes on the new stack. -/

namespace Sys2Proof.Machine

/-! ### Selectors -/

/-- The error code of a selector, EXT in bit 0 (60_exceptions.md R565). -/
theorem selCode_eq_add (sel : Word) (ext : Bool) : selCode sel ext = (sel &&& 0xFFFC) + (if ext then 1 else 0) := by
  cases ext with
  | false => simp [selCode_false]
  | true =>
    have hbit : (sel &&& 0xFFFC) &&& 1 = (0 : Word) := by
      rw [BitVec.and_assoc]
      simp
    exact (BitVec.add_eq_or_of_and_eq_zero _ _ hbit).symm

theorem rpl_lt_four (sel : Word) : rpl sel < 4 := (sel.extractLsb' 0 2).isLt

theorem arDpl_lt_four (ar : Byte) : arDpl ar < 4 := (ar.extractLsb' 5 2).isLt

/-- The level that a transfer leaves in CS (R422). -/
theorem rpl_withLevel (sel : Word) {p : Nat} (hp : p < 4) : rpl ((sel &&& 0xFFFC) ||| BitVec.ofNat 16 p) = p := by
  rw [rpl, BitVec.extractLsb'_or, BitVec.extractLsb'_and, show BitVec.extractLsb' 0 2 (0xFFFC : Word) = 0 from rfl]
  simp
  omega

/-! ### Reads that come later -/

theorem Steady.load16_later {s : State} (hs : Steady s) (g : ReadGroup) (a : Phys) : (s.later g).load16 a = s.load16 a := by
  rw [State.load16, State.load16, hs.load8_later, hs.load8_later]

theorem Steady.tssWord_later {s : State} (hs : Steady s) (g : ReadGroup) (base : Phys) (k : Nat) :
    tssWord (s.later g) base k = s.load16 (base + BitVec.ofNat 24 k) := hs.load16_later g _

theorem Steady.peek16_later {s : State} (hs : Steady s) (g : ReadGroup) (x : SReg) (o : Word) :
    peek16 (s.later g) x o = peek16 s x o :=
  SameSystem.peek (by constructor <;> rfl) (hs.load8_later g) .word x o

/-- A word of the stack, read later. -/
theorem Steady.memRead_stack_later {s : State} (hs : Steady s) (g : ReadGroup) {k : Word} (h : CanPopAt s k) :
    memRead (s.later g) .word .ss (s.regs.sp + k) = .ok (stackAt s k) := by
  have hread : memRead (s.later g) .word .ss (s.regs.sp + k) = .ok (peek16 (s.later g) .ss (s.regs.sp + k)) :=
    memRead_ok (w := .word) (s := s.later g) h
  rw [hread, hs.peek16_later, stackAt]

theorem memRead_stack_refused {s : State} (g : ReadGroup) {k : Word} (h : ¬ CanPopAt s k) :
    memRead (s.later g) .word .ss (s.regs.sp + k) = .error (refusedAccess s .ss .read) := by
  have hc : memCheck (s.later g) .ss (s.regs.sp + k).toNat Width.word.bytes .read = .error (refusedAccess s .ss .read) :=
    memCheck_refused (s := s.later g) h
  rw [memRead, hc, error_bind']

/-! ### The stack of an inner level -/

section
variable {s : State} (hs : Steady s) {p : Nat}
include hs

theorem innerStack_passed {ss sp : Word} {a : Phys} {d : Desc} (ext : Bool) (h : InnerStackIs s p ss sp a d) :
    innerStack s p ext = .ok (ss, sp, a, d) := by
  obtain ⟨hlim, rfl, rfl, hn, hf, hr, hd, hw, hP⟩ := h
  have hss := hs.tssWord_later .taskState s.tr.base (tssLayout.ss p)
  have hsp := hs.tssWord_later .taskState s.tr.base (tssLayout.sp p)
  simp only [tssLayout] at hss hsp
  have hroom : 4 + 4 * p + 1 ≤ s.tr.limit.toNat := by omega
  simp only [innerStack, tssLayout, hss, hsp, hroom, selNull_eq_false hn, hs.needDescriptor_some _ hf, hr, hd, hw, hP,
    decide_true, Bool.not_false, need_true, ok_bind']
  rfl

/-- The stack of an inner level fails a check: the exception of the first that fails (R427). -/
theorem innerStack_fault {ext : Bool} {n : Byte} {c : Word} (h : InnerStackFault s p ext n c) :
    innerStack s p ext = .error (.exc (.exn n (some c))) := by
  have hss := hs.tssWord_later .taskState s.tr.base (tssLayout.ss p)
  simp only [tssLayout] at hss
  simp only [innerStack, tssLayout, hss, selCode_eq_add]
  rcases h with ⟨hlim, rfl, rfl⟩ | ⟨hlim, hn, rfl, rfl⟩ | ⟨hlim, hn, rfl, h⟩
  · rw [need_error _ (by simpa using by omega)]
    rfl
  · rw [need_ok _ (by simpa using by omega), ok_bind', selNull_eq_true hn]
    cases ext <;> rfl
  rw [need_ok _ (by simpa using by omega), ok_bind', selNull_eq_false hn, Bool.not_false, need_true, ok_bind']
  rcases h with ⟨hf, rfl⟩ | ⟨a, d, hf, h⟩
  · rw [hs.needDescriptor_none _ hf]
    rfl
  rw [hs.needDescriptor_some _ hf, ok_bind']
  rcases h with ⟨hbad, rfl⟩ | ⟨hr, hd, hw, hP, rfl⟩
  · by_cases hr : rpl (s.load16 (s.tr.base + BitVec.ofNat 24 (4 + 4 * p))) = p
    · rw [need_ok _ (decide_eq_true hr), ok_bind']
      by_cases hd : arDpl d.ar = p
      · rw [need_ok _ (decide_eq_true hd), ok_bind', need_error _ (Bool.eq_false_iff.2 fun hw => hbad ⟨hr, hd, hw⟩)]
        rfl
      · rw [need_error _ (decide_eq_false hd)]
        rfl
    · rw [need_error _ (decide_eq_false hr)]
      rfl
  · simp only [hr, hd, hw, hP, decide_true, need_true, ok_bind']
    rfl

end

theorem roomBelow_iff (g : SegReg) (sp : Word) (n : Nat) : roomBelow g sp n = true ↔ RoomBelow g sp n := by
  simp [roomBelow, RoomBelow, limitOk_iff]

/-! ### The words that a call gate copies -/

/-- The top `n` words of the stack, the topmost first. -/
def topWords (s : State) (n : Nat) : List Word := (List.range n).map fun k => stackAt s (BitVec.ofNat 16 (2 * k))

theorem topWords_length (s : State) (n : Nat) : (topWords s n).length = n := by simp [topWords]

theorem topWords_succ (s : State) (n : Nat) :
    topWords s (n + 1) = topWords s n ++ [stackAt s (BitVec.ofNat 16 (2 * n))] := by simp [topWords, List.range_succ]

/-- The words are read from the top down and pushed in the opposite order, which keeps theirs (R432). -/
theorem readParams_ok {s : State} (hs : Steady s) {n : Nat} (h : ∀ k, k < n → CanPopAt s (BitVec.ofNat 16 (2 * k))) :
    readParams s n = .ok (topWords s n).reverse := by
  induction n with
  | zero => rfl
  | succ n ih =>
    rw [readParams, ih fun k hk => h k (by omega), ok_bind', hs.memRead_stack_later _ (h n (by omega)), topWords_succ,
      List.reverse_append]
    rfl

theorem readParams_refused {s : State} (hs : Steady s) {n : Nat}
    (h : ∃ k, k < n ∧ ¬ CanPopAt s (BitVec.ofNat 16 (2 * k))) : readParams s n = .error (refusedAccess s .ss .read) := by
  induction n with
  | zero =>
    obtain ⟨k, hk, -⟩ := h
    exact absurd hk (by omega)
  | succ n ih =>
    rw [readParams]
    by_cases hn : ∃ k, k < n ∧ ¬ CanPopAt s (BitVec.ofNat 16 (2 * k))
    · rw [ih hn, error_bind']
    · obtain ⟨k, hk, hbad⟩ := h
      obtain rfl : k = n := by
        by_contra hne
        exact hn ⟨k, by omega, hbad⟩
      have hfirst : ∀ j, j < k → CanPopAt s (BitVec.ofNat 16 (2 * j)) := fun j hj =>
        Classical.not_not.1 fun hj' => hn ⟨j, hj, hj'⟩
      rw [readParams_ok hs hfirst, ok_bind', memRead_stack_refused _ hbad, error_bind']

/-! ### Entering an inner level -/

/-- A new stack and a new code segment have been loaded, and nothing has been pushed yet (R432). -/
def innerLevel (s : State) (ss sp : Word) (d : Phys × Desc) (sel : Word) (c : Phys × Desc) (off : Word) : State :=
  loadCs ((loadCache s .ss ss d).setSp sp) sel c (arDpl c.2.ar) off

/-- Nothing but SS:SP and CS:IP changes, and in memory the two accessed bits. -/
theorem innerLevel_frame (s : State) (ss sp : Word) (d : Phys × Desc) (sel : Word) (c : Phys × Desc) (off : Word) :
    let u := innerLevel s ss sp d sel c off
    u.cs = codeCache sel c.2 (arDpl c.2.ar) ∧ u.ip = off ∧ u.ss = segmentCache ss d.2 ∧ u.regs = { s.regs with sp := sp } ∧
      u.flags = s.flags ∧ SameSystem { s with cs := u.cs, ss := u.ss } u ∧
      (PlainMemory s → PlainMemory u) ∧ ∀ p, p ≠ c.1 + 5 → p ≠ d.1 + 5 → u.load8 p = s.load8 p := by
  have hregs : (innerLevel s ss sp d sel c off).regs = { s.regs with sp := sp } := by
    simp [innerLevel, loadCs, loadCache, State.setSeg]
  have hflags : (innerLevel s ss sp d sel c off).flags = s.flags := by simp [innerLevel, loadCs, loadCache]
  have hss : (innerLevel s ss sp d sel c off).ss = segmentCache ss d.2 := by
    simp [innerLevel, loadCs, loadCache, State.setSeg, segmentCache, Desc.cache]
  refine ⟨rfl, rfl, hss, hregs, hflags, ?_, fun hm => ?_, fun p hc hd => ?_⟩
  · constructor <;> simp [innerLevel, loadCs, loadCache, State.setSeg]
  · exact ((hm.setAccessed d.1 d.2).congr (t := (loadCache s .ss ss d).setSp sp) rfl rfl).setAccessed c.1 c.2 |>.congr rfl rfl
  · have hacc (u : State) (e : Phys × Desc) (he : p ≠ e.1 + 5) : (setAccessed u e.1 e.2).load8 p = u.load8 p := by
      unfold setAccessed
      split
      · rfl
      · exact State.load8_store8_ne _ _ he
    exact (hacc ((loadCache s .ss ss d).setSp sp) c hc).trans (hacc s d hd)

/-- The `i`-th word from the top after a run of pushes. -/
theorem stackAt_foldl_pushRaw {s : State} (hm : PlainMemory s) {l : List Word} (hl : 2 * l.length ≤ 2 ^ 16) {i : Nat} {v : Word}
    (hv : l.reverse[i]? = some v) : stackAt (l.foldl pushRaw s) (BitVec.ofNat 16 (2 * i)) = v := by
  have hi : i < l.length := by simpa using (List.getElem?_eq_some_iff.1 hv).1
  rw [List.getElem?_reverse hi] at hv
  refine stackAt_of_sp (congrArg Regs.sp (foldl_pushRaw_registers s l).1) ?_ (peek16_foldl_pushRaw hm hl hv)
  have hsum : BitVec.ofNat 16 (2 * l.length) = BitVec.ofNat 16 (2 * (l.length - 1 - i) + 2) + BitVec.ofNat 16 (2 * i) := by
    rw [← BitVec.ofNat_add]
    congr 1
    omega
  rw [hsum, ← BitVec.sub_sub, BitVec.sub_add_cancel]

/-- What a CALL to an inner level leaves on the new stack, from its top (R432). -/
def calledWords (s : State) (n : Nat) : List Word := s.ip :: s.cs.sel :: (topWords s n ++ [s.regs.sp, s.ss.sel])

theorem calledWords_length (s : State) (n : Nat) : (calledWords s n).length = 4 + n := by
  simp [calledWords, topWords_length]
  omega

theorem calledWords_copied (s : State) {n k : Nat} (hk : k < n) :
    (calledWords s n)[2 + k]? = some (stackAt s (BitVec.ofNat 16 (2 * k))) := by
  rw [Nat.add_comm, calledWords, List.getElem?_cons_succ, List.getElem?_cons_succ,
    List.getElem?_append_left (by rwa [topWords_length])]
  simp [topWords, hk]

theorem calledWords_pointer (s : State) (n k : Nat) :
    (calledWords s n)[2 + (n + k)]? = ([s.regs.sp, s.ss.sel] : List Word)[k]? := by
  rw [Nat.add_comm, calledWords, List.getElem?_cons_succ, List.getElem?_cons_succ,
    List.getElem?_append_right (by simp [topWords_length]), topWords_length, Nat.add_sub_cancel_left]

/-- A CALL to an inner level when all its checks have passed: the state with the words pushed on the new stack (R432). -/
def calledInner (s : State) (ss sp : Word) (d : Phys × Desc) (g : Desc) (c : Phys × Desc) : State :=
  ((calledWords s g.wordCount).reverse.foldl pushRaw (innerLevel s ss sp d g.selector c g.offset)).flush

section
variable {s : State} {g : Desc} {c : Phys × Desc} (hs : Steady s)
include hs

theorem callInner_stackFault {n : Byte} {e : Word} (h : InnerStackFault s (arDpl c.2.ar) false n e) :
    callInner s g c = .error (.exc (.exn n (some e))) := by
  rw [callInner, innerStack_fault hs h]
  rfl

variable {ss sp : Word} {a : Phys} {d : Desc} (hi : InnerStackIs s (arDpl c.2.ar) ss sp a d)
include hi

theorem callInner_noRoom (hroom : ¬ RoomBelow (segmentCache ss d) sp (4 + g.wordCount)) :
    callInner s g c = .error (stackFault 0) := by
  rw [callInner, innerStack_passed hs false hi, ok_bind']
  simp only
  rw [need_error]
  · rfl
  · exact Bool.eq_false_iff.2 fun h => hroom ((roomBelow_iff ..).1 h)

variable (hroom : RoomBelow (segmentCache ss d) sp (4 + g.wordCount))
include hroom

/-- What is left of the CALL when the new stack is known and has its room. -/
theorem callInner_onStack :
    callInner s g c = (do
      let ps ← readParams s g.wordCount
      need (decide (g.offset.toNat ≤ c.2.limit.toNat)) (protection 0)
      pure ((s.ss.sel :: s.regs.sp :: (ps ++ [s.cs.sel, s.ip])).foldl pushRaw
        (innerLevel s ss sp (a, d) g.selector c g.offset)).flush) := by
  have hfits : roomBelow (d.cache ss) sp (4 + g.wordCount) = true := (roomBelow_iff ..).2 hroom
  rw [callInner, innerStack_passed hs false hi, ok_bind']
  simp only [hfits, need_true, ok_bind', List.foldl_cons, List.foldl_append, List.foldl_nil]
  rfl

theorem callInner_noParams (h : ∃ k, k < g.wordCount ∧ ¬ CanPopAt s (BitVec.ofNat 16 (2 * k))) :
    callInner s g c = .error (refusedAccess s .ss .read) := by
  rw [callInner_onStack hs hi hroom, readParams_refused hs h, error_bind']

variable (hps : ∀ k, k < g.wordCount → CanPopAt s (BitVec.ofNat 16 (2 * k)))
include hps

theorem callInner_outside (ho : c.2.limit.toNat < g.offset.toNat) : callInner s g c = .error (protection 0) := by
  rw [callInner_onStack hs hi hroom, readParams_ok hs hps, ok_bind', need_error _ (by simpa using ho), error_bind']

theorem callInner_ok (ho : g.offset.toNat ≤ c.2.limit.toNat) :
    callInner s g c = .ok (calledInner s ss sp (a, d) g c) := by
  rw [callInner_onStack hs hi hroom, readParams_ok hs hps, ok_bind', need_ok _ (by simpa using ho), ok_bind', calledInner,
    calledWords]
  simp only [List.foldl_cons, List.foldl_append, List.foldl_reverse, List.foldl_nil, List.reverse_cons, List.reverse_append,
    List.reverse_nil, List.nil_append, List.cons_append, List.append_assoc]
  rfl

end

theorem wordCount_lt (g : Desc) : g.wordCount < 32 := (g.w2.extractLsb' 0 5).isLt

/-- The place of a word on the stack, counted from a fixed word. -/
theorem add_twice (j k : Nat) : BitVec.ofNat 16 (2 * j) + BitVec.ofNat 16 (2 * k) = BitVec.ofNat 16 (2 * (j + k)) := by
  rw [← BitVec.ofNat_add, ← Nat.mul_add]

/-- The new stack holds, from its top, the return address, the words copied and the old SS:SP; CS:IP are the gate's, and nothing
else changes (R432). -/
theorem calledInner_frame {s : State} (hm : PlainMemory s) (hp : s.msw.pe = true) (ss sp : Word) (d : Phys × Desc) (g : Desc)
    (c : Phys × Desc) :
    let t := calledInner s ss sp d g c
    t.cs = codeCache g.selector c.2 (arDpl c.2.ar) ∧ t.ip = g.offset ∧ t.ss = segmentCache ss d.2 ∧
      t.regs = { s.regs with sp := sp - BitVec.ofNat 16 (8 + 2 * g.wordCount) } ∧
      stackAt t 0 = s.ip ∧ stackAt t 2 = s.cs.sel ∧
      (∀ k, k < g.wordCount → stackAt t (4 + BitVec.ofNat 16 (2 * k)) = stackAt s (BitVec.ofNat 16 (2 * k))) ∧
      stackAt t (4 + BitVec.ofNat 16 (2 * g.wordCount)) = s.regs.sp ∧
      stackAt t (6 + BitVec.ofNat 16 (2 * g.wordCount)) = s.ss.sel ∧ t.cpl = arDpl c.2.ar ∧
      (∀ p, p ≠ c.1 + 5 → p ≠ d.1 + 5 → (∀ k, k < 8 + 2 * g.wordCount →
        p ≠ segAddr t .ss (sp - BitVec.ofNat 16 (k + 1))) → t.load8 p = s.load8 p) ∧
      t.flags = s.flags ∧ SameSystem { s with cs := t.cs, ss := t.ss } t := by
  let u := innerLevel s ss sp d g.selector c g.offset
  let t := (calledWords s g.wordCount).reverse.foldl pushRaw u
  obtain ⟨hcs, hip, hss, hregs, hflags, hsys, hplain, hmem⟩ := innerLevel_frame s ss sp d g.selector c g.offset
  obtain ⟨hregs', hflags', hip'⟩ := foldl_pushRaw_registers u (calledWords s g.wordCount).reverse
  have hsys' : SameSystem u t := SameSystem.foldl_pushRaw ..
  have hcs' : t.cs = codeCache g.selector c.2 (arDpl c.2.ar) := hsys'.cs.trans hcs
  have hmsw : t.msw = s.msw := hsys'.msw.trans hsys.msw
  have hwc := wordCount_lt g
  have hbytes : 2 * (calledWords s g.wordCount).reverse.length = 8 + 2 * g.wordCount := by
    rw [List.length_reverse, calledWords_length]
    omega
  have hword (i : Nat) {v : Word} (hv : (calledWords s g.wordCount)[i]? = some v) :
      stackAt t.flush (BitVec.ofNat 16 (2 * i)) = v :=
    stackAt_foldl_pushRaw (hplain hm) (by omega) (by rwa [List.reverse_reverse])
  have hplace (j k : Nat) {v : Word} (hv : (calledWords s g.wordCount)[j + k]? = some v) :
      stackAt t.flush (BitVec.ofNat 16 (2 * j) + BitVec.ofNat 16 (2 * k)) = v := add_twice j k ▸ hword (j + k) hv
  refine ⟨hcs', hip'.trans hip, hsys'.ss.trans hss, ?_, hword 0 rfl, hword 1 rfl,
    fun k hk => hplace 2 k (calledWords_copied s hk), hplace 2 _ (calledWords_pointer s _ 0), hplace 3 _ ?_, ?_,
    fun p hpc hpd hpn => ?_, hflags'.trans hflags, { hsys.trans hsys' with cs := rfl, ss := rfl }⟩
  · rw [← hbytes]
    exact hregs'.trans (by rw [hregs])
  · rw [show 3 + g.wordCount = 2 + (g.wordCount + 1) by omega]
    exact calledWords_pointer s _ 1
  · have hcpl : t.cpl = rpl t.cs.sel := by rw [State.cpl, hmsw, if_pos hp]
    refine hcpl.trans ?_
    rw [hcs']
    exact rpl_withLevel _ (arDpl_lt_four _)
  · refine (load8_foldl_pushRaw fun k hk h => hpn k (by omega) (h.trans ?_)).trans (hmem p hpc hpd)
    rw [show u.regs.sp = sp from congrArg Regs.sp hregs]
    exact (segAddr_congr (t := t) (x := .ss) hsys'.msw hsys'.ss _).symm

/-- Settles O28: all checks have passed, so the CALL ends in `calledInner`. -/
theorem callGateSwitchesStacks : Obligations.CallGateSwitchesStacks := by
  intro i sel off Ready s ga g ca c nss nsp sa sd hi hr hp hm hn hf hg ht hC hd hstack hroom hps
  obtain ⟨hg4, hvis, hrpl, hgP⟩ := hg
  obtain ⟨htn, htf, htc, htP, hto⟩ := ht
  have hs := hm.steady
  have hent : GateEnterable s true c := ⟨Nat.le_of_lt hd, fun h => absurd h (by decide)⟩
  have hinner : (true && !arC c.ar && decide (arDpl c.ar < s.cpl)) = true := by simp [hC, hd]
  refine ⟨_, ?_, calledInner_frame hm hp nss nsp (sa, sd) g (ca, c)⟩
  rw [exec_farTransfer hi hr hp, farTransfer_callGate hs hn hf hg4, gateVisible_passed hvis hrpl hgP, ok_bind',
    gateCode_passed hs htn htf htc hent htP, ok_bind', if_pos hinner,
    callInner_ok (c := (ca, c)) hs hstack hroom hps hto, finish_ok]

/-- The test that sends a CALL to the stack of an inner level. -/
theorem innerTarget_iff (s : State) (call : Bool) (d : Desc) :
    (call && !arC d.ar && decide (arDpl d.ar < s.cpl)) = true ↔ call = true ∧ InnerTarget s d := by
  simp [InnerTarget, and_assoc]

/-- Settles O29: the gate, its target, and then the checks of the same or of the inner level. -/
theorem callGatesCheckAndKeepLevel : Obligations.CallGatesCheckAndKeepLevel := by
  intro i call sel off Ready s ga g hi hr hp hm hn hf hg
  have hs := hm.steady
  have he := exec_farTransfer hi hr hp
  rw [farTransfer_callGate hs hn hf hg] at he
  refine ⟨fun n c h => takesException_of_error he (by rw [gateVisible_fault h, error_bind']), fun hu => ?_⟩
  obtain ⟨-, hvis, hrpl, hgP⟩ := hu
  rw [gateVisible_passed hvis hrpl hgP, ok_bind'] at he
  refine ⟨fun n c h => takesException_of_error he (by rw [gateCode_fault hs h, error_bind']), fun a d htn htf hc hent hP => ?_⟩
  rw [gateCode_passed hs htn htf hc hent hP, ok_bind'] at he
  have same (h : ¬ (call = true ∧ InnerTarget s d)) : exec i s = finish s (enterSame s call g.selector (a, d) g.offset) := by
    rwa [if_neg (mt (innerTarget_iff ..).1 h)] at he
  refine ⟨?_, ?_, ?_⟩
  · rintro rfl
    have he := same (by simp)
    refine ⟨fun ho => takesException_of_error he (enterSame_outside (by simp) ho), fun ho => ?_⟩
    rw [enterSame_ok (by simp) ho, finish_ok] at he
    exact ⟨_, he, (entersCode_same hm false htf (by simp) g.offset).1⟩
  · rintro rfl hni
    have he := same (by simpa using hni)
    refine ⟨fun hpush => takesException_of_error he (enterSame_noRoom hpush),
      fun hpush ho => takesException_of_error he (enterSame_outside (fun _ => hpush) ho), fun hpush ho hb => ?_⟩
    rw [enterSame_ok (fun _ => hpush) ho, finish_ok] at he
    obtain ⟨hcode, hstack⟩ := entersCode_same (sel := g.selector) hm true htf (fun _ => hb) g.offset
    exact ⟨_, he, hcode, hstack rfl⟩
  · rintro rfl hin
    rw [if_pos ((innerTarget_iff ..).2 ⟨rfl, hin⟩)] at he
    refine ⟨fun n c h => takesException_of_error he (callInner_stackFault hs h), fun nss nsp b x hx => ⟨fun hroom => ?_,
      fun hroom => ⟨fun hps => ?_, fun hps ho => ?_⟩⟩⟩
    · exact takesException_of_error he (callInner_noRoom hs hx hroom)
    · exact takesException_of_error he (callInner_noParams hs hx hroom hps)
    · exact takesException_of_error he (callInner_outside (c := (a, d)) hs hx hroom hps ho)

end Sys2Proof.Machine
end

section
/-! PROOFS. RET far and IRET in protected mode (45_protected_transfer.md R433 to R435): the checks that both returns share, one
lemma for each; the return to the same level and to an outer one as sequences of them; and the two states they end in. -/

namespace Sys2Proof.Machine

/-! ### The checks of a return -/

section
variable {s : State}

/-- A word of the stack can be read only through a valid SS. -/
theorem CanPopAt.valid {k : Word} (hp : s.msw.pe = true) (h : CanPopAt s k) : s.ss.valid = true := by
  rw [CanPopAt, Accessible, if_pos hp] at h
  exact h.1

theorem stackWord_refused {k : Word} (h : ¬ CanPopAt s k) : stackWord s k = .error (refusedAccess s .ss .read) := by
  have hc : memCheck s .ss (s.regs.sp + k).toNat Width.word.bytes .read = .error (refusedAccess s .ss .read) :=
    memCheck_refused h
  rw [stackWord, memRead, hc, error_bind']

/-- A word of the stack that is read later (R433, log 48). -/
theorem Steady.stackWord_later (hs : Steady s) (g : ReadGroup) {k : Word} (h : CanPopAt s k) :
    stackWord (s.later g) k = .ok (stackAt s k) := hs.memRead_stack_later g h

theorem stackWord_later_refused (g : ReadGroup) {k : Word} (h : ¬ CanPopAt s k) :
    stackWord (s.later g) k = .error (refusedAccess s .ss .read) := memRead_stack_refused g h

theorem stackRange_iff (s : State) (n : Nat) :
    (limitOk s.ss s.regs.sp.toNat n || (limitOk s.ss 0 0x10000 && decide (0x10000 < s.regs.sp.toNat + n))) = true ↔
      StackRange s n := by
  rw [StackRange, ← limitOk_iff, ← limitOk_iff, Bool.or_eq_true, Bool.and_eq_true, decide_eq_true_eq]

theorem checkStackTop_passed {n : Nat} (hv : s.ss.valid = true) (h : StackRange s n) : checkStackTop s n = .ok () := by
  rw [checkStackTop, need_ok _ hv, ok_bind', need_ok _ ((stackRange_iff s n).2 h)]

theorem checkStackTop_refused {n : Nat} (hv : s.ss.valid = true) (h : ¬ StackRange s n) :
    checkStackTop s n = .error (stackFault 0) := by
  rw [checkStackTop, need_ok _ hv, ok_bind', need_error _ (Bool.eq_false_iff.2 (mt (stackRange_iff s n).1 h))]

theorem returnLevel_iff (sel : Word) (d : Desc) :
    ReturnLevel sel d ↔ arCode d.ar = true ∧
      (if arC d.ar then decide (arDpl d.ar ≤ rpl sel) else decide (arDpl d.ar = rpl sel)) = true := by
  cases h : arC d.ar <;> simp [ReturnLevel, h]

variable (hs : Steady s)
include hs

theorem returnCode_passed {sel : Word} {a : Phys} {d : Desc} (h : ReturnCode s sel a d) : returnCode s sel = .ok (a, d) := by
  obtain ⟨hn, hf, hl, hP⟩ := h
  obtain ⟨hc, hpriv⟩ := (returnLevel_iff sel d).1 hl
  rw [returnCode, selNull_eq_false hn, Bool.not_false, need_true, ok_bind', hs.needDescriptor_some _ hf, ok_bind',
    need_ok _ hc, ok_bind', need_ok _ hpriv, ok_bind', need_ok _ hP]
  rfl

/-- What the return selector names fails a check: the exception of the first that fails. -/
theorem returnCode_fault {sel : Word} {v : Byte} {c : Word} (h : ReturnCodeFault s sel v c) :
    returnCode s sel = .error (.exc (.exn v (some c))) := by
  rw [returnCode, selCode_false]
  rcases h with ⟨hn, rfl, rfl⟩ | ⟨hn, rfl, h⟩
  · rw [selNull_eq_true hn]
    rfl
  rw [selNull_eq_false hn, Bool.not_false, need_true, ok_bind']
  rcases h with ⟨hf, rfl⟩ | ⟨a, d, hf, h⟩
  · rw [hs.needDescriptor_none _ hf]
    rfl
  rw [hs.needDescriptor_some _ hf, ok_bind']
  rcases h with ⟨hbad, rfl⟩ | ⟨hl, hP, rfl⟩
  · by_cases hc : arCode d.ar = true
    · rw [need_ok _ hc, ok_bind', need_error _ (Bool.eq_false_iff.2 fun h => hbad ((returnLevel_iff sel d).2 ⟨hc, h⟩))]
      rfl
    · rw [need_error _ (Bool.eq_false_iff.2 hc)]
      rfl
  · obtain ⟨hc, hpriv⟩ := (returnLevel_iff sel d).1 hl
    rw [need_ok _ hc, ok_bind', need_ok _ hpriv, ok_bind', need_error _ hP]
    rfl

theorem returnStack_passed {sel csel : Word} {a : Phys} {d : Desc} (h : ReturnStack s sel (rpl csel) a d) :
    returnStack s sel csel = .ok (a, d) := by
  obtain ⟨hn, hf, ⟨hr, hw, hd⟩, hP⟩ := h
  rw [returnStack, selNull_eq_false hn, Bool.not_false, need_true, ok_bind', hs.needDescriptor_some _ hf, ok_bind',
    need_ok _ (decide_eq_true hr), ok_bind', need_ok _ hw, ok_bind', need_ok _ (decide_eq_true hd), ok_bind', need_ok _ hP]
  rfl

/-- The outer stack fails a check. -/
theorem returnStack_fault {sel csel : Word} {v : Byte} {c : Word} (h : ReturnStackFault s sel (rpl csel) v c) :
    returnStack s sel csel = .error (.exc (.exn v (some c))) := by
  rw [returnStack, selCode_false]
  rcases h with ⟨hn, rfl, rfl⟩ | ⟨hn, rfl, h⟩
  · rw [selNull_eq_true hn]
    rfl
  rw [selNull_eq_false hn, Bool.not_false, need_true, ok_bind']
  rcases h with ⟨hf, rfl⟩ | ⟨a, d, hf, h⟩
  · rw [hs.needDescriptor_none _ hf]
    rfl
  rw [hs.needDescriptor_some _ hf, ok_bind']
  rcases h with ⟨hbad, rfl⟩ | ⟨⟨hr, hw, hd⟩, hP, rfl⟩
  · by_cases hr : rpl sel = rpl csel
    · rw [need_ok _ (decide_eq_true hr), ok_bind']
      by_cases hw : arWritable d.ar = true
      · rw [need_ok _ hw, ok_bind', need_error _ (decide_eq_false fun hd => hbad ⟨hr, hw, hd⟩)]
        rfl
      · rw [need_error _ (Bool.eq_false_iff.2 hw)]
        rfl
    · rw [need_error _ (decide_eq_false hr)]
      rfl
  · rw [need_ok _ (decide_eq_true hr), ok_bind', need_ok _ hw, ok_bind', need_ok _ (decide_eq_true hd), ok_bind',
      need_error _ hP]
    rfl

end

/-! ### The return offset and FLAGS -/

/-- The return offset and, for IRET, the flags word can be read. -/
def ReturnReadable (s : State) (fl : Bool) : Prop := CanPopAt s 0 ∧ (fl = true → CanPopAt s 4)

/-- What both returns do last: the offset and the flags word are read, and the offset is tested (R433, R434). -/
def returnOffset (s : State) (fl : Bool) (limit : Word) : M (Word × Word) := do
  let off ← stackWord s 0
  let f ← if fl then stackWord s 4 else pure 0
  need (decide (off.toNat ≤ limit.toNat)) (protection 0)
  pure (off, f)

/-- To its own level IRET tests the range of its three words first; RET makes no such test (R433, R434). -/
def checkFlagsTop (s : State) (fl : Bool) : M Unit := if fl then checkStackTop s 6 else .ok ()

/-- The flags word that IRET takes. -/
def returnFlags (s : State) (fl : Bool) : Word := if fl then stackAt s 4 else 0

section
variable {s : State} {fl : Bool} {limit : Word}

theorem returnOffset_unread (h : ¬ ReturnReadable s fl) :
    returnOffset s fl limit = .error (refusedAccess s .ss .read) := by
  rw [returnOffset]
  by_cases h0 : CanPopAt s 0
  · obtain ⟨rfl, h4⟩ := Classical.not_imp.1 fun h4 => h ⟨h0, h4⟩
    rw [stackWord_ok h0, ok_bind', if_pos rfl, stackWord_refused h4, error_bind']
  · rw [stackWord_refused h0, error_bind']

/-- Both words have been read. -/
theorem returnOffset_read (h : ReturnReadable s fl) :
    returnOffset s fl limit = need (decide ((stackAt s 0).toNat ≤ limit.toNat)) (protection 0) >>= fun _ =>
      .ok (stackAt s 0, returnFlags s fl) := by
  rw [returnOffset, stackWord_ok h.1, ok_bind']
  cases fl with
  | false => rfl
  | true =>
    rw [if_pos rfl, stackWord_ok (h.2 rfl)]
    rfl

theorem returnOffset_outside (h : ReturnReadable s fl) (ho : limit.toNat < (stackAt s 0).toNat) :
    returnOffset s fl limit = .error (protection 0) := by
  rw [returnOffset_read h, need_error _ (by simpa using ho), error_bind']

theorem returnOffset_ok (h : ReturnReadable s fl) (ho : (stackAt s 0).toNat ≤ limit.toNat) :
    returnOffset s fl limit = .ok (stackAt s 0, returnFlags s fl) := by
  rw [returnOffset_read h, need_ok _ (by simpa using ho), ok_bind']

end

/-! ### The two returns -/

/-- CS:IP and, for IRET, FLAGS of a return have been loaded. -/
def returned (s : State) (fl : Bool) (sel : Word) (c : Phys × Desc) (cpl : Nat) (p : Word × Word) : State :=
  if fl then (loadCs s sel c cpl p.1).setFlags (s.poppedFlags p.2) else loadCs s sel c cpl p.1

/-- The state in which a return to an outer level ends (R433, R435). -/
def returnedOut (s : State) (fl : Bool) (sel : Word) (c : Phys × Desc) (p : Word × Word) (ss sp : Word) (d : Phys × Desc) :
    State :=
  (validateDataSeg (validateDataSeg ((loadCache (returned s fl sel c (rpl sel) p) .ss ss d).setSp sp) .es) .ds).flush

section
variable {s : State} (fl : Bool) (n : Word) (h2 : CanPopAt s 2)
include h2

theorem farReturn_inner (hl : rpl (stackAt s 2) < s.cpl) :
    farReturn s fl n = .error (protection (stackAt s 2 &&& 0xFFFC)) := by
  rw [farReturn, stackWord_ok h2, ok_bind', need_error _ (by simpa [stackAt] using hl), selCode_false]
  rfl

/-- A return to the same level, once its selector has been read. -/
theorem farReturn_same (hl : rpl (stackAt s 2) = s.cpl) :
    farReturn s fl n = (do
      checkFlagsTop s fl
      let c ← returnCode s (stackAt s 2)
      let p ← returnOffset s fl c.2.limit
      pure ((returned s fl (stackAt s 2) c s.cpl p).setSp (s.regs.sp + BitVec.ofNat 16 (returnBytes fl) + n))) := by
  rw [farReturn, stackWord_ok h2, ok_bind', ← stackAt, need_ok _ (decide_eq_true (Nat.le_of_eq hl.symm)), ok_bind',
    if_pos hl]
  cases fl <;> simp only [returnOffset, bind_assoc, Bool.false_eq_true, if_false, if_true, pure_bind] <;> rfl

/-- A return to an outer level, once its selector has been read. -/
theorem farReturn_outer (hl : s.cpl < rpl (stackAt s 2)) :
    farReturn s fl n = (do
      checkStackTop s (returnBytes fl + 4 + n.toNat)
      let c ← returnCode s (stackAt s 2)
      let ss ← stackWord (s.later .outerPointer) (BitVec.ofNat 16 (returnBytes fl) + n + 2)
      let sp ← stackWord (s.later .outerPointer) (BitVec.ofNat 16 (returnBytes fl) + n)
      let d ← returnStack s ss (stackAt s 2)
      let p ← returnOffset s fl c.2.limit
      pure (returnedOut s fl (stackAt s 2) c p ss (sp + n) d)) := by
  rw [farReturn, stackWord_ok h2, ok_bind', ← stackAt, need_ok _ (by simpa using Nat.le_of_lt hl), ok_bind',
    if_neg (Nat.ne_of_gt hl), add_right_comm (BitVec.ofNat 16 (returnBytes fl)) n 2]
  cases fl <;> simp only [returnOffset, bind_assoc, Bool.false_eq_true, if_false, if_true, pure_bind] <;> rfl

end

/-! ### The states they end in -/

section
variable (s : State) (fl : Bool) (sel : Word) (c : Phys × Desc) (cpl : Nat) (p : Word × Word)

theorem returned_registers :
    (returned s fl sel c cpl p).cs = codeCache sel c.2 cpl ∧ (returned s fl sel c cpl p).ip = p.1 ∧
      (returned s fl sel c cpl p).flags = (if fl then loadedFlags s p.2 else s.flags) ∧
      (returned s fl sel c cpl p).regs = s.regs := by
  cases fl
  · exact ⟨rfl, rfl, (loadCs_registers s sel c cpl p.1).2, (loadCs_registers s sel c cpl p.1).1⟩
  · exact ⟨rfl, rfl, s.poppedFlags_eq _, (loadCs_registers s sel c cpl p.1).1⟩

theorem SameButCs.returned : SameButCs s (returned s fl sel c cpl p) := by
  have h := SameButCs.loadCs s sel c cpl p.1
  cases fl
  · exact h
  · exact h.trans (SameSystem.setFlags ..).sameButCs

theorem returned_load8 (a : Phys) : (returned s fl sel c cpl p).load8 a = (setAccessed s c.1 c.2).load8 a := by
  cases fl <;> rfl

variable {s} in
theorem PlainMemory.returned (hm : PlainMemory s) : PlainMemory (returned s fl sel c cpl p) := by
  cases fl <;> exact (hm.setAccessed c.1 c.2).congr rfl rfl

end

/-- A return to the same level changes CS:IP, SP, for IRET FLAGS and the NMI condition, and the accessed bit. -/
theorem returned_frame {s : State} (hm : PlainMemory s) (fl : Bool) {sel : Word} {a : Phys} {d : Desc}
    (hf : fetchDescriptor s sel = some (a, d)) (cpl : Nat) (p : Word × Word) (sp : Word) :
    let t := (returned s fl sel (a, d) cpl p).setSp sp
    t.cs = codeCache sel d cpl ∧ t.ip = p.1 ∧ t.flags = (if fl then loadedFlags s p.2 else s.flags) ∧
      t.regs = { s.regs with sp := sp } ∧ t.load8 (a + 5) = d.ar ||| 1 ∧ (∀ q, q ≠ a + 5 → t.load8 q = s.load8 q) ∧
      SameButCs s t := by
  obtain ⟨-, hd⟩ := fetchDescriptor_eq_some hf
  obtain ⟨hcs, hip, hflags, hregs⟩ := returned_registers s fl sel (a, d) cpl p
  have hbyte : s.load8 (a + 5) = d.ar := by rw [hd, (descAt_fields s a).2.2]
  obtain ⟨hset, hrest⟩ := hm.load8_setAccessed hbyte
  have hsp := OnlyGeneral.setW (returned s fl sel (a, d) cpl p) .r4 sp
  refine ⟨hcs, hip, hflags, by rw [State.setSp_regs, hregs], ?_, fun q hq => ?_,
    (SameButCs.returned ..).trans hsp.system.sameButCs⟩
  · exact (hsp.memory _).trans ((returned_load8 ..).trans hset)
  · exact (hsp.memory q).trans ((returned_load8 ..).trans (hrest q hq))

/-- Writing back what a segment register holds changes nothing. -/
theorem State.setSeg_seg (s : State) (x : SReg) : s.setSeg x (s.seg x) = s := by cases x <;> rfl

/-- ES or DS is judged by its cache and the new level (R435, D19). -/
theorem validateDataSeg_eq (s : State) (x : SReg) :
    validateDataSeg s x = s.setSeg x (revalidated (s.seg x) s.cpl) := by
  have hpriv : dataPrivOk s (s.seg x).ar (s.seg x).sel = true ↔
      (arE (s.seg x).ar = true ∧ arC (s.seg x).ar = true) ∨
        (s.cpl ≤ arDpl (s.seg x).ar ∧ rpl (s.seg x).sel ≤ arDpl (s.seg x).ar) := by
    simp only [dataPrivOk, Bool.or_eq_true, Bool.and_eq_true, decide_eq_true_eq]
  have htest : ((s.seg x).valid && !(arReadable (s.seg x).ar && dataPrivOk s (s.seg x).ar (s.seg x).sel)) = true ↔
      (s.seg x).valid = true ∧ ¬ (arReadable (s.seg x).ar = true ∧
        ((arE (s.seg x).ar = true ∧ arC (s.seg x).ar = true) ∨
          (s.cpl ≤ arDpl (s.seg x).ar ∧ rpl (s.seg x).sel ≤ arDpl (s.seg x).ar))) := by
    rw [← hpriv, Bool.and_eq_true, Bool.not_eq_true', ← Bool.not_eq_true, Bool.and_eq_true]
  rw [validateDataSeg, revalidated]
  simp only [htest]
  split
  · rfl
  · rw [State.setSeg_seg]

/-- A stack segment is no code segment. -/
theorem arWritable_of_arCode {ar : Byte} (h : arCode ar = true) : arWritable ar = false := by
  simp only [arCode, Bool.and_eq_true] at h
  simp [arWritable, h.2]

/-- A return to an outer level: CS:IP, SS:SP, ES and DS as the new level may use them, for IRET FLAGS, and the two accessed
bits (R433 to R435). -/
theorem returnedOut_frame {s : State} (hm : PlainMemory s) (hp : s.msw.pe = true) (fl : Bool) {sel ss : Word} {a b : Phys}
    {d e : Desc} (hc : ReturnCode s sel a d) (hst : ReturnStack s ss (rpl sel) b e) (p : Word × Word) (sp : Word) :
    let t := returnedOut s fl sel (a, d) p ss sp (b, e)
    t.cs = codeCache sel d (rpl sel) ∧ t.cpl = rpl sel ∧ t.ip = p.1 ∧
      t.flags = (if fl then loadedFlags s p.2 else s.flags) ∧ t.ss = segmentCache ss e ∧ t.regs = { s.regs with sp := sp } ∧
      t.es = revalidated s.es (rpl sel) ∧ t.ds = revalidated s.ds (rpl sel) ∧ t.load8 (a + 5) = d.ar ||| 1 ∧
      t.load8 (b + 5) = e.ar ||| 1 ∧ (∀ q, q ≠ a + 5 → q ≠ b + 5 → t.load8 q = s.load8 q) ∧
      SameSystem { s with cs := t.cs, ss := t.ss, es := t.es, ds := t.ds } t := by
  let u := returned s fl sel (a, d) (rpl sel) p
  let v := (loadCache u .ss ss (b, e)).setSp sp
  obtain ⟨hcs, hip, hflags, hregs⟩ := returned_registers s fl sel (a, d) (rpl sel) p
  have hsys : SameButCs s u := SameButCs.returned ..
  have hvcs : v.cs = codeCache sel d (rpl sel) := by simp [v, u, loadCache, State.setSeg, hcs]
  have hcpl : v.cpl = rpl sel := by
    rw [State.cpl, show v.msw = s.msw from (by simp [v] : v.msw = u.msw).trans hsys.msw, if_pos hp, hvcs]
    exact rpl_withLevel sel (rpl_lt_four sel)
  have hcpl' (g : SegReg) : (v.setSeg .es g).cpl = v.cpl := rfl
  have ht : returnedOut s fl sel (a, d) p ss sp (b, e) =
      ((v.setSeg .es (revalidated s.es (rpl sel))).setSeg .ds (revalidated s.ds (rpl sel))).flush := by
    have hes : v.seg .es = s.es := (by simp [v, loadCache, State.setSeg, State.seg] : v.seg .es = u.es).trans hsys.es
    have hds (g : SegReg) : (v.setSeg .es g).seg .ds = s.ds :=
      (by simp [v, loadCache, State.setSeg, State.seg] : (v.setSeg .es g).seg .ds = u.ds).trans hsys.ds
    rw [returnedOut, validateDataSeg_eq v, validateDataSeg_eq, hcpl', hds, hes, hcpl]
  have hread (q : Phys) : (returnedOut s fl sel (a, d) p ss sp (b, e)).load8 q = (setAccessed u b e).load8 q := by
    rw [ht]
    rfl
  obtain ⟨-, hd⟩ := fetchDescriptor_eq_some hc.2.1
  obtain ⟨-, he⟩ := fetchDescriptor_eq_some hst.2.1
  have hapart : b + 5 ≠ a + 5 := by
    intro h
    have hw := hst.2.2.1.2.1
    rw [he, (by simpa using h : b = a), ← hd, arWritable_of_arCode hc.2.2.1.1] at hw
    exact absurd hw (by decide)
  obtain ⟨hset, hrest⟩ := hm.load8_setAccessed (show s.load8 (a + 5) = d.ar by rw [hd, (descAt_fields s a).2.2])
  have hstack : u.load8 (b + 5) = e.ar :=
    (returned_load8 ..).trans ((hrest _ hapart).trans (by rw [he, (descAt_fields s b).2.2]))
  obtain ⟨hset', hrest'⟩ := (PlainMemory.returned fl sel (a, d) (rpl sel) p hm).load8_setAccessed hstack
  refine ⟨?_, ?_, ?_, ?_, ?_, ?_, ?_, ?_, ?_, (hread _).trans hset', fun q hqa hqb => ?_, ?_⟩
  case refine_9 => exact (hread _).trans ((hrest' _ (Ne.symm hapart)).trans ((returned_load8 ..).trans hset))
  case refine_10 => exact (hread q).trans ((hrest' q hqb).trans ((returned_load8 ..).trans (hrest q hqa)))
  case refine_11 =>
    rw [ht]
    cases hsys
    constructor <;> simp_all [v, u, loadCache, State.setSeg]
  all_goals rw [ht]
  · exact hvcs
  · exact hcpl
  · simpa [v, loadCache] using hip
  · simpa [v, loadCache] using hflags
  · simp [v, loadCache, State.setSeg, segmentCache, Desc.cache]
  · simp [v, loadCache, State.setSeg, u, hregs]
  · rfl
  · rfl

/-! ### RET and IRET -/

/-- After IRET NMI is open again (60_exceptions.md R547). -/
def nmiOpened (fl : Bool) (t : State) : State := if fl then { t with nmiInService := false } else t

theorem exec_protectedReturnForm {i : Instr} {fl : Bool} {n : Word} {s : State} (hi : protectedReturnForm i = some (fl, n))
    (hp : s.msw.pe = true) (ht : i = .iret → s.flags.nt = false) :
    exec i s = finish s (farReturn s fl n >>= fun t => .ok (nmiOpened fl t)) := by
  cases i with
  | retFar | retFarImm =>
    cases hi
    rw [exec]
    simp only [execRetFar, execRetFarImm, retFarTo, if_pos hp]
    exact congrArg (finish s) (bind_pure _).symm
  | iret =>
    cases hi
    rw [exec, execIret, returnFromInterrupt, hp, Bool.not_true, if_neg Bool.false_ne_true, ht rfl,
      if_neg Bool.false_ne_true]
    rfl
  | _ => cases hi

/-- Settles O33: the selector, then the checks of the return to the same or to an outer level, in their order. -/
theorem protectedFarReturns : Obligations.ProtectedFarReturns := by
  intro i fl n s hi hp hm hnt k off sel flags nmi TopRead StackStop
  have hs := hm.steady
  have he := exec_protectedReturnForm hi hp hnt
  have fails {v : Byte} {c : Word} (h : farReturn s fl n = .error (.exc (.exn v (some c)))) : TakesException i s v (some c) :=
    takesException_of_error he (by rw [h, error_bind'])
  have stops (h : farReturn s fl n = .error (refusedAccess s .ss .read)) : StackStop := fails h
  refine ⟨fun h2 => stops (by rw [farReturn, stackWord_refused h2, error_bind']),
    fun h2 hl => fails (farReturn_inner fl n h2 hl), fun h2 hl => ?_, fun h2 hl => ?_⟩
  · have hv := h2.valid hp
    have hret := farReturn_same fl n h2 hl
    refine ⟨?_, fun hrange => ?_⟩
    · rintro rfl hrange
      exact fails (by rw [hret, checkFlagsTop, if_pos rfl, checkStackTop_refused hv hrange]; rfl)
    have htop : checkFlagsTop s fl = .ok () := by
      cases fl
      · rfl
      · exact checkStackTop_passed hv (hrange rfl)
    rw [htop, ok_bind'] at hret
    refine ⟨fun v c h => fails (by rw [hret, returnCode_fault hs h, error_bind']), fun a d hc => ?_⟩
    rw [returnCode_passed hs hc, ok_bind'] at hret
    refine ⟨fun h => stops ?_, fun h ho => fails ?_, fun h ho => ?_⟩
    · rw [hret, returnOffset_unread h, error_bind']
    · rw [hret, returnOffset_outside h ho]
      rfl
    rw [hret, returnOffset_ok h ho, ok_bind', pure_bind, finish_ok] at he
    obtain ⟨hcs, hip, hflags, hregs, hset, hmem, hsys⟩ :=
      returned_frame hm fl hc.2.1 s.cpl (off, returnFlags s fl) (s.regs.sp + k + n)
    refine ⟨_, he, ?_⟩
    cases fl
    · exact ⟨hcs, hip, hflags, hregs, hset, hmem, hsys⟩
    · exact ⟨hcs, hip, hflags, hregs, hset, hmem, { hsys with nmiInService := rfl }⟩
  · have hv := h2.valid hp
    have hret := farReturn_outer fl n h2 hl
    refine ⟨fun hrange => fails (by rw [hret, checkStackTop_refused hv hrange]; rfl), fun hrange => ?_⟩
    rw [checkStackTop_passed hv hrange, ok_bind'] at hret
    refine ⟨fun v c h => fails (by rw [hret, returnCode_fault hs h, error_bind']), fun a d hc => ?_⟩
    rw [returnCode_passed hs hc, ok_bind'] at hret
    refine ⟨fun hptr => stops ?_, fun hptr => ?_, fun hptr b e hst => ?_⟩
    · rw [hret]
      by_cases hss : CanPopAt s (k + n + 2)
      · rw [hs.stackWord_later _ hss, ok_bind', stackWord_later_refused _ fun hsp => hptr ⟨hsp, hss⟩, error_bind']
      · rw [stackWord_later_refused _ hss, error_bind']
    all_goals rw [hs.stackWord_later _ hptr.2, ok_bind', hs.stackWord_later _ hptr.1, ok_bind'] at hret
    · exact fun v c h => fails (by rw [hret, returnStack_fault hs h, error_bind'])
    rw [returnStack_passed hs hst, ok_bind'] at hret
    refine ⟨fun h => stops ?_, fun h ho => fails ?_, fun h ho => ?_⟩
    · rw [hret, returnOffset_unread h, error_bind']
    · rw [hret, returnOffset_outside h ho]
      rfl
    rw [hret, returnOffset_ok h ho, ok_bind', pure_bind, finish_ok] at he
    obtain ⟨hcs, hcpl, hip, hflags, hss, hregs, hes, hds, hset, hset', hmem, hsys⟩ :=
      returnedOut_frame hm hp fl hc hst (off, returnFlags s fl) (stackAt s (k + n) + n)
    refine ⟨_, he, ?_⟩
    cases fl
    · exact ⟨hcs, hcpl, hip, hflags, hss, hregs, hes, hds, hset, hset', hmem, hsys⟩
    · exact ⟨hcs, hcpl, hip, hflags, hss, hregs, hes, hds, hset, hset', hmem, { hsys with nmiInService := rfl }⟩

end Sys2Proof.Machine
end

section
/-! PROOFS. Task switches (45_protected_transfer.md R440 to R443): the bytes that the steps of a switch write and those that they
read, apart from each other by the tables and the two task state segments, then what a switch that passes its checks makes of
the state. -/

namespace Sys2Proof.Machine

/-! ### Descriptors up to the accessed bit -/

/-- Two descriptors of one segment: they differ in the accessed bit at most (20_memory.md R129). -/
structure Desc.SameSegment (d e : Desc) : Prop where
  base : e.base = d.base
  limit : e.limit = d.limit
  ar : e.ar ||| 1 = d.ar ||| 1

/-- What does not depend on the accessed bit is the same. -/
theorem Desc.SameSegment.rights {d e : Desc} (h : d.SameSegment e) {α : Type} {f : Byte → α} (hf : ∀ b, f (b ||| 1) = f b) :
    f e.ar = f d.ar := by rw [← hf e.ar, h.ar, hf]

theorem arS_accessed (b : Byte) : arS (b ||| 1) = arS b := by simp [arS]
theorem arE_accessed (b : Byte) : arE (b ||| 1) = arE b := by simp [arE]
theorem arC_accessed (b : Byte) : arC (b ||| 1) = arC b := by simp [arC]
theorem arW_accessed (b : Byte) : arW (b ||| 1) = arW b := by simp [arW]
theorem arP_accessed (b : Byte) : arP (b ||| 1) = arP b := by simp [arP]

theorem arDpl_accessed (b : Byte) : arDpl (b ||| 1) = arDpl b := by
  have h : (1 : Byte).extractLsb' 5 2 = 0#2 := rfl
  rw [arDpl, arDpl, BitVec.extractLsb'_or, h, BitVec.or_zero]

theorem arCode_accessed (b : Byte) : arCode (b ||| 1) = arCode b := by simp only [arCode, arS_accessed, arE_accessed]

theorem arWritable_accessed (b : Byte) : arWritable (b ||| 1) = arWritable b := by
  simp only [arWritable, arS_accessed, arE_accessed, arW_accessed]

theorem arReadable_accessed (b : Byte) : arReadable (b ||| 1) = arReadable b := by
  simp only [arReadable, arS_accessed, arE_accessed, arW_accessed]

theorem Desc.SameSegment.segmentCache {d e : Desc} (h : d.SameSegment e) (sel : Word) :
    Machine.segmentCache sel e = Machine.segmentCache sel d := by
  rw [Machine.segmentCache, Machine.segmentCache, h.base, h.limit, h.ar]

/-- The bytes that hold limit and base. -/
theorem segmentBytes {s t : State} {x : Phys}
    (h : ∀ j, j < 5 → t.load8 (x + BitVec.ofNat 24 j) = s.load8 (x + BitVec.ofNat 24 j)) :
    t.load8 x = s.load8 x ∧ t.load8 (x + 1) = s.load8 (x + 1) ∧ t.load8 (x + 2) = s.load8 (x + 2) ∧
      t.load8 (x + 3) = s.load8 (x + 3) ∧ t.load8 (x + 4) = s.load8 (x + 4) :=
  ⟨by simpa using h 0 (by decide), h 1 (by decide), h 2 (by decide), h 3 (by decide), h 4 (by decide)⟩

/-- The accessed bit is the only one that may have changed between two readings of a descriptor. -/
theorem descAt_sameSegment {s t : State} {x : Phys}
    (h : ∀ j, j < 5 → t.load8 (x + BitVec.ofNat 24 j) = s.load8 (x + BitVec.ofNat 24 j))
    (ha : t.load8 (x + 5) ||| 1 = s.load8 (x + 5) ||| 1) : (descAt s x).SameSegment (descAt t x) := by
  obtain ⟨hl, hb, har⟩ := descAt_fields s x
  obtain ⟨hl', hb', har'⟩ := descAt_fields t x
  obtain ⟨h0, h1, h2, h3, h4⟩ := segmentBytes h
  exact ⟨BitVec.eq_of_toNat_eq (by rw [hb, hb', h2, h3, h4]), BitVec.eq_of_toNat_eq (by rw [hl, hl', h0, h1]),
    by rw [har, har', ha]⟩

theorem descAt_congr {s t : State} {x : Phys}
    (h : ∀ j, j < 6 → t.load8 (x + BitVec.ofNat 24 j) = s.load8 (x + BitVec.ofNat 24 j)) : descAt t x = descAt s x := by
  obtain ⟨h0, h1, h2, h3, h4⟩ := segmentBytes fun j hj => h j (by omega)
  have h5 : t.load8 (x + 5) = s.load8 (x + 5) := h 5 (by decide)
  have e3 : x + 2 + 1 = x + 3 := BitVec.add_assoc ..
  have e5 : x + 4 + 1 = x + 5 := BitVec.add_assoc ..
  simp only [descAt, State.load16, e3, e5, h0, h1, h2, h3, h4, h5]

/-! ### Where the descriptors of the incoming task lie -/

theorem Apart.symm {a b : Phys} {m n : Nat} (h : Apart a m b n) : Apart b n a m := fun j k hj hk => (h k j hk hj).symm

section
variable {n : Incoming} {s : State} {sel : Word} {x : Phys} {d : Desc}

/-- A descriptor named under the incoming task's LDT lies in its table, eight bytes to an index. -/
theorem Incoming.fetch_eq_some (h : n.fetch s sel = some (x, d)) :
    d = descAt s x ∧ (selLocal sel = true → n.ldtr.valid = true) ∧ ∃ k, k % 8 = 0 ∧
      k + 7 ≤ (if selLocal sel then n.ldtr.limit else s.gdtr.limit).toNat ∧
      x = (if selLocal sel then n.ldtr.base else s.gdtr.base) + BitVec.ofNat 24 k := by
  obtain ⟨hx, hd⟩ := fetchDescriptor_eq_some h
  obtain ⟨hv, hl⟩ := (fetchDescriptor_ne_none_iff { s with ldtr := n.ldtr } sel).1 (by
    rw [show fetchDescriptor _ sel = _ from h]
    exact Option.some_ne_none _)
  refine ⟨hd, hv, sel.toNat / 8 * 8, Nat.mul_mod_left .., hl, BitVec.eq_of_toNat_eq ?_⟩
  rw [hx, descriptorAddress_toNat, BitVec.toNat_add, BitVec.toNat_ofNat, Nat.add_mod_mod]
  rfl

/-- The bytes of such a descriptor are not those of the two task state segments. -/
theorem Incoming.fetch_apart (hsep : n.Separate s) (h : n.fetch s sel = some (x, d)) :
    Apart s.tr.base 44 x 8 ∧ Apart n.desc.base 44 x 8 := by
  obtain ⟨-, hold, hnew, hldt, -⟩ := hsep
  obtain ⟨-, hv, k, -, hk, rfl⟩ := fetch_eq_some h
  have inside {b a : Phys} {m : Nat} (hap : Apart b 44 a m) (hkm : k + 7 < m) : Apart b 44 (a + BitVec.ofNat 24 k) 8 := by
    intro i j hi hj
    rw [BitVec.add_assoc, ← BitVec.ofNat_add]
    exact hap i (k + j) hi (by omega)
  cases hl : selLocal sel with
  | false =>
    rw [hl] at hk
    exact ⟨inside hold (Nat.lt_succ_of_le hk), inside hnew (Nat.lt_succ_of_le hk)⟩
  | true =>
    rw [hl] at hk
    obtain ⟨hold', hnew', -⟩ := hldt (hv hl)
    exact ⟨inside hold' (Nat.lt_succ_of_le hk), inside hnew' (Nat.lt_succ_of_le hk)⟩

/-- The access byte of one descriptor is no byte of another one. -/
theorem Incoming.fetch_accessByte {sel' : Word} {y : Phys} {e : Desc} (hsep : n.Separate s) (h : n.fetch s sel = some (x, d))
    (h' : n.fetch s sel' = some (y, e)) {j : Nat} (hj : j < 8) (he : x + BitVec.ofNat 24 j = y + 5) : x = y ∧ j = 5 := by
  obtain ⟨-, -, -, hldt, -⟩ := hsep
  obtain ⟨-, hv, k, hk8, hk, rfl⟩ := fetch_eq_some h
  obtain ⟨-, hv', k', hk8', hk', rfl⟩ := fetch_eq_some h'
  have h5 : (5 : Phys) = BitVec.ofNat 24 5 := rfl
  rw [h5, BitVec.add_assoc, BitVec.add_assoc, ← BitVec.ofNat_add, ← BitVec.ofNat_add] at he
  have same {b : Phys} {l : Word} (hkl : k + 7 ≤ l.toNat) (hkl' : k' + 7 ≤ l.toNat)
      (hb : b + BitVec.ofNat 24 (k + j) = b + BitVec.ofNat 24 (k' + 5)) : k = k' ∧ j = 5 := by
    have hl := l.isLt
    have heq := congrArg BitVec.toNat ((BitVec.add_right_inj _).1 hb)
    rw [BitVec.toNat_ofNat, BitVec.toNat_ofNat, Nat.mod_eq_of_lt (by omega), Nat.mod_eq_of_lt (by omega)] at heq
    omega
  cases hl : selLocal sel <;> cases hl' : selLocal sel' <;> rw [hl] at hk he <;> rw [hl'] at hk' he
  case false.false | true.true =>
    obtain ⟨rfl, rfl⟩ := same hk hk' he
    exact ⟨rfl, rfl⟩
  case false.true => exact absurd he ((hldt (hv' hl')).2.2 _ _ (by simp at hk; omega) (by simp at hk'; omega))
  case true.false => exact absurd he.symm ((hldt (hv hl)).2.2 _ _ (by simp at hk'; omega) (by simp at hk; omega))

end

/-! ### Steps that write memory only -/

/-- Nothing but memory has been written. -/
def OnlyMemory (s t : State) : Prop := t = { s with mem := t.mem, stale := t.stale, draws := t.draws }

theorem OnlyMemory.trans {s t u : State} (h : OnlyMemory s t) (k : OnlyMemory t u) : OnlyMemory s u :=
  Eq.trans k (by rw [h])

theorem OnlyMemory.gdtr {s t : State} (h : OnlyMemory s t) : t.gdtr = s.gdtr := by rw [h]

theorem OnlyMemory.tr {s t : State} (h : OnlyMemory s t) : t.tr = s.tr := by rw [h]

theorem OnlyMemory.store8 (s : State) (a : Phys) (v : Byte) : OnlyMemory s (s.store8 a v) := rfl

theorem OnlyMemory.store16 (s : State) (a : Phys) (v : Word) : OnlyMemory s (s.store16 a v) := rfl

theorem OnlyMemory.setAccessed (s : State) (a : Phys) (d : Desc) : OnlyMemory s (setAccessed s a d) := by
  unfold Machine.setAccessed
  split <;> rfl

theorem OnlyMemory.tssStore (s : State) (base : Phys) (l : List (Nat × Word)) : OnlyMemory s (tssStore s base l) := by
  induction l generalizing s with
  | nil => rfl
  | cons e rest ih => exact (OnlyMemory.store16 s _ e.2).trans (ih _)

theorem OnlyMemory.drawn (s : State) (n : Nat) : OnlyMemory s (s.drawn n) := rfl

theorem PlainMemory.tssStore {s : State} (base : Phys) (l : List (Nat × Word)) (h : PlainMemory s) :
    PlainMemory (tssStore s base l) :=
  ⟨canonical_tssStore s base l h.1, (tssStore_memMap s base l).trans h.2⟩

/-! ### The outgoing image -/

/-- Bytes at different offsets of a task state segment are different. -/
theorem add_ofNat_ne (b : Phys) {i j : Nat} (hi : i < 2 ^ 24) (hj : j < 2 ^ 24) (h : i ≠ j) :
    b + BitVec.ofNat 24 i ≠ b + BitVec.ofNat 24 j := by
  intro he
  have heq := congrArg BitVec.toNat ((BitVec.add_right_inj _).1 he)
  rw [BitVec.toNat_ofNat, BitVec.toNat_ofNat, Nat.mod_eq_of_lt hi, Nat.mod_eq_of_lt hj] at heq
  exact h heq

theorem add_ofNat_succ (b : Phys) (i : Nat) : b + BitVec.ofNat 24 i + 1 = b + BitVec.ofNat 24 (i + 1) := by
  rw [BitVec.ofNat_add, BitVec.add_assoc]
  rfl

/-- Words stored at rising offsets all read back. -/
theorem load16_tssStore {s : State} (hm : PlainMemory s) (base : Phys) {l : List (Nat × Word)}
    (hl : l.Pairwise fun e f => e.1 + 2 ≤ f.1) (hb : ∀ e ∈ l, e.1 + 2 < 2 ^ 24) {e : Nat × Word} (he : e ∈ l) :
    (tssStore s base l).load16 (base + BitVec.ofNat 24 e.1) = e.2 := by
  induction l generalizing s with
  | nil => cases he
  | cons f rest ih =>
    obtain ⟨hfirst, hrest⟩ := List.pairwise_cons.1 hl
    rw [tssStore]
    rcases List.mem_cons.1 he with rfl | he
    · obtain ⟨hlo, hhi, -⟩ := hm.load8_store16 (base + BitVec.ofNat 24 e.1) e.2
      have hlt := hb e List.mem_cons_self
      have later (i : Nat) (hi : i < e.1 + 2) :
          (tssStore (s.store16 (base + BitVec.ofNat 24 e.1) e.2) base rest).load8 (base + BitVec.ofNat 24 i) =
            (s.store16 (base + BitVec.ofNat 24 e.1) e.2).load8 (base + BitVec.ofNat 24 i) := by
        refine load8_tssStore _ _ _ fun g hg => ?_
        have hge := hfirst g hg
        have hgt := hb g (List.mem_cons_of_mem _ hg)
        rw [add_ofNat_succ]
        exact ⟨add_ofNat_ne _ (by omega) (by omega) (by omega), add_ofNat_ne _ (by omega) (by omega) (by omega)⟩
      rw [State.load16, later _ (by omega), add_ofNat_succ, later _ (by omega), ← add_ofNat_succ, hlo, hhi,
        wordOf_loByte_hiByte]
    · exact ih (hm.store16 _ _) hrest (fun g hg => hb g (List.mem_cons_of_mem _ hg)) he

/-- The words that a switch stores in the outgoing task state segment, FLAGS among them (R440 step 2, R441). -/
def imageWords (s : State) (mode : SwitchMode) (ret : Word) : List (Nat × Word) :=
  [(14, ret), (16, (if mode = .iret then { s.flags with nt := false } else s.flags).image (s.freeWord 0)), (18, s.regs.ax),
   (20, s.regs.cx), (22, s.regs.dx), (24, s.regs.bx), (26, s.regs.sp), (28, s.regs.bp), (30, s.regs.si), (32, s.regs.di),
   (34, s.es.sel), (36, s.cs.sel), (38, s.ss.sel), (40, s.ds.sel)]

theorem saveTask_eq (s : State) (mode : SwitchMode) (ret : Word) :
    saveTask s mode ret = (tssStore s s.tr.base (imageWords s mode ret)).drawn 1 := rfl

theorem imageWords_offsets (s : State) (mode : SwitchMode) (ret : Word) :
    (imageWords s mode ret).map Prod.fst = [14, 16, 18, 20, 22, 24, 26, 28, 30, 32, 34, 36, 38, 40] := rfl

theorem imageWords_offset {s : State} {mode : SwitchMode} {ret : Word} {e : Nat × Word} (he : e ∈ imageWords s mode ret) :
    14 ≤ e.1 ∧ e.1 ≤ 40 := by
  have h := List.mem_map_of_mem (f := Prod.fst) he
  rw [imageWords_offsets] at h
  have hall : ∀ k ∈ [14, 16, 18, 20, 22, 24, 26, 28, 30, 32, 34, 36, 38, 40], 14 ≤ k ∧ k ≤ 40 := by decide
  exact hall _ h

theorem OnlyMemory.saveTask (s : State) (mode : SwitchMode) (ret : Word) : OnlyMemory s (saveTask s mode ret) := by
  rw [saveTask_eq]
  exact (OnlyMemory.tssStore ..).trans (.drawn ..)

theorem PlainMemory.saveTask {s : State} (mode : SwitchMode) (ret : Word) (h : PlainMemory s) :
    PlainMemory (saveTask s mode ret) := by
  rw [saveTask_eq]
  exact (h.tssStore ..).congr (State.drawn_mem ..) (State.drawn_memMap ..)

theorem load8_drawn (s : State) (n : Nat) (a : Phys) : (s.drawn n).load8 a = s.load8 a := State.load8_congr rfl rfl rfl a

theorem load16_saveTask {s : State} (hm : PlainMemory s) (mode : SwitchMode) (ret : Word) {e : Nat × Word}
    (he : e ∈ imageWords s mode ret) : (saveTask s mode ret).load16 (s.tr.base + BitVec.ofNat 24 e.1) = e.2 := by
  have hrising : (imageWords s mode ret).Pairwise fun e f => e.1 + 2 ≤ f.1 := by
    have h : ((imageWords s mode ret).map Prod.fst).Pairwise fun i j => i + 2 ≤ j := by
      rw [imageWords_offsets]
      decide
    exact List.pairwise_map.1 h
  rw [saveTask_eq, State.load16, load8_drawn, load8_drawn]
  exact load16_tssStore hm _ hrising (fun e he => by have := imageWords_offset he; omega) he

theorem savedWords_offset {s : State} {ret : Word} {e : Nat × Word} (he : e ∈ savedWords s ret) : e.1 < 43 := by
  have h : ∀ k ∈ (savedWords s ret).map Prod.fst, k < 43 := by
    rw [show (savedWords s ret).map Prod.fst = [14, 18, 20, 22, 24, 26, 28, 30, 32, 34, 36, 38, 40] from rfl]
    decide
  exact h _ (List.mem_map_of_mem he)

/-- What the outgoing task state segment receives, and the bytes that the step does not touch. -/
theorem saveTask_frame {s : State} (hm : PlainMemory s) (mode : SwitchMode) (ret : Word) :
    (∀ e ∈ savedWords s ret, (saveTask s mode ret).load16 (s.tr.base + BitVec.ofNat 24 e.1) = e.2) ∧
      Flags.ofWord ((saveTask s mode ret).load16 (s.tr.base + 16)) =
        (if mode = .iret then { s.flags with nt := false } else s.flags) ∧
      ∀ p, (∀ k, 14 ≤ k → k < 42 → p ≠ s.tr.base + BitVec.ofNat 24 k) → (saveTask s mode ret).load8 p = s.load8 p := by
  refine ⟨fun e he => load16_saveTask hm mode ret ?_, ?_, fun p hp => ?_⟩
  · rcases List.mem_cons.1 he with rfl | he
    · exact List.mem_cons_self
    · exact List.mem_cons_of_mem _ (List.mem_cons_of_mem _ he)
  · have hflags := load16_saveTask hm mode ret (List.mem_cons_of_mem _ List.mem_cons_self)
    exact (congrArg Flags.ofWord hflags).trans (Flags.ofWord_image ..)
  · rw [saveTask_eq, load8_drawn]
    refine load8_tssStore _ _ _ fun e he => ?_
    obtain ⟨hlo, hhi⟩ := imageWords_offset he
    rw [add_ofNat_succ]
    exact ⟨hp _ hlo (by omega), hp _ (by omega) (by omega)⟩

/-! ### The steps before the new task is loaded -/

theorem Incoming.fetch_global (n : Incoming) (s : State) {sel : Word} (h : selLocal sel = false) :
    n.fetch s sel = fetchDescriptor s sel := by
  simp only [Incoming.fetch, fetchDescriptor, h]
  rfl

/-- The outgoing task is saved, the back link and the busy bits are written, and the new task is not loaded yet (R440 steps 2
to 7). -/
def taskWritten (s : State) (a : Phys) (t : Desc) (mode : SwitchMode) (ret : Word) : State :=
  let s1 := saveTask s mode ret
  let s2 := if mode = .nest then s1.store16 (t.base + BitVec.ofNat 24 tssLayout.backLink) s.tr.sel else markOldAvailable s1
  if mode = .iret then s2 else markBusy s2 a t

section
variable {s : State} (a : Phys) (t : Desc) (mode : SwitchMode) (ret : Word)

/-- TR names the new task, and TS is set; then the registers are loaded (R440 steps 7 and 8). -/
theorem commitSwitch_eq (s : State) (tsel : Word) :
    commitSwitch s tsel a t mode ret =
      loadTask { taskWritten s a t mode ret with
        tr := { sel := tsel, base := t.base, limit := t.limit }
        msw := { (taskWritten s a t mode ret).msw with ts := true } } t.base mode := rfl

theorem taskWritten_jmp : taskWritten s a t .jmp ret = markBusy (markOldAvailable (saveTask s .jmp ret)) a t := by
  simp [taskWritten]

theorem taskWritten_nest :
    taskWritten s a t .nest ret = markBusy ((saveTask s .nest ret).store16 t.base s.tr.sel) a t := by
  simp [taskWritten, tssLayout]

theorem taskWritten_iret : taskWritten s a t .iret ret = markOldAvailable (saveTask s .iret ret) := by simp [taskWritten]

theorem markOldAvailable_eq (s : State) :
    markOldAvailable s = s.store8 (oldTaskByte s) ((s.later .taskState).load8 (oldTaskByte s) &&& 0xFD) := rfl

theorem OnlyMemory.markOldAvailable (s : State) : OnlyMemory s (markOldAvailable s) := .store8 ..

theorem OnlyMemory.markBusy (s : State) : OnlyMemory s (markBusy s a t) := .store8 ..

theorem PlainMemory.markOldAvailable {s : State} (hm : PlainMemory s) : PlainMemory (markOldAvailable s) := hm.store8 ..

theorem load8_markBusy {s : State} (hm : PlainMemory s) : (markBusy s a t).load8 (a + 5) = t.ar ||| 2 := by
  rw [Machine.markBusy, State.load8_store8 _ _ _ _ hm, if_pos rfl]

theorem OnlyMemory.taskWritten (s : State) : OnlyMemory s (taskWritten s a t mode ret) := by
  have h := OnlyMemory.saveTask s mode ret
  cases mode with
  | jmp =>
    rw [taskWritten_jmp]
    exact (h.trans (.markOldAvailable _)).trans (.markBusy ..)
  | nest =>
    rw [taskWritten_nest]
    exact (h.trans (.store16 ..)).trans (.markBusy ..)
  | iret =>
    rw [taskWritten_iret]
    exact h.trans (.markOldAvailable _)

theorem PlainMemory.taskWritten (hm : PlainMemory s) : PlainMemory (taskWritten s a t mode ret) := by
  have h := hm.saveTask mode ret
  cases mode with
  | jmp =>
    rw [taskWritten_jmp]
    exact (h.store8 ..).store8 ..
  | nest =>
    rw [taskWritten_nest]
    exact (h.store16 ..).store8 ..
  | iret =>
    rw [taskWritten_iret]
    exact h.store8 ..

theorem markOldAvailable_saveTask (hm : PlainMemory s) :
    markOldAvailable (saveTask s mode ret) =
      (saveTask s mode ret).store8 (oldTaskByte s) ((saveTask s mode ret).load8 (oldTaskByte s) &&& 0xFD) := by
  have hsave := OnlyMemory.saveTask s mode ret
  have h : oldTaskByte (saveTask s mode ret) = oldTaskByte s := by rw [oldTaskByte, oldTaskByte, hsave.gdtr, hsave.tr]
  rw [markOldAvailable_eq, (hm.saveTask mode ret).steady.load8_later, h]

/-- The byte at `p` is neither in the back link nor one of the access bytes that the switch writes. -/
def Unwritten (s : State) (a : Phys) (t : Desc) (mode : SwitchMode) (p : Phys) : Prop :=
  (mode = .nest → p ≠ t.base ∧ p ≠ t.base + 1) ∧ (mode ≠ .nest → p ≠ oldTaskByte s) ∧ (mode ≠ .iret → p ≠ a + 5)

theorem load8_taskWritten (hm : PlainMemory s) {p : Phys} (h : Unwritten s a t mode p) :
    (taskWritten s a t mode ret).load8 p = (saveTask s mode ret).load8 p := by
  obtain ⟨hlink, hold, hbusy⟩ := h
  cases mode with
  | jmp =>
    rw [taskWritten_jmp, markOldAvailable_saveTask _ _ hm, markBusy,
      State.load8_store8_ne _ _ (hbusy (by decide)), State.load8_store8_ne _ _ (hold (by decide))]
  | nest =>
    obtain ⟨hlo, hhi⟩ := hlink rfl
    rw [taskWritten_nest, markBusy, State.load8_store8_ne _ _ (hbusy (by decide)),
      ((hm.saveTask _ _).load8_store16 _ _).2.2 _ hlo hhi]
  | iret =>
    rw [taskWritten_iret, markOldAvailable_saveTask _ _ hm, State.load8_store8_ne _ _ (hold (by decide))]

end

/-- Memory before the new task is loaded: what SwitchedMemory says but for the accessed bits. -/
structure TaskWritten (s w : State) (n : Incoming) (mode : SwitchMode) (ret : Word) : Prop where
  saved : ∀ e ∈ savedWords s ret, w.load16 (s.tr.base + BitVec.ofNat 24 e.1) = e.2
  flags : Flags.ofWord (w.load16 (s.tr.base + 16)) = (if mode = .iret then { s.flags with nt := false } else s.flags)
  link : mode = .nest → w.load16 n.desc.base = s.tr.sel
  busy : w.load8 (n.addr + 5) = (if mode = .iret then n.desc.ar else n.desc.ar ||| 2)
  old : w.load8 (oldTaskByte s) =
    (if mode = .nest then s.load8 (oldTaskByte s) else s.load8 (oldTaskByte s) &&& 0xFD)
  rest : ∀ p, (∀ k, 14 ≤ k → k < 42 → p ≠ s.tr.base + BitVec.ofNat 24 k) →
    (mode = .nest → p ≠ n.desc.base ∧ p ≠ n.desc.base + 1) → p ≠ n.addr + 5 → p ≠ oldTaskByte s → w.load8 p = s.load8 p

section
variable {s : State} {n : Incoming}

/-- The outgoing task's descriptor, as one of those in the tables. -/
theorem Incoming.Separate.oldTask (hsep : n.Separate s) :
    ∃ y e, n.fetch s s.tr.sel = some (y, e) ∧ oldTaskByte s = y + 5 ∧ e.isType 3 = true ∧ y ≠ n.addr := by
  obtain ⟨-, -, -, -, hl, y, e, hf, ht, hne⟩ := hsep
  refine ⟨y, e, (n.fetch_global s hl).trans hf, ?_, ht, hne⟩
  rw [(fetchDescriptor_eq_some hf).1, descriptorAddress, tableBase, hl]
  rfl

variable (hsep : n.Separate s) (hn : n.fetch s n.sel = some (n.addr, n.desc))
include hsep

theorem Incoming.Separate.oldTaskByte_ne {k : Nat} (hk : k < 44) :
    oldTaskByte s ≠ s.tr.base + BitVec.ofNat 24 k ∧ oldTaskByte s ≠ n.desc.base + BitVec.ofNat 24 k := by
  obtain ⟨y, e, hf, he, -, -⟩ := hsep.oldTask
  obtain ⟨hold, hnew⟩ := fetch_apart hsep hf
  rw [he]
  exact ⟨(hold k 5 hk (by decide)).symm, (hnew k 5 hk (by decide)).symm⟩

include hn in
theorem Incoming.Separate.newTaskByte_ne {k : Nat} (hk : k < 44) :
    n.addr + 5 ≠ s.tr.base + BitVec.ofNat 24 k ∧ n.addr + 5 ≠ n.desc.base + BitVec.ofNat 24 k := by
  obtain ⟨hold, hnew⟩ := fetch_apart hsep hn
  exact ⟨(hold k 5 hk (by decide)).symm, (hnew k 5 hk (by decide)).symm⟩

include hn in
theorem Incoming.Separate.taskBytes_ne : n.addr + 5 ≠ oldTaskByte s := by
  obtain ⟨y, e, hf, he, -, hne⟩ := hsep.oldTask
  rw [he]
  exact fun h => hne (fetch_accessByte hsep hn hf (by decide) h).1.symm

/-- A byte of the outgoing task state segment is not among the others that the switch writes. -/
theorem Incoming.Separate.unwritten (hn : n.fetch s n.sel = some (n.addr, n.desc)) (mode : SwitchMode) {k : Nat} (hk : k < 44) :
    Unwritten s n.addr n.desc mode (s.tr.base + BitVec.ofNat 24 k) := by
  have hap := hsep.1
  refine ⟨fun _ => ⟨?_, hap k 1 hk (by decide)⟩, fun _ => (hsep.oldTaskByte_ne hk).1.symm,
    fun _ => (hsep.newTaskByte_ne hn hk).1.symm⟩
  simpa using hap k 0 hk (by decide)

include hn in
theorem taskWritten_frame (hm : PlainMemory s) (mode : SwitchMode) (ret : Word) :
    TaskWritten s (taskWritten s n.addr n.desc mode ret) n mode ret := by
  obtain ⟨hsaved, hflags, hrest⟩ := saveTask_frame hm mode ret
  have hm1 := hm.saveTask mode ret
  have word {k : Nat} (hk : k < 43) : (taskWritten s n.addr n.desc mode ret).load16 (s.tr.base + BitVec.ofNat 24 k) =
      (saveTask s mode ret).load16 (s.tr.base + BitVec.ofNat 24 k) := by
    rw [State.load16, State.load16, add_ofNat_succ, load8_taskWritten _ _ _ _ hm (hsep.unwritten hn mode (by omega)),
      load8_taskWritten _ _ _ _ hm (hsep.unwritten hn mode (by omega))]
  have hold : (saveTask s mode ret).load8 (oldTaskByte s) = s.load8 (oldTaskByte s) :=
    hrest _ fun k _ hk => (hsep.oldTaskByte_ne (by omega)).1
  have hbusy : (saveTask s mode ret).load8 (n.addr + 5) = n.desc.ar := by
    rw [hrest _ fun k _ hk => (hsep.newTaskByte_ne hn (by omega)).1, (Incoming.fetch_eq_some hn).1, (descAt_fields s _).2.2]
  have hne := hsep.taskBytes_ne hn
  have hlink {p : Phys} (hp : ∀ {k}, k < 44 → p ≠ n.desc.base + BitVec.ofNat 24 k) : p ≠ n.desc.base ∧ p ≠ n.desc.base + 1 :=
    ⟨by simpa using hp (k := 0) (by decide), hp (k := 1) (by decide)⟩
  have hlinkOld := hlink fun hk => (hsep.oldTaskByte_ne hk).2
  have hlinkNew := hlink fun hk => (hsep.newTaskByte_ne hn hk).2
  exact
    { saved := fun e he => (word (savedWords_offset he)).trans (hsaved e he)
      flags := (congrArg Flags.ofWord (word (k := 16) (by decide))).trans hflags
      link := by
        rintro rfl
        obtain ⟨hlo, hhi, -⟩ := hm1.load8_store16 n.desc.base s.tr.sel
        rw [taskWritten_nest, markBusy, State.load16, State.load8_store8_ne _ _ hlinkNew.1.symm,
          State.load8_store8_ne _ _ hlinkNew.2.symm, hlo, hhi, wordOf_loByte_hiByte]
      busy := by
        cases mode with
        | jmp => rw [taskWritten_jmp, load8_markBusy _ _ hm1.markOldAvailable, if_neg (by decide)]
        | nest => rw [taskWritten_nest, load8_markBusy _ _ (hm1.store16 ..), if_neg (by decide)]
        | iret => rw [load8_taskWritten _ _ _ _ hm ⟨by simp, fun _ => hne, by simp⟩, hbusy, if_pos rfl]
      old := by
        cases mode with
        | jmp =>
          rw [taskWritten_jmp, markBusy, State.load8_store8_ne _ _ hne.symm, markOldAvailable_saveTask _ _ hm,
            State.load8_store8 _ _ _ _ hm1, if_pos rfl, hold, if_neg (by decide)]
        | nest => rw [load8_taskWritten _ _ _ _ hm ⟨fun _ => hlinkOld, by simp, fun _ => hne.symm⟩, hold, if_pos rfl]
        | iret =>
          rw [taskWritten_iret, markOldAvailable_saveTask _ _ hm, State.load8_store8 _ _ _ _ hm1, if_pos rfl, hold,
            if_neg (by decide)]
      rest := fun p ht hlink hbusy hold =>
        (load8_taskWritten _ _ _ _ hm ⟨hlink, fun _ => hold, fun _ => hbusy⟩).trans (hrest p ht) }

end

end Sys2Proof.Machine
end

section
/-! PROOFS. A task switch that passes its checks (45_protected_transfer.md R440): the registers of the incoming image, then
LDTR and the segment registers one after the other, each with its descriptor. -/

namespace Sys2Proof.Machine

/-! ### The new task's registers -/

/-- A fetch in another state that has the same tables finds the descriptor where the first one found it. -/
theorem fetchDescriptor_moved {s t : State} {sel : Word} {x : Phys} {d : Desc} (hg : t.gdtr = s.gdtr)
    (hl : selLocal sel = true → t.ldtr = s.ldtr) (h : fetchDescriptor s sel = some (x, d)) :
    fetchDescriptor t sel = some (x, descAt t x) := by
  have hx := (fetchDescriptor_eq_some h).1
  have hin := (fetchDescriptor_ne_none_iff s sel).1 (by simp [h])
  have hbase : tableBase t sel = tableBase s sel := by
    unfold tableBase
    split
    · next hloc => rw [hl hloc]
    · rw [hg]
  have hlimit : tableLimit t sel = tableLimit s sel := by
    unfold tableLimit
    split
    · next hloc => rw [hl hloc]
    · rw [hg]
  have ht : InTable t sel := ⟨fun hloc => by rw [hl hloc]; exact hin.1 hloc, by rw [hlimit]; exact hin.2⟩
  rw [fetchDescriptor_inTable ht, descriptorAddress, hbase, hx, descriptorAddress]

/-- A task switch past its check of the limit: what it starts from, and memory when the new task is loaded. -/
structure Switching (s : State) (n : Incoming) (w : State) (mode : SwitchMode) (ret : Word) : Prop where
  separate : n.Separate s
  named : n.fetch s n.sel = some (n.addr, n.desc)
  task : n.desc.isType 1 = true ∨ n.desc.isType 3 = true
  written : TaskWritten s w n mode ret

section
variable {s w : State} {n : Incoming} {mode : SwitchMode} {ret : Word} (h : Switching s n w mode ret)
include h

/-- The descriptors that the new task's registers name are where they were. -/
theorem Switching.load8_entry {sel : Word} {x : Phys} {d : Desc} (hf : n.fetch s sel = some (x, d)) (h1 : d.isType 1 = false)
    (h3 : d.isType 3 = false) {j : Nat} (hj : j < 8) :
    w.load8 (x + BitVec.ofNat 24 j) = s.load8 (x + BitVec.ofNat 24 j) := by
  obtain ⟨hold, hnew⟩ := Incoming.fetch_apart h.separate hf
  refine h.written.rest _ (fun k _ hk => (hold k j (by omega) hj).symm)
    (fun _ => ⟨by simpa using (hnew 0 j (by decide) hj).symm, (hnew 1 j (by decide) hj).symm⟩) (fun he => ?_) (fun he => ?_)
  · obtain ⟨rfl, -⟩ := Incoming.fetch_accessByte h.separate hf h.named hj he
    rw [(Incoming.fetch_eq_some hf).1, ← (Incoming.fetch_eq_some h.named).1] at h1 h3
    rcases h.task with ht | ht
    · exact absurd ht (by simp [h1])
    · exact absurd ht (by simp [h3])
  · obtain ⟨y, e, hy, hO, ht, -⟩ := h.separate.oldTask
    obtain ⟨rfl, -⟩ := Incoming.fetch_accessByte h.separate hf hy hj (he.trans hO)
    rw [(Incoming.fetch_eq_some hf).1, ← (Incoming.fetch_eq_some hy).1] at h3
    exact absurd ht (by simp [h3])

/-- The words of the incoming image past the back link are what they were. -/
theorem Switching.load16_image {k : Nat} (hk : 2 ≤ k) (hk' : k < 43) :
    w.load16 (n.desc.base + BitVec.ofNat 24 k) = n.word s k := by
  have byte {i : Nat} (hi : 2 ≤ i) (hi' : i < 44) :
      w.load8 (n.desc.base + BitVec.ofNat 24 i) = s.load8 (n.desc.base + BitVec.ofNat 24 i) := by
    have hlink {j : Nat} (hj : j < 2) : n.desc.base + BitVec.ofNat 24 i ≠ n.desc.base + BitVec.ofNat 24 j :=
      add_ofNat_ne _ (by omega) (by omega) (by omega)
    exact h.written.rest _ (fun k _ hk => (h.separate.1 k i (by omega) hi').symm)
      (fun _ => ⟨by simpa using hlink (j := 0) (by decide), hlink (j := 1) (by decide)⟩)
      (h.separate.newTaskByte_ne h.named hi').2.symm (h.separate.oldTaskByte_ne hi').2.symm
  rw [Incoming.word, State.load16, State.load16, add_ofNat_succ, byte hk (by omega), byte (by omega) (by omega)]

end

/-- The state of the new task before its descriptors are loaded, but for memory (R440 steps 7 and 8). -/
def newTask (s : State) (n : Incoming) (mode : SwitchMode) : State :=
  let w := n.word s
  { s with
    ip := w 14
    flags := if mode = .nest then { Flags.ofWord (w 16) with nt := true } else Flags.ofWord (w 16)
    regs := { ax := w 18, cx := w 20, dx := w 22, bx := w 24, sp := w 26, bp := w 28, si := w 30, di := w 32 }
    es := { s.es with sel := w 34, valid := false }
    cs := { s.cs with sel := w 36, valid := false }
    ss := { s.ss with sel := w 38, valid := false }
    ds := { s.ds with sel := w 40, valid := false }
    ldtr := { s.ldtr with sel := w 42, valid := false }
    tr := { sel := n.sel, base := n.desc.base, limit := n.desc.limit }
    msw := { s.msw with ts := true } }

/-- The registers are those of the image, as memory held it before the switch. -/
theorem onlyMemory_commitSwitch {s : State} {n : Incoming} (hm : PlainMemory s) {mode : SwitchMode} {ret : Word}
    (h : Switching s n (taskWritten s n.addr n.desc mode ret) mode ret) :
    OnlyMemory (newTask s n mode) (commitSwitch s n.sel n.addr n.desc mode ret) := by
  have hw := OnlyMemory.taskWritten n.addr n.desc mode ret s
  have hplain := hm.taskWritten n.addr n.desc mode ret
  rw [commitSwitch_eq]
  generalize taskWritten s n.addr n.desc mode ret = w at h hw hplain ⊢
  have hword {k : Nat} (hk : 2 ≤ k) (hk' : k < 43) :
      tssWord (({ w with tr := ⟨n.sel, n.desc.base, n.desc.limit⟩, msw := { w.msw with ts := true } } : State).later .newTask)
        n.desc.base k = n.word s k :=
    ((hplain.congr rfl rfl : PlainMemory _).steady.load16_later _ _).trans (h.load16_image hk hk')
  simp (disch := decide) only [loadTask, tssLayout, hword]
  rw [hw]
  rfl

theorem commitSwitch_memory (s : State) (tsel : Word) (a : Phys) (t : Desc) (mode : SwitchMode) (ret : Word) :
    (commitSwitch s tsel a t mode ret).mem = (taskWritten s a t mode ret).mem ∧
      (commitSwitch s tsel a t mode ret).memMap = (taskWritten s a t mode ret).memMap := by
  rw [commitSwitch_eq]
  exact ⟨rfl, rfl⟩

/-! ### Loading the descriptors -/

theorem OnlyMemory.setSeg {b u : State} (h : OnlyMemory b u) (x : SReg) (g : SegReg) :
    OnlyMemory (b.setSeg x g) (u.setSeg x g) := by
  cases x
  · exact congrArg (fun t : State => { t with es := g }) h
  · exact congrArg (fun t : State => { t with cs := g }) h
  · exact congrArg (fun t : State => { t with ss := g }) h
  · exact congrArg (fun t : State => { t with ds := g }) h

theorem OnlyMemory.setLdtr {b u : State} (h : OnlyMemory b u) (g : Ldtr) :
    OnlyMemory { b with ldtr := g } { u with ldtr := g } := by
  have he := congrArg (fun t : State => { t with ldtr := g }) h
  exact he

theorem OnlyMemory.sameSystem {b u : State} (h : OnlyMemory b u) : SameSystem b u := by
  rw [h]
  constructor <;> rfl

theorem OnlyMemory.seg {b u : State} (h : OnlyMemory b u) (x : SReg) : u.seg x = b.seg x := by
  rw [h]
  rfl

theorem OnlyMemory.cpl {b u : State} (h : OnlyMemory b u) : u.cpl = b.cpl := by
  rw [h]
  rfl

/-- The descriptors `l` have been loaded in the new task, and `b` is its state but for memory. -/
structure Loading (s : State) (n : Incoming) (w b u : State) (l : List (Phys × Desc)) : Prop where
  only : OnlyMemory b u
  gdtr : b.gdtr = s.gdtr
  ldtr : b.ldtr = n.ldtr
  plain : PlainMemory u
  named : ∀ p ∈ l, arS p.2.ar = true ∧ ∃ sel, n.fetch s sel = some p
  accessed : ∀ p ∈ l, u.load8 (p.1 + 5) = p.2.ar ||| 1
  rest : ∀ q, (∀ p ∈ l, q ≠ p.1 + 5) → u.load8 q = w.load8 q

theorem Desc.isType_of_arS {d : Desc} (h : arS d.ar = true) (t : Nat) : d.isType t = false := by simp [Desc.isType, h]

section
variable {s w b u : State} {n : Incoming} {mode : SwitchMode} {ret : Word} {l : List (Phys × Desc)} {sel : Word} {x : Phys}
  {d : Desc} (hw : Switching s n w mode ret) (h : Loading s n w b u l) (hf : n.fetch s sel = some (x, d))
  (hS : arS d.ar = true)
include h hf

/-- A loaded descriptor with the same access byte is the same one. -/
theorem Loading.eq_of_accessByte (hw : Switching s n w mode ret) {p : Phys × Desc} (hp : p ∈ l) {j : Nat} (hj : j < 8)
    (he : x + BitVec.ofNat 24 j = p.1 + 5) : j = 5 ∧ p = (x, d) := by
  obtain ⟨-, sel', hf'⟩ := h.named p hp
  obtain ⟨rfl, rfl⟩ := Incoming.fetch_accessByte hw.separate hf hf' hj he
  exact ⟨rfl, Prod.ext rfl ((Incoming.fetch_eq_some hf').1.trans (Incoming.fetch_eq_some hf).1.symm)⟩

include hw hS

/-- The loads before have changed at most its accessed bit. -/
theorem Loading.descAt : d.SameSegment (descAt u x) := by
  have entry {j : Nat} (hj : j < 8) := hw.load8_entry hf (Desc.isType_of_arS hS 1) (Desc.isType_of_arS hS 3) hj
  rw [(Incoming.fetch_eq_some hf).1]
  refine descAt_sameSegment (fun j hj => ?_) ?_
  · rw [h.rest _ fun p hp he => ?_, entry (by omega)]
    have := (h.eq_of_accessByte hf hw hp (by omega) he).1
    omega
  · by_cases hp : (x, d) ∈ l
    · rw [h.accessed _ hp, (Incoming.fetch_eq_some hf).1, (descAt_fields s x).2.2, BitVec.or_assoc, BitVec.or_self]
    · have hkept : u.load8 (x + 5) = w.load8 (x + 5) :=
        h.rest _ fun p hp' he => hp ((h.eq_of_accessByte hf hw hp' (j := 5) (by decide) he).2 ▸ hp')
      rw [hkept]
      exact congrArg (· ||| 1) (entry (j := 5) (by decide))

omit hw hS in
theorem Loading.fetch : fetchDescriptor u sel = some (x, Machine.descAt u x) :=
  fetchDescriptor_moved (s := { s with ldtr := n.ldtr }) (by rw [h.only, ← h.gdtr]) (fun _ => by rw [h.only, ← h.ldtr]) hf

/-- The next descriptor is loaded. -/
theorem Loading.loadCache (r : SReg) (sel' : Word) :
    Loading s n w (b.setSeg r (segmentCache sel' d)) (loadCache u r sel' (x, Machine.descAt u x)) ((x, d) :: l) := by
  have hseg := h.descAt hw hf hS
  obtain ⟨hset, hrest⟩ := h.plain.load8_setAccessed (descAt_fields u x).2.2.symm
  have hload := loadCache_load8 u r sel' (x, Machine.descAt u x)
  refine
    { only := ?_, gdtr := (State.setSeg_gdtr ..).trans h.gdtr, ldtr := (State.setSeg_ldtr ..).trans h.ldtr
      plain := (h.plain.setAccessed x (Machine.descAt u x)).congr (State.setSeg_mem ..) (State.setSeg_memMap ..)
      named := ?_, accessed := ?_, rest := fun q hq => ?_ }
  · rw [← hseg.segmentCache]
    exact (h.only.trans (.setAccessed ..)).setSeg r _
  · exact List.forall_mem_cons.2 ⟨⟨hS, sel, hf⟩, h.named⟩
  · refine List.forall_mem_cons.2 ⟨by rw [hload, hset, hseg.ar], fun p hp => ?_⟩
    rw [hload]
    by_cases he : x + 5 = p.1 + 5
    · rw [← he, hset, hseg.ar, (h.eq_of_accessByte hf hw hp (j := 5) (by decide) he).2]
    · rw [hrest _ (Ne.symm he), h.accessed p hp]
  · rw [hload, hrest q (hq _ List.mem_cons_self), h.rest q fun p hp => hq p (List.mem_cons_of_mem _ hp)]

end

/-! ### The checks of the new task -/

section
variable {u : State} (hs : Steady u) (ext : Bool) {x : Phys} {d : Desc}
include hs

/-- Step 9 of R440 where the LDT is one. -/
theorem switchLdt_ok (hn : 4 ≤ u.ldtr.sel.toNat) (hl : selLocal u.ldtr.sel = false)
    (hf : fetchDescriptor u u.ldtr.sel = some (x, d)) (ht : d.isType 2 = true) (hP : arP d.ar = true) :
    switchLdt u ext = .ok { u with ldtr := { sel := u.ldtr.sel, base := d.base, limit := d.limit, valid := true } } := by
  rw [switchLdt, selNull_eq_false hn, if_neg Bool.false_ne_true, hs.needDescriptor_some _ hf, hl]
  simp only [ht, hP, Bool.not_false, Bool.and_self, need_true, ok_bind']
  rfl

/-- Step 10. -/
theorem switchCs_ok (hn : 4 ≤ u.cs.sel.toNat) (hf : fetchDescriptor u u.cs.sel = some (x, d)) (hc : arCode d.ar = true)
    (hP : arP d.ar = true) (hlevel : if arC d.ar = true then arDpl d.ar ≤ rpl u.cs.sel else arDpl d.ar = rpl u.cs.sel) :
    switchCs u ext = .ok (loadCache u .cs u.cs.sel (x, d)) := by
  have hd : (if arC d.ar = true then decide (arDpl d.ar ≤ rpl u.cs.sel) else decide (arDpl d.ar = rpl u.cs.sel)) = true := by
    split at hlevel <;> simp [*]
  rw [switchCs, selNull_eq_false hn, hs.needDescriptor_some _ hf]
  simp only [hc, hP, hd, Bool.not_false, need_true, ok_bind']
  rfl

/-- Step 11. -/
theorem switchSs_ok (hn : 4 ≤ u.ss.sel.toNat) (hf : fetchDescriptor u u.ss.sel = some (x, d)) (hw : arWritable d.ar = true)
    (hP : arP d.ar = true) (hr : rpl u.ss.sel = u.cpl) (hd : arDpl d.ar = u.cpl) :
    switchSs u ext = .ok (loadCache u .ss u.ss.sel (x, d)) := by
  rw [switchSs, selNull_eq_false hn, hs.needDescriptor_some _ hf]
  simp only [hw, hP, hr, hd, Bool.not_false, decide_true, Bool.and_self, need_true, ok_bind']
  rfl

/-- Step 12. -/
theorem switchData_ok (r : SReg) (hn : 4 ≤ (u.seg r).sel.toNat) (hf : fetchDescriptor u (u.seg r).sel = some (x, d))
    (hread : arReadable d.ar = true) (hP : arP d.ar = true)
    (hpriv : (arE d.ar = true ∧ arC d.ar = true) ∨ (u.cpl ≤ arDpl d.ar ∧ rpl (u.seg r).sel ≤ arDpl d.ar)) :
    switchData u r ext = .ok (loadCache u r (u.seg r).sel (x, d)) := by
  have hd : dataPrivOk u d.ar (u.seg r).sel = true := by simpa [dataPrivOk] using hpriv
  rw [switchData, selNull_eq_false hn, if_neg Bool.false_ne_true, hs.needDescriptor_some _ hf]
  simp only [hread, hP, hd, need_true, ok_bind']
  rfl

end

theorem arS_of_arCode {ar : Byte} (h : arCode ar = true) : arS ar = true := (Bool.and_eq_true _ _ ▸ h : _ ∧ _).1

theorem arS_of_arReadable {ar : Byte} (h : arReadable ar = true) : arS ar = true := (Bool.and_eq_true _ _ ▸ h : _ ∧ _).1

theorem arS_of_arWritable {ar : Byte} (h : arWritable ar = true) : arS ar = true := by
  rw [arWritable, Bool.and_assoc, Bool.and_eq_true] at h
  exact h.1

section
variable {s w b u : State} {n : Incoming} {mode : SwitchMode} {ret : Word} {l : List (Phys × Desc)}
  (hw : Switching s n w mode ret) (h : Loading s n w b u l) (ext : Bool) {sel : Word} {x : Phys} {d : Desc}
include hw h

theorem Loading.switchCs (hb : b.cs.sel = sel) (hn : 4 ≤ sel.toNat) (hf : n.fetch s sel = some (x, d))
    (hc : arCode d.ar = true) (hP : arP d.ar = true)
    (hlevel : if arC d.ar = true then arDpl d.ar ≤ rpl sel else arDpl d.ar = rpl sel) :
    ∃ u', switchCs u ext = .ok u' ∧ Loading s n w (b.setSeg .cs (segmentCache sel d)) u' ((x, d) :: l) := by
  have hS := arS_of_arCode hc
  have hseg := h.descAt hw hf hS
  have hu : u.cs.sel = sel := (congrArg SegReg.sel (h.only.seg .cs)).trans hb
  subst hu
  refine ⟨_, switchCs_ok h.plain.steady ext hn (h.fetch hf) ?_ ?_ ?_, h.loadCache hw hf hS .cs _⟩
  · rw [hseg.rights arCode_accessed, hc]
  · rw [hseg.rights arP_accessed, hP]
  · rwa [hseg.rights arC_accessed, hseg.rights arDpl_accessed]

theorem Loading.switchSs (hb : b.ss.sel = sel) (hn : 4 ≤ sel.toNat) (hf : n.fetch s sel = some (x, d))
    (hwr : arWritable d.ar = true) (hP : arP d.ar = true) (hr : rpl sel = b.cpl) (hd : arDpl d.ar = b.cpl) :
    ∃ u', switchSs u ext = .ok u' ∧ Loading s n w (b.setSeg .ss (segmentCache sel d)) u' ((x, d) :: l) := by
  have hS := arS_of_arWritable hwr
  have hseg := h.descAt hw hf hS
  have hu : u.ss.sel = sel := (congrArg SegReg.sel (h.only.seg .ss)).trans hb
  rw [← h.only.cpl] at hr hd
  subst hu
  refine ⟨_, switchSs_ok h.plain.steady ext hn (h.fetch hf) ?_ ?_ hr ?_, h.loadCache hw hf hS .ss _⟩
  · rw [hseg.rights arWritable_accessed, hwr]
  · rw [hseg.rights arP_accessed, hP]
  · rw [hseg.rights arDpl_accessed, hd]

theorem Loading.switchData (r : SReg) {g : SegReg} {p : Nat} {o : Option (Phys × Desc)}
    (hb : b.seg r = { g with sel := sel, valid := false }) (hp : b.cpl = p) (ho : n.DataOk s p sel o) :
    ∃ u', switchData u r ext = .ok u' ∧ Loading s n w (b.setSeg r (switchedData g sel o)) u' (o.toList ++ l) := by
  have hu : u.seg r = { g with sel := sel, valid := false } := (h.only.seg r).trans hb
  rcases ho with ⟨hn, rfl⟩ | ⟨hn, x, d, rfl, hf, hread, hP, hpriv⟩
  · refine ⟨u, ?_, ?_⟩
    · rw [Machine.switchData, hu, selNull_eq_true hn, if_pos rfl]
    · rw [switchedData, ← hb, State.setSeg_seg]
      exact h
  · have hS := arS_of_arReadable hread
    have hseg := h.descAt hw hf hS
    have hsel : (u.seg r).sel = sel := congrArg SegReg.sel hu
    rw [← hp, ← h.only.cpl] at hpriv
    subst hsel
    refine ⟨_, switchData_ok h.plain.steady ext r hn (h.fetch hf) ?_ ?_ ?_, h.loadCache hw hf hS r _⟩
    · rw [hseg.rights arReadable_accessed, hread]
    · rw [hseg.rights arP_accessed, hP]
    · rwa [hseg.rights arE_accessed, hseg.rights arC_accessed, hseg.rights arDpl_accessed]

end

/-! ### The whole switch -/

section
variable {s w c : State} {n : Incoming} {mode : SwitchMode} {ret : Word} (hw : Switching s n w mode ret)
include hw

/-- The LDT of the new task is loaded, the first of its descriptors. -/
theorem Switching.switchLdt (hc : OnlyMemory (newTask s n mode) c) (hm : PlainMemory c) (hmem : ∀ q, c.load8 q = w.load8 q)
    (ext : Bool) (hl : n.LdtOk s) :
    ∃ u, switchLdt c ext = .ok u ∧ Loading s n w { newTask s n mode with ldtr := n.ldtr } u [] := by
  have hsel : c.ldtr.sel = n.word s 42 := by
    rw [hc]
    rfl
  have hloading {u : State} (hu : u = { c with ldtr := n.ldtr }) :
      Loading s n w { newTask s n mode with ldtr := n.ldtr } u [] := by
    subst hu
    exact
      { only := hc.setLdtr _
        gdtr := rfl
        ldtr := rfl
        plain := hm.congr rfl rfl
        named := by simp
        accessed := by simp
        rest := fun q _ => hmem q }
  rcases hl with ⟨hnull, hldtr⟩ | ⟨hn, hloc, a, d, hf, ht, hP, hldtr⟩
  · refine ⟨c, ?_, hloading ?_⟩
    · rw [Machine.switchLdt, hsel, selNull_eq_true hnull, if_pos rfl]
    · have hc' : c.ldtr = n.ldtr := by
        rw [hc, hldtr]
        rfl
      rw [← hc']
  · have hd : descAt c a = d := by
      rw [(fetchDescriptor_eq_some hf).2]
      refine descAt_congr fun j hj => (hmem _).trans ?_
      exact hw.load8_entry ((n.fetch_global s hloc).trans hf) (Desc.isType_ne ht (by decide)) (Desc.isType_ne ht (by decide))
        (by omega)
    have hfetch : fetchDescriptor c (n.word s 42) = some (a, d) := by
      rw [← hd]
      exact fetchDescriptor_moved (by rw [hc]; rfl) (by simp [hloc]) hf
    rw [← hsel] at hn hloc hfetch
    refine ⟨_, switchLdt_ok hm.steady ext hn hloc hfetch ht hP, hloading ?_⟩
    rw [hldtr, hsel]

/-- Memory after the switch, from what the outgoing task and the loads have written. -/
theorem Loading.switchedMemory {b u : State} {l : List (Phys × Desc)} (h : Loading s n w b u l)
    (hl : ∀ x, x ∈ l ↔ x = n.cs ∨ x = n.ss ∨ n.ds = some x ∨ n.es = some x) : SwitchedMemory s u n mode ret := by
  obtain ⟨hsaved, hflags, hlink, hbusy, hold, hrest⟩ := hw.written
  have htss {p : Phys × Desc} (hp : p ∈ l) {k : Nat} (hk : k < 44) :
      s.tr.base + BitVec.ofNat 24 k ≠ p.1 + 5 ∧ n.desc.base + BitVec.ofNat 24 k ≠ p.1 + 5 := by
    obtain ⟨-, sel, hf⟩ := h.named p hp
    obtain ⟨ho, hn⟩ := Incoming.fetch_apart hw.separate hf
    exact ⟨ho k 5 hk (by decide), hn k 5 hk (by decide)⟩
  have hsystem {p : Phys × Desc} (hp : p ∈ l) {sel : Word} {y : Phys} {e : Desc} (he : n.fetch s sel = some (y, e)) {t : Nat}
      (ht : e.isType t = true) : y + 5 ≠ p.1 + 5 := by
    intro hy
    obtain ⟨hS, -⟩ := h.named p hp
    rw [(h.eq_of_accessByte he hw hp (j := 5) (by decide) hy).2, ((Desc.isType_iff e t).1 ht).1] at hS
    cases hS
  have word {k : Nat} (hk : k < 43) : u.load16 (s.tr.base + BitVec.ofNat 24 k) = w.load16 (s.tr.base + BitVec.ofNat 24 k) := by
    rw [State.load16, State.load16, add_ofNat_succ, h.rest _ fun p hp => (htss hp (by omega)).1,
      h.rest _ fun p hp => (htss hp (by omega)).1]
  refine ⟨fun e he => (word (savedWords_offset he)).trans (hsaved e he), ?_, fun hm => ?_, ?_, ?_,
    h.accessed _ ((hl _).2 (.inl rfl)), h.accessed _ ((hl _).2 (.inr (.inl rfl))),
    fun x hx => h.accessed x ((hl x).2 (.inr (.inr hx))), fun p ht hb ha ho hcs hss hds => ?_⟩
  · exact (congrArg Flags.ofWord (word (k := 16) (by decide))).trans hflags
  · have hlo : u.load8 n.desc.base = w.load8 n.desc.base :=
      h.rest _ fun p hp => by simpa using (htss hp (k := 0) (by decide)).2
    have hhi : u.load8 (n.desc.base + 1) = w.load8 (n.desc.base + 1) := h.rest _ fun p hp => (htss hp (k := 1) (by decide)).2
    rw [← hlink hm, State.load16, State.load16, hlo, hhi]
  · rw [← hbusy]
    refine h.rest _ fun p hp => ?_
    rcases hw.task with ht | ht <;> exact hsystem hp hw.named ht
  · obtain ⟨y, e, hf, he, ht, -⟩ := hw.separate.oldTask
    rw [← hold, he]
    exact h.rest _ fun p hp => hsystem hp hf ht
  · rw [h.rest p fun x hx => ?_, hrest p ht hb ha ho]
    rcases (hl x).1 hx with rfl | rfl | hx
    exacts [hcs, hss, hds x hx]

end

/-- A switch to a task that passes its checks succeeds, and exchanges the tasks. -/
theorem switchTasks_ok {s : State} {n : Incoming} (hm : PlainMemory s) (hp : s.msw.pe = true) (mode : SwitchMode) (ret : Word)
    (ext : Bool) (hloc : selLocal n.sel = false) (hf : fetchDescriptor s n.sel = some (n.addr, n.desc))
    (ht : n.desc.isType 1 = true ∨ n.desc.isType 3 = true) (hload : n.Loadable s) (hsep : n.Separate s) :
    ∃ u, switchTasks s n.sel n.addr n.desc mode ret ext = .ok u ∧ TaskSwitched s u n mode ret ∧
      u.nmiInService = s.nmiInService ∧ PlainMemory u := by
  have hnamed := (n.fetch_global s hloc).trans hf
  have hw : Switching s n (taskWritten s n.addr n.desc mode ret) mode ret :=
    ⟨hsep, hnamed, ht, taskWritten_frame hsep hnamed hm mode ret⟩
  obtain ⟨hlimit, hldt, ⟨hncs, hfcs, hcode, hPcs, hlevel⟩, ⟨hnss, hfss, hwr, hPss, hrss, hdss⟩, hds, hes⟩ := hload
  obtain ⟨hmem, hmap⟩ := commitSwitch_memory s n.sel n.addr n.desc mode ret
  have hplain := hm.taskWritten n.addr n.desc mode ret
  have hc := onlyMemory_commitSwitch hm hw
  obtain ⟨u1, e1, h1⟩ := hw.switchLdt hc (hplain.congr hmem hmap) (hplain.steady.load8_congr hmem hmap) ext hldt
  obtain ⟨u2, e2, h2⟩ := h1.switchCs hw ext rfl hncs hfcs hcode hPcs hlevel
  have hcpl (b : State) (hb : b.msw = { s.msw with ts := true }) (hs : b.cs.sel = n.word s 36) : b.cpl = rpl (n.word s 36) := by
    rw [State.cpl, hb, hs, if_pos hp]
  obtain ⟨u3, e3, h3⟩ := h2.switchSs hw ext rfl hnss hfss hwr hPss (hrss.trans (hcpl _ rfl rfl).symm)
    (hdss.trans (hcpl _ rfl rfl).symm)
  obtain ⟨u4, e4, h4⟩ := h3.switchData hw ext .ds (g := s.ds) rfl (hcpl _ rfl rfl) hds
  obtain ⟨u5, e5, h5⟩ := h4.switchData hw ext .es (g := s.es) rfl (hcpl _ rfl rfl) hes
  have hrun : switchTasks s n.sel n.addr n.desc mode ret ext = .ok u5.flush := by
    simp only [switchTasks, hlimit, decide_true, need_true, ok_bind', e1, e2, e3, e4, e5, inTask]
    rfl
  have hmemory := h5.switchedMemory hw fun x => by
    simp only [List.mem_append, List.mem_cons, Option.mem_toList, List.not_mem_nil, or_false]
    tauto
  have honly := h5.only
  have hnmi : u5.nmiInService = s.nmiInService := honly.sameSystem.nmiInService
  refine ⟨_, hrun, ⟨congrArg State.ip honly, congrArg State.flags honly, congrArg State.regs honly, congrArg State.cs honly,
    congrArg State.ss honly, congrArg State.ds honly, congrArg State.es honly, hmemory, ?_⟩, hnmi,
    h5.plain.congr rfl rfl⟩
  exact { honly.sameSystem with es := rfl, cs := rfl, ss := rfl, ds := rfl, nmiInService := rfl }

end Sys2Proof.Machine
end

section
/-! PROOFS. Who asks for a task switch (45_protected_transfer.md R430, R431, R442; 60_exceptions.md R564): JMP and CALL, IRET and
a task gate of the IDT name a task state segment with the same checks, and the switch ends with the test of the new IP. -/

namespace Sys2Proof.Machine

/-! ### The task state segment that is named -/

/-- The checks on the selector of a task state segment of type `t`; all but the last fail alike. -/
def namedTask (s : State) (sel : Word) (t : Nat) (bad : Stop) : M (Phys × Desc) := do
  need (!selNull sel && !selLocal sel) bad
  let d ← needDescriptor (s.later .target) sel bad
  need (d.2.isType t) bad
  need (arP d.2.ar) (notPresent (selCode sel false))
  pure d

theorem throughTaskGate_eq (s : State) (g : Desc) (mode : SwitchMode) :
    throughTaskGate s g mode =
      namedTask s g.selector 1 (protection (selCode g.selector false)) >>= fun p => switchTo s g.selector p mode := by
  simp only [throughTaskGate, namedTask, switchTo, bind_assoc, pure_bind]

theorem iretTask_eq (s : State) :
    iretTask s =
      namedTask s (s.load16 s.tr.base) 3 (invalidTss (selCode (s.load16 s.tr.base) false)) >>= fun p =>
        switchTo s (s.load16 s.tr.base) p .iret := by
  have hlink : tssWord s s.tr.base tssLayout.backLink = s.load16 s.tr.base := congrArg s.load16 (BitVec.add_zero _)
  simp only [iretTask, hlink, namedTask, switchTo, bind_assoc, pure_bind]

section
variable {s : State} (hs : Steady s) {sel : Word} {t : Nat} (bad : Stop)

include hs in
theorem namedTask_ok {a : Phys} {d : Desc} (hn : 4 ≤ sel.toNat) (hl : selLocal sel = false)
    (hf : fetchDescriptor s sel = some (a, d)) (ht : d.isType t = true) (hP : arP d.ar = true) :
    namedTask s sel t bad = .ok (a, d) := by
  rw [namedTask, selNull_eq_false hn, hl, hs.needDescriptor_some _ hf]
  simp only [ht, hP, Bool.not_false, Bool.and_self, need_true, ok_bind']
  rfl

theorem namedTask_noSelector (h : sel.toNat < 4 ∨ selLocal sel = true) : namedTask s sel t bad = .error bad := by
  have hbad : (!selNull sel && !selLocal sel) = false := by
    rcases h with h | h
    · rw [selNull_eq_true h, Bool.not_true, Bool.false_and]
    · rw [h, Bool.not_true, Bool.and_false]
  rw [namedTask, hbad]
  rfl

include hs

theorem namedTask_noDescriptor (hf : fetchDescriptor s sel = none) : namedTask s sel t bad = .error bad := by
  by_cases h : sel.toNat < 4 ∨ selLocal sel = true
  · exact namedTask_noSelector bad h
  · obtain ⟨hn, hl⟩ := not_or.1 h
    rw [namedTask, selNull_eq_false (Nat.le_of_not_lt hn), Bool.eq_false_iff.2 hl, hs.needDescriptor_none _ hf]
    rfl

variable {a : Phys} {d : Desc} (hn : 4 ≤ sel.toNat) (hl : selLocal sel = false) (hf : fetchDescriptor s sel = some (a, d))
include hn hl hf

theorem namedTask_otherType (ht : d.isType t = false) : namedTask s sel t bad = .error bad := by
  rw [namedTask, selNull_eq_false hn, hl, hs.needDescriptor_some _ hf]
  simp only [ht, Bool.not_false, Bool.and_self, need_true, ok_bind']
  rfl

theorem namedTask_notPresent (ht : d.isType t = true) (hP : arP d.ar = false) :
    namedTask s sel t bad = .error (notPresent (sel &&& 0xFFFC)) := by
  rw [namedTask, selNull_eq_false hn, hl, hs.needDescriptor_some _ hf]
  simp only [ht, hP, Bool.not_false, Bool.and_self, need_true, ok_bind', selCode_false]
  rfl

end

/-! ### The switch with its last check -/

theorem switchTo_short (s : State) (sel : Word) {p : Phys × Desc} (mode : SwitchMode) (h : p.2.limit.toNat < 0x2B) :
    switchTo s sel p mode = .error (invalidTss (sel &&& 0xFFFC)) := by
  have hlimit : decide (0x2B ≤ p.2.limit.toNat) = false := decide_eq_false (Nat.not_le_of_lt h)
  rw [switchTo, switchTasks, hlimit, selCode_false]
  rfl

/-- The new task's IP is tested against its code segment, with its own state as the one the exception finds (R440 step 13,
R448). -/
theorem inTask_checkIp {s u : State} {n : Incoming} {mode : SwitchMode} {ret : Word} (h : TaskSwitched s u n mode ret) :
    ((n.word s 14).toNat ≤ n.cs.2.limit.toNat → inTask u (checkIp u) = .ok u) ∧
      (n.cs.2.limit.toNat < (n.word s 14).toNat → inTask u (checkIp u) = .error (.excIn (.exn 13 (some 0)) u u.ip)) := by
  obtain ⟨hip, -, -, hcs, -⟩ := h
  have hlimit : u.cs.limit = n.cs.2.limit := congrArg SegReg.limit hcs
  rw [checkIp, hip, hlimit]
  refine ⟨fun h => ?_, fun h => ?_⟩
  · rw [decide_eq_true h]
    rfl
  · rw [decide_eq_false (Nat.not_le_of_lt h), need_false, error_bind', ← hip]
    rfl

/-- IRET opens NMI again once the switch has been made (60_exceptions.md R566). -/
def taskResumed (mode : SwitchMode) (u : State) : State := if mode = .iret then { u with nmiInService := false } else u

section
variable {s : State}

theorem exec_iretTask (hp : s.msw.pe = true) (hnt : s.flags.nt = true) :
    exec .iret s = finish s (iretTask s >>= fun u => .ok (taskResumed .iret u)) := by
  rw [exec, execIret, returnFromInterrupt, hp, Bool.not_true, if_neg Bool.false_ne_true, if_pos hnt]
  rfl

/-- What asks for the switch is the switch to the task that it names. -/
theorem exec_asksForTask {i : Instr} {mode : SwitchMode} {n : Incoming} (hs : Steady s) (hp : s.msw.pe = true)
    (h : AsksForTask s i mode n) :
    exec i s = finish s (switchTo s n.sel (n.addr, n.desc) mode >>= fun u => .ok (taskResumed mode u)) := by
  obtain ⟨hn, hl, hf, hP, ⟨rfl, rfl, hnt, hlink, ht⟩ |
    ⟨ht, call, sel, off, Ready, hi, hr, rfl, hsel, a, g, hg, hc, hrpl, hgP, hto⟩⟩ := h
  · rw [exec_iretTask hp hnt, iretTask_eq, ← hlink, namedTask_ok hs _ hn hl hf ht hP, ok_bind']
  have hresumed : (fun u : State => (Except.ok (taskResumed (if call then .nest else .jmp) u) : M State)) = pure := by
    cases call <;> rfl
  rw [hresumed, bind_pure, exec_farTransfer hi hr hp]
  rcases hto with rfl | ⟨hg5, hgsel⟩
  · obtain ⟨rfl, rfl⟩ : n.addr = a ∧ n.desc = g := by simpa [hf] using hg
    rw [farTransfer_task hs hsel hf ht hl, gateVisible_passed hc hrpl hP]
    rfl
  · rw [farTransfer_taskGate hs hsel hg hg5, gateVisible_passed hc hrpl hgP, ok_bind', throughTaskGate_eq, hgsel,
      namedTask_ok hs _ hn hl hf ht hP]
    rfl

/-- The switches of JMP, CALL and IRET. -/
theorem exec_switchesTask {i : Instr} {mode : SwitchMode} {n : Incoming} (hp : s.msw.pe = true) (hm : PlainMemory s)
    (h : AsksForTask s i mode n) (hload : n.Loadable s) (hsep : n.Separate s) :
    ∃ u, TaskSwitched s u n mode s.ip ∧ u.nmiInService = s.nmiInService ∧
      ((n.word s 14).toNat ≤ n.cs.2.limit.toNat → exec i s = .next (taskResumed mode u)) ∧
      (n.cs.2.limit.toNat < (n.word s 14).toNat → exec i s = .next (deliver u (.exn 13 (some 0)) u.ip u.ip)) := by
  have hexec := exec_asksForTask hm.steady hp h
  obtain ⟨-, hl, hf, -, hwhich⟩ := h
  have ht : n.desc.isType 1 = true ∨ n.desc.isType 3 = true := by
    rcases hwhich with ⟨-, -, -, -, ht⟩ | ⟨ht, -⟩
    exacts [.inr ht, .inl ht]
  obtain ⟨u, hrun, hu, hnmi, -⟩ := switchTasks_ok hm hp mode s.ip false hl hf ht hload hsep
  obtain ⟨hin, hout⟩ := inTask_checkIp hu
  rw [switchTo, hrun, ok_bind'] at hexec
  refine ⟨u, hu, hnmi, fun hip => ?_, fun hip => ?_⟩
  · rw [hexec, hin hip]
    rfl
  · rw [hexec, hout hip]
    rfl

/-! ### Checks that fail before the switch -/

theorem throughTaskGate_fault (hs : Steady s) {g : Desc} {v : Byte} {c : Word} (mode : SwitchMode)
    (h : TaskGateFault s g.selector false v c) : throughTaskGate s g mode = .error (.exc (.exn v (some c))) := by
  rw [throughTaskGate_eq, selCode_false]
  rcases h with ⟨h, rfl, rfl⟩ | ⟨a, d, hn, hl, hf, h⟩
  · have hbad : namedTask s g.selector 1 (protection (g.selector &&& 0xFFFC)) = .error (protection (g.selector &&& 0xFFFC)) := by
      rcases or_assoc.2 h with h | h
      · exact namedTask_noSelector _ h
      · exact namedTask_noDescriptor hs _ h
    rw [hbad]
    rfl
  rcases h with ⟨ht, rfl, rfl⟩ | ⟨ht, hP, rfl, rfl⟩ | ⟨ht, hP, hlim, rfl, rfl⟩
  · rw [namedTask_otherType hs _ hn hl hf ht]
    rfl
  · rw [namedTask_notPresent hs _ hn hl hf ht hP]
    rfl
  · rw [namedTask_ok hs _ hn hl hf ht hP, ok_bind', switchTo_short s _ mode hlim, if_neg Bool.false_ne_true]
    exact congrArg (fun c => Except.error (invalidTss c)) (BitVec.add_zero _).symm

/-- The back link of IRET names no busy task state segment that is long enough. -/
theorem iretTask_invalid (hs : Steady s)
    (h : (s.load16 s.tr.base).toNat < 4 ∨ selLocal (s.load16 s.tr.base) = true ∨
      fetchDescriptor s (s.load16 s.tr.base) = none ∨ ∃ a d, fetchDescriptor s (s.load16 s.tr.base) = some (a, d) ∧
        (d.isType 3 = false ∨ (d.isType 3 = true ∧ arP d.ar = true ∧ d.limit.toNat < 0x2B))) :
    iretTask s = .error (invalidTss (s.load16 s.tr.base &&& 0xFFFC)) := by
  rw [iretTask_eq, selCode_false]
  generalize s.load16 s.tr.base = sel at h ⊢
  by_cases hsel : sel.toNat < 4 ∨ selLocal sel = true
  · rw [namedTask_noSelector _ hsel, error_bind']
  rcases (or_assoc.2 h).resolve_left hsel with hf | ⟨a, d, hf, h⟩
  · rw [namedTask_noDescriptor hs _ hf, error_bind']
  obtain ⟨hn, hl⟩ := not_or.1 hsel
  have hn := Nat.le_of_not_lt hn
  have hl := Bool.eq_false_iff.2 hl
  rcases h with ht | ⟨ht, hP, hlim⟩
  · rw [namedTask_otherType hs _ hn hl hf ht, error_bind']
  · rw [namedTask_ok hs _ hn hl hf ht hP, ok_bind', switchTo_short s _ .iret hlim]

theorem iretTask_notPresent (hs : Steady s) {a : Phys} {d : Desc} (hn : 4 ≤ (s.load16 s.tr.base).toNat)
    (hl : selLocal (s.load16 s.tr.base) = false) (hf : fetchDescriptor s (s.load16 s.tr.base) = some (a, d))
    (ht : d.isType 3 = true) (hP : arP d.ar = false) :
    iretTask s = .error (notPresent (s.load16 s.tr.base &&& 0xFFFC)) := by
  rw [iretTask_eq, namedTask_notPresent hs _ hn hl hf ht hP, error_bind']

end

/-! ### A task gate of the IDT -/

section
variable {s : State}

theorem fetchDescriptor_deliveryBegun (hs : Steady s) (sel : Word) :
    fetchDescriptor (deliveryBegun s) sel = fetchDescriptor s sel :=
  hs.fetchDescriptor_later .delivery sel

theorem load8_deliveryBegun (hs : Steady s) (p : Phys) : (deliveryBegun s).load8 p = s.load8 p :=
  hs.load8_congr (t := deliveryBegun s) rfl rfl p

theorem Incoming.word_deliveryBegun (n : Incoming) (hs : Steady s) (k : Nat) : n.word (deliveryBegun s) k = n.word s k := by
  simp only [Incoming.word, State.load16, load8_deliveryBegun hs]

theorem Incoming.fetch_deliveryBegun (n : Incoming) (hs : Steady s) (sel : Word) :
    n.fetch (deliveryBegun s) sel = n.fetch s sel :=
  Steady.fetchDescriptor_later (s := { s with ldtr := n.ldtr }) hs .delivery sel

theorem Incoming.Loadable.deliveryBegun {n : Incoming} (hs : Steady s) (h : n.Loadable s) : n.Loadable (deliveryBegun s) := by
  simp only [Incoming.Loadable, Incoming.LdtOk, Incoming.DataOk, Incoming.word_deliveryBegun n hs,
    Incoming.fetch_deliveryBegun n hs, fetchDescriptor_deliveryBegun hs]
  exact h

theorem Incoming.Separate.deliveryBegun {n : Incoming} (hs : Steady s) (h : n.Separate s) : n.Separate (deliveryBegun s) := by
  unfold Incoming.Separate
  rw [fetchDescriptor_deliveryBegun hs]
  exact h

/-- The end of the delivery changes nothing of the switch that it made. -/
theorem TaskSwitched.delivered {u : State} {n : Incoming} {mode : SwitchMode} {ret : Word} (hs : Steady s)
    (hm : PlainMemory u) (h : TaskSwitched (deliveryBegun s) u n mode ret) :
    TaskSwitched { s with halted := false, cur := Cur.at s.cur.ip } (deliveryEnded s u) n mode ret := by
  have hbegun (p : Phys) : (deliveryBegun s).load8 p =
      ({ s with halted := false, cur := Cur.at s.cur.ip } : State).load8 p := load8_deliveryBegun hs p
  have hended (p : Phys) : (deliveryEnded s u).load8 p = u.load8 p := hm.steady.load8_congr (t := deliveryEnded s u) rfl rfl p
  simp only [TaskSwitched, SwitchedMemory, Incoming.word, State.load16, hbegun, hended] at h ⊢
  obtain ⟨hip, hflags, hregs, hcs, hss, hds, hes, hmem, hsys⟩ := h
  exact ⟨hip, hflags, hregs, hcs, hss, hds, hes, hmem, { hsys with }⟩

theorem deliver_protected (ev : Event) (ret atIp : Word) (hp : s.msw.pe = true) :
    deliver s ev ret atIp = deliveryEnded s (deliverProt (deliveryBegun s) ev ret atIp) :=
  congrArg (deliveryEnded s) (if_pos (c := (deliveryBegun s).msw.pe = true) hp)

/-- An event whose delivery succeeds. -/
theorem deliver_ok (hp : s.msw.pe = true) {ev : Event} {ret : Word} (atIp : Word) {t : State}
    (h : protEntry (deliveryBegun s) ev ret = .ok t) : deliver s ev ret atIp = deliveryEnded s t := by
  rw [deliver_protected ev ret atIp hp, deliverProt, deliverFirst, h]
  exact congrArg (deliveryEnded s) (ite_self t)

/-- The error code is pushed in the new task. -/
def pushErrorCode (u : State) (code : Option Word) : M State :=
  match code with
  | some c => push u c
  | none => .ok u

theorem taskEntry_eq (s : State) (ev : Event) (g : Desc) (ret : Word) :
    taskEntry s ev g ret =
      namedTask s g.selector 1 (protection (selCode g.selector false)) >>= fun p =>
        switchTasks s g.selector p.1 p.2 .nest ret ev.ext >>= fun u =>
          inTask u (pushErrorCode u ev.code) >>= fun t => inTask t (checkIp t) := by
  simp only [taskEntry, namedTask, bind_assoc, pure_bind]
  rfl

theorem protEntry_taskGate (hs : Steady s) {ev : Event} (ret : Word) (hg : GateUsable s ev)
    (ht : (idtGate s ev.vector).isType 5 = true) :
    protEntry (deliveryBegun s) ev ret = taskEntry (deliveryBegun s) ev (idtGate s ev.vector) ret := by
  obtain ⟨hlim, hP, hint⟩ := hg
  have hgate : descAt (deliveryBegun s) ((deliveryBegun s).idtr.base + BitVec.ofNat 24 (8 * ev.vector.toNat)) =
      idtGate s ev.vector := descAt_congr fun _ _ => load8_deliveryBegun hs _
  have hvisible : (!ev.isInt || decide ((deliveryBegun s).cpl ≤ arDpl (idtGate s ev.vector).ar)) = true := by
    cases hi : ev.isInt with
    | false => rfl
    | true => exact decide_eq_true (hint hi)
  have hlimit : decide (8 * ev.vector.toNat + 7 ≤ (deliveryBegun s).idtr.limit.toNat) = true := decide_eq_true hlim
  rw [protEntry, hgate]
  simp only [hlimit, ht, hP, hvisible, Bool.true_or, need_true, ok_bind', if_true]

theorem pushErrorCode_ok {u : State} (code : Option Word) (h : code.isSome = true → CanPush u 1) :
    pushErrorCode u code = .ok (pushCode u code) := by
  cases code with
  | none => rfl
  | some c => exact push_ok c (h rfl)

theorem pushCode_ip_cs (u : State) (code : Option Word) : (pushCode u code).ip = u.ip ∧ (pushCode u code).cs = u.cs := by
  cases code with
  | none => exact ⟨rfl, rfl⟩
  | some c => exact ⟨pushRaw_ip u c, pushRaw_cs u c⟩

theorem checkIp_ok {u : State} (h : u.ip.toNat ≤ u.cs.limit.toNat) : checkIp u = .ok u := by
  rw [checkIp, decide_eq_true h]
  rfl

theorem sameSystem_deliveryEnded (s u : State) : SameSystem u (deliveryEnded s u) := by constructor <;> rfl

theorem sameMemory_deliveryEnded (s : State) {u : State} (hm : PlainMemory u) : SameMemory u (deliveryEnded s u) :=
  hm.steady.load8_congr rfl rfl

/-- An event through a task gate switches as CALL does; its error code goes to the new task's stack (R564). -/
theorem deliver_taskGate {ev : Event} {n : Incoming} {ret : Word} (at' : Word) (hp : s.msw.pe = true) (hm : PlainMemory s)
    (hg : GateUsable s ev) (hg5 : (idtGate s ev.vector).isType 5 = true) (hsel : (idtGate s ev.vector).selector = n.sel)
    (hn : 4 ≤ n.sel.toNat) (hl : selLocal n.sel = false) (hf : fetchDescriptor s n.sel = some (n.addr, n.desc))
    (ht : n.desc.isType 1 = true) (hP : arP n.desc.ar = true) (hload : n.Loadable s) (hsep : n.Separate s)
    (hip : (n.word s 14).toNat ≤ n.cs.2.limit.toNat) :
    ∃ u, PlainMemory u ∧ u.nmiInService = s.nmiInService ∧ TaskSwitched (deliveryBegun s) u n .nest ret ∧
      ((ev.code.isSome = true → CanPush u 1) → deliver s ev ret at' = deliveryEnded s (pushCode u ev.code)) := by
  have hs := hm.steady
  have hbegun : PlainMemory (deliveryBegun s) := hm.congr rfl rfl
  obtain ⟨u, hrun, hu, hnmi, hplain⟩ := switchTasks_ok hbegun hp .nest ret ev.ext hl
    ((fetchDescriptor_deliveryBegun hs _).trans hf) (.inl ht) (hload.deliveryBegun hs) (hsep.deliveryBegun hs)
  refine ⟨u, hplain, hnmi, hu, fun hpush => deliver_ok hp at' ?_⟩
  have hcheck : checkIp (pushCode u ev.code) = .ok (pushCode u ev.code) := by
    obtain ⟨hip', hcs'⟩ := pushCode_ip_cs u ev.code
    obtain ⟨huip, -, -, hucs, -⟩ := hu
    refine checkIp_ok ?_
    rw [hip', hcs', huip, hucs, n.word_deliveryBegun hs]
    exact hip
  rw [protEntry_taskGate hs ret hg hg5, taskEntry_eq, hsel,
    namedTask_ok hbegun.steady _ hn hl ((fetchDescriptor_deliveryBegun hs _).trans hf) ht hP, ok_bind', hrun, ok_bind',
    pushErrorCode_ok _ hpush, inTask, ok_bind', hcheck]
  rfl

/-- The error code lies on top of the new task's stack, and nothing else is written. -/
theorem errorCodePushed {u : State} (hm : PlainMemory u) (c : Word) :
    let t := deliveryEnded s (pushRaw u c)
    stackTop t = c ∧ t.regs = { u.regs with sp := u.regs.sp - 2 } ∧ t.flags = u.flags ∧ t.ip = u.ip ∧ SameSystem u t ∧
      ∀ p, ¬ Touches u .word .ss (u.regs.sp - 2) p → t.load8 p = u.load8 p := by
  have hsys := sameSystem_deliveryEnded s (pushRaw u c)
  have hmem := sameMemory_deliveryEnded s (hm.pushRaw c)
  refine ⟨(hsys.peek hmem .word .ss _).trans (stackTop_pushRaw c hm), pushRaw_regs u c, pushRaw_flags u c, pushRaw_ip u c,
    (SameSystem.pushRaw u c).trans hsys, fun p hp => (hmem p).trans (load8_pushRaw u c hp)⟩

end

end Sys2Proof.Machine
end

section
/-! PROOFS. TR and TS (45_protected_transfer.md R440 to R443): whatever changes TR but LTR is a task switch and leaves TS set. By
`Ends` again, one lemma for each shared operation, then every instruction. -/

namespace Sys2Proof.Machine

/-! ### TR changes with TS set -/

/-- TR has been changed by a task switch only, and TS has not been cleared since. -/
structure TaskKept (s t : State) : Prop where
  switched : t.tr ≠ s.tr → t.msw.ts = true
  marked : s.msw.ts = true → t.msw.ts = true

/-- Neither TR nor MSW has changed. -/
abbrev SameTask (s t : State) : Prop := t.tr = s.tr ∧ t.msw = s.msw

theorem SameTask.refl (s : State) : SameTask s s := ⟨rfl, rfl⟩

theorem SameTask.kept {s t : State} (h : SameTask s t) : TaskKept s t :=
  ⟨fun hne => absurd h.1 hne, fun hts => by rw [h.2, hts]⟩

theorem TaskKept.of_ts {s t : State} (h : t.msw.ts = true) : TaskKept s t := ⟨fun _ => h, fun _ => h⟩

theorem TaskKept.trans {s t u : State} (h : TaskKept s t) (k : TaskKept t u) : TaskKept s u := by
  refine ⟨fun hne => ?_, fun hts => k.marked (h.marked hts)⟩
  by_cases ht : u.tr = t.tr
  · exact k.marked (h.switched (ht ▸ hne))
  · exact k.switched ht

/-- A part of an instruction after which TR and TS still agree, whether it answers or raises. -/
abbrev KeepsTask (s : State) (r : M State) : Prop := Ends (TaskKept s) (TaskKept s) r

theorem Ends.sameTask {s t : State} (h : SameTask s t) : KeepsTask s (.ok t) := .ok h.kept

/-- One part after another. -/
theorem Ends.thenTask {s : State} {x : M State} {f : State → M State} (hx : KeepsTask s x) (hf : ∀ t, KeepsTask t (f t)) :
    KeepsTask s (x >>= f) :=
  .bind hx fun t ht => (hf t).mono (fun _ => ht.trans) fun _ => ht.trans

/-- A part that begins in a state changed already. -/
theorem Ends.fromTask {s t : State} {r : M State} (h : SameTask s t) (hr : KeepsTask t r) : KeepsTask s r :=
  hr.mono (fun _ => h.kept.trans) fun _ => h.kept.trans

/-! ### What updates leave -/

section
variable (s : State)

@[simp] theorem putPlace_tr (w : Width) (p : Place) (v : Val w) : (putPlace s w p v).tr = s.tr :=
  (SameSystem.putPlace s w p v).tr

@[simp] theorem putPlace_msw (w : Width) (p : Place) (v : Val w) : (putPlace s w p v).msw = s.msw :=
  (SameSystem.putPlace s w p v).msw

@[simp] theorem loadCache_tr (x : SReg) (sel : Word) (p : Phys × Desc) : (loadCache s x sel p).tr = s.tr := by
  simp [loadCache]

@[simp] theorem loadCs_tr (sel : Word) (p : Phys × Desc) (cpl : Nat) (off : Word) : (loadCs s sel p cpl off).tr = s.tr := by
  simp [loadCs]

@[simp] theorem foldl_pushRaw_tr (l : List Word) : (l.foldl pushRaw s).tr = s.tr := (SameSystem.foldl_pushRaw s l).tr

@[simp] theorem pushCode_tr (code : Option Word) : (pushCode s code).tr = s.tr := by cases code <;> simp [pushCode]

@[simp] theorem validateDataSeg_tr (x : SReg) : (validateDataSeg s x).tr = s.tr := by
  unfold validateDataSeg
  simp only
  split <;> simp

theorem SameTask.shiftOp (k : ShiftKind) (single : Bool) (n : Nat) (w : Width) (x : Val w) :
    SameTask s (shiftOp k single n w s x).2 := by
  unfold Machine.shiftOp
  split <;> exact ⟨rfl, rfl⟩

theorem SameTask.setWide (w : Width) (lo hi : Val w) : SameTask s (setWide s w lo hi) := by
  cases w <;> constructor <;> simp [Machine.setWide]

theorem SameTask.testedState (sel : Word) : SameTask s (testedState s sel) := by
  unfold Machine.testedState
  split
  · exact .refl s
  · split
    · split
      · exact ⟨by simp, by simp⟩
      · exact .refl s
    · exact .refl s

theorem SameTask.selectorResult (r : RegNum) (v : Option Word) : SameTask s (selectorResult s r v) := by
  cases v <;> constructor <;> simp [Machine.selectorResult, setZf]

end

/-! ### Operands, the stack and the segment registers -/

section
variable {s : State}

/-- An operand that is read, then an update that depends on it. -/
theorem readRm_then_keepsTask {w : Width} {m : RM} {f : Val w → State} (h : ∀ v, SameTask s (f v)) :
    KeepsTask s (readRm s w m >>= fun v => pure (f v)) :=
  .after (readRm_changesNothing ..) fun v => .sameTask (h v)

theorem modifyRm_keepsTask {w : Width} {m : RM} {f : State → Val w → Val w × State} (hf : ∀ v, SameTask s (f s v).2) :
    KeepsTask s (modifyRm s w m f) :=
  .after (checkWrite_changesNothing ..) fun _ => .after (readPlace_changesNothing ..) fun v =>
    .sameTask ⟨(putPlace_tr ..).trans (hf v).1, (putPlace_msw ..).trans (hf v).2⟩

theorem writePlace_keepsTask (w : Width) (p : Place) (v : Val w) : KeepsTask s (writePlace s w p v) :=
  .after (checkWrite_changesNothing ..) fun _ => .sameTask ⟨putPlace_tr .., putPlace_msw ..⟩

theorem memWrite_keepsTask (w : Width) (x : SReg) (o : Word) (v : Val w) : KeepsTask s (memWrite s w x o v) :=
  .after (memCheck_changesNothing ..) fun _ => .sameTask ⟨poke_tr .., poke_msw ..⟩

theorem storeTable_keepsTask (a : MemOp) (t : TableReg) : KeepsTask s (storeTable s a t) :=
  .after (memCheck_changesNothing ..) fun _ => .after (memCheck_changesNothing ..) fun _ =>
    .after (memCheck_changesNothing ..) fun _ => .sameTask ⟨by simp, by simp⟩

theorem push_keepsTask (s : State) (v : Word) : KeepsTask s (push s v) :=
  .thenTask (memWrite_keepsTask ..) fun _ => .sameTask ⟨rfl, rfl⟩

theorem copyDisplay_keepsTask (s : State) (n : Nat) : KeepsTask s (copyDisplay s n) := by
  induction n generalizing s with
  | zero => exact .sameTask (.refl s)
  | succ n ih =>
    exact .after (memRead_changesNothing ..) fun v => .thenTask (.fromTask ⟨by simp, by simp⟩ (push_keepsTask _ v)) ih

theorem keepProgress_keepsTask {r : M State} (h : KeepsTask s r) : KeepsTask s (keepProgress s r) := by
  rcases r with (e | ⟨e, t, ip⟩) | t
  · exact .excIn (SameTask.refl s).kept
  · exact .excIn (h.raised e t ip rfl)
  · exact .ok (h.answered t rfl)

theorem pushAll_keepsTask (s : State) (l : List Word) : KeepsTask s (pushAll s l) := by
  induction l generalizing s with
  | nil => exact .sameTask (.refl s)
  | cons v rest ih => exact .thenTask (keepProgress_keepsTask (push_keepsTask s v)) ih

theorem popInto_keepsTask (s : State) (r : RegNum) : KeepsTask s (popInto s r) :=
  .after (memRead_changesNothing ..) fun _ => .sameTask ⟨by simp, by simp⟩

theorem popStep_keepsTask (s : State) (r : Option RegNum) : KeepsTask s (popStep s r) := by
  cases r with
  | none => exact .after (memRead_changesNothing ..) fun _ => .sameTask ⟨rfl, rfl⟩
  | some r => exact popInto_keepsTask s r

theorem popAll_keepsTask (s : State) (l : List (Option RegNum)) : KeepsTask s (popAll s l) := by
  induction l generalizing s with
  | nil => exact .sameTask (.refl s)
  | cons r rest ih => exact .thenTask (keepProgress_keepsTask (popStep_keepsTask s r)) ih

theorem loadDataSeg_keepsTask (g : ReadGroup) (x : SReg) (sel : Word) : KeepsTask s (loadDataSeg s g x sel) :=
  .ite (fun _ => .sameTask ⟨by simp, by simp⟩) fun _ => .ite (fun _ => .sameTask ⟨by simp, by simp⟩) fun _ =>
    .descriptor fun _ => .need <| .need <| .need <| .sameTask ⟨by simp, by simp⟩

theorem loadStackSeg_keepsTask (g : ReadGroup) (sel : Word) : KeepsTask s (loadStackSeg s g sel) :=
  .ite (fun _ => .sameTask ⟨by simp, by simp⟩) fun _ => .need <| .descriptor fun _ =>
    .need <| .need <| .need <| .need <| .sameTask ⟨by simp, by simp⟩

theorem loadSreg_keepsTask (d : ReadGroup) (g : SReg) (sel : Word) : KeepsTask s (loadSreg s d g sel) := by
  cases g with
  | es => exact loadDataSeg_keepsTask d .es sel
  | cs => exact .exc _
  | ss => exact .thenTask (loadStackSeg_keepsTask d sel) fun _ => .sameTask ⟨rfl, rfl⟩
  | ds => exact loadDataSeg_keepsTask d .ds sel

theorem popSreg_keepsTask (g : SReg) : KeepsTask s (popSreg s g) :=
  .after (memRead_changesNothing ..) fun v => .thenTask (loadSreg_keepsTask .descriptor g v) fun _ => .sameTask ⟨rfl, rfl⟩

theorem loadPointer_keepsTask (x : SReg) (r : RegNum) (a : MemOp) : KeepsTask s (loadPointer s x r a) :=
  .after (readPair_changesNothing ..) fun _ => .thenTask (loadDataSeg_keepsTask ..) fun _ => .sameTask ⟨by simp, by simp⟩

/-! ### Task switches set TS -/

/-- A step of a task switch leaves MSW as the switch has set it. -/
abbrev KeepsMsw (s : State) (r : M State) : Prop := Ends (fun t => t.msw = s.msw) (fun t => t.msw = s.msw) r

theorem checkIp_keepsMsw : KeepsMsw s (checkIp s) := .need (.ok rfl)

theorem switchLdt_keepsMsw (ext : Bool) : KeepsMsw s (switchLdt s ext) :=
  .ite (fun _ => .ok rfl) fun _ => .need <| .descriptor fun _ => .need <| .ok rfl

theorem switchCs_keepsMsw (ext : Bool) : KeepsMsw s (switchCs s ext) :=
  .need <| .descriptor fun _ => .need <| .need <| .need <| .ok (loadCache_msw ..)

theorem switchSs_keepsMsw (ext : Bool) : KeepsMsw s (switchSs s ext) :=
  .need <| .descriptor fun _ => .need <| .need <| .need <| .ok (loadCache_msw ..)

theorem switchData_keepsMsw (x : SReg) (ext : Bool) : KeepsMsw s (switchData s x ext) :=
  .ite (fun _ => .ok rfl) fun _ => .descriptor fun _ => .need <| .need <| .need <| .ok (loadCache_msw ..)

/-- TS is set. -/
abbrev TsSet (t : State) : Prop := t.msw.ts = true

/-- A step that leaves MSW, run in the new task of a switch. -/
theorem Ends.inNewTask {r : M State} (hs : TsSet s) (h : KeepsMsw s r) : Ends TsSet TsSet (Machine.inTask s r) :=
  .inTask hs (h.mono (fun t ht => show t.msw.ts = true by rw [ht, hs]) fun t ht => show t.msw.ts = true by rw [ht, hs])

theorem switchTasks_setsTs (tsel : Word) (a : Phys) (t : Desc) (mode : SwitchMode) (ret : Word) (ext : Bool) :
    Ends TsSet TsSet (switchTasks s tsel a t mode ret ext) := by
  have h1 : TsSet (commitSwitch s tsel a t mode ret) := by rw [TsSet, (commitSwitch_system s tsel a t mode ret).2.1]
  exact .need <| .bind (.inNewTask h1 (switchLdt_keepsMsw ext)) fun _ h2 =>
    .bind (.inNewTask h2 (switchCs_keepsMsw ext)) fun _ h3 =>
    .bind (.inNewTask h3 (switchSs_keepsMsw ext)) fun _ h4 =>
    .bind (.inNewTask h4 (switchData_keepsMsw .ds ext)) fun _ h5 =>
    .bind (.inNewTask h5 (switchData_keepsMsw .es ext)) fun _ h6 => .ok h6

theorem Ends.taskOfTs {r : M State} (h : Ends TsSet TsSet r) : KeepsTask s r := h.mono (fun _ => .of_ts) fun _ => .of_ts

theorem switchThenCheckIp_keepsTask (tsel : Word) (a : Phys) (t : Desc) (mode : SwitchMode) (ret : Word) (ext : Bool) :
    KeepsTask s (switchTasks s tsel a t mode ret ext >>= fun s1 => inTask s1 (checkIp s1)) :=
  .taskOfTs <| .bind (switchTasks_setsTs ..) fun _ h => .inNewTask h checkIp_keepsMsw

/-! ### Deliveries -/

theorem push_keepsMsw (v : Word) : KeepsMsw s (push s v) := by
  unfold push memWrite
  exact .bind (Q := fun t => t.msw = s.msw) (.after (memCheck_changesNothing ..) fun _ => .ok (poke_msw ..)) fun _ h => .ok h

theorem taskEntry_keepsTask (ev : Event) (g : Desc) (ret : Word) : KeepsTask s (taskEntry s ev g ret) := by
  refine .need <| .descriptor fun t => .need <| .need <| .taskOfTs <| .bind (switchTasks_setsTs ..) fun s1 h1 =>
    .bind (.inNewTask h1 ?_) fun s2 h2 => .inNewTask h2 checkIp_keepsMsw
  split
  · exact push_keepsMsw _
  · exact .ok rfl

theorem gateInner_keepsTask (ev : Event) (g : Desc) (c : Phys × Desc) (ret : Word) : KeepsTask s (gateInner s ev g c ret) :=
  .after (innerStack_changesNothing ..) fun _ => .need <| .need <| .sameTask ⟨by simp, by simp⟩

theorem gateSame_keepsTask (ev : Event) (g : Desc) (c : Phys × Desc) (ret : Word) : KeepsTask s (gateSame s ev g c ret) :=
  .after (checkPush_changesNothing ..) fun _ => .need <| .sameTask ⟨by simp, by simp⟩

theorem gateEntry_keepsTask (ev : Event) (g : Desc) (ret : Word) : KeepsTask s (gateEntry s ev g ret) :=
  .need <| .descriptor fun c => .need <| .need <| .ite (fun _ => gateInner_keepsTask ev g c ret) fun _ =>
    .ite (fun _ => gateSame_keepsTask ev g c ret) fun _ => .exc _

theorem protEntry_keepsTask (s : State) (ev : Event) (ret : Word) : KeepsTask s (protEntry s ev ret) :=
  .need <| .need <| .need <| .need <|
    .ite (fun _ => taskEntry_keepsTask ev _ ret) fun _ => gateEntry_keepsTask ev _ ret

theorem realEntry_sameTask (s : State) (n : Nat) (ret : Word) : SameTask s ((realEntry s n ret).getD (enterShutdown s)) := by
  unfold realEntry
  split
  · exact ⟨rfl, rfl⟩
  · exact ⟨by simp [farReal], by simp [farReal]⟩

theorem deliverReal_sameTask (s : State) (n : Nat) (ret atIp : Word) : SameTask s (deliverReal s n ret atIp) := by
  unfold deliverReal
  split
  · exact realEntry_sameTask s n ret
  · split
    · exact ⟨rfl, rfl⟩
    · split
      · exact realEntry_sameTask s 8 atIp
      · exact ⟨rfl, rfl⟩

/-- The state in which the delivery begins that follows a failing one. -/
theorem nextDelivery_taskKept {ev : Event} {ret ip : Word} {st : Stop} (h : protEntry s ev ret = .error st) :
    TaskKept s (st.nextDelivery s ip).1 :=
  ((protEntry_keepsTask s ev ret).context h (SameTask.refl s).kept).trans (SameTask.kept ⟨rfl, rfl⟩)

theorem doubleFault_taskKept (s : State) (ret : Word) : TaskKept s (doubleFault s ret) := by
  have hd := protEntry_keepsTask s (.exn 8 (some 0)) ret
  unfold doubleFault
  split
  · next t ht => exact hd.answered t ht
  · next st hst => exact (hd.context (ip := ret) hst (SameTask.refl s).kept).trans (SameTask.kept ⟨rfl, rfl⟩)

theorem deliverFirst_taskKept (s : State) (ev : Event) (ret : Word) : TaskKept s (deliverFirst s ev ret) := by
  unfold deliverFirst
  split
  · next t ht => exact (protEntry_keepsTask s ev ret).answered t ht
  · next st hst =>
    refine (nextDelivery_taskKept (ip := ret) hst).trans ?_
    simp only
    split
    · split
      · next t ht => exact (protEntry_keepsTask ..).answered t ht
      · next st' hst' => exact (nextDelivery_taskKept hst').trans (doubleFault_taskKept ..)
    · exact doubleFault_taskKept ..

theorem deliverProt_taskKept (s : State) (ev : Event) (ret atIp : Word) : TaskKept s (deliverProt s ev ret atIp) := by
  unfold deliverProt
  split
  · exact deliverFirst_taskKept s ev ret
  · split
    · next t ht => exact (protEntry_keepsTask s ev ret).answered t ht
    · next st hst => exact (nextDelivery_taskKept (ip := atIp) hst).trans (deliverFirst_taskKept ..)

/-- Taking an exception or interrupt (60_exceptions.md R560). -/
theorem deliver_taskKept (s : State) (ev : Event) (ret atIp : Word) : TaskKept s (deliver s ev ret atIp) := by
  cases hp : s.msw.pe with
  | false =>
    have h := deliverReal_sameTask (deliveryBegun s) ev.vector.toNat ret atIp
    rw [deliver_real ev ret atIp hp]
    exact SameTask.kept h
  | true =>
    have h := deliverProt_taskKept (deliveryBegun s) ev ret atIp
    rw [deliver_protected ev ret atIp hp]
    exact ⟨h.switched, h.marked⟩

/-! ### Transfers of control -/

theorem setIP_keepsTask (s : State) (t : Word) : KeepsTask s (setIP s t) := .need (.sameTask ⟨rfl, rfl⟩)

theorem jumpIf_keepsTask (s : State) (c : Bool) (d : Byte) : KeepsTask s (jumpIf s c d) :=
  .ite (fun _ => setIP_keepsTask ..) fun _ => .sameTask (.refl s)

theorem loopWhile_keepsTask (c : Bool) (d : Byte) : KeepsTask s (loopWhile s c d) :=
  .fromTask ⟨by simp, by simp⟩ (jumpIf_keepsTask ..)

theorem callNear_keepsTask (t : Word) : KeepsTask s (callNear s t) :=
  .bind (setIP_keepsTask s t) fun _ _ => .thenTask (push_keepsTask ..) fun _ => .sameTask ⟨rfl, rfl⟩

theorem retNear_keepsTask (imm : Word) : KeepsTask s (retNear s imm) :=
  .after (memRead_changesNothing ..) fun t => .thenTask (setIP_keepsTask s t) fun _ => .sameTask ⟨rfl, rfl⟩

theorem throughTaskGate_keepsTask (g : Desc) (mode : SwitchMode) : KeepsTask s (throughTaskGate s g mode) :=
  .need <| .descriptor fun _ => .need <| .need <| switchThenCheckIp_keepsTask ..

theorem jmpFar_keepsTask (sel off : Word) : KeepsTask s (jmpFar s sel off) :=
  .ite (fun _ => .need <| .descriptor fun d =>
    .ite (fun _ => .after (directCode_changesNothing ..) fun _ => .need <| .sameTask ⟨by simp, by simp⟩) fun _ =>
    .ite (fun _ => .after (gateVisible_changesNothing ..) fun _ => .after (gateCode_changesNothing ..) fun _ =>
      .need <| .sameTask ⟨by simp, by simp⟩) fun _ =>
    .ite (fun _ => .after (gateVisible_changesNothing ..) fun _ => throughTaskGate_keepsTask d.2 .jmp) fun _ =>
    .ite (fun _ => .after (gateVisible_changesNothing ..) fun _ => switchThenCheckIp_keepsTask ..) fun _ =>
    .exc _) fun _ => .sameTask ⟨by simp [farReal], by simp [farReal]⟩

theorem callSame_keepsTask (sel : Word) (c : Phys × Desc) (off : Word) : KeepsTask s (callSame s sel c off) :=
  .after (checkPush_changesNothing ..) fun _ => .need <| .sameTask ⟨by simp [pushReturn], by simp [pushReturn]⟩

theorem callInner_keepsTask (g : Desc) (c : Phys × Desc) : KeepsTask s (callInner s g c) :=
  .after (innerStack_changesNothing ..) fun _ => .need <| .after (readParams_changesNothing ..) fun _ =>
    .need <| .sameTask ⟨by simp, by simp⟩

theorem callFarTo_keepsTask (sel off : Word) : KeepsTask s (callFarTo s sel off) :=
  .ite (fun _ => .need <| .descriptor fun d =>
    .ite (fun _ => .after (directCode_changesNothing ..) fun _ => callSame_keepsTask sel d off) fun _ =>
    .ite (fun _ => .after (gateVisible_changesNothing ..) fun _ => .after (gateCode_changesNothing ..) fun c =>
      .ite (fun _ => callInner_keepsTask d.2 c) fun _ => callSame_keepsTask _ c _) fun _ =>
    .ite (fun _ => .after (gateVisible_changesNothing ..) fun _ => throughTaskGate_keepsTask d.2 .nest) fun _ =>
    .ite (fun _ => .after (gateVisible_changesNothing ..) fun _ => switchThenCheckIp_keepsTask ..) fun _ =>
    .exc _) fun _ =>
  .after (checkPush_changesNothing ..) fun _ => .sameTask ⟨by simp [farReal, pushReturn], by simp [farReal, pushReturn]⟩

/-- A return to the same or an outer level (45_protected_transfer.md R433, R434). -/
theorem farReturn_keepsTask (fl : Bool) (imm : Word) : KeepsTask s (farReturn s fl imm) := by
  refine .after (memRead_changesNothing ..) fun csel => .need <| .ite (fun _ => ?_) fun _ =>
    .after (checkStackTop_changesNothing ..) fun _ => .after (returnCode_changesNothing ..) fun c =>
    .after (memRead_changesNothing ..) fun ssel => .after (memRead_changesNothing ..) fun nsp =>
    .after (returnStack_changesNothing ..) fun sd => .after (memRead_changesNothing ..) fun off => ?_
  · cases fl
    · exact .after (returnCode_changesNothing ..) fun c => .after (memRead_changesNothing ..) fun off =>
        .need <| .sameTask ⟨by simp, by simp⟩
    · exact .after (checkStackTop_changesNothing ..) fun _ => .after (returnCode_changesNothing ..) fun c =>
        .after (memRead_changesNothing ..) fun off => .after (memRead_changesNothing ..) fun f =>
        .need <| .sameTask ⟨by simp, by simp⟩
  · cases fl
    · exact .need <| .sameTask ⟨by simp, by simp⟩
    · exact .after (memRead_changesNothing ..) fun f => .need <| .sameTask ⟨by simp, by simp⟩

theorem retFarTo_keepsTask (imm : Word) : KeepsTask s (retFarTo s imm) :=
  .ite (fun _ => farReturn_keepsTask ..) fun _ => .after (memRead_changesNothing ..) fun _ =>
    .after (memRead_changesNothing ..) fun _ => .sameTask ⟨by simp [farReal], by simp [farReal]⟩

theorem iretReal_keepsTask : KeepsTask s (iretReal s) :=
  .after (memRead_changesNothing ..) fun _ => .after (memRead_changesNothing ..) fun _ =>
    .after (memRead_changesNothing ..) fun _ => .sameTask ⟨by simp [farReal], by simp [farReal]⟩

theorem iretTask_keepsTask : KeepsTask s (iretTask s) :=
  .need <| .descriptor fun _ => .need <| .need <| switchThenCheckIp_keepsTask ..

theorem returnFromInterrupt_keepsTask (s : State) : KeepsTask s (returnFromInterrupt s) := by
  have opened (t : State) : KeepsTask t (pure { t with nmiInService := false }) := .sameTask ⟨rfl, rfl⟩
  exact .ite (fun _ => .thenTask iretReal_keepsTask opened) fun _ =>
    .ite (fun _ => .thenTask iretTask_keepsTask opened) fun _ => .thenTask (farReturn_keepsTask true 0) opened

theorem stringRun_keepsTask (compares : Bool) {prim : M State} (h : KeepsTask s prim) :
    KeepsTask s (stringRun s compares prim) := by
  unfold stringRun
  split
  · exact h
  · refine .ite (fun _ => .sameTask (.refl s)) fun _ => .thenTask h fun t => .sameTask ?_
    split <;> exact ⟨by simp, by simp⟩

/-! ### Every instruction -/

/-- What a meaning answers has TR changed by a task switch only, with TS still set. -/
structure SwitchesMarked (s : State) (r : Result) : Prop where
  marked : ∀ t, r = .next t → t.tr ≠ s.tr → t.msw.ts = true

theorem SwitchesMarked.next {t : State} (h : t.tr ≠ s.tr → t.msw.ts = true) : SwitchesMarked s (.next t) :=
  ⟨by rintro _ ⟨⟩; exact h⟩

theorem SwitchesMarked.same {t : State} (h : t.tr = s.tr) : SwitchesMarked s (.next t) := .next fun hne => absurd h hne

/-- The end of a meaning, and the exception it may take. -/
theorem finish_marked {r : M State} (h : Ends (TaskKept s) (fun t => t.tr ≠ s.tr → t.msw.ts = true) r) :
    SwitchesMarked s (finish s r) := by
  rcases r with (e | ⟨e, t, ip⟩) | t
  · exact .next (deliver_taskKept ..).switched
  · exact .next ((h.raised e t ip rfl).trans (deliver_taskKept ..)).switched
  · exact .next (h.answered t rfl)

theorem finish_keepsTask {r : M State} (h : KeepsTask s r) : SwitchesMarked s (finish s r) :=
  finish_marked (h.mono (fun _ h => h) fun _ h => h.switched)

/-- A meaning that cannot fail. -/
theorem finish_sameTask {t : State} (h : t.tr = s.tr) : SwitchesMarked s (finish s (.ok t)) := .same h

theorem finish_readRm_keepsTask {w : Width} {m : RM} {f : Val w → State} (h : ∀ v, SameTask s (f v)) :
    SwitchesMarked s (finish s (readRm s w m >>= fun v => pure (f v))) := finish_keepsTask (readRm_then_keepsTask h)

theorem finish_modifyRm_keepsTask {w : Width} {m : RM} {f : State → Val w → Val w × State}
    (h : ∀ v, SameTask s (f s v).2) : SwitchesMarked s (finish s (modifyRm s w m f)) :=
  finish_keepsTask (modifyRm_keepsTask h)

theorem finish_stringRun_keepsTask {compares : Bool} {prim : M State} (h : KeepsTask s prim) :
    SwitchesMarked s (finish s (stringRun s compares prim)) := finish_keepsTask (stringRun_keepsTask compares h)

end

section
variable (s : State)

theorem softInt_marked (n : Byte) : SwitchesMarked s (.next (softInt s n)) := .next (deliver_taskKept ..).switched

theorem execEnter_marked (v : Word) (l : Byte) : SwitchesMarked s (execEnter v l s) :=
  finish_keepsTask <| .thenTask (push_keepsTask ..) fun _ => .ite (fun _ => .sameTask ⟨by simp, by simp⟩) fun _ =>
    .thenTask (copyDisplay_keepsTask ..) fun _ => .thenTask (push_keepsTask ..) fun _ => .sameTask ⟨by simp, by simp⟩

theorem execEsc_marked (t l : BitVec 3) (m : RM) : SwitchesMarked s (execEsc t l m s) :=
  finish_keepsTask <| .need <| .after (escCheck_changesNothing ..) fun _ =>
    .ite (fun _ => .sameTask ⟨rfl, rfl⟩) fun _ => .need <| .sameTask ⟨rfl, rfl⟩

theorem execLldt_marked (m : RM) : SwitchesMarked s (execLldt m s) :=
  finish_keepsTask <| .need <| .need <| .after (readRm_changesNothing ..) fun _ =>
    .ite (fun _ => .sameTask ⟨rfl, rfl⟩) fun _ => .need <| .descriptor fun _ => .need <| .need <| .sameTask ⟨rfl, rfl⟩

/-- CLTS and LMSW may clear TS, but leave TR. -/
theorem execClts_marked : SwitchesMarked s (execClts s) := finish_marked <| .need <| .ok fun hne => absurd rfl hne

theorem execLmsw_marked (m : RM) : SwitchesMarked s (execLmsw m s) :=
  finish_marked <| .need <| .after (readRm_changesNothing ..) fun _ => .ok fun hne => absurd rfl hne

theorem execArpl_marked (m : RM) (r : RegNum) : SwitchesMarked s (execArpl m r s) := by
  refine finish_keepsTask <| .need <| .after (checkWrite_changesNothing ..) fun _ => readRm_then_keepsTask fun _ => ?_
  split <;> exact ⟨by simp [setZf], by simp [setZf]⟩

/-- TR changes by LTR or by a task switch, which sets TS (45_protected_transfer.md R440 step 7). -/
theorem exec_marked (i : Instr) (hltr : ∀ m, i ≠ .ltr m) : SwitchesMarked s (exec i s) := by
  cases i with
  -- two-operand arithmetic and logic
  | addRmReg | adcRmReg | sbbRmReg | subRmReg | addRmImm | adcRmImm | sbbRmImm | subRmImm | addRm8Imm82 | adcRm8Imm82
  | sbbRm8Imm82 | subRm8Imm82 | addRmSext | adcRmSext | sbbRmSext | subRmSext | orRmReg | andRmReg | xorRmReg | orRmImm
  | andRmImm | xorRmImm | incRm | decRm | negRm | notRm => exact finish_modifyRm_keepsTask fun _ => ⟨rfl, rfl⟩
  | addRegRm | adcRegRm | sbbRegRm | subRegRm | orRegRm | andRegRm | xorRegRm =>
    exact finish_readRm_keepsTask fun _ => ⟨State.setReg_tr .., State.setReg_msw ..⟩
  | addAccImm | adcAccImm | sbbAccImm | subAccImm | orAccImm | andAccImm | xorAccImm =>
    exact finish_sameTask (State.setReg_tr ..)
  | cmpRmReg | cmpRmImm | cmpRm8Imm82 | cmpRmSext | cmpRegRm | testRmReg | testRmImm =>
    exact finish_readRm_keepsTask fun _ => ⟨rfl, rfl⟩
  | cmpAccImm | testAccImm => exact finish_sameTask rfl
  -- one-operand arithmetic, shifts and rotates
  | incReg r | decReg r => exact finish_modifyRm_keepsTask (m := .reg r) fun _ => ⟨rfl, rfl⟩
  | rolImm | rolOne | rolCl | rorImm | rorOne | rorCl | rclImm | rclOne | rclCl | rcrImm | rcrOne | rcrCl | shlImm | shlOne
  | shlCl | shrImm | shrOne | shrCl | sarImm | sarOne | sarCl => exact finish_modifyRm_keepsTask fun _ => .shiftOp ..
  | mulRm | imulRm => exact finish_readRm_keepsTask fun _ => SameTask.setWide s _ _ _
  | imulRegRmImm16 | imulRegRmImm8 => exact finish_readRm_keepsTask fun _ => ⟨State.setW_tr .., State.setW_msw ..⟩
  | divRm | idivRm =>
    exact finish_keepsTask <| .after (readRm_changesNothing ..) fun _ => .need <| .need <|
      .sameTask (SameTask.setWide s _ _ _)
  | daa | das => exact finish_sameTask (State.setB_tr ..)
  | aam | aad => exact finish_sameTask (State.setW_tr ..)
  | aaa | aas | cbw | cwd | lea | xchgAxReg | lahf | sahf => exact finish_sameTask (by simp)
  -- data transfer
  | movRmReg | movRmImm | movRmSreg => exact finish_keepsTask (writePlace_keepsTask ..)
  | movRegRm => exact finish_readRm_keepsTask fun _ => ⟨by simp, by simp⟩
  | movAccMoffs => exact finish_keepsTask (.after (memRead_changesNothing ..) fun _ => .sameTask ⟨by simp, by simp⟩)
  | movMoffsAcc => exact finish_keepsTask (memWrite_keepsTask ..)
  | movRegImm => exact finish_sameTask (by simp)
  | movSregRm => exact finish_keepsTask (.after (readRm_changesNothing ..) fun _ => loadSreg_keepsTask ..)
  | lds | les => exact finish_keepsTask (loadPointer_keepsTask ..)
  | xlat => exact finish_keepsTask (.after (memRead_changesNothing ..) fun _ => .sameTask ⟨by simp, by simp⟩)
  | xchgRmReg => exact finish_modifyRm_keepsTask fun _ => ⟨State.setReg_tr .., State.setReg_msw ..⟩
  | pushSreg | pushReg | pushImm16 | pushImm8 => exact finish_keepsTask (push_keepsTask ..)
  | pushRm => exact finish_keepsTask (.after (readRm_changesNothing ..) fun _ => push_keepsTask ..)
  | pusha =>
    exact finish_keepsTask <| .after (memCheck_changesNothing ..) fun _ => .after (memCheck_changesNothing ..) fun _ =>
      pushAll_keepsTask ..
  | popa =>
    exact finish_keepsTask <| .after (memCheck_changesNothing ..) fun _ => .after (memCheck_changesNothing ..) fun _ =>
      popAll_keepsTask ..
  | popReg => exact finish_keepsTask (popInto_keepsTask ..)
  | popRm =>
    exact finish_keepsTask <| .after (memRead_changesNothing ..) fun _ => .after (checkWrite_changesNothing ..) fun _ =>
      .sameTask ⟨by simp, by simp⟩
  | popEs | popSs | popDs => exact finish_keepsTask (popSreg_keepsTask _)
  | pushf => exact finish_keepsTask (.thenTask (push_keepsTask ..) fun _ => .sameTask ⟨rfl, rfl⟩)
  | popf => exact finish_keepsTask (.after (memRead_changesNothing ..) fun _ => .sameTask ⟨rfl, rfl⟩)
  | inImm | inDx => exact finish_keepsTask (.need (.sameTask ⟨by simp, by simp⟩))
  | outImm | outDx => exact finish_keepsTask (.need (.sameTask ⟨rfl, rfl⟩))
  -- strings
  | movs =>
    exact finish_stringRun_keepsTask <| .after (memRead_changesNothing ..) fun _ => .thenTask (memWrite_keepsTask ..) fun _ =>
      .sameTask ⟨by simp [stepSi, stepDi], by simp [stepSi, stepDi]⟩
  | cmps =>
    exact finish_stringRun_keepsTask <| .after (memRead_changesNothing ..) fun _ => .after (memRead_changesNothing ..) fun _ =>
      .sameTask ⟨by simp [stepSi, stepDi, aluSub], by simp [stepSi, stepDi, aluSub]⟩
  | scas =>
    exact finish_stringRun_keepsTask <| .after (memRead_changesNothing ..) fun _ =>
      .sameTask ⟨by simp [stepDi, aluSub], by simp [stepDi, aluSub]⟩
  | lods =>
    exact finish_stringRun_keepsTask <| .after (memRead_changesNothing ..) fun _ =>
      .sameTask ⟨by simp [stepSi], by simp [stepSi]⟩
  | stos =>
    exact finish_stringRun_keepsTask <| .thenTask (memWrite_keepsTask ..) fun _ =>
      .sameTask ⟨by simp [stepDi], by simp [stepDi]⟩
  | ins =>
    exact finish_stringRun_keepsTask <| .need <| .after (memCheck_changesNothing ..) fun _ =>
      .sameTask ⟨by simp [stepDi], by simp [stepDi]⟩
  | outs =>
    exact finish_stringRun_keepsTask <| .need <| .after (memRead_changesNothing ..) fun _ =>
      .sameTask ⟨by simp [stepSi], by simp [stepSi]⟩
  -- transfers of control
  | jo | jno | jb | jnb | je | jne | jbe | jnbe | js | jns | jp | jnp | jl | jnl | jle | jnle | jcxz =>
    exact finish_keepsTask (jumpIf_keepsTask ..)
  | loop | loope | loopne => exact finish_keepsTask (loopWhile_keepsTask ..)
  | jmpRel8 | jmpRel16 => exact finish_keepsTask (setIP_keepsTask ..)
  | jmpRm => exact finish_keepsTask (.after (readRm_changesNothing ..) fun _ => setIP_keepsTask ..)
  | callRel => exact finish_keepsTask (callNear_keepsTask _)
  | callRm => exact finish_keepsTask (.after (readRm_changesNothing ..) fun _ => callNear_keepsTask _)
  | ret | retImm => exact finish_keepsTask (retNear_keepsTask _)
  | jmpFar => exact finish_keepsTask (jmpFar_keepsTask ..)
  | jmpFarMem => exact finish_keepsTask (.after (readPair_changesNothing ..) fun _ => jmpFar_keepsTask ..)
  | callFar => exact finish_keepsTask (callFarTo_keepsTask ..)
  | callFarMem => exact finish_keepsTask (.after (readPair_changesNothing ..) fun _ => callFarTo_keepsTask ..)
  | retFar | retFarImm => exact finish_keepsTask (retFarTo_keepsTask _)
  | iret => exact finish_keepsTask (returnFromInterrupt_keepsTask s)
  | enter => exact execEnter_marked ..
  | leave => exact finish_keepsTask (.after (memRead_changesNothing ..) fun _ => .sameTask ⟨by simp, by simp⟩)
  | bound => exact finish_keepsTask (.after (readPair_changesNothing ..) fun _ => .need (.sameTask (.refl s)))
  | int3 | intImm => exact softInt_marked ..
  | into =>
    rw [exec, execInto]
    split
    · exact softInt_marked ..
    · exact .same rfl
  -- processor control
  | clc | cmc | stc | cld | std | nop | segPfx | repnePfx | repPfx => exact .same rfl
  | cli | sti | hlt | lockPfx => exact finish_keepsTask (.need (.sameTask ⟨rfl, rfl⟩))
  | clts => exact execClts_marked s
  | wait =>
    exact finish_keepsTask (.need (.ite (fun _ => .sameTask ⟨rfl, rfl⟩) fun _ => .need (.sameTask (.refl s))))
  | esc => exact execEsc_marked ..
  -- protection control
  | sgdt | sidt => exact finish_keepsTask (storeTable_keepsTask ..)
  | lgdt | lidt => exact finish_keepsTask (.after (loadTable_changesNothing ..) fun _ => .sameTask ⟨rfl, rfl⟩)
  | sldt | str => exact finish_keepsTask (.need (writePlace_keepsTask ..))
  | lldt => exact execLldt_marked ..
  | ltr m => exact absurd rfl (hltr m)
  | smsw => exact finish_keepsTask (.thenTask (writePlace_keepsTask ..) fun _ => .sameTask ⟨rfl, rfl⟩)
  | lmsw => exact execLmsw_marked ..
  | lar | lsl =>
    exact finish_keepsTask (.need (readRm_then_keepsTask fun _ =>
      have hr := SameTask.selectorResult (testedState s _) _ _
      have ht := SameTask.testedState s _
      ⟨hr.1.trans ht.1, hr.2.trans ht.2⟩))
  | verr | verw => exact finish_keepsTask (.need (readRm_then_keepsTask fun _ => SameTask.testedState s _))
  | arpl => exact execArpl_marked ..

end

end Sys2Proof.Machine
end

section
/-! PROOFS. Task switches (45_protected_transfer.md R430, R431, R440 to R443; 60_exceptions.md R564): the settled statement. -/

namespace Sys2Proof.Machine

/-- Settles O30: the switch that succeeds, the checks that fail before it, the task gates of the IDT, and TS after any change of
TR. -/
theorem taskSwitchesExchangeTasks : Obligations.TaskSwitchesExchangeTasks := by
  refine ⟨fun i mode n s hp hm h hload hsep => exec_switchesTask hp hm h hload hsep, ?_, ?_, ?_, fun i s t h hne hltr =>
    (exec_marked s i hltr).marked t h hne⟩
  · intro i call sel off Ready s a g hi hr hp hs hn hf hg
    have he := exec_farTransfer hi hr hp
    refine ⟨fun v c h => takesException_of_error he ?_, fun hc hrpl hP => ⟨fun h5 v c h => takesException_of_error he ?_,
      fun h1 hlim => takesException_of_error he ?_⟩⟩
    · rcases hg with h5 | ⟨h1, hl⟩
      · rw [farTransfer_taskGate hs hn hf h5, gateVisible_fault h, error_bind']
      · rw [farTransfer_task hs hn hf h1 hl, gateVisible_fault h, error_bind']
    · rw [farTransfer_taskGate hs hn hf h5, gateVisible_passed hc hrpl hP, ok_bind', throughTaskGate_fault hs _ h]
    · have hl : selLocal sel = false := by
        rcases hg with h5 | ⟨-, hl⟩
        · exact absurd h5 (by simp [Desc.isType_ne h1])
        · exact hl
      rw [farTransfer_task hs hn hf h1 hl, gateVisible_passed hc hrpl hP, ok_bind', switchTo_short s sel _ hlim]
      rfl
  · rintro s v hp hs hnt sel (⟨h, rfl⟩ | ⟨hn, hl, a, d, hf, ht, hP, rfl⟩)
    · exact takesException_of_error (exec_iretTask hp hnt) (by rw [iretTask_invalid hs h]; rfl)
    · exact takesException_of_error (exec_iretTask hp hnt) (by rw [iretTask_notPresent hs hn hl hf ht hP]; rfl)
  · intro s ev n ret at' hp hm hg hg5 hsel hn hl hf ht hP hload hsep hip
    obtain ⟨u, hplain, hnmi, hu, hdeliver⟩ := deliver_taskGate at' hp hm hg hg5 hsel hn hl hf ht hP hload hsep hip
    refine ⟨deliveryEnded s u, hu.delivered hm.steady hplain, hnmi, fun hcode => ?_, fun c hcode hpush => ?_⟩
    · rw [hdeliver (by simp [hcode]), hcode, pushCode]
    · have hpushed := hdeliver fun _ => hpush
      rw [hcode] at hpushed
      have hmem := sameMemory_deliveryEnded s hplain
      obtain ⟨htop, hregs, hflags, hip, hsys, hrest⟩ := errorCodePushed (s := s) hplain c
      rw [hpushed]
      exact ⟨htop, hregs, hflags, hip, { hsys with }, fun p hp => (hrest p hp).trans (hmem p).symm⟩

end Sys2Proof.Machine
end

section
/-! PROOFS. Processor control: the flag instructions, NOP, CLI, STI, HLT, CLTS and the prefixes, WAIT and ESC
(46_processor_control.md R470 to R484; 20_memory.md R95, R170; 30_encoding.md R190, R191; 43_string.md R360). -/

namespace Sys2Proof.Machine

/-! ### The privilege test on the level, and frames -/

theorem needCpl0_ok {s : State} (h : s.cpl = 0) : needCpl0 s = .ok () := needCpl0_tests s h

theorem OnlyFlags.refl (s : State) : OnlyFlags s s := ⟨.refl s, rfl, fun _ _ => rfl, fun _ => rfl⟩

/-! ### The flag instructions -/

theorem exec_flagInstruction {i : Instr} {f : Flags → Flags} (h : flagInstruction i = some f) (s : State) :
    exec i s = .next (s.setFlags (f s.flags)) := by
  cases i with
  | clc | cmc | stc | cld | std =>
    cases h
    rfl
  | _ => cases h

/-- Settles O34: the state after a flag instruction is the one before it with its flags set. -/
theorem flagInstructionsChangeOneFlag : Obligations.FlagInstructionsChangeOneFlag := fun _ _ s h =>
  ⟨_, exec_flagInstruction h s, rfl, .setFlags s _⟩

/-! ### Instructions with a privilege test -/

theorem exec_cli {s : State} (h : IoAllowed s) : exec .cli s = .next (s.setFlags { s.flags with ief := false }) := by
  rw [exec, execCli, needIopl_ok h]
  rfl

theorem exec_sti {s : State} (h : IoAllowed s) :
    exec .sti s = .next ({ s with inhibitExt := true }.setFlags { s.flags with ief := true }) := by
  rw [exec, execSti, needIopl_ok h]
  rfl

theorem exec_hlt {s : State} (h : s.cpl = 0) : exec .hlt s = .next { s with halted := true } := by
  rw [exec, execHlt, needCpl0_ok h]
  rfl

theorem exec_clts {s : State} (h : s.cpl = 0) : exec .clts s = .next { s with msw := { s.msw with ts := false } } := by
  rw [exec, execClts, needCpl0_ok h]
  rfl

/-! ### Prefixes -/

theorem exec_lockPfx {s : State} (h : IoAllowed s) : exec .lockPfx s = .next (note s { s.cur with lock := true }) := by
  rw [exec, execLockPfx, needIopl_ok h]
  rfl

/-- Noting one writes the prefixes of the instruction alone. -/
theorem NotesOnly.note {s : State} {c : Cur} (h : c.ip = s.cur.ip) : NotesOnly s (note s c) :=
  ⟨.refl _, h, rfl, rfl, rfl, fun _ => rfl⟩

/-- Settles O35: NOP and the prefixes have no test but that of LOCK; the others complete once their test has passed. -/
theorem controlInstructionsAndPrefixes : Obligations.ControlInstructionsAndPrefixes := by
  refine ⟨fun _ => rfl, fun s h => ⟨?cli, ?sti⟩, fun s h => ⟨?hlt, ?clts⟩, fun g s => ?segPfx, fun s h => ?lockPfx,
    fun s => ?repPfx, fun s => ?repnePfx⟩
  case cli => exact ⟨_, exec_cli h, rfl, .setFlags s _⟩
  case sti => exact ⟨_, exec_sti h, rfl, .setFlags _ _⟩
  case hlt => exact ⟨_, exec_hlt h, rfl, .refl _⟩
  case clts => exact ⟨_, exec_clts h, rfl, .refl _⟩
  case lockPfx => exact ⟨_, exec_lockPfx h, .note rfl, rfl, rfl, rfl, rfl⟩
  case segPfx | repPfx | repnePfx => exact ⟨_, rfl, .note rfl, rfl, rfl, rfl, rfl⟩

/-! ### Waiting for the processor extension -/

/-- The tests that WAIT and ESC end with, before the state `t`: BUSY when the instruction waits for it, then ERROR when it samples
it (R481, R483). -/
def afterExtension (s : State) (waits samples : Bool) (t : State) : M State :=
  if s.pins.busy && waits then pure (waitHere s)
  else do
    need (!(s.pins.error && samples)) extensionError
    pure t

/-- Waiting writes IP and its own condition alone. -/
theorem SameSystem.waitHere (s : State) : SameSystem { s with waiting := true } (waitHere s) := by constructor <;> rfl

theorem and_eq_false_of_not {a b : Bool} (h : ¬ (a = true ∧ b = true)) : (a && b) = false := by simpa using h

section
variable {i : Instr} {s t : State} {waits samples : Bool}

theorem waits_of_busy (he : exec i s = finish s (afterExtension s waits samples t)) (hb : s.pins.busy = true)
    (hw : waits = true) : Waits i s := by
  refine ⟨waitHere s, ?_, rfl, rfl, rfl, rfl, .waitHere s, fun _ => rfl⟩
  rw [he, afterExtension, hb, hw]
  rfl

theorem takesExtensionError_of_error (he : exec i s = finish s (afterExtension s waits samples t))
    (hb : ¬ (s.pins.busy = true ∧ waits = true)) (hr : s.pins.error = true) (hs : samples = true) :
    TakesExtensionError i s := by
  rw [TakesExtensionError, he, afterExtension, and_eq_false_of_not hb, hr, hs]
  rfl

theorem exec_of_extensionReady (he : exec i s = finish s (afterExtension s waits samples t))
    (hb : ¬ (s.pins.busy = true ∧ waits = true)) (hr : ¬ (s.pins.error = true ∧ samples = true)) : exec i s = .next t := by
  rw [he, afterExtension, and_eq_false_of_not hb, and_eq_false_of_not hr]
  rfl

end

/-! ### WAIT -/

theorem wait_takesException {s : State} (h : s.msw.mp = true ∧ s.msw.ts = true) : TakesException .wait s 7 none := by
  obtain ⟨hmp, hts⟩ := h
  refine takesException_of_error rfl ?_
  rw [hmp, hts]
  rfl

theorem exec_wait {s : State} (h : ¬ (s.msw.mp = true ∧ s.msw.ts = true)) :
    exec .wait s = finish s (afterExtension s true true s) := by
  rw [exec, execWait, and_eq_false_of_not h, afterExtension, Bool.and_true, Bool.and_true]
  rfl

/-! ### ESC -/

theorem esc_takesException {a b : BitVec 3} {m : RM} {s : State} (h : s.msw.em = true ∨ s.msw.ts = true) :
    TakesException (.esc a b m) s 7 none := by
  refine takesException_of_error rfl ?_
  rw [(Bool.or_eq_true_iff ..).2 h]
  rfl

theorem escCheck_ok {s : State} {op : BitVec 6} {m : RM} (h : EscOperandOk s op m) : escCheck s op (place s m) = .ok () := by
  cases m with
  | reg r => rfl
  | mem a =>
    rw [place, escCheck]
    split
    next hp => exact memCheck_ok (h hp)
    next => rfl

theorem exec_esc {a b : BitVec 3} {m : RM} {s : State} (hem : s.msw.em = false) (hts : s.msw.ts = false)
    (hm : EscOperandOk s (a ++ b) m) :
    exec (.esc a b m) s = finish s
      (afterExtension s (Config.escWaits (a ++ b)) (Config.escTestsError (a ++ b)) (escIssue s (a ++ b) (place s m))) := by
  simp only [exec, execEsc, hem, hts, escCheck_ok hm]
  rfl

/-- Handing an ESC over is at least one bus operation (20_memory.md R95). -/
theorem escTransfers_ne_nil (s : State) (op : BitVec 6) : escTransfers s op ≠ [] := List.cons_ne_nil _ _

theorem extPort_mem (k : Fin 3) : extPort k = 0x00F8 ∨ extPort k = 0x00FA ∨ extPort k = 0x00FC := by
  revert k
  decide

/-- Every bus operation of the handing over is a word's, at a port of the extension (R95). -/
theorem escTransfers_words {s : State} {op : BitVec 6} {e : IoEvent} (h : e ∈ escTransfers s op) :
    e.width = .word ∧ (e.port = 0x00F8 ∨ e.port = 0x00FA ∨ e.port = 0x00FC) := by
  obtain ⟨⟨output, k, v⟩, -, rfl⟩ := List.mem_map.1 h
  exact ⟨rfl, extPort_mem k⟩

theorem escOperand_place (s : State) (op : BitVec 6) (m : RM) : escOperand s op (place s m) = escTarget s op m := by
  cases m <;> rfl

/-- What handing an ESC over does: bus operations, the operand that PEREQ moves, and nothing else (R483). -/
theorem escIssue_spec (s : State) (op : BitVec 6) (m : RM) :
    let t := escIssue s op (place s m)
    ∃ l, t.flags = s.flags ∧ l ≠ [] ∧ t.io = l ++ s.io ∧
      (∀ e, e ∈ l → e.width = .word ∧ (e.port = 0x00F8 ∨ e.port = 0x00FA ∨ e.port = 0x00FC)) ∧
      t.ext = escTarget s op m ∧ OnlyFlags { s with io := t.io, ext := t.ext } t :=
  ⟨(escTransfers s op).reverse, rfl, List.reverse_ne_nil_iff.2 (escTransfers_ne_nil s op), rfl,
    fun _ he => escTransfers_words (List.mem_reverse.1 he), escOperand_place s op m, .refl _⟩

/-- Settles O36: first whether the extension is available, then for ESC its operand, then BUSY and ERROR. -/
theorem waitAndEscFollowExtension : Obligations.WaitAndEscFollowExtension := by
  refine ⟨fun s => ⟨wait_takesException, fun h hb => ?_, fun h hb hr => ?_, fun h hb hr => ?_⟩,
    fun a b m s => ⟨esc_takesException, fun hem hts hm => ?_⟩⟩
  · exact waits_of_busy (exec_wait h) hb rfl
  · exact takesExtensionError_of_error (exec_wait h) (by simp [hb]) hr rfl
  · exact exec_of_extensionReady (exec_wait h) (by simp [hb]) (by simp [hr])
  · have he := exec_esc hem hts hm
    refine ⟨waits_of_busy he, fun hb => ⟨takesExtensionError_of_error he hb, fun hr => ?_⟩⟩
    obtain ⟨l, hspec⟩ := escIssue_spec s (a ++ b) m
    exact ⟨_, l, exec_of_extensionReady he hb hr, hspec⟩

end Sys2Proof.Machine
end

section
/-! PROOFS. The table registers and the machine status word (47_protection_control.md R501 to R504, R510, R511; 10_state.md R36): a
table register is three words in memory, read one after the other or written as a run of three; MSW is a register of its own, with
PE the bit that only RESET clears. -/

namespace Sys2Proof.Machine

/-! ### Protected mode is left by RESET alone -/

/-- Settles O49: every step without RESET keeps the mode. -/
theorem onlyResetLeavesProtectedMode : Obligations.OnlyResetLeavesProtectedMode := fun _ _ hp hr h =>
  (step_modeKept hr h).protectedMode hp

/-! ### Loading a table register -/

/-- The table register that the words from a memory operand on give (R501). -/
def tableAt (s : State) (a : MemOp) : TableReg :=
  { base := loByte (peek16 s (opSeg s a) (ea s a + 4)) ++ peek16 s (opSeg s a) (ea s a + 2)
    limit := peek16 s (opSeg s a) (ea s a) }

theorem tableAt_base_toNat (s : State) (a : MemOp) :
    (tableAt s a).base.toNat =
      (peek16 s (opSeg s a) (ea s a + 2)).toNat + (peek16 s (opSeg s a) (ea s a + 4)).toNat % 256 * 65536 := by
  rw [tableAt, append_toNat, loByte_toNat]
  rfl

theorem loadTable_ok {s : State} {a : MemOp} (hc : s.cpl = 0) (h : WordsAccessible s a 3 .read) :
    loadTable s a = .ok (tableAt s a) := by
  rw [loadTable, needCpl0_ok hc, ok_bind', memReadNth_ok (h 0 (by decide)), ok_bind', memReadNth_ok (h 1 (by decide)),
    ok_bind', memReadNth_ok (h 2 (by decide)), tableAt, show ea s a + BitVec.ofNat 16 (2 * 0) = ea s a from BitVec.add_zero _]
  rfl

/-- GDTR, or IDTR, is written. -/
def State.setTable (s : State) (idt : Bool) (v : TableReg) : State := if idt then { s with idtr := v } else { s with gdtr := v }

theorem exec_tableLoad {i : Instr} {idt : Bool} {a : MemOp} {s : State} (hi : tableLoadForm i = some (idt, a))
    (hc : s.cpl = 0) (h : WordsAccessible s a 3 .read) : exec i s = .next (s.setTable idt (tableAt s a)) := by
  have hload := loadTable_ok hc h
  cases i with
  | lgdt a =>
    cases hi
    rw [exec, execLgdt, hload]
    rfl
  | lidt a =>
    cases hi
    rw [exec, execLidt, hload]
    rfl
  | _ => cases hi

/-- What loading a table register does: that register, and nothing else. -/
theorem setTable_spec (s : State) (idt : Bool) (v : TableReg) :
    let t := s.setTable idt v
    (if idt then t.idtr else t.gdtr) = v ∧ t.flags = s.flags ∧
      OnlyFlags (if idt then { s with idtr := t.idtr } else { s with gdtr := t.gdtr }) t := by
  cases idt with
  | false => exact ⟨rfl, rfl, .refl _⟩
  | true => exact ⟨rfl, rfl, .refl _⟩

/-! ### Storing a table register -/

/-- The state after a table register has been stored, with its last byte free (R503). -/
def tableStored (s : State) (x : SReg) (o : Word) (v : TableReg) : State :=
  (poke16 (poke16 (poke16 s x o v.limit) x (o + 2) (v.base.extractLsb' 0 16)) x (o + 4)
    (wordOf (v.base.extractLsb' 16 8) (loByte (s.freeWord 0)))).drawn 1

theorem storeTable_ok {s : State} {a : MemOp} (v : TableReg) (h : WordsAccessible s a 3 .write) :
    storeTable s a v = .ok (tableStored s (opSeg s a) (ea s a) v) := by
  have h0 : memCheck s (opSeg s a) (ea s a).toNat 2 .write = .ok () := memCheck_ok (h 0 (by decide))
  have h1 : memCheck s (opSeg s a) ((ea s a).toNat + 2) 2 .write = .ok () := memCheck_ok (h 1 (by decide))
  have h2 : memCheck s (opSeg s a) ((ea s a).toNat + 4) 2 .write = .ok () := memCheck_ok (h 2 (by decide))
  rw [storeTable, h0, ok_bind', h1, ok_bind', h2]
  rfl

theorem exec_tableStore {i : Instr} {v : TableReg} {a : MemOp} {s : State} (hi : tableStoreForm s i = some (v, a))
    (h : WordsAccessible s a 3 .write) : exec i s = .next (tableStored s (opSeg s a) (ea s a) v) := by
  cases i with
  | sgdt | sidt =>
    cases hi
    exact congrArg (finish s) (storeTable_ok _ h)
  | _ => cases hi

theorem peek8_drawn (s : State) (n : Nat) (x : SReg) (o : Word) : peek8 (s.drawn n) x o = peek8 s x o := by
  rw [peek8, load8_drawn]
  rfl

theorem peek16_drawn (s : State) (n : Nat) (x : SReg) (o : Word) : peek16 (s.drawn n) x o = peek16 s x o := by
  rw [peek16, peek8_drawn, peek8_drawn, peek16]

/-- A byte beside a word written through a segment stays. -/
theorem peek8_poke16_ne (s : State) (x : SReg) {o p : Word} (v : Word) (h : p ≠ o) (h1 : p ≠ o + 1) :
    peek8 (poke16 s x o v) x p = peek8 s x p := by
  rw [peek8, peek8, segAddr_poke16]
  refine load8_poke s .word x o v ?_
  rintro (he | ⟨-, he⟩)
  · exact h (segAddr_inj s x he)
  · exact h1 (segAddr_inj s x he)

theorem peek16_poke16_ne (s : State) (x : SReg) {o p : Word} (v : Word) (h : p ≠ o) (h1 : p ≠ o + 1) (h2 : p + 1 ≠ o) :
    peek16 (poke16 s x o v) x p = peek16 s x p := by
  have hsucc : p + 1 ≠ o + 1 := fun he => h (BitVec.add_left_inj _ |>.1 he)
  rw [peek16, peek8_poke16_ne s x v h h1, peek8_poke16_ne s x v h2 hsucc, peek16]

theorem SameSystem.tableStored (s : State) (x : SReg) (o : Word) (v : TableReg) : SameSystem s (tableStored s x o v) :=
  (((SameSystem.poke s .word x o _).trans (.poke _ .word x (o + 2) _)).trans (.poke _ .word x (o + 4) _)).trans (.drawn _ 1)

theorem tableStored_registers (s : State) (x : SReg) (o : Word) (v : TableReg) :
    (tableStored s x o v).regs = s.regs ∧ (tableStored s x o v).flags = s.flags ∧ (tableStored s x o v).ip = s.ip := by
  simp [tableStored]

section
variable {s : State} (hm : PlainMemory s) (x : SReg) (o : Word) (v : TableReg)

include hm in
/-- The limit, then the base, low bytes first (R503). -/
theorem peek_tableStored :
    peek16 (tableStored s x o v) x o = v.limit ∧
      (peek16 (tableStored s x o v) x (o + 2)).toNat + (peek8 (tableStored s x o v) x (o + 4)).toNat * 65536 =
        v.base.toNat := by
  have hlimit : peek16 (tableStored s x o v) x o = v.limit := by
    rw [tableStored, peek16_drawn, peek16_poke16_ne, peek16_poke16_ne, peek16_poke16 _ _ _ _ hm] <;> bv_omega
  have hlow : peek16 (tableStored s x o v) x (o + 2) = v.base.extractLsb' 0 16 := by
    rw [tableStored, peek16_drawn, peek16_poke16_ne, peek16_poke16 _ _ _ _ (hm.poke16 ..)] <;> bv_omega
  have hhigh : peek8 (tableStored s x o v) x (o + 4) = v.base.extractLsb' 16 8 := by
    rw [tableStored, peek8_drawn, load8_poke16_lo _ _ _ ((hm.poke16 ..).poke16 ..), loByte_wordOf]
  refine ⟨hlimit, ?_⟩
  have hbase := v.base.isLt
  rw [hlow, hhigh, BitVec.extractLsb'_toNat, BitVec.extractLsb'_toNat, Nat.shiftRight_eq_div_pow, Nat.shiftRight_eq_div_pow]
  omega

/-- The six bytes of the operand are all that changes. -/
theorem load8_tableStored {p : Phys} (h : ∀ k, k < 6 → p ≠ segAddr s x (o + BitVec.ofNat 16 k)) :
    (tableStored s x o v).load8 p = s.load8 p := by
  have outside {t : State} (ht : ∀ q, segAddr t x q = segAddr s x q) (k : Nat) (hk : k + 1 < 6) :
      ¬ Touches t .word x (o + BitVec.ofNat 16 k) p := by
    rintro (he | ⟨-, he⟩)
    · exact h k (by omega) (he.trans (ht _))
    · refine h (k + 1) hk (he.trans ((ht _).trans ?_))
      rw [BitVec.add_assoc, BitVec.ofNat_add k 1]
      rfl
  have h0 := outside (t := s) (fun _ => rfl) 0 (by decide)
  rw [show o + BitVec.ofNat 16 0 = o from BitVec.add_zero o] at h0
  rw [tableStored, load8_drawn]
  exact (load8_poke _ .word x (o + 4) _ (outside (by simp) 4 (by decide))).trans
    ((load8_poke _ .word x (o + 2) _ (outside (by simp) 2 (by decide))).trans (load8_poke s .word x o _ h0))

end

/-! ### The machine status word -/

/-- The state after LMSW (R510). -/
def State.loadMsw (s : State) (v : Word) : State :=
  { s with msw := { pe := s.msw.pe || v.getLsbD 0, mp := v.getLsbD 1, em := v.getLsbD 2, ts := v.getLsbD 3, hiKnown := false } }

theorem exec_lmsw {m : RM} {s : State} (hc : s.cpl = 0) (h : CanRead s .word m) :
    exec (.lmsw m) s = .next (s.loadMsw (valueOf s .word m)) := by
  rw [exec, execLmsw, needCpl0_ok hc, ok_bind', readRm_ok h]
  rfl

theorem putPlace_drawn (s : State) (n : Nat) (w : Width) (p : Place) (v : Val w) :
    putPlace (s.drawn n) w p v = (putPlace s w p v).drawn n := by
  cases p with
  | mem x o => cases w <;> rfl
  | reg r => cases w <;> cases r <;> rfl

theorem exec_smsw {m : RM} {s : State} (h : CanWrite s .word m) :
    exec (.smsw m) s = .next (writtenDrawing s 1 .word m s.flags (mswWord s)) := by
  rw [exec, execSmsw, writePlace_ok _ h, writtenDrawing, putPlace_drawn]
  rfl

/-- The defined bits of MSW (10_state.md R36). -/
theorem mswWord_bits (s : State) :
    (mswWord s).getLsbD 0 = s.msw.pe ∧ (mswWord s).getLsbD 1 = s.msw.mp ∧ (mswWord s).getLsbD 2 = s.msw.em ∧
      (mswWord s).getLsbD 3 = s.msw.ts := by
  simp only [mswWord, BitVec.getLsbD_append, BitVec.getLsbD_ofBool]
  simp

/-- The bits above them before the first LMSW (R36, 92_eei_decisions.md D10). -/
theorem mswWord_high {s : State} (h : s.msw.hiKnown = true) : (mswWord s).toNat / 16 = 0xFFF := by
  have bit_lt (b : Bool) := (BitVec.ofBool b).isLt
  have hpe := bit_lt s.msw.pe
  have hmp := bit_lt s.msw.mp
  have hem := bit_lt s.msw.em
  have hts := bit_lt s.msw.ts
  have hhigh : (0xFFF : BitVec 12).toNat = 0xFFF := rfl
  rw [mswWord, if_pos h, append_toNat, append_toNat, append_toNat, append_toNat, hhigh]
  omega

/-- Settles O37: each instruction's end state, then what it holds. -/
theorem systemRegisterTransfers : Obligations.SystemRegisterTransfers := by
  refine ⟨fun i idt a s hi hc ha => ?loads, fun i v a s hi hm ha => ?stores, fun m s hc hr => ?lmsw, fun m s hm hw => ?smsw⟩
  case loads =>
    obtain ⟨hv, hflags, honly⟩ := setTable_spec s idt (tableAt s a)
    refine ⟨_, exec_tableLoad hi hc ha, ?_, hflags, honly⟩
    simp only [hv]
    exact ⟨rfl, tableAt_base_toNat s a⟩
  case stores =>
    obtain ⟨hlimit, hbase⟩ := peek_tableStored hm (opSeg s a) (ea s a) v
    obtain ⟨hregs, hflags, hip⟩ := tableStored_registers s (opSeg s a) (ea s a) v
    exact ⟨_, exec_tableStore hi ha, hlimit, hbase, hflags, .tableStored .., hip, fun r _ => State.getW_congr hregs r, fun p hp =>
      load8_tableStored _ _ v fun k hk he => hp ⟨k, hk, he⟩⟩
  case lmsw => exact ⟨_, exec_lmsw hc hr, ⟨rfl, rfl, rfl, rfl⟩, rfl, .refl _⟩
  case smsw =>
    obtain ⟨hvalue, honly, hflags⟩ := writtenDrawing_spec hm 1 .word m s.flags (mswWord s)
    refine ⟨_, exec_smsw hw, ?_, hflags, honly⟩
    simp only [hvalue]
    obtain ⟨hpe, hmp, hem, hts⟩ := mswWord_bits s
    exact ⟨hpe, hmp, hem, hts, mswWord_high⟩

end Sys2Proof.Machine
end

section
/-! PROOFS. LLDT and LTR (47_protection_control.md R505, R508): in steady memory both name their descriptor as a task switch names
a task state segment, so that the checks are those of `namedTask`. -/

namespace Sys2Proof.Machine

/-! ### The checks of a system segment -/

/-- In steady memory it does not matter when a descriptor is looked up. -/
theorem Steady.needDescriptor_later {s : State} (hs : Steady s) (g g' : ReadGroup) (sel : Word) (e : Stop) :
    needDescriptor (s.later g) sel e = needDescriptor (s.later g') sel e := by
  rw [needDescriptor, needDescriptor, hs.fetchDescriptor_later, hs.fetchDescriptor_later]

/-- What naming a descriptor of type `t` in the GDT raises, if anything (R505, R508). -/
def systemFault (s : State) (sel : Word) (t : Nat) : Option (Byte × Word) :=
  if sel.toNat < 4 ∨ selLocal sel = true then some (13, sel &&& 0xFFFC)
  else
    match fetchDescriptor s sel with
    | none => some (13, sel &&& 0xFFFC)
    | some (_, d) =>
      if d.isType t = false then some (13, sel &&& 0xFFFC)
      else if arP d.ar = false then some (11, sel &&& 0xFFFC)
      else none

theorem tssFault_eq (s : State) (sel : Word) : tssFault s sel = systemFault s sel 1 := rfl

theorem ldtFault_eq (s : State) {sel : Word} (hn : 4 ≤ sel.toNat) : ldtFault s sel = systemFault s sel 2 := by
  by_cases hl : selLocal sel = true
  · exact (if_pos hl).trans (if_pos (.inr hl)).symm
  · exact (if_neg hl).trans (if_neg (not_or.2 ⟨Nat.not_lt.2 hn, hl⟩)).symm

section
variable {s : State} (hs : Steady s) {sel : Word} {t : Nat}
include hs

theorem namedTask_systemFault {v : Byte} {c : Word} (h : systemFault s sel t = some (v, c)) :
    namedTask s sel t (protection (sel &&& 0xFFFC)) = .error (.exc (.exn v (some c))) := by
  unfold systemFault at h
  split at h
  · next hsel =>
    cases h
    exact namedTask_noSelector _ hsel
  next hsel =>
  obtain ⟨hn, hl⟩ := not_or.1 hsel
  replace hn := Nat.le_of_not_lt hn
  replace hl := Bool.eq_false_iff.2 hl
  split at h
  · next hf =>
    cases h
    exact namedTask_noDescriptor hs _ hf
  next a d hf =>
  split at h
  · next ht =>
    cases h
    exact namedTask_otherType hs _ hn hl hf ht
  next ht =>
  split at h
  · next hP =>
    cases h
    exact namedTask_notPresent hs _ hn hl hf (by simpa using ht) hP
  · cases h

theorem namedTask_passed {a : Phys} {d : Desc} (h : systemFault s sel t = none) (hf : fetchDescriptor s sel = some (a, d)) :
    namedTask s sel t (protection (sel &&& 0xFFFC)) = .ok (a, d) := by
  simp only [systemFault, hf] at h
  split at h
  · cases h
  next hsel =>
  obtain ⟨hn, hl⟩ := not_or.1 hsel
  split at h
  · cases h
  next ht =>
  split at h
  · cases h
  next hP =>
  exact namedTask_ok hs _ (Nat.le_of_not_lt hn) (Bool.eq_false_iff.2 hl) hf (by simpa using ht) (by simpa using hP)

end

/-! ### LLDT and LTR -/

/-- The state after LTR: the task state segment is marked busy, and TR names it (R508). -/
def taskLoaded (s : State) (sel : Word) (p : Phys × Desc) : State :=
  { markBusy s p.1 p.2 with tr := { sel := sel, base := p.2.base, limit := p.2.limit } }

section
variable {s : State} {m : RM} (hp : s.msw.pe = true) (hc : s.cpl = 0) (hr : CanRead s .word m)
include hp hc hr

theorem exec_lldt_null (hn : (valueOf s .word m).toNat < 4) :
    exec (.lldt m) s = .next { s with ldtr := { s.ldtr with sel := valueOf s .word m, valid := false } } := by
  rw [exec, execLldt, needProtected_tests s hp, ok_bind', needCpl0_ok hc, ok_bind', readRm_ok hr, ok_bind',
    selNull_eq_true hn, if_pos rfl]
  rfl

theorem exec_lldt (hs : Steady s) (hn : 4 ≤ (valueOf s .word m).toNat) :
    exec (.lldt m) s =
      finish s (namedTask s (valueOf s .word m) 2 (protection (valueOf s .word m &&& 0xFFFC)) >>= fun p =>
        pure { s with ldtr := { sel := valueOf s .word m, base := p.2.base, limit := p.2.limit, valid := true } }) := by
  rw [exec, execLldt, needProtected_tests s hp, ok_bind', needCpl0_ok hc, ok_bind', readRm_ok hr, ok_bind',
    selNull_eq_false hn, if_neg Bool.false_ne_true]
  simp only [namedTask, selNull_eq_false hn, selCode_false, Bool.not_false, Bool.true_and, bind_assoc, pure_bind,
    hs.needDescriptor_later .descriptor .target]

theorem exec_ltr (hs : Steady s) :
    exec (.ltr m) s =
      finish s (namedTask s (valueOf s .word m) 1 (protection (valueOf s .word m &&& 0xFFFC)) >>= fun p =>
        pure (taskLoaded s (valueOf s .word m) p)) := by
  rw [exec, execLtr, needProtected_tests s hp, ok_bind', needCpl0_ok hc, ok_bind', readRm_ok hr, ok_bind']
  simp only [namedTask, taskLoaded, selCode_false, bind_assoc, pure_bind, hs.needDescriptor_later .descriptor .target]

end

/-- The busy mark is all that LTR changes in memory, and TR in the processor. -/
theorem taskLoaded_spec {s : State} (hm : PlainMemory s) (sel : Word) (a : Phys) (d : Desc) :
    let t := taskLoaded s sel (a, d)
    t.load8 (a + 5) = d.ar ||| 2 ∧ (∀ p, p ≠ a + 5 → t.load8 p = s.load8 p) ∧ t.flags = s.flags ∧
      SameSystem { s with tr := t.tr } t ∧ t.ip = s.ip ∧ RegsBut s t [] := by
  have hread (p : Phys) : (taskLoaded s sel (a, d)).load8 p = (markBusy s a d).load8 p := State.load8_congr rfl rfl rfl p
  refine ⟨(hread _).trans (load8_markBusy a d hm), fun p hp => (hread p).trans (State.load8_store8_ne s _ hp), rfl, ?_, rfl,
    fun _ _ => rfl⟩
  constructor <;> rfl

/-- Settles O38: null for LLDT, then the checks that the two instructions share. -/
theorem systemSegmentLoads : Obligations.SystemSegmentLoads := by
  refine ⟨fun m s hp hs hc hr => ⟨fun hn => ?null, fun hn n c h => ?ldtFails, fun hn h a d hf => ?ldtPasses⟩,
    fun m s hp hc hm hr => ⟨fun n c h => ?tssFails, fun h a d hf => ?tssPasses⟩⟩
  case null => exact ⟨_, exec_lldt_null hp hc hr hn, rfl, rfl, rfl, .refl _⟩
  case ldtFails =>
    rw [ldtFault_eq s hn] at h
    refine takesException_of_error (exec_lldt hp hc hr hs hn) ?_
    rw [namedTask_systemFault hs h]
    rfl
  case ldtPasses =>
    rw [ldtFault_eq s hn] at h
    have hexec := exec_lldt hp hc hr hs hn
    rw [namedTask_passed hs h hf] at hexec
    exact ⟨_, hexec, rfl, rfl, .refl _⟩
  case tssFails =>
    rw [tssFault_eq] at h
    refine takesException_of_error (exec_ltr hp hc hr hm.steady) ?_
    rw [namedTask_systemFault hm.steady h]
    rfl
  case tssPasses =>
    rw [tssFault_eq] at h
    have hexec := exec_ltr hp hc hr hm.steady
    rw [namedTask_passed hm.steady h hf] at hexec
    exact ⟨_, hexec, rfl, taskLoaded_spec hm _ a d⟩

end Sys2Proof.Machine
end

section
/-! PROOFS. VERR, VERW, LSL, LAR and ARPL (47_protection_control.md R514 to R519): what each finds of a selector, in the terms of
the descriptor that the selector names; then ZF, the register, and the accessed bit that the platform may have set. -/

namespace Sys2Proof.Machine

/-! ### What a selector shows -/

theorem visible_iff (s : State) (sel : Word) (d : Desc) : visible s d.ar sel = true ↔ VisibleAt s sel d := by
  simp [visible, VisibleAt]

theorem conforming_iff (d : Desc) : (arCode d.ar && arC d.ar) = true ↔ Conforming d := Bool.and_eq_true_iff

theorem selNull_eq_false_iff (sel : Word) : selNull sel = false ↔ 4 ≤ sel.toNat := by
  rw [← Bool.not_eq_true, selNull_iff, Nat.not_lt]

/-- For a segment that can be read, the privilege test of a load is that of VERR (20_memory.md R132). -/
theorem dataPrivOk_iff (s : State) (sel : Word) {d : Desc} (hr : arReadable d.ar = true) :
    dataPrivOk s d.ar sel = true ↔ Conforming d ∨ VisibleAt s sel d := by
  obtain ⟨hS, -⟩ := Bool.and_eq_true_iff.1 hr
  simp [dataPrivOk, Conforming, arCode, hS, VisibleAt]

section
variable {s : State} (hs : Steady s) {sel : Word}
include hs

theorem verifyRead_iff : verifyRead s sel = true ↔ SegmentReadable s sel := by
  simp only [verifyRead, SegmentReadable, hs.fetchDescriptor_later]
  cases hf : fetchDescriptor s sel with
  | none => simp
  | some p =>
    obtain ⟨a, d⟩ := p
    have hpriv := dataPrivOk_iff s sel (d := d)
    simp only [Bool.and_eq_true, Bool.not_eq_true', selNull_eq_false_iff, Option.some.injEq, Prod.mk.injEq, and_assoc]
    constructor
    · rintro ⟨hn, hr, hv⟩
      exact ⟨hn, a, d, rfl, rfl, hr, (hpriv hr).1 hv⟩
    · rintro ⟨hn, _, _, rfl, rfl, hr, hv⟩
      exact ⟨hn, hr, (hpriv hr).2 hv⟩

theorem verifyWrite_iff : verifyWrite s sel = true ↔ SegmentWritable s sel := by
  simp only [verifyWrite, SegmentWritable, hs.fetchDescriptor_later]
  cases hf : fetchDescriptor s sel with
  | none => simp
  | some p =>
    obtain ⟨a, d⟩ := p
    simp only [Bool.and_eq_true, Bool.not_eq_true', selNull_eq_false_iff, visible_iff, Option.some.injEq, Prod.mk.injEq,
      and_assoc]
    constructor
    · rintro ⟨hn, hw, hv⟩
      exact ⟨hn, a, d, rfl, rfl, hw, hv⟩
    · rintro ⟨hn, _, _, rfl, rfl, hw, hv⟩
      exact ⟨hn, hw, hv⟩

/-- LSL finds the limit that can be seen, if any (R516). -/
theorem lslResult_eq_some_iff (v : Word) : lslResult s sel = some v ↔ ∃ d, LimitVisible s sel d ∧ d.limit = v := by
  simp only [lslResult, LimitVisible, hs.fetchDescriptor_later]
  by_cases hn : 4 ≤ sel.toNat
  swap
  · simp [hn, selNull_eq_true (Nat.lt_of_not_le hn)]
  cases hf : fetchDescriptor s sel with
  | none => simp
  | some p =>
    obtain ⟨a, d⟩ := p
    simp only [selNull_eq_false hn, Bool.false_eq_true, if_false, Option.ite_none_right_eq_some, Bool.and_eq_true,
      Bool.or_eq_true, visible_iff, or_assoc, Option.some.injEq, Prod.mk.injEq]
    constructor
    · rintro ⟨⟨htype, hv⟩, rfl⟩
      exact ⟨d, ⟨hn, ⟨a, rfl, rfl⟩, htype, hv⟩, rfl⟩
    · rintro ⟨_, ⟨-, ⟨_, rfl, rfl⟩, htype, hv⟩, rfl⟩
      exact ⟨⟨htype, hv⟩, rfl⟩

/-- A selector shows one limit at most. -/
theorem lslResult_isSome_iff : (lslResult s sel).isSome = true ↔ ∃ d, LimitVisible s sel d := by
  simp only [Option.isSome_iff_exists, lslResult_eq_some_iff hs]
  exact ⟨fun ⟨_, d, hd, _⟩ => ⟨d, hd⟩, fun ⟨d, hd⟩ => ⟨_, d, hd, rfl⟩⟩

theorem larResult_none (hf : NoDescriptor s sel) : larResult s sel = none := by
  have hf' : fetchDescriptor s sel = none := hf
  simp only [larResult, hs.fetchDescriptor_later, hf']

variable {a : Phys} {d : Desc} (hf : fetchDescriptor s sel = some (a, d))
include hf

/-- Whenever LAR loads, it is the access byte (R515). -/
theorem larResult_eq_some {v : Word} (h : larResult s sel = some v) : v = wordOf 0 d.ar := by
  simp only [larResult, hs.fetchDescriptor_later, hf, Option.ite_none_right_eq_some, Option.some.injEq] at h
  exact h.2.symm

/-- Outside the cases in which its page is uncertain, LAR loads what is visible (R515). -/
theorem larResult_isSome_iff (hn : 4 ≤ sel.toNat) (hc : ¬ Conforming d ∨ VisibleAt s sel d)
    (ht : arS d.ar = true ∨ (arType d.ar ≠ 0 ∧ arType d.ar < 8)) :
    (larResult s sel).isSome = true ↔ VisibleAt s sel d := by
  have hcode : (arCode d.ar && arC d.ar && !visible s d.ar sel) = false := by
    rw [Bool.and_eq_false_imp, conforming_iff, Bool.not_eq_false', visible_iff]
    exact hc.neg_resolve_left
  have htype : (!arS d.ar && (decide (arType d.ar = 0) || decide (8 ≤ arType d.ar))) = false := by
    rcases ht with hS | ⟨h0, h8⟩
    · simp [hS]
    · simp [h0, h8]
  have hcertain : larUncertain s d.ar sel = false := by rw [larUncertain, hcode, selNull_eq_false hn, htype]; rfl
  simp only [larResult, hs.fetchDescriptor_later, hf, hcertain, Bool.false_eq_true, if_false, ← visible_iff]
  cases visible s d.ar sel <;> simp

end

/-! ### What a test leaves -/

/-- A byte other than 0 reads back where memory keeps what is stored, in canonical form or not; elsewhere it reads as before. -/
theorem load8_store8_steady {s : State} (hs : Steady s) (a : Phys) {v : Byte} (hv : v ≠ 0) :
    (s.store8 a v).load8 a = v ∨ (s.store8 a v).load8 a = s.load8 a := by
  cases hk : s.memKind a with
  | ram =>
    have hkeep : (s.memKind a).keeps = true := by rw [hk]; rfl
    have hinsert : (s.store8 a v).mem = Memory.insert s.mem a.toNat v := by
      rw [State.store8_mem, if_pos hkeep]
      exact if_neg hv
    rw [State.load8_ram (s := s.store8 a v) hk, hinsert]
    exact .inl (Memory.read_insert_same ..)
  | rom | absent => exact .inr (State.load8_store8_notKept s v (by rw [hk]; rfl) a)
  | shared => exact absurd hk (hs.memKind a).1
  | device => exact absurd hk (hs.memKind a).2

theorem OnlyTested.refl (s : State) (sel : Word) : OnlyTested s s sel [] := ⟨.refl s, rfl, fun _ _ => rfl, rfl, fun _ => .inl rfl⟩

/-- A test leaves the state alone, or stores the access byte of the descriptor that it looks at, accessed bit set (20_memory.md
R129, R131). -/
theorem testedState_cases {s : State} (hs : Steady s) (sel : Word) :
    testedState s sel = s ∨ ∃ a d, 4 ≤ sel.toNat ∧ fetchDescriptor s sel = some (a, d) ∧
      testedState s sel = s.store8 (a + 5) (d.ar ||| 1) := by
  by_cases hn : 4 ≤ sel.toNat
  swap
  · exact .inl (if_pos (selNull_eq_true (Nat.lt_of_not_le hn)))
  simp only [testedState, hs.fetchDescriptor_later, selNull_eq_false hn, Bool.false_eq_true, if_false]
  cases hf : fetchDescriptor s sel with
  | none => exact .inl rfl
  | some p =>
    obtain ⟨a, d⟩ := p
    by_cases hA : (arS d.ar && !arA d.ar && Config.testSetsAccessed) = true
    · obtain ⟨⟨-, hclear⟩, -⟩ : (arS d.ar = true ∧ arA d.ar = false) ∧ _ := by simpa using hA
      have hset : setAccessed s a d = s.store8 (a + 5) (d.ar ||| 1) := if_neg (Bool.eq_false_iff.1 hclear)
      exact .inr ⟨a, d, hn, rfl, (if_pos hA).trans hset⟩
    · exact .inl (if_neg hA)

/-- A test changes at most the accessed bit of the descriptor that it looks at. -/
theorem OnlyTested.testedState {s : State} (hs : Steady s) (sel : Word) : OnlyTested s (testedState s sel) sel [] := by
  rcases testedState_cases hs sel with h | ⟨a, d, hn, hf, h⟩ <;> rw [h]
  · exact .refl s sel
  obtain ⟨-, hd⟩ := fetchDescriptor_eq_some hf
  obtain ⟨-, -, har⟩ := descAt_fields s a
  rw [← hd] at har
  refine ⟨(OnlyMemory.store8 s ..).sameSystem, rfl, fun _ _ => rfl, rfl, fun p => ?_⟩
  by_cases hp : p = a + 5
  · subst hp
    have hbit : d.ar ||| 1 ≠ 0 := fun h0 => by simpa using congrArg (·.getLsbD 0) h0
    exact (load8_store8_steady hs (a + 5) hbit).symm.imp_right fun hset => ⟨hn, by rw [hset, har], a, d, hf, rfl⟩
  · exact .inl (State.load8_store8_ne s _ hp)

section
variable {s t : State} {sel : Word} {l : List RegNum}

theorem OnlyTested.setZf (h : OnlyTested s t sel l) (z : Bool) : OnlyTested s (setZf t z) sel l := by
  obtain ⟨hsys, hip, hregs, hflags, hmem⟩ := h
  exact ⟨hsys.trans (.setFlags t _), hip, hregs, congrArg (fun f : Flags => { f with zf := z }) hflags, hmem⟩

theorem OnlyTested.setW (h : OnlyTested s t sel []) (r : RegNum) (v : Word) : OnlyTested s (t.setW r v) sel [r] := by
  obtain ⟨hsys, hip, hregs, hflags, hmem⟩ := h
  refine ⟨hsys.trans (.setW t r v), by simpa using hip, hregs.trans (.setW t r v), by simpa using hflags, fun p => ?_⟩
  rw [SameMemory.setW t r v p]
  exact hmem p

theorem OnlyTested.drawn (h : OnlyTested s t sel l) (n : Nat) : OnlyTested s (t.drawn n) sel l := by
  obtain ⟨hsys, hip, hregs, hflags, hmem⟩ := h
  exact ⟨hsys.trans (.drawn t n), hip, hregs, hflags, hmem⟩

theorem OnlyTested.selectorResult (h : OnlyTested s t sel []) (r : RegNum) (v : Option Word) :
    OnlyTested s (selectorResult t r v) sel [r] := by
  cases v with
  | none =>
    obtain ⟨hsys, hip, hregs, hflags, hmem⟩ := h.setZf false
    exact ⟨hsys, hip, hregs.mono (List.nil_subset _), hflags, hmem⟩
  | some v => exact (h.setW r v).setZf true

/-- ZF says whether LAR or LSL has loaded the register (R514). -/
theorem selectorResult_zf (t : State) (r : RegNum) (v : Option Word) : (selectorResult t r v).flags.zf = v.isSome := by
  cases v <;> rfl

theorem selectorResult_getW (t : State) (r : RegNum) (v : Option Word) :
    (selectorResult t r v).getW r = v.getD (t.getW r) := by
  cases v with
  | none => rfl
  | some v => exact State.getW_setW ..

end

/-! ### VERR, VERW, LSL, LAR -/

section
variable {s : State} {m : RM} (hp : s.msw.pe = true) (hr : CanRead s .word m)
include hp hr

theorem exec_verr :
    exec (.verr m) s = .next (setZf (testedState s (valueOf s .word m)) (verifyRead s (valueOf s .word m))) := by
  rw [exec, execVerr, needProtected_tests s hp, ok_bind', readRm_ok hr]
  rfl

theorem exec_verw :
    exec (.verw m) s = .next (setZf (testedState s (valueOf s .word m)) (verifyWrite s (valueOf s .word m))) := by
  rw [exec, execVerw, needProtected_tests s hp, ok_bind', readRm_ok hr]
  rfl

theorem exec_lsl (r : RegNum) :
    exec (.lsl r m) s = .next (selectorResult (testedState s (valueOf s .word m)) r (lslResult s (valueOf s .word m))) := by
  rw [exec, execLsl, needProtected_tests s hp, ok_bind', readRm_ok hr]
  rfl

theorem exec_lar (r : RegNum) :
    exec (.lar r m) s =
      .next ((selectorResult (testedState s (valueOf s .word m)) r (larResult s (valueOf s .word m))).drawn 1) := by
  rw [exec, execLar, needProtected_tests s hp, ok_bind', readRm_ok hr]
  rfl

end

/-- What LAR and LSL make of a selector with the result `v`: ZF, the register, and nothing else but the accessed bit. -/
theorem selectorResult_spec {s : State} (hs : Steady s) (sel : Word) (r : RegNum) (v : Option Word) :
    let t := selectorResult (testedState s sel) r v
    t.flags.zf = v.isSome ∧ (∀ w, v = some w → t.getW r = w) ∧ (t.flags.zf = false → t.getW r = s.getW r) ∧
      OnlyTested s t sel [r] := by
  have htested := OnlyTested.testedState hs sel
  have hreg : RegsBut s (testedState s sel) [] := by
    obtain ⟨-, -, hregs, -⟩ := htested
    exact hregs
  refine ⟨selectorResult_zf .., fun w hw => ?_, fun hz => ?_, htested.selectorResult r v⟩
  · rw [selectorResult_getW, hw, Option.getD_some]
  · rw [selectorResult_zf, Option.isSome_eq_false_iff, Option.isNone_iff_eq_none] at hz
    rw [selectorResult_getW, hz]
    exact hreg r List.not_mem_nil

/-! ### ARPL -/

theorem rpl_eq_mod (sel : Word) : rpl sel = sel.toNat % 4 := by
  rw [rpl, BitVec.extractLsb'_toNat]
  rfl

/-- A selector with the requested level of another (R519). -/
theorem withRpl_toNat (a b : Word) : ((a &&& 0xFFFC) ||| (b &&& 3)).toNat = a.toNat / 4 * 4 + b.toNat % 4 := by
  have hhigh : (a &&& 0xFFFC).toNat = 2 ^ 2 * (a.toNat / 4) := (clearLow_toNat a 2).trans (Nat.mul_comm ..)
  have hlow : (b &&& 3).toNat = b.toNat % 4 := (BitVec.toNat_and ..).trans (Nat.and_two_pow_sub_one_eq_mod b.toNat 2)
  rw [BitVec.toNat_or, hhigh, hlow, ← Nat.two_pow_add_eq_or_of_lt (Nat.mod_lt _ (by decide)), Nat.mul_comm]

theorem putPlace_flags (s : State) (w : Width) (p : Place) (v : Val w) : (putPlace s w p v).flags = s.flags := by
  cases p with
  | mem x o => exact poke_flags ..
  | reg r => exact State.setReg_flags ..

theorem putPlace_setFlags (s : State) (f : Flags) (w : Width) (p : Place) (v : Val w) :
    putPlace (s.setFlags f) w p v = (putPlace s w p v).setFlags f := by
  cases p with
  | mem x o => cases w <;> rfl
  | reg r => cases w <;> cases r <;> rfl

/-- Where flags alone change, the operand's frame holds, too. -/
theorem OnlyOperand.setFlags (s : State) (f : Flags) (w : Width) (m : RM) : OnlyOperand s (s.setFlags f) w m := by
  refine ⟨.setFlags s f, rfl, ?_⟩
  cases m with
  | mem a => exact ⟨fun _ _ => rfl, fun _ _ => rfl⟩
  | reg r => cases w with
    | byte => exact ⟨⟨fun _ _ => rfl, fun _ _ => rfl⟩, fun _ => rfl⟩
    | word => exact ⟨fun _ _ => rfl, fun _ => rfl⟩

section
variable {s : State} {m : RM} {r : RegNum} (hp : s.msw.pe = true) (hw : CanWrite s .word m)
include hp hw

theorem exec_arpl_raises (h : rpl (valueOf s .word m) < rpl (s.getW r)) :
    exec (.arpl m r) s =
      .next (written s .word m { s.flags with zf := true } ((valueOf s .word m &&& 0xFFFC) ||| (s.getW r &&& 3))) := by
  have hwritten (v : Word) : setZf (putPlace s .word (place s m) v) true = written s .word m { s.flags with zf := true } v := by
    rw [written, putPlace_setFlags, setZf, putPlace_flags]
  rw [exec, execArpl, needProtected_tests s hp, ok_bind', checkWrite_ok hw, ok_bind', readRm_ok hw.canRead, ← hwritten]
  exact congrArg Host.Outcome.next (if_pos h)

theorem exec_arpl_keeps (h : ¬ rpl (valueOf s .word m) < rpl (s.getW r)) :
    exec (.arpl m r) s = .next (setZf s false) := by
  rw [exec, execArpl, needProtected_tests s hp, ok_bind', checkWrite_ok hw, ok_bind', readRm_ok hw.canRead]
  exact congrArg Host.Outcome.next (if_neg h)

end

/-- Settles O39: each end state, with what `verifyRead`, `verifyWrite`, `lslResult` and `larResult` find. -/
theorem selectorTestsReportThroughZeroFlag : Obligations.SelectorTestsReportThroughZeroFlag := by
  refine ⟨fun m s hp hs hr => ⟨?verr, ?verw⟩, fun r m s hp hs hr => ⟨?lsl, ?lar⟩, fun m r s hp hm hw => ?arpl⟩
  case verr => exact ⟨_, exec_verr hp hr, verifyRead_iff hs, (OnlyTested.testedState hs _).setZf _⟩
  case verw => exact ⟨_, exec_verw hp hr, verifyWrite_iff hs, (OnlyTested.testedState hs _).setZf _⟩
  case lsl =>
    obtain ⟨hzf, hload, hkeep, honly⟩ := selectorResult_spec hs (valueOf s .word m) r (lslResult s (valueOf s .word m))
    exact ⟨_, exec_lsl hp hr r, (Bool.eq_iff_iff.1 hzf).trans (lslResult_isSome_iff hs),
      fun d hd => hload _ ((lslResult_eq_some_iff hs _).2 ⟨d, hd, rfl⟩), hkeep, honly⟩
  case lar =>
    obtain ⟨hzf, hload, hkeep, honly⟩ := selectorResult_spec hs (valueOf s .word m) r (larResult s (valueOf s .word m))
    refine ⟨_, exec_lar hp hr r, fun hf => ?none, fun a d hn hf hc ht =>
      (Bool.eq_iff_iff.1 hzf).trans (larResult_isSome_iff hs hf hn hc ht), fun a d hf hz => ?loaded, hkeep, honly.drawn 1⟩
    case none => exact hzf.trans (congrArg Option.isSome (larResult_none hs hf))
    case loaded =>
      obtain ⟨v, hv⟩ := Option.isSome_iff_exists.1 (hzf.symm.trans hz)
      have hreg := (hload v hv).trans (larResult_eq_some hs hf hv)
      refine (congrArg BitVec.toNat hreg).trans ?_
      rw [wordOf_toNat]
      exact Nat.zero_add _
  case arpl =>
    simp only [← rpl_eq_mod]
    by_cases h : rpl (valueOf s .word m) < rpl (s.getW r)
    · obtain ⟨hvalue, honly, hflags⟩ := written_spec hm .word m { s.flags with zf := true }
        ((valueOf s .word m &&& 0xFFFC) ||| (s.getW r &&& 3))
      refine ⟨_, exec_arpl_raises hp hw h, ⟨fun _ => ⟨by rw [hflags], ?_⟩, fun hle => absurd h (Nat.not_lt.2 hle)⟩, ?_, honly⟩
      · rw [hvalue, withRpl_toNat, rpl_eq_mod]
      · rw [hflags]
    · exact ⟨_, exec_arpl_keeps hp hw h, ⟨fun hlt => absurd hlt h, fun _ => ⟨rfl, by cases m <;> rfl⟩⟩, rfl, .setFlags ..⟩

end Sys2Proof.Machine
end

section
/-! PROOFS. The sample words of 30_encoding.md, and the privilege rules (60_exceptions.md R535, R590): the settled statements. -/

namespace Sys2Proof.Machine

/-! ### Instructions that may not run where they are -/

section
variable {s : State} {α : Type}

/-- Outside CPL 0 what stands behind the test of CPL does not run. -/
theorem needCpl0_refused (h : s.cpl ≠ 0) (f : Unit → M α) : needCpl0 s >>= f = .error (protection 0) := by
  rw [needCpl0, decide_eq_false h]
  rfl

/-- In real mode what stands behind the test of the mode does not run. -/
theorem needProtected_refused (h : s.msw.pe = false) (f : Unit → M α) : needProtected s >>= f = .error invalidOpcode := by
  rw [needProtected, h]
  rfl

theorem needProtected_passed (h : s.msw.pe = true) (f : Unit → M α) : needProtected s >>= f = f () := by
  rw [needProtected, h]
  rfl

/-- Where CPL > IOPL what stands behind the test of IOPL does not run. -/
theorem needIopl_refused (h : ¬ IoAllowed s) (f : Unit → M α) : needIopl s >>= f = .error (protection 0) := by
  have htest : (!s.msw.pe || decide (s.cpl ≤ s.ioplNum)) = false := by
    simpa [IoAllowed] using h
  rw [needIopl, htest]
  rfl

end

theorem loadTable_refused {s : State} (h : s.cpl ≠ 0) (a : MemOp) : loadTable s a = .error (protection 0) :=
  needCpl0_refused h _

/-- Table 13: the instructions of CPL 0. -/
theorem needsLevel0_traps {i : Instr} {s : State} (hi : needsLevel0 i = true) (hp : s.msw.pe = true) (h : s.cpl ≠ 0) :
    TakesException i s 13 (some 0) := by
  cases i <;> simp only [needsLevel0, Bool.false_eq_true] at hi
  case lgdt a | lidt a =>
    exact takesException_of_protection rfl (by rw [loadTable_refused h]; rfl)
  case lldt | ltr =>
    exact takesException_of_protection rfl ((needProtected_passed hp _).trans (needCpl0_refused h _))
  case lmsw | clts | hlt => exact takesException_of_protection rfl (needCpl0_refused h _)

/-- Table 13: the instructions of the I/O privilege level. -/
theorem needsIoPrivilege_traps {i : Instr} {s : State} (hi : needsIoPrivilege i = true) (h : ¬ IoAllowed s) :
    TakesException i s 13 (some 0) := by
  cases i <;> simp only [needsIoPrivilege, Bool.false_eq_true] at hi
  case cli | sti | lockPfx => exact takesException_of_protection rfl (needIopl_refused h _)

/-- The instructions that real mode does not have. -/
theorem protectedOnly_traps {i : Instr} {s : State} (hi : protectedOnly i = true) (h : s.msw.pe = false) :
    TakesException i s 6 none := by
  cases i <;> simp only [protectedOnly, Bool.false_eq_true] at hi
  case sldt | str | lldt | ltr | lar | lsl | verr | verw | arpl =>
    exact takesException_of_error rfl (needProtected_refused h _)

/-- Settles O40: each instruction stops at its first test. -/
theorem privilegeViolationsTrap : Obligations.PrivilegeViolationsTrap :=
  ⟨fun _ _ hi hp h => needsLevel0_traps hi hp h, fun _ _ hi h => needsIoPrivilege_traps hi h,
    fun _ _ hi h => protectedOnly_traps hi h⟩

/-- Settles O43: each word is decoded. -/
theorem sampleWordsDecode : Obligations.SampleWordsDecode := by
  unfold Obligations.SampleWordsDecode encodingSamples
  simp only [List.forall_mem_cons, List.not_mem_nil, false_implies, implies_true, and_true]
  refine ⟨?_, ?_, ?_, ?_, ?_, ?_, ?_, ?_, ?_, ?_, ?_, ?_, ?_, ?_, ?_, ?_, ?_⟩ <;> rfl

end Sys2Proof.Machine
end

section
/-! PROOFS. What unprivileged code leaves alone (60_exceptions.md R590), the instructions: by `Ends`, one lemma for each shared
operation, then every instruction that can reach no task switch. -/

namespace Sys2Proof.Machine

/-! ### The system registers -/

/-- The registers that Table 13 guards (60_exceptions.md R590; 10_state.md R38 to R41). -/
structure SystemRegs where
  gdtr : TableReg
  idtr : TableReg
  ldtr : Ldtr
  tr : Tr
  msw : Msw
  iopl : BitVec 2

def State.system (s : State) : SystemRegs :=
  { gdtr := s.gdtr, idtr := s.idtr, ldtr := s.ldtr, tr := s.tr, msw := s.msw, iopl := s.flags.iopl }

/-- The same registers with another IOPL. -/
def SystemRegs.withIopl (r : SystemRegs) (n : BitVec 2) : SystemRegs := { r with iopl := n }

theorem State.system_eq_iff {s t : State} :
    t.system = s.system ↔ t.gdtr = s.gdtr ∧ t.idtr = s.idtr ∧ t.ldtr = s.ldtr ∧ t.tr = s.tr ∧ t.msw = s.msw ∧
      t.flags.iopl = s.flags.iopl := by
  simp [State.system]

section
variable (s : State)

@[simp] theorem State.system_withIopl : s.system.withIopl s.flags.iopl = s.system := rfl
@[simp] theorem State.setFlags_system (f : Flags) : (s.setFlags f).system = s.system.withIopl f.iopl := rfl
@[simp] theorem State.later_system (g : ReadGroup) : (s.later g).system = s.system := rfl
@[simp] theorem State.drawn_system (n : Nat) : (s.drawn n).system = s.system := rfl
@[simp] theorem State.setIp_system (v : Word) : (s.setIp v).system = s.system := rfl
@[simp] theorem State.jump_system (v : Word) : (s.jump v).system = s.system := rfl
@[simp] theorem State.flush_system : s.flush.system = s.system := rfl
@[simp] theorem State.setW_system (r : RegNum) (v : Word) : (s.setW r v).system = s.system := by simp [State.system]
@[simp] theorem State.setSp_system (v : Word) : (s.setSp v).system = s.system := rfl
@[simp] theorem State.setB_system (r : RegNum) (v : Byte) : (s.setB r v).system = s.system := by simp [State.system]
@[simp] theorem State.setAcc_system (w : Width) (v : Val w) : (s.setAcc w v).system = s.system := by simp [State.system]
@[simp] theorem State.setSeg_system (x : SReg) (g : SegReg) : (s.setSeg x g).system = s.system := by simp [State.system]
@[simp] theorem poke16_system (x : SReg) (o v : Word) : (poke16 s x o v).system = s.system := rfl
@[simp] theorem setAccessed_system (a : Phys) (d : Desc) : (setAccessed s a d).system = s.system := by simp [State.system]
@[simp] theorem ioWrite_system (w : Width) (p : Word) (v : Val w) : (ioWrite s w p v).system = s.system := rfl
@[simp] theorem ioRead_system (w : Width) (p : Word) : (ioRead s w p).2.system = s.system := rfl
@[simp] theorem pushRaw_system (v : Word) : (pushRaw s v).system = s.system := by simp [State.system]
@[simp] theorem stepSi_system (w : Width) : (stepSi s w).system = s.system := State.setW_system ..
@[simp] theorem stepDi_system (w : Width) : (stepDi s w).system = s.system := State.setW_system ..

@[simp] theorem State.setReg_system (w : Width) (r : RegNum) (v : Val w) : (s.setReg w r v).system = s.system := by
  simp [State.system]

@[simp] theorem poke_system (w : Width) (x : SReg) (o : Word) (v : Val w) : (poke s w x o v).system = s.system := by
  simp [State.system]

@[simp] theorem putPlace_system (w : Width) (p : Place) (v : Val w) : (putPlace s w p v).system = s.system := by
  cases p <;> simp [putPlace]

@[simp] theorem loadCache_system (x : SReg) (sel : Word) (p : Phys × Desc) : (loadCache s x sel p).system = s.system := by
  simp [loadCache]

@[simp] theorem loadCs_system (sel : Word) (p : Phys × Desc) (cpl : Nat) (off : Word) :
    (loadCs s sel p cpl off).system = s.system := by simp [loadCs]

@[simp] theorem foldl_pushRaw_system (l : List Word) : (l.foldl pushRaw s).system = s.system := by
  induction l generalizing s with
  | nil => rfl
  | cons v rest ih => rw [List.foldl_cons, ih, pushRaw_system]

@[simp] theorem pushCode_system (code : Option Word) : (pushCode s code).system = s.system := by
  cases code <;> simp [pushCode]

@[simp] theorem validateDataSeg_system (x : SReg) : (validateDataSeg s x).system = s.system := by
  unfold validateDataSeg
  simp only
  split <;> simp

@[simp] theorem setWide_system (w : Width) (lo hi : Val w) : (setWide s w lo hi).system = s.system := by
  cases w <;> simp [setWide]

@[simp] theorem shiftOp_system (k : ShiftKind) (single : Bool) (n : Nat) (w : Width) (x : Val w) :
    (shiftOp k single n w s x).2.system = s.system := by
  rw [State.system_eq_iff]
  have htask := SameTask.shiftOp s k single n w x
  have hmode := keepsMode_shiftOp k single n w s x
  refine ⟨?_, ?_, ?_, htask.1, htask.2, hmode.iopl⟩ <;> unfold shiftOp <;> split <;> rfl

@[simp] theorem setZf_system (z : Bool) : (setZf s z).system = s.system := rfl

@[simp] theorem testedState_system (sel : Word) : (testedState s sel).system = s.system := by
  unfold testedState
  split
  · rfl
  · split
    · split
      · exact setAccessed_system ..
      · rfl
    · rfl

@[simp] theorem selectorResult_system (r : RegNum) (v : Option Word) : (selectorResult s r v).system = s.system := by
  cases v <;> simp [selectorResult]

end

/-- Outside CPL 0 POPF and IRET leave IOPL (R263, R590). -/
theorem State.poppedFlags_iopl_outer {s : State} (h : s.cpl ≠ 0) (v : Word) : (s.poppedFlags v).iopl = s.flags.iopl := by
  rw [State.poppedFlags_eq]
  exact if_neg fun hc => h hc.2

/-! ### Operations that leave the system registers -/

/-- What a part of an instruction answers has the system registers of `s`; an exception that is taken in a changed state is taken
in one with `P`. -/
abbrev LeavesSystem (P : State → Prop) (s : State) (r : M State) : Prop := Ends P (fun t => t.system = s.system) r

section
variable {P : State → Prop} {s : State}

/-- One part after another. -/
theorem Ends.thenSystem {x : M State} {f : State → M State} (hx : LeavesSystem P s x)
    (hf : ∀ t, LeavesSystem P t (f t)) : LeavesSystem P s (x >>= f) :=
  .bind hx fun t ht => (hf t).mono (fun _ h => h) fun _ h => h.trans ht

theorem readRm_then_leavesSystem {w : Width} {m : RM} {f : Val w → State} (h : ∀ v, (f v).system = s.system) :
    LeavesSystem P s (readRm s w m >>= fun v => pure (f v)) :=
  .after (readRm_changesNothing ..) fun v => .ok (h v)

theorem modifyRm_leavesSystem {w : Width} {m : RM} {f : State → Val w → Val w × State}
    (hf : ∀ v, (f s v).2.system = s.system) : LeavesSystem P s (modifyRm s w m f) :=
  .after (checkWrite_changesNothing ..) fun _ => .after (readPlace_changesNothing ..) fun v =>
    .ok ((putPlace_system ..).trans (hf v))

theorem writePlace_leavesSystem (w : Width) (p : Place) (v : Val w) : LeavesSystem P s (writePlace s w p v) :=
  .after (checkWrite_changesNothing ..) fun _ => .ok (putPlace_system ..)

theorem memWrite_leavesSystem (w : Width) (x : SReg) (o : Word) (v : Val w) : LeavesSystem P s (memWrite s w x o v) :=
  .after (memCheck_changesNothing ..) fun _ => .ok (poke_system ..)

theorem storeTable_leavesSystem (a : MemOp) (t : TableReg) : LeavesSystem P s (storeTable s a t) :=
  .after (memCheck_changesNothing ..) fun _ => .after (memCheck_changesNothing ..) fun _ =>
    .after (memCheck_changesNothing ..) fun _ => .ok (by simp)

theorem push_leavesSystem (s : State) (v : Word) : LeavesSystem P s (push s v) :=
  .thenSystem (memWrite_leavesSystem ..) fun _ => .ok (State.setSp_system ..)

theorem copyDisplay_leavesSystem (s : State) (n : Nat) : LeavesSystem P s (copyDisplay s n) := by
  induction n generalizing s with
  | zero => exact .ok rfl
  | succ n ih =>
    refine .after (memRead_changesNothing ..) fun v => .thenSystem ?_ ih
    exact (push_leavesSystem (s.setW .r5 (s.regs.bp - 2)) v).mono (fun _ h => h) fun _ h => h.trans (State.setW_system ..)

theorem popInto_leavesSystem (s : State) (r : RegNum) : LeavesSystem P s (popInto s r) :=
  .after (memRead_changesNothing ..) fun _ => .ok (by simp)

theorem loadDataSeg_leavesSystem (g : ReadGroup) (x : SReg) (sel : Word) : LeavesSystem P s (loadDataSeg s g x sel) :=
  .ite (fun _ => .ok (by simp)) fun _ => .ite (fun _ => .ok (by simp)) fun _ =>
    .descriptor fun _ => .need <| .need <| .need <| .ok (by simp)

theorem loadStackSeg_leavesSystem (g : ReadGroup) (sel : Word) : LeavesSystem P s (loadStackSeg s g sel) :=
  .ite (fun _ => .ok (by simp)) fun _ => .need <| .descriptor fun _ => .need <| .need <| .need <| .need <| .ok (by simp)

theorem loadSreg_leavesSystem (d : ReadGroup) (g : SReg) (sel : Word) : LeavesSystem P s (loadSreg s d g sel) := by
  cases g with
  | es => exact loadDataSeg_leavesSystem d .es sel
  | cs => exact .exc _
  | ss => exact .thenSystem (loadStackSeg_leavesSystem d sel) fun _ => .ok rfl
  | ds => exact loadDataSeg_leavesSystem d .ds sel

theorem popSreg_leavesSystem (g : SReg) : LeavesSystem P s (popSreg s g) :=
  .after (memRead_changesNothing ..) fun v => .thenSystem (loadSreg_leavesSystem .descriptor g v) fun _ => .ok rfl

theorem loadPointer_leavesSystem (x : SReg) (r : RegNum) (a : MemOp) : LeavesSystem P s (loadPointer s x r a) :=
  .after (readPair_changesNothing ..) fun _ => .thenSystem (loadDataSeg_leavesSystem ..) fun _ => .ok (by simp)

/-! Transfers of control that switch no task. -/

theorem setIP_leavesSystem (s : State) (t : Word) : LeavesSystem P s (setIP s t) := .need (.ok rfl)

theorem jumpIf_leavesSystem (s : State) (c : Bool) (d : Byte) : LeavesSystem P s (jumpIf s c d) :=
  .ite (fun _ => setIP_leavesSystem ..) fun _ => .ok rfl

theorem loopWhile_leavesSystem (c : Bool) (d : Byte) : LeavesSystem P s (loopWhile s c d) :=
  (jumpIf_leavesSystem (s.setW .r1 (s.regs.cx - 1)) _ d).mono (fun _ h => h) fun _ h => h.trans (State.setW_system ..)

theorem callNear_leavesSystem (t : Word) : LeavesSystem P s (callNear s t) :=
  .bind (setIP_leavesSystem s t) fun _ _ => .thenSystem (push_leavesSystem ..) fun _ => .ok rfl

theorem retNear_leavesSystem (imm : Word) : LeavesSystem P s (retNear s imm) :=
  .after (memRead_changesNothing ..) fun t => .thenSystem (setIP_leavesSystem s t) fun _ => .ok rfl

theorem callSame_leavesSystem (sel : Word) (c : Phys × Desc) (off : Word) : LeavesSystem P s (callSame s sel c off) :=
  .after (checkPush_changesNothing ..) fun _ => .need <| .ok (by simp [pushReturn])

theorem callInner_leavesSystem (g : Desc) (c : Phys × Desc) : LeavesSystem P s (callInner s g c) :=
  .after (innerStack_changesNothing ..) fun _ => .need <| .after (readParams_changesNothing ..) fun _ =>
    .need <| .ok (by simp)

/-- A return outside CPL 0 to the same or an outer level (45_protected_transfer.md R433, R434). -/
theorem farReturn_leavesSystem (h : s.cpl ≠ 0) (fl : Bool) (imm : Word) : LeavesSystem P s (farReturn s fl imm) := by
  have hf := State.poppedFlags_iopl_outer h
  refine .after (memRead_changesNothing ..) fun csel => .need <| .ite (fun _ => ?_) fun _ =>
    .after (checkStackTop_changesNothing ..) fun _ => .after (returnCode_changesNothing ..) fun c =>
    .after (memRead_changesNothing ..) fun ssel => .after (memRead_changesNothing ..) fun nsp =>
    .after (returnStack_changesNothing ..) fun sd => .after (memRead_changesNothing ..) fun off => ?_
  · cases fl
    · exact .after (returnCode_changesNothing ..) fun c => .after (memRead_changesNothing ..) fun off =>
        .need <| .ok (by simp)
    · exact .after (checkStackTop_changesNothing ..) fun _ => .after (returnCode_changesNothing ..) fun c =>
        .after (memRead_changesNothing ..) fun off => .after (memRead_changesNothing ..) fun f =>
        .need <| .ok (by simp [hf])
  · cases fl
    · exact .need <| .ok (by simp)
    · exact .after (memRead_changesNothing ..) fun f => .need <| .ok (by simp [hf])

theorem stringRun_leavesSystem (compares : Bool) {prim : M State} (h : LeavesSystem P s prim) :
    LeavesSystem P s (stringRun s compares prim) := by
  unfold stringRun
  split
  · exact h
  · refine .ite (fun _ => .ok rfl) fun _ => .thenSystem h fun t => .ok ?_
    split <;> simp

/-- Outside CPL 0 an instruction behind the test of CPL changes nothing. -/
theorem needCpl0_leavesSystem (h : s.cpl ≠ 0) (f : Unit → M State) : LeavesSystem P s (needCpl0 s >>= f) := by
  rw [needCpl0_refused h]
  exact .exc _

end

/-! ### POPA, which may fault between its words -/

/-- The exception is taken with memory and the system registers as they were. -/
structure Untouched (s u : State) : Prop where
  system : u.system = s.system
  mem : u.mem = s.mem
  memMap : u.memMap = s.memMap

theorem Untouched.refl (s : State) : Untouched s s := ⟨rfl, rfl, rfl⟩

theorem Untouched.trans {s t u : State} (h : Untouched s t) (k : Untouched t u) : Untouched s u :=
  ⟨k.system.trans h.system, k.mem.trans h.mem, k.memMap.trans h.memMap⟩

theorem popStep_untouched (s : State) (r : Option RegNum) : Ends (Untouched s) (Untouched s) (popStep s r) := by
  cases r with
  | none => exact .after (memRead_changesNothing ..) fun _ => .ok ⟨rfl, rfl, rfl⟩
  | some r => exact .after (memRead_changesNothing ..) fun _ => .ok ⟨by simp, by simp, by simp⟩

theorem keepProgress_untouched {s : State} {r : M State} (h : Ends (Untouched s) (Untouched s) r) :
    Ends (Untouched s) (Untouched s) (keepProgress s r) := by
  rcases r with (e | ⟨e, t, ip⟩) | t
  · exact .excIn (.refl s)
  · exact .excIn (h.raised e t ip rfl)
  · exact .ok (h.answered t rfl)

theorem popAll_untouched (s : State) (l : List (Option RegNum)) : Ends (Untouched s) (Untouched s) (popAll s l) := by
  induction l generalizing s with
  | nil => exact .ok (.refl s)
  | cons r rest ih =>
    exact .bind (keepProgress_untouched (popStep_untouched s r)) fun t ht =>
      (ih t).mono (fun _ => ht.trans) fun _ => ht.trans

/-! ### Every instruction that can reach no task switch of its own -/

/-- The instruction may switch tasks by itself; or, PUSHA, may fault when it has written part of its words. -/
def mayReachTask : Instr → Bool
  | .jmpFar _ _ | .jmpFarMem _ | .callFar _ _ | .callFarMem _ | .iret | .pusha => true
  | _ => false

/-- The end of such an instruction: the system registers as they were, or an event delivered from there. -/
inductive LeftOrDelivered (s : State) : State → Prop where
  | left {t : State} (h : t.system = s.system) : LeftOrDelivered s t
  | delivered {u : State} (h : Untouched s u) (ev : Event) (ret atIp : Word) : LeftOrDelivered s (deliver u ev ret atIp)

/-- What a meaning answers, said of `LeftOrDelivered`. -/
structure EndsUnprivileged (s : State) (r : Result) : Prop where
  answered : ∀ t, r = .next t → LeftOrDelivered s t

section
variable {s : State}

theorem EndsUnprivileged.next {t : State} (h : LeftOrDelivered s t) : EndsUnprivileged s (.next t) :=
  ⟨by rintro _ ⟨⟩; exact h⟩

theorem EndsUnprivileged.same {t : State} (h : t.system = s.system) : EndsUnprivileged s (.next t) := .next (.left h)

theorem finish_unprivileged {r : M State} (h : LeavesSystem (Untouched s) s r) : EndsUnprivileged s (finish s r) := by
  rcases r with (e | ⟨e, t, ip⟩) | t
  · exact .next (.delivered (.refl s) ..)
  · exact .next (.delivered (h.raised e t ip rfl) ..)
  · exact .same (h.answered t rfl)

theorem finish_readRm_unprivileged {w : Width} {m : RM} {f : Val w → State} (h : ∀ v, (f v).system = s.system) :
    EndsUnprivileged s (finish s (readRm s w m >>= fun v => pure (f v))) := finish_unprivileged (readRm_then_leavesSystem h)

theorem finish_modifyRm_unprivileged {w : Width} {m : RM} {f : State → Val w → Val w × State}
    (h : ∀ v, (f s v).2.system = s.system) : EndsUnprivileged s (finish s (modifyRm s w m f)) :=
  finish_unprivileged (modifyRm_leavesSystem h)

theorem finish_stringRun_unprivileged {compares : Bool} {prim : M State} (h : LeavesSystem (Untouched s) s prim) :
    EndsUnprivileged s (finish s (stringRun s compares prim)) := finish_unprivileged (stringRun_leavesSystem compares h)

theorem softInt_unprivileged (n : Byte) : EndsUnprivileged s (.next (softInt s n)) := .next (.delivered (.refl s) ..)

theorem execEnter_unprivileged (v : Word) (l : Byte) : EndsUnprivileged s (execEnter v l s) :=
  finish_unprivileged <| .thenSystem (push_leavesSystem ..) fun _ => .ite (fun _ => .ok (by simp)) fun _ =>
    .thenSystem (copyDisplay_leavesSystem ..) fun _ => .thenSystem (push_leavesSystem ..) fun _ => .ok (by simp)

theorem execPopa_unprivileged : EndsUnprivileged s (execPopa s) :=
  finish_unprivileged <| .after (memCheck_changesNothing ..) fun _ => .after (memCheck_changesNothing ..) fun _ =>
    (popAll_untouched ..).mono (fun _ h => h) fun _ h => h.system

theorem execEsc_unprivileged (t l : BitVec 3) (m : RM) : EndsUnprivileged s (execEsc t l m s) :=
  finish_unprivileged <| .need <| .after (escCheck_changesNothing ..) fun _ =>
    .ite (fun _ => .ok rfl) fun _ => .need <| .ok rfl

theorem execArpl_unprivileged (m : RM) (r : RegNum) : EndsUnprivileged s (execArpl m r s) := by
  refine finish_unprivileged <| .need <| .after (checkWrite_changesNothing ..) fun _ => readRm_then_leavesSystem fun _ => ?_
  split <;> simp

/-- Outside CPL 0 (60_exceptions.md R590). -/
theorem exec_unprivileged (hp : s.msw.pe = true) (hcpl : s.cpl ≠ 0) (i : Instr) (hi : mayReachTask i = false) :
    EndsUnprivileged s (exec i s) := by
  cases i with
  -- two-operand arithmetic and logic
  | addRmReg | adcRmReg | sbbRmReg | subRmReg | addRmImm | adcRmImm | sbbRmImm | subRmImm | addRm8Imm82 | adcRm8Imm82
  | sbbRm8Imm82 | subRm8Imm82 | addRmSext | adcRmSext | sbbRmSext | subRmSext | orRmReg | andRmReg | xorRmReg | orRmImm
  | andRmImm | xorRmImm | incRm | decRm | negRm | notRm => exact finish_modifyRm_unprivileged fun _ => rfl
  | addRegRm | adcRegRm | sbbRegRm | subRegRm | orRegRm | andRegRm | xorRegRm =>
    exact finish_readRm_unprivileged fun _ => State.setReg_system ..
  | addAccImm | adcAccImm | sbbAccImm | subAccImm | orAccImm | andAccImm | xorAccImm => exact .same (State.setAcc_system ..)
  | cmpRmReg | cmpRmImm | cmpRm8Imm82 | cmpRmSext | cmpRegRm | testRmReg | testRmImm =>
    exact finish_readRm_unprivileged fun _ => rfl
  | cmpAccImm | testAccImm => exact .same rfl
  -- one-operand arithmetic, shifts and rotates
  | incReg r | decReg r => exact finish_modifyRm_unprivileged (m := .reg r) fun _ => rfl
  | rolImm | rolOne | rolCl | rorImm | rorOne | rorCl | rclImm | rclOne | rclCl | rcrImm | rcrOne | rcrCl | shlImm | shlOne
  | shlCl | shrImm | shrOne | shrCl | sarImm | sarOne | sarCl =>
    exact finish_modifyRm_unprivileged fun _ => shiftOp_system ..
  | mulRm | imulRm => exact finish_readRm_unprivileged fun _ => setWide_system ..
  | imulRegRmImm16 | imulRegRmImm8 => exact finish_readRm_unprivileged fun _ => State.setW_system ..
  | divRm | idivRm =>
    exact finish_unprivileged <| .after (readRm_changesNothing ..) fun _ => .need <| .need <| .ok (setWide_system ..)
  | daa | das => exact .same (State.setB_system ..)
  | aam | aad | aaa | aas | cbw | cwd | lea => exact .same (State.setW_system ..)
  | xchgAxReg => exact .same (by simp)
  | lahf => exact .same (State.setB_system ..)
  | sahf => exact .same rfl
  -- data transfer
  | movRmReg | movRmImm | movRmSreg => exact finish_unprivileged (writePlace_leavesSystem ..)
  | movRegRm => exact finish_readRm_unprivileged fun _ => State.setReg_system ..
  | movAccMoffs => exact finish_unprivileged (.after (memRead_changesNothing ..) fun _ => .ok (State.setAcc_system ..))
  | movMoffsAcc => exact finish_unprivileged (memWrite_leavesSystem ..)
  | movRegImm => exact .same (State.setReg_system ..)
  | movSregRm => exact finish_unprivileged (.after (readRm_changesNothing ..) fun _ => loadSreg_leavesSystem ..)
  | lds | les => exact finish_unprivileged (loadPointer_leavesSystem ..)
  | xlat => exact finish_unprivileged (.after (memRead_changesNothing ..) fun _ => .ok (State.setB_system ..))
  | xchgRmReg => exact finish_modifyRm_unprivileged fun _ => State.setReg_system ..
  | pushSreg | pushReg | pushImm16 | pushImm8 => exact finish_unprivileged (push_leavesSystem ..)
  | pushRm => exact finish_unprivileged (.after (readRm_changesNothing ..) fun _ => push_leavesSystem ..)
  | pusha | iret | jmpFar | jmpFarMem | callFar | callFarMem => cases hi
  | popa => exact execPopa_unprivileged
  | popReg => exact finish_unprivileged (popInto_leavesSystem ..)
  | popRm =>
    exact finish_unprivileged <| .after (memRead_changesNothing ..) fun _ => .after (checkWrite_changesNothing ..) fun _ =>
      .ok (putPlace_system ..)
  | popEs | popSs | popDs => exact finish_unprivileged (popSreg_leavesSystem _)
  | pushf => exact finish_unprivileged (.thenSystem (push_leavesSystem ..) fun _ => .ok rfl)
  | popf =>
    exact finish_unprivileged (.after (memRead_changesNothing ..) fun _ => .ok (by
      simp [State.poppedFlags_iopl_outer hcpl]))
  | inImm | inDx => exact finish_unprivileged (.need (.ok (by simp)))
  | outImm | outDx => exact finish_unprivileged (.need (.ok rfl))
  -- strings
  | movs =>
    exact finish_stringRun_unprivileged <| .after (memRead_changesNothing ..) fun _ =>
      .thenSystem (memWrite_leavesSystem ..) fun _ => .ok (by simp)
  | cmps =>
    exact finish_stringRun_unprivileged <| .after (memRead_changesNothing ..) fun _ =>
      .after (memRead_changesNothing ..) fun _ => .ok (by simp [aluSub])
  | scas => exact finish_stringRun_unprivileged <| .after (memRead_changesNothing ..) fun _ => .ok (by simp [aluSub])
  | lods => exact finish_stringRun_unprivileged <| .after (memRead_changesNothing ..) fun _ => .ok (by simp)
  | stos => exact finish_stringRun_unprivileged <| .thenSystem (memWrite_leavesSystem ..) fun _ => .ok (by simp)
  | ins => exact finish_stringRun_unprivileged <| .need <| .after (memCheck_changesNothing ..) fun _ => .ok (by simp)
  | outs => exact finish_stringRun_unprivileged <| .need <| .after (memRead_changesNothing ..) fun _ => .ok (by simp)
  -- transfers of control
  | jo | jno | jb | jnb | je | jne | jbe | jnbe | js | jns | jp | jnp | jl | jnl | jle | jnle | jcxz =>
    exact finish_unprivileged (jumpIf_leavesSystem ..)
  | loop | loope | loopne => exact finish_unprivileged (loopWhile_leavesSystem ..)
  | jmpRel8 | jmpRel16 => exact finish_unprivileged (setIP_leavesSystem ..)
  | jmpRm => exact finish_unprivileged (.after (readRm_changesNothing ..) fun _ => setIP_leavesSystem ..)
  | callRel => exact finish_unprivileged (callNear_leavesSystem _)
  | callRm => exact finish_unprivileged (.after (readRm_changesNothing ..) fun _ => callNear_leavesSystem _)
  | ret | retImm => exact finish_unprivileged (retNear_leavesSystem _)
  | retFar | retFarImm =>
    refine finish_unprivileged ?_
    rw [retFarTo, if_pos hp]
    exact farReturn_leavesSystem hcpl false _
  | enter => exact execEnter_unprivileged ..
  | leave => exact finish_unprivileged (.after (memRead_changesNothing ..) fun _ => .ok (by simp))
  | bound => exact finish_unprivileged (.after (readPair_changesNothing ..) fun _ => .need (.ok rfl))
  | int3 | intImm => exact softInt_unprivileged ..
  | into =>
    rw [exec, execInto]
    split
    · exact softInt_unprivileged ..
    · exact .same rfl
  -- processor control
  | clc | cmc | stc | cld | std | nop | segPfx | repnePfx | repPfx => exact .same rfl
  | cli | sti | lockPfx => exact finish_unprivileged (.need (.ok rfl))
  | hlt | clts | lmsw => exact finish_unprivileged (needCpl0_leavesSystem hcpl _)
  | wait => exact finish_unprivileged (.need (.ite (fun _ => .ok rfl) fun _ => .need (.ok rfl)))
  | esc => exact execEsc_unprivileged ..
  -- protection control
  | sgdt | sidt => exact finish_unprivileged (storeTable_leavesSystem ..)
  | lgdt a | lidt a =>
    refine finish_unprivileged ?_
    rw [loadTable_refused hcpl]
    exact .exc _
  | sldt | str => exact finish_unprivileged (.need (writePlace_leavesSystem ..))
  | lldt | ltr => exact finish_unprivileged (.need (needCpl0_leavesSystem hcpl _))
  | smsw => exact finish_unprivileged (.thenSystem (writePlace_leavesSystem ..) fun _ => .ok rfl)
  | lar => exact finish_unprivileged (.need (readRm_then_leavesSystem fun _ => by simp))
  | lsl => exact finish_unprivileged (.need (readRm_then_leavesSystem fun _ => by simp))
  | verr | verw => exact finish_unprivileged (.need (readRm_then_leavesSystem fun _ => by simp))
  | arpl => exact execArpl_unprivileged ..

end

end Sys2Proof.Machine
end

section
/-! PROOFS. What unprivileged code leaves alone (60_exceptions.md R590): task switches, deliveries and steps, and the settled
statement. -/

namespace Sys2Proof.Machine

/-! ### The system registers but for a task switch -/

/-- What a task switch may do to the system registers: LDTR, TR and IOPL change with TS set (45_protected_transfer.md R440). -/
structure SystemKept (s t : State) : Prop where
  gdtr : t.gdtr = s.gdtr
  idtr : t.idtr = s.idtr
  msw : { t.msw with ts := true } = { s.msw with ts := true }
  marked : s.msw.ts = true → t.msw.ts = true
  unswitched : t.msw.ts = false → t.system = s.system

theorem SystemKept.of_same {s t : State} (h : t.system = s.system) : SystemKept s t := by
  obtain ⟨hg, hi, -, -, hm, -⟩ := State.system_eq_iff.1 h
  exact ⟨hg, hi, by rw [hm], fun hts => by rw [hm, hts], fun _ => h⟩

theorem SystemKept.refl (s : State) : SystemKept s s := .of_same rfl

theorem SystemKept.trans {s t u : State} (h : SystemKept s t) (k : SystemKept t u) : SystemKept s u := by
  refine ⟨k.gdtr.trans h.gdtr, k.idtr.trans h.idtr, k.msw.trans h.msw, fun hts => k.marked (h.marked hts), fun hts => ?_⟩
  cases ht : t.msw.ts with
  | true => exact absurd ((k.marked ht).symm.trans hts) (by decide)
  | false => exact (k.unswitched hts).trans (h.unswitched ht)

theorem SystemKept.protectedMode {s t : State} (h : SystemKept s t) (hp : s.msw.pe = true) : t.msw.pe = true :=
  (congrArg Msw.pe h.msw).trans hp

theorem SystemKept.mp {s t : State} (h : SystemKept s t) : t.msw.mp = s.msw.mp := by
  simpa using congrArg Msw.mp h.msw

theorem SystemKept.em {s t : State} (h : SystemKept s t) : t.msw.em = s.msw.em := by
  simpa using congrArg Msw.em h.msw

/-- The same of a delivery, which also keeps what is noted of the instruction. -/
structure DeliveryKept (s t : State) : Prop extends SystemKept s t where
  cur : t.cur = s.cur

theorem DeliveryKept.of_same {s t : State} (h : t.system = s.system) (hc : t.cur = s.cur) : DeliveryKept s t :=
  ⟨.of_same h, hc⟩

theorem DeliveryKept.refl (s : State) : DeliveryKept s s := .of_same rfl rfl

theorem DeliveryKept.trans {s t u : State} (h : DeliveryKept s t) (k : DeliveryKept t u) : DeliveryKept s u :=
  ⟨h.toSystemKept.trans k.toSystemKept, k.cur.trans h.cur⟩

/-! ### Task switches -/

/-- The tables, MSW and what is noted of the instruction are as they were. -/
abbrev SameTables (s t : State) : Prop := t.gdtr = s.gdtr ∧ t.idtr = s.idtr ∧ t.msw = s.msw ∧ t.cur = s.cur

/-- A new task has been entered from `s`. -/
structure NewTask (s t : State) : Prop where
  gdtr : t.gdtr = s.gdtr
  idtr : t.idtr = s.idtr
  msw : t.msw = { s.msw with ts := true }
  cur : t.cur = s.cur

theorem NewTask.kept {s t : State} (h : NewTask s t) : DeliveryKept s t := by
  have hts : t.msw.ts = true := by rw [h.msw]
  exact ⟨⟨h.gdtr, h.idtr, by rw [h.msw], fun _ => hts, fun hf => absurd (hts.symm.trans hf) (by decide)⟩, h.cur⟩

theorem NewTask.thenSame {s t u : State} (h : NewTask s t) (k : SameTables t u) : NewTask s u := by
  obtain ⟨hg, hi, hm, hc⟩ := k
  exact ⟨hg.trans h.gdtr, hi.trans h.idtr, hm.trans h.msw, hc.trans h.cur⟩

theorem SameTables.loadCache (s : State) (x : SReg) (sel : Word) (p : Phys × Desc) : SameTables s (loadCache s x sel p) := by
  simp [SameTables, Machine.loadCache]

theorem tssStore_cur (s : State) (base : Phys) (l : List (Nat × Word)) : (tssStore s base l).cur = s.cur := by
  induction l generalizing s with
  | nil => rfl
  | cons e rest ih => exact ih _

theorem commitSwitch_newTask (s : State) (tsel : Word) (a : Phys) (t : Desc) (mode : SwitchMode) (ret : Word) :
    NewTask s (commitSwitch s tsel a t mode ret) := by
  obtain ⟨-, hm, hg, hi⟩ := commitSwitch_system s tsel a t mode ret
  refine ⟨hg, hi, hm, ?_⟩
  cases mode <;> simp [commitSwitch, loadTask, markBusy, markOldAvailable, saveTask, tssStore_cur]

section
variable {s u : State}

/-- A part of a task switch, run in the new task. -/
abbrev StaysInTask (s : State) (r : M State) : Prop := Ends (NewTask s) (NewTask s) r

/-- A step of the switch that leaves the tables and MSW, and raises its exceptions in the task so far. -/
theorem NewTask.inTask (h : NewTask s u) {r : M State} (hr : Ends (SameTables u) (SameTables u) r) :
    StaysInTask s (inTask u r) :=
  .inTask h (hr.mono (fun _ => h.thenSame) fun _ => h.thenSame)

theorem checkIp_sameTables (P : State → Prop) : Ends P (SameTables s) (checkIp s) := .need (.ok ⟨rfl, rfl, rfl, rfl⟩)

theorem push_sameTables (P : State → Prop) (v : Word) : Ends P (SameTables s) (push s v) := by
  unfold push memWrite
  exact .bind (Q := SameTables s) (.after (memCheck_changesNothing ..) fun _ => .ok ⟨rfl, rfl, rfl, rfl⟩) fun _ h => .ok h

theorem switchLdt_sameTables (P : State → Prop) (ext : Bool) : Ends P (SameTables s) (switchLdt s ext) :=
  .ite (fun _ => .ok ⟨rfl, rfl, rfl, rfl⟩) fun _ => .need <| .descriptor fun _ => .need <| .ok ⟨rfl, rfl, rfl, rfl⟩

theorem switchCs_sameTables (P : State → Prop) (ext : Bool) : Ends P (SameTables s) (switchCs s ext) :=
  .need <| .descriptor fun _ => .need <| .need <| .need <| .ok (.loadCache ..)

theorem switchSs_sameTables (P : State → Prop) (ext : Bool) : Ends P (SameTables s) (switchSs s ext) :=
  .need <| .descriptor fun _ => .need <| .need <| .need <| .ok (.loadCache ..)

theorem switchData_sameTables (P : State → Prop) (x : SReg) (ext : Bool) : Ends P (SameTables s) (switchData s x ext) :=
  .ite (fun _ => .ok ⟨rfl, rfl, rfl, rfl⟩) fun _ => .descriptor fun _ => .need <| .need <| .need <| .ok (.loadCache ..)

theorem switchTasks_newTask (tsel : Word) (a : Phys) (t : Desc) (mode : SwitchMode) (ret : Word) (ext : Bool) :
    StaysInTask s (switchTasks s tsel a t mode ret ext) :=
  have h1 := commitSwitch_newTask s tsel a t mode ret
  .need <| .bind (h1.inTask (switchLdt_sameTables _ ext)) fun _ h2 =>
    .bind (h2.inTask (switchCs_sameTables _ ext)) fun _ h3 =>
    .bind (h3.inTask (switchSs_sameTables _ ext)) fun _ h4 =>
    .bind (h4.inTask (switchData_sameTables _ .ds ext)) fun _ h5 =>
    .bind (h5.inTask (switchData_sameTables _ .es ext)) fun _ h6 => .ok (h6.thenSame ⟨rfl, rfl, rfl, rfl⟩)

theorem switchTo_newTask (sel : Word) (p : Phys × Desc) (mode : SwitchMode) : StaysInTask s (switchTo s sel p mode) :=
  .bind (switchTasks_newTask ..) fun _ h => h.inTask (checkIp_sameTables _)

theorem throughTaskGate_newTask (g : Desc) (mode : SwitchMode) : StaysInTask s (throughTaskGate s g mode) :=
  .need <| .descriptor fun _ => .need <| .need <| switchTo_newTask ..

theorem iretTask_newTask : StaysInTask s (iretTask s) :=
  .need <| .descriptor fun _ => .need <| .need <|
    .bind (switchTasks_newTask ..) fun _ h => h.inTask (checkIp_sameTables _)

theorem taskEntry_newTask (ev : Event) (g : Desc) (ret : Word) : StaysInTask s (taskEntry s ev g ret) := by
  refine .need <| .descriptor fun t => .need <| .need <| .bind (switchTasks_newTask ..) fun s1 h1 =>
    .bind (h1.inTask ?_) fun s2 h2 => h2.inTask (checkIp_sameTables _)
  split
  · exact push_sameTables _ _
  · exact .ok ⟨rfl, rfl, rfl, rfl⟩

end

/-! ### Deliveries -/

section
variable {s : State} {α : Type} {P : State → Prop} {Q : α → Prop}

/-- A check, and what it says to the rest. -/
theorem Ends.needing {ok : Bool} {e : Event} {x : M α} (h : ok = true → Ends P Q x) :
    Ends P Q (Machine.need ok (.exc e) >>= fun _ => x) := by
  cases ok with
  | true => exact h rfl
  | false => exact .exc e

/-- A descriptor that is looked up, and where it was found. -/
theorem Ends.descriptorFound {sel : Word} {e : Event} {f : Phys × Desc → M α}
    (h : ∀ p, fetchDescriptor s sel = some p → Ends P Q (f p)) : Ends P Q (needDescriptor s sel (.exc e) >>= f) := by
  unfold needDescriptor
  split
  · next p hp => exact h p hp
  · exact .exc e

/-- The system registers and what is noted of the instruction are as they were. -/
abbrev SameControl (s t : State) : Prop := t.system = s.system ∧ t.cur = s.cur

theorem SameControl.refl (s : State) : SameControl s s := ⟨rfl, rfl⟩

theorem SameControl.trans {s t u : State} (h : SameControl s t) (k : SameControl t u) : SameControl s u :=
  ⟨k.1.trans h.1, k.2.trans h.2⟩

theorem SameControl.pushRaw (s : State) (v : Word) : SameControl s (pushRaw s v) := ⟨pushRaw_system .., pushRaw_cur ..⟩

theorem SameControl.pushCode (s : State) (code : Option Word) : SameControl s (pushCode s code) := by
  cases code with
  | none => exact .refl s
  | some c => exact .pushRaw s c

theorem SameControl.loadCs (s : State) (sel : Word) (p : Phys × Desc) (cpl : Nat) (off : Word) :
    SameControl s (loadCs s sel p cpl off) := ⟨loadCs_system .., (SameTables.loadCache ..).2.2.2⟩

theorem SameControl.loadCache (s : State) (x : SReg) (sel : Word) (p : Phys × Desc) :
    SameControl s (loadCache s x sel p) := ⟨loadCache_system .., (SameTables.loadCache ..).2.2.2⟩

/-- The end of a delivery through a gate: the flags of the gate (60_exceptions.md R563). -/
theorem SameControl.afterGate {t : State} (h : SameControl s t) (g : Desc) :
    SameControl s ((t.setFlags (s.flags.afterGate g)).drawn 1) :=
  ⟨congrArg (fun r : SystemRegs => r.withIopl s.flags.iopl) h.1, h.2⟩

theorem gateSame_sameControl (ev : Event) (g : Desc) (c : Phys × Desc) (ret : Word) :
    Ends P (SameControl s) (gateSame s ev g c ret) :=
  .after (checkPush_changesNothing ..) fun _ => .need <| .ok <|
    .afterGate (((((SameControl.pushRaw ..).trans (.pushRaw ..)).trans (.pushRaw ..)).trans (.loadCs ..)).trans (.pushCode ..)) g

theorem gateInner_sameControl (ev : Event) (g : Desc) (c : Phys × Desc) (ret : Word) :
    Ends P (SameControl s) (gateInner s ev g c ret) := by
  refine .after (innerStack_changesNothing ..) fun a => .need <| .need <| .ok <| .afterGate ?_ g
  have hstack : SameControl s ((Machine.loadCache s .ss a.1 a.2.2).setSp a.2.1) :=
    (SameControl.loadCache s .ss a.1 a.2.2).trans ⟨rfl, rfl⟩
  exact hstack.trans <| (SameControl.loadCs ..).trans <| (SameControl.pushRaw ..).trans <| (SameControl.pushRaw ..).trans <|
    (SameControl.pushRaw ..).trans <| (SameControl.pushRaw ..).trans <| (SameControl.pushRaw ..).trans <| .pushCode ..

theorem gateEntry_sameControl (ev : Event) (g : Desc) (ret : Word) : Ends P (SameControl s) (gateEntry s ev g ret) :=
  .need <| .descriptor fun c => .need <| .need <| .ite (fun _ => gateInner_sameControl ev g c ret) fun _ =>
    .ite (fun _ => gateSame_sameControl ev g c ret) fun _ => .exc _

/-- What an entry of the IDT does, by the kind of its gate (60_exceptions.md R562). -/
theorem Ends.protEntry {Q : State → Prop} (ev : Event) (ret : Word)
    (htask : 8 * ev.vector.toNat + 7 ≤ s.idtr.limit.toNat → (idtGate s ev.vector).isType 5 = true →
      Ends P Q (taskEntry s ev (idtGate s ev.vector) ret))
    (hgate : Ends P Q (gateEntry s ev (idtGate s ev.vector) ret)) : Ends P Q (protEntry s ev ret) :=
  .needing fun hlim => .need <| .need <| .need <| .ite (htask (of_decide_eq_true hlim)) fun _ => hgate

theorem protEntry_kept (ev : Event) (ret : Word) : Ends (DeliveryKept s) (DeliveryKept s) (protEntry s ev ret) :=
  .protEntry ev ret (fun _ _ => (taskEntry_newTask ev _ ret).mono (fun _ => NewTask.kept) fun _ => NewTask.kept)
    ((gateEntry_sameControl ev _ ret).mono (fun _ h => h) fun _ h => .of_same h.1 h.2)

/-- What holds where each delivery of a step begins, `I`, and where it ends, `Q`. -/
structure DeliveryRule (I Q : State → Prop) : Prop where
  entry : ∀ u ev ret, I u → Ends I Q (protEntry u ev ret)
  later : ∀ u, I u → I (u.later .delivery)
  shutdown : ∀ u, I u → Q (enterShutdown u)

section
variable {I Q : State → Prop} (rule : DeliveryRule I Q)
include rule

theorem DeliveryRule.next {ev : Event} {ret : Word} {st : Stop} (h : I s) (hst : Machine.protEntry s ev ret = .error st)
    (ip : Word) : I (st.nextDelivery s ip).1 := rule.later _ ((rule.entry s ev ret h).context hst h)

theorem DeliveryRule.doubleFault (h : I s) (ret : Word) : Q (doubleFault s ret) := by
  unfold Machine.doubleFault
  split
  · next t ht => exact (rule.entry s _ ret h).answered t ht
  · next st hst => exact rule.shutdown _ ((rule.entry s _ ret h).context hst h)

theorem DeliveryRule.deliverFirst (h : I s) (ev : Event) (ret : Word) : Q (deliverFirst s ev ret) := by
  unfold Machine.deliverFirst
  split
  · next t ht => exact (rule.entry s ev ret h).answered t ht
  · next st hst =>
    have h1 := rule.next h hst ret
    simp only
    split
    · split
      · next t ht => exact (rule.entry _ _ _ h1).answered t ht
      · next st' hst' => exact rule.doubleFault (rule.next h1 hst' _) _
    · exact rule.doubleFault h1 _

/-- Whatever a delivery raises in turn (60_exceptions.md R570). -/
theorem DeliveryRule.deliverProt (h : I s) (ev : Event) (ret atIp : Word) : Q (deliverProt s ev ret atIp) := by
  unfold Machine.deliverProt
  split
  · exact rule.deliverFirst h ev ret
  · split
    · next t ht => exact (rule.entry s ev ret h).answered t ht
    · next st hst => exact rule.deliverFirst (rule.next h hst atIp) _ _

end

theorem deliveryKept_rule (s : State) : DeliveryRule (DeliveryKept s) (DeliveryKept s) where
  entry _ ev ret h := (protEntry_kept ev ret).mono (fun _ => h.trans) fun _ => h.trans
  later _ h := h.trans (.of_same rfl rfl)
  shutdown _ h := h.trans (.of_same rfl rfl)

/-- A delivery in protected mode changes the system registers by a task switch only, and nothing is noted any more. -/
theorem deliver_systemKept (hp : s.msw.pe = true) (ev : Event) (ret atIp : Word) :
    SystemKept s (deliver s ev ret atIp) ∧ (deliver s ev ret atIp).cur.noted = 0 := by
  obtain ⟨hsys, hcur⟩ := (deliveryKept_rule _).deliverProt (DeliveryKept.refl (deliveryBegun s)) ev ret atIp
  rw [deliver_protected ev ret atIp hp]
  exact ⟨{ hsys with }, congrArg Cur.noted hcur⟩

/-! ### Deliveries that switch no task -/

/-- Tables read as they were left, and no vector has a task gate. -/
structure Untasked (s : State) : Prop where
  steady : Steady s
  noGates : NoTaskGates s

theorem Untasked.congr {s t : State} (h : Untasked s) (hm : t.mem = s.mem) (hmap : t.memMap = s.memMap)
    (hi : t.idtr = s.idtr) : Untasked t := by
  have hload := h.steady.load8_congr hm hmap
  refine ⟨fun r hr => h.steady r (hmap ▸ hr), fun v hv => ?_⟩
  have hgate : idtGate t v = idtGate s v := by
    rw [idtGate, idtGate, hi]
    exact descAt_congr fun _ _ => hload _
  rw [hgate]
  exact h.noGates v (hi ▸ hv)

theorem Untasked.protEntry (h : Untasked s) (ev : Event) (ret : Word) :
    Ends (fun _ => False) (SameControl s) (protEntry s ev ret) :=
  .protEntry ev ret (fun hlim h5 => absurd (h5.symm.trans (h.noGates ev.vector hlim)) (by decide))
    (gateEntry_sameControl ev _ ret)

theorem untasked_rule (s : State) :
    DeliveryRule (fun u => Untasked u ∧ u.system = s.system) (fun u => u.system = s.system) where
  entry _ ev ret h := (h.1.protEntry ev ret).mono (fun _ => False.elim) fun _ k => k.1.trans h.2
  later _ h := ⟨h.1.congr rfl rfl rfl, h.2⟩
  shutdown _ h := h.2

theorem Untasked.deliver (h : Untasked s) (hp : s.msw.pe = true) (ev : Event) (ret atIp : Word) :
    (deliver s ev ret atIp).system = s.system := by
  rw [deliver_protected ev ret atIp hp]
  have hbegun : Untasked (deliveryBegun s) := h.congr rfl rfl rfl
  exact (untasked_rule (deliveryBegun s)).deliverProt ⟨hbegun, rfl⟩ ev ret atIp

end

/-! ### The instructions that may reach a task switch -/

section
variable {s : State} {P Q : State → Prop}

/-- A far JMP or CALL outside a task switch keeps the system registers; the switch is left to its own rules
(45_protected_transfer.md R430, R431). -/
theorem Ends.farTransfer (call : Bool) (sel off : Word) (hsame : ∀ t, t.system = s.system → Q t)
    (htask : ∀ p mode, fetchDescriptor (s.later .descriptor) sel = some p →
      (p.2.isType 5 = true → Ends P Q (throughTaskGate s p.2 mode)) ∧
        (p.2.isType 1 = true → Ends P Q (switchTo s sel p mode))) : Ends P Q (farTransfer s call sel off) := by
  have same {r : M State} (h : LeavesSystem P s r) : Ends P Q r := h.mono (fun _ h => h) hsame
  have hlast {p : Phys × Desc} (h : (p.2.isType 1 && !selLocal sel) = true) : p.2.isType 1 = true :=
    (Bool.and_eq_true_iff.1 h).1
  cases call with
  | false =>
    exact .need <| .descriptorFound fun d hd =>
      .ite (fun _ => .after (directCode_changesNothing ..) fun _ => same <| .need <| .ok (by simp)) fun _ =>
      .ite (fun _ => .after (gateVisible_changesNothing ..) fun _ => .after (gateCode_changesNothing ..) fun _ =>
        same <| .need <| .ok (by simp)) fun _ =>
      .ite (fun h5 => .after (gateVisible_changesNothing ..) fun _ => (htask d .jmp hd).1 h5) fun _ =>
      .ite (fun h1 => .after (gateVisible_changesNothing ..) fun _ => (htask d .jmp hd).2 (hlast h1)) fun _ => .exc _
  | true =>
    exact .need <| .descriptorFound fun d hd =>
      .ite (fun _ => .after (directCode_changesNothing ..) fun _ => same <| callSame_leavesSystem sel d off) fun _ =>
      .ite (fun _ => .after (gateVisible_changesNothing ..) fun _ => .after (gateCode_changesNothing ..) fun c =>
        .ite (fun _ => same <| callInner_leavesSystem d.2 c) fun _ => same <| callSame_leavesSystem _ c _) fun _ =>
      .ite (fun h5 => .after (gateVisible_changesNothing ..) fun _ => (htask d .nest hd).1 h5) fun _ =>
      .ite (fun h1 => .after (gateVisible_changesNothing ..) fun _ => (htask d .nest hd).2 (hlast h1)) fun _ => .exc _

theorem readPair_answers (a : MemOp) : Ends P (fun p => p = (firstWord s a, secondWord s a)) (readPair s a) := by
  have word (k : Nat) : Ends P (fun v => v = peek16 s (opSeg s a) (ea s a + BitVec.ofNat 16 (2 * k)))
      (memReadNth s (opSeg s a) (ea s a) k) := .after (memCheck_changesNothing ..) fun _ => .ok rfl
  refine .bind (word 0) fun lo hlo => .bind (word 1) fun hi hhi => .ok ?_
  rw [hlo, hhi, firstWord, secondWord]
  simp

/-- A far JMP or CALL reads its pointer, if it lies in memory, and then transfers to it. -/
theorem farForm_ends {i : Instr} {call : Bool} {sel off : Word} {Ready : Prop} (hp : s.msw.pe = true)
    (hi : farForm s i = some (call, sel, off, Ready)) (h : Ends P Q (farTransfer s call sel off)) :
    ∃ r, exec i s = finish s r ∧ Ends P Q r := by
  cases i with
  | jmpFar o c =>
    cases hi
    exact ⟨_, rfl, by rwa [jmpFar, if_pos hp]⟩
  | callFar o c =>
    cases hi
    exact ⟨_, rfl, by rwa [callFarTo, if_pos hp]⟩
  | jmpFarMem a =>
    cases hi
    refine ⟨_, rfl, .bind (readPair_answers a) fun p hread => ?_⟩
    rwa [hread, jmpFar, if_pos hp]
  | callFarMem a =>
    cases hi
    refine ⟨_, rfl, .bind (readPair_answers a) fun p hread => ?_⟩
    rwa [hread, callFarTo, if_pos hp]
  | _ => cases hi

theorem exists_farForm {i : Instr} (hi : mayReachTask i = true) (hiret : i ≠ .iret) (hpusha : i ≠ .pusha) :
    ∃ call sel off Ready, farForm s i = some (call, sel, off, Ready) := by
  cases i with
  | jmpFar | jmpFarMem | callFar | callFarMem => exact ⟨_, _, _, _, rfl⟩
  | iret => exact absurd rfl hiret
  | pusha => exact absurd rfl hpusha
  | _ => cases hi

theorem returnFromInterrupt_kept (hp : s.msw.pe = true) (hcpl : s.cpl ≠ 0) :
    Ends (SystemKept s) (SystemKept s) (returnFromInterrupt s) := by
  have opened (t : State) (h : SystemKept s t) : Ends (SystemKept s) (SystemKept s) (pure { t with nmiInService := false }) :=
    .ok { h with }
  have hprot : ¬ (!s.msw.pe) = true := by simp [hp]
  exact .ite (fun hr => absurd hr hprot) fun _ =>
    .ite (fun _ => .bind (iretTask_newTask.mono (fun _ h => h.kept.toSystemKept) fun _ h => h.kept.toSystemKept) opened) fun _ =>
      .bind ((farReturn_leavesSystem hcpl true 0).mono (fun _ h => h) fun _ => .of_same) opened

theorem returnFromInterrupt_leavesSystem (hp : s.msw.pe = true) (hcpl : s.cpl ≠ 0) (hnt : s.flags.nt = false) :
    LeavesSystem P s (returnFromInterrupt s) := by
  rw [returnFromInterrupt, hp, hnt]
  exact .thenSystem (farReturn_leavesSystem hcpl true 0) fun _ => .ok rfl

theorem pushAll_kept (s : State) (l : List Word) : Ends (SystemKept s) (SystemKept s) (pushAll s l) := by
  induction l generalizing s with
  | nil => exact .ok (.refl s)
  | cons v rest ih =>
    refine .bind (Q := SystemKept s) ?_ fun t ht => (ih t).mono (fun _ => ht.trans) fun _ => ht.trans
    have hpush := push_leavesSystem (P := SystemKept s) s v
    generalize push s v = r at hpush ⊢
    rcases r with (e | ⟨e, t, ip⟩) | t
    · exact .excIn (.refl s)
    · exact .excIn (hpush.raised e t ip rfl)
    · exact .ok (.of_same (hpush.answered t rfl))

theorem finish_kept {r : M State} (hp : s.msw.pe = true) (h : Ends (SystemKept s) (SystemKept s) r) {t : State}
    (ht : finish s r = .next t) : SystemKept s t := by
  rcases r with (e | ⟨e, u, ip⟩) | u
  · cases ht
    exact (deliver_systemKept hp ..).1
  · have hu := h.raised e u ip rfl
    cases ht
    exact hu.trans (deliver_systemKept (hu.protectedMode hp) ..).1
  · cases ht
    exact h.answered t rfl

/-- Outside CPL 0 an instruction changes the system registers by a task switch only (60_exceptions.md R590). -/
theorem exec_systemKept {i : Instr} {t : State} (hp : s.msw.pe = true) (hcpl : s.cpl ≠ 0) (ht : exec i s = .next t) :
    SystemKept s t := by
  cases hi : mayReachTask i with
  | false =>
    cases (exec_unprivileged hp hcpl i hi).answered t ht with
    | left h => exact .of_same h
    | @delivered u h =>
      have hu := SystemKept.of_same h.system
      exact hu.trans (deliver_systemKept (hu.protectedMode hp) ..).1
  | true =>
    by_cases hiret : i = .iret
    · subst hiret
      exact finish_kept hp (returnFromInterrupt_kept hp hcpl) ht
    by_cases hpusha : i = .pusha
    · subst hpusha
      exact finish_kept hp (.after (memCheck_changesNothing ..) fun _ => .after (memCheck_changesNothing ..) fun _ =>
        pushAll_kept ..) ht
    obtain ⟨call, sel, off, Ready, hf⟩ := exists_farForm (s := s) hi hiret hpusha
    have kept {r : M State} (h : StaysInTask s r) : Ends (SystemKept s) (SystemKept s) r :=
      h.mono (fun _ h => h.kept.toSystemKept) fun _ h => h.kept.toSystemKept
    obtain ⟨r, he, hr⟩ := farForm_ends hp hf <| .farTransfer call sel off (fun _ => SystemKept.of_same) fun _ _ _ =>
      ⟨fun _ => kept (throughTaskGate_newTask ..), fun _ => kept (switchTo_newTask ..)⟩
    exact finish_kept hp hr (he ▸ ht)

/-- An instruction that asks for no task switch, where no vector has a task gate. -/
theorem exec_leavesSystem {i : Instr} {t : State} (hp : s.msw.pe = true) (hcpl : s.cpl ≠ 0) (hs : Untasked s)
    (hi : AsksForNoTask s i) (ht : exec i s = .next t) : t.system = s.system := by
  obtain ⟨hnt, hfar, hroom⟩ := hi
  have hunprivileged : EndsUnprivileged s (exec i s) := by
    cases hm : mayReachTask i with
    | false => exact exec_unprivileged hp hcpl i hm
    | true =>
      by_cases hiret : i = .iret
      · subst hiret
        exact finish_unprivileged (returnFromInterrupt_leavesSystem hp hcpl (hnt rfl))
      by_cases hpusha : i = .pusha
      · subst hpusha
        rw [exec_pusha (hroom rfl)]
        exact .same (foldl_pushRaw_system ..)
      obtain ⟨call, sel, off, Ready, hf⟩ := exists_farForm (s := s) hm hiret hpusha
      obtain ⟨r, he, hr⟩ := farForm_ends hp hf <| .farTransfer (P := Untouched s) call sel off (fun _ h => h) fun p _ hd => by
        rw [hs.steady.fetchDescriptor_later] at hd
        obtain ⟨h5, h1⟩ := hfar call sel off Ready hf p.1 p.2 hd
        exact ⟨fun h => absurd (h.symm.trans h5) (by decide), fun h => absurd (h.symm.trans h1) (by decide)⟩
      rw [he]
      exact finish_unprivileged hr
  cases hunprivileged.answered t ht with
  | left h => exact h
  | @delivered u h ev ret atIp =>
    obtain ⟨-, hidtr, -, -, hmsw, -⟩ := State.system_eq_iff.1 h.system
    exact ((hs.congr h.mem h.memMap hidtr).deliver (by rw [hmsw, hp]) ev ret atIp).trans h.system

end

/-! ### Steps -/

section
variable {s : State}

/-- The prefixes note themselves and change nothing else; LOCK may take an exception, and then nothing is noted (30_encoding.md R190,
46_processor_control.md R480). -/
theorem exec_prefix {p : Instr} (hpfx : p.isPrefix = true) (hp : s.msw.pe = true) {t : State} (ht : exec p s = .next t) :
    (∃ c, t = note s c) ∨ t.cur.noted = 0 := by
  cases p <;> simp only [Instr.isPrefix, Bool.false_eq_true] at hpfx
  case segPfx | repnePfx | repPfx =>
    cases ht
    exact .inl ⟨_, rfl⟩
  case lockPfx =>
    rw [exec, execLockPfx, needIopl] at ht
    cases hiopl : (!s.msw.pe || decide (s.cpl ≤ s.ioplNum)) with
    | true =>
      rw [hiopl] at ht
      cases ht
      exact .inl ⟨_, rfl⟩
    | false =>
      rw [hiopl] at ht
      cases ht
      exact .inr (deliver_systemKept hp ..).2

theorem runPrefixed_kept (i : Instr) {pfx : List Instr} (hpfx : ∀ p ∈ pfx, p.isPrefix = true) (hp : s.msw.pe = true)
    (hcpl : s.cpl ≠ 0) {t : State} (ht : runPrefixed s i pfx = .next t) : SystemKept s t := by
  induction pfx generalizing s with
  | nil => exact exec_systemKept hp hcpl ht
  | cons p rest ih =>
    obtain ⟨hprefix, hrest⟩ := List.forall_mem_cons.1 hpfx
    unfold runPrefixed at ht
    split at ht
    · next u hu =>
      split at ht
      · cases ht
        exact exec_systemKept hp hcpl hu
      · next hnoted =>
        obtain ⟨c, rfl⟩ | h0 := exec_prefix hprefix hp hu
        · have hnote : SystemKept s (note s c) := .of_same rfl
          exact hnote.trans (ih (s := note s c) hrest hp hcpl ht)
        · exact absurd h0 hnoted
    · cases ht
    · cases ht

/-- What is decoded in front of an instruction are prefixes. -/
theorem decodeSeq_pfx {bs : List Byte} {f : Fetched} (h : decodeSeq bs = .ok f) : ∀ p ∈ f.pfx, p.isPrefix = true := by
  induction bs generalizing f with
  | nil => cases h
  | cons b bs ih =>
    rw [decodeSeq] at h
    split at h
    · cases h
    · next i rest _ =>
      split at h
      · next hi =>
        split at h
        · cases h
        · next f' hf' =>
          cases h
          exact List.forall_mem_cons.2 ⟨hi, ih hf'⟩
      · cases h
        simp

theorem endOutcome_next {tf : Bool} {r : Result} {t : State} (h : endOutcome tf r = .next t) :
    ∃ u, r = .next u ∧ t = endInstr tf u := by
  cases r with
  | next u =>
    cases h
    exact ⟨u, rfl, rfl⟩
  | fault f => cases h
  | refused r => cases h

theorem runInstr_kept (hp : s.msw.pe = true) (hcpl : s.cpl ≠ 0) {t : State} (ht : runInstr s = .next t) : SystemKept s t := by
  have ended {tf : Bool} {len : Nat} {r : Result} (h : ∀ u, r = .next u → SystemKept (enterInstr s len) u)
      (hr : endOutcome tf r = .next t) : SystemKept s t := by
    obtain ⟨u, hu, rfl⟩ := endOutcome_next hr
    have hentered : SystemKept s (enterInstr s len) := .of_same rfl
    have hended : SystemKept u (endInstr tf u) := .of_same rfl
    exact hentered.trans ((h u hu).trans hended)
  unfold runInstr at ht
  split at ht
  · next f hf =>
    split at ht
    · cases ht
    · exact ended (fun u hu => runPrefixed_kept (s := enterInstr s f.len) _ (decodeSeq_pfx hf) hp hcpl hu) ht
  · split at ht
    · next st hst =>
      obtain ⟨ev, rfl⟩ := fetchFault_exc hst
      exact ended (fun u hu => finish_kept (s := enterInstr s 0) hp (.exc ev) hu) ht
    · cases ht

/-- An event of the boundary is noted as taken and delivered. -/
theorem deliverHere_kept {u : State} (hu : SystemKept s u) (hp : s.msw.pe = true) (vector : Byte) (p : Phase) :
    SystemKept s { deliverHere u vector with phase := p } := by
  have hd : SystemKept u (deliverHere u vector) := (deliver_systemKept (hu.protectedMode hp) ..).1
  have hphase : SystemKept (deliverHere u vector) { deliverHere u vector with phase := p } := .of_same rfl
  exact hu.trans (hd.trans hphase)

theorem takeNmi_kept (hp : s.msw.pe = true) : SystemKept s (takeNmi s) := by
  have h : SystemKept s { s with nmiPending := false, nmiInService := true } := .of_same rfl
  exact deliverHere_kept h hp 2 .mp

theorem takeEvent_kept (hp : s.msw.pe = true) {t : State} (h : takeEvent s = some t) : SystemKept s t := by
  have trapTaken : SystemKept s { s with stepTrap := false } := .of_same rfl
  have overrunTaken : SystemKept s { s with mpPending := false } := .of_same rfl
  unfold takeEvent at h
  split at h
  · cases h
    exact deliverHere_kept trapTaken hp 1 .nmi
  split at h
  · cases h
    exact takeNmi_kept hp
  split at h
  · cases h
    exact deliverHere_kept overrunTaken hp 9 .intr
  split at h
  · cases h
    exact deliverHere_kept (.refl s) hp s.pins.vector .done
  · cases h

theorem shutdownStep_kept (hp : s.msw.pe = true) : SystemKept s (shutdownStep s) := by
  unfold shutdownStep
  split
  · have h : SystemKept s { s with shutdown := false } := .of_same rfl
    have hfree : SystemKept { s with shutdown := false } (freeReturn { s with shutdown := false }) := .of_same rfl
    exact h.trans (hfree.trans (takeNmi_kept hp))
  · exact .refl s

theorem SameSystem.systemKept {t : State} (h : SameSystem s t) (hf : t.flags = s.flags) : SystemKept s t :=
  .of_same (State.system_eq_iff.2 ⟨h.gdtr, h.idtr, h.ldtr, h.tr, h.msw, by rw [hf]⟩)

theorem extTransfer_flags (s : State) (o : ExtOperand) : (extTransfer s o).flags = s.flags := by
  unfold extTransfer
  split
  · split <;> rfl
  · rfl

theorem extTransfer_kept (s : State) (o : ExtOperand) : SystemKept s (extTransfer s o) := by
  have h := SameSystem.extTransfer s o
  exact .of_same (State.system_eq_iff.2 ⟨h.gdtr, h.idtr, h.ldtr, h.tr, h.msw, congrArg Flags.iopl (extTransfer_flags s o)⟩)

theorem activeStep_kept (hp : s.msw.pe = true) (hcpl : s.cpl ≠ 0) {t : State} (ht : activeStep s = .next t) :
    SystemKept s t := by
  unfold activeStep at ht
  split at ht
  · next u hu =>
    cases ht
    exact takeEvent_kept hp hu
  · split at ht
    · cases ht
      exact .of_same rfl
    · exact runInstr_kept hp hcpl ht

/-- Every step begun outside CPL 0, but RESET's. -/
theorem step_systemKept (hp : s.msw.pe = true) (hcpl : s.cpl ≠ 0) (hr : s.pins.reset = false) {t : State}
    (h : step s = .next t) : SystemKept s t := by
  have hb : SystemKept s (beginStep s) := .of_same rfl
  simp only [step, hr, Bool.false_eq_true, if_false] at h
  split at h
  · cases h
    exact hb.trans ((SameSystem.masterAccess _).systemKept (masterAccess_flags _))
  split at h
  · cases h
    exact hb.trans (extTransfer_kept ..)
  split at h
  · cases h
    exact hb.trans (shutdownStep_kept hp)
  · exact hb.trans (activeStep_kept (s := beginStep s) hp hcpl h)

end

/-- Settles O50: each step changes the system registers by a task switch only, which sets TS; what asks for no switch leaves them
alone. -/
theorem unprivilegedStepKeepsSystemState : Obligations.UnprivilegedStepKeepsSystemState := by
  refine ⟨fun s t hp hcpl hr ht => ?_, fun i s t hp hcpl hs hg hi ht => ?_, fun s ev ret at' hp hs hg => ?_⟩
  · have h := step_systemKept hp hcpl hr ht
    refine ⟨h.gdtr, h.idtr, h.protectedMode hp, h.mp, h.em, h.marked, fun hts => ?_⟩
    obtain ⟨-, -, hldtr, htr, -, hiopl⟩ := State.system_eq_iff.1 (h.unswitched hts)
    exact ⟨hldtr, htr, hiopl⟩
  · obtain ⟨-, -, hldtr, htr, hmsw, hiopl⟩ := State.system_eq_iff.1 (exec_leavesSystem hp hcpl ⟨hs, hg⟩ hi ht)
    exact ⟨hldtr, htr, hiopl, hmsw⟩
  · obtain ⟨hgdtr, hidtr, hldtr, htr, hmsw, hiopl⟩ :=
      State.system_eq_iff.1 (Untasked.deliver ⟨hs, hg⟩ hp ev ret at')
    exact ⟨hldtr, htr, hiopl, hmsw, hgdtr, hidtr⟩

end Sys2Proof.Machine
end

section
/-! PROOFS. The events of an instruction boundary and their order (60_exceptions.md R544 to R551, R595), and shutdown (R538, R561,
R570, R585, R586): the settled statements. -/

namespace Sys2Proof.Machine

/-! ### Deliveries in real mode -/

section
variable {s : State}

theorem deliverReal_entered {n : Nat} {ret atIp : Word} (hp : s.msw.pe = false) (hm : PlainMemory s) (h : CanPush s 3)
    {ev : Event} {at' : Word}
    (hreal : ∀ u, realEntry (deliveryBegun s) n ret = some u →
      deliverReal (deliveryBegun s) ev.vector.toNat at' atIp = u) :
    EntersReal s (deliver s ev at' atIp) n ret ∧
      SameButCs { s with halted := false, cur := Cur.at s.cur.ip } (deliver s ev at' atIp) := by
  have hplain : PlainMemory (deliveryBegun s) := hm.congr rfl rfl
  obtain ⟨u, hu, hentered⟩ := realEntry_entered n ret hplain ((canPush_deliveryBegun 3).2 h)
  rw [deliver_real _ _ _ hp, hreal u hu]
  exact hentered.delivered hm

/-- A vector inside the table (60_exceptions.md R561). -/
theorem deliver_entersReal (hp : s.msw.pe = false) (hm : PlainMemory s) (h : CanPush s 3) {ev : Event}
    (hn : 4 * ev.vector.toNat + 3 ≤ s.idtr.limit.toNat) (ret atIp : Word) :
    EntersReal s (deliver s ev ret atIp) ev.vector.toNat ret ∧
      SameButCs { s with halted := false, cur := Cur.at s.cur.ip } (deliver s ev ret atIp) :=
  deliverReal_entered hp hm h fun _ hu => deliverReal_ok (s := deliveryBegun s) ret atIp hn hu

/-- Without room for three words every vector is shutdown, inside the table or not (R585). -/
theorem deliverReal_noRoom (n : Nat) (ret atIp : Word) (h : ¬ CanPush s 3) : deliverReal s n ret atIp = enterShutdown s := by
  unfold deliverReal
  split
  · next hn => simpa [deliverReal, hn] using deliverReal_noStack ret atIp hn h
  split
  · rfl
  split
  · next h8 => simpa [deliverReal, h8] using deliverReal_noStack (n := 8) atIp atIp (by omega) h
  · rfl

/-- The state that shutdown leaves (R585). -/
theorem shutDown_shutDown (s : State) : ShutDown s (shutDown s) := by
  refine ⟨?_, ?_, ?_, State.load8_congr ?_ ?_ ?_, ?system⟩
  case system => constructor <;> simp [shutDown, deliveryEnded, enterShutdown, deliveryBegun]
  all_goals simp [shutDown, deliveryEnded, enterShutdown, deliveryBegun]

theorem shutDown_of_deliverReal (hp : s.msw.pe = false) {ev : Event} {ret atIp : Word}
    (h : deliverReal (deliveryBegun s) ev.vector.toNat ret atIp = enterShutdown (deliveryBegun s)) :
    ShutDown s (deliver s ev ret atIp) := by
  rw [deliver_real ev ret atIp hp, h]
  exact shutDown_shutDown s

/-! ### Deliveries in protected mode that no entry of the table takes -/

theorem protEntry_outside {u : State} {ev : Event} (h : u.idtr.limit.toNat < 8 * ev.vector.toNat + 7) (ret : Word) :
    protEntry u ev ret = .error (protection (idtCode ev)) := by
  rw [protEntry, decide_eq_false (by omega)]
  rfl

theorem doubleFault_outside {u : State} (h : u.idtr.limit.toNat < 71) (ret : Word) :
    doubleFault u ret = enterShutdown u := by
  rw [doubleFault, protEntry_outside (ev := .exn 8 (some 0)) h]
  rfl

/-- The state of shutdown does not depend on how many deliveries have failed before it. -/
theorem deliveryEnded_later (s u : State) (g : ReadGroup) :
    deliveryEnded s (enterShutdown (u.later g)) = deliveryEnded s (enterShutdown u) := rfl

theorem deliverFirst_outside {u : State} {ev : Event} (h71 : u.idtr.limit.toNat < 71)
    (h : u.idtr.limit.toNat < 8 * ev.vector.toNat + 7) (ret : Word) :
    deliveryEnded s (deliverFirst u ev ret) = deliveryEnded s (enterShutdown u) := by
  rw [deliverFirst, protEntry_outside h]
  by_cases hb : Config.dfBenign ev.vector = true
  · have h13 : (u.later .delivery).idtr.limit.toNat < 8 * (13 : Byte).toNat + 7 := lt_of_lt_of_le h71 (by decide)
    have hsecond := protEntry_outside (ev := .exn 13 (some (idtCode ev))) h13 ret
    simp only [hb, if_true, protection, Stop.nextDelivery, Stop.context, hsecond]
    rw [doubleFault_outside (u := (u.later .delivery).later .delivery) h71, deliveryEnded_later, deliveryEnded_later]
  · simp only [hb, if_false, Bool.false_eq_true, protection, Stop.nextDelivery, Stop.context]
    rw [doubleFault_outside (u := u.later .delivery) h71, deliveryEnded_later]

/-- Neither the event's vector nor that of the double fault lies in the table: shutdown (R570). -/
theorem deliver_outside (hp : s.msw.pe = true) (h71 : s.idtr.limit.toNat < 71) {ev : Event}
    (h : s.idtr.limit.toNat < 8 * ev.vector.toNat + 7) (ret atIp : Word) : deliver s ev ret atIp = shutDown s := by
  rw [deliver_protected ev ret atIp hp, deliverProt]
  split
  · exact deliverFirst_outside (u := deliveryBegun s) h71 h ret
  · have h13 : (deliveryBegun s).idtr.limit.toNat < 8 * (13 : Byte).toNat + 7 := lt_of_lt_of_le h71 (by decide)
    rw [protEntry_outside (u := deliveryBegun s) h]
    exact (deliverFirst_outside (u := (deliveryBegun s).later .delivery) (ev := .exn 13 (some (idtCode ev))) h71 h13 atIp).trans
      (deliveryEnded_later ..)

/-! ### Steps in shutdown -/

theorem step_shutdown (hs : s.shutdown = true) (hr : s.pins.reset = false) (hb : BusFree s) :
    step s = .next (shutdownStep (Latched s)) := by
  simp only [step, hr, hb.1, transferDue_none hb.2, hs, Bool.false_eq_true, if_false, if_true]
  rfl

theorem latched_nmiPending_iff : (Latched s).nmiPending = true ↔ NmiPending s := by simp [Latched, NmiPending]

theorem nmiEndsShutdown_iff : nmiEndsShutdown (Latched s) = true ↔ NmiEndsShutdown s := by
  unfold nmiEndsShutdown NmiEndsShutdown
  rw [Bool.and_eq_true, Bool.and_eq_true, latched_nmiPending_iff, and_assoc]
  simp only [decide_eq_true_eq, Bool.or_eq_true, Bool.and_eq_true, Bool.not_eq_true']
  rfl

/-- The NMI out of shutdown saves a free CS:IP, but for the level of CS in protected mode (R586). -/
theorem takeNmi_freeReturn (s : State) :
    ∃ ret sel : Word, (s.msw.pe = true → rpl sel = rpl s.cs.sel) ∧
      takeNmi (freeReturn s) =
        Served { s with nmiPending := false, nmiInService := true, ip := ret, cs := { s.cs with sel := sel }, draws := s.draws + 2 }
          2 .mp := by
  refine ⟨_, _, fun hp => ?_, rfl⟩
  have hsame : (s.cs.sel &&& 3).extractLsb' 0 2 = s.cs.sel.extractLsb' 0 2 := by
    rw [BitVec.extractLsb'_and, show BitVec.extractLsb' 0 2 (3 : Word) = BitVec.allOnes 2 from rfl, BitVec.and_allOnes]
  rw [if_pos hp, rpl, BitVec.extractLsb'_or, BitVec.extractLsb'_and, hsame,
    show BitVec.extractLsb' 0 2 (0xFFFC : Word) = 0#2 from rfl, BitVec.and_zero, BitVec.zero_or, rpl]

/-- The boundary's phase is not seen by what a delivery has left. -/
theorem EntersReal.withPhase {t : State} {n : Nat} {ret : Word} (h : EntersReal s t n ret) (p : Phase) :
    EntersReal s { t with phase := p } n ret := h

/-- An event of a real mode boundary is served: its vector is entered. -/
theorem served_entersReal (hp : s.msw.pe = false) (hm : PlainMemory s) (h : CanPush s 3) {v : Byte}
    (hn : 4 * v.toNat + 3 ≤ s.idtr.limit.toNat) (p : Phase) : EntersReal s (Served s v p) v.toNat s.ip :=
  (deliver_entersReal hp hm h (ev := .external v) hn s.ip s.ip).1.withPhase p

/-- In real mode a stack above 5 takes three words. -/
theorem canPush_three_real (hp : s.msw.pe = false) (h : 5 < s.regs.sp.toNat) : CanPush s 3 := by
  intro k h1 h3
  have hsub : (s.regs.sp - BitVec.ofNat 16 (2 * k)).toNat = s.regs.sp.toNat - 2 * k := by
    have hle : BitVec.ofNat 16 (2 * k) ≤ s.regs.sp := by
      rw [BitVec.le_def, BitVec.toNat_ofNat]
      omega
    rw [BitVec.toNat_sub_of_le hle, BitVec.toNat_ofNat]
    omega
  have hlt := s.regs.sp.isLt
  rw [Accessible, if_neg (by simp [hp]), hsub]
  omega

end

/-- Settles O60: where the deliveries of R561 and R570 find no entry or no room, and what a step in shutdown does. -/
theorem undeliverableExceptionsShutDown : Obligations.UndeliverableExceptionsShutDown := by
  refine ⟨fun s ev ret at' hp h71 h => ?_, fun s ev ret at' hp => ⟨fun hout h => ?_, fun h => ?_, fun hout h8 h13 h35 hm h => ?_⟩,
    fun s hs hr hb => ⟨fun h => ?_, fun h => ?_⟩⟩
  · rw [deliver_outside hp h71 h]
    exact shutDown_shutDown s
  · refine shutDown_of_deliverReal hp ?_
    have hout' : ¬ 4 * ev.vector.toNat + 3 ≤ (deliveryBegun s).idtr.limit.toNat := Nat.not_le.2 hout
    rw [deliverReal, if_neg hout', ite_eq_left_iff]
    intro hn
    exact if_neg fun h35 : 35 ≤ s.idtr.limit.toNat => by omega
  · exact shutDown_of_deliverReal hp (deliverReal_noRoom _ _ _ (mt (canPush_deliveryBegun 3).1 h))
  · refine (deliverReal_entered hp hm h fun u hu => ?_).1
    have hout' : ¬ 4 * ev.vector.toNat + 3 ≤ (deliveryBegun s).idtr.limit.toNat := Nat.not_le.2 hout
    rw [deliverReal, if_neg hout', if_neg (by omega), hu]
    exact if_pos h35
  · rw [step_shutdown hs hr hb, shutdownStep, if_neg (mt nmiEndsShutdown_iff.1 h)]
  · obtain ⟨ret, sel, hrpl, htake⟩ := takeNmi_freeReturn { Latched s with shutdown := false }
    refine ⟨ret, sel, hrpl, ?_⟩
    intro u
    refine ⟨?_, fun hp hm => ?_⟩
    · rw [step_shutdown hs hr hb, shutdownStep, if_pos (nmiEndsShutdown_iff.2 h)]
      exact congrArg Host.Outcome.next htake
    · obtain ⟨-, -, hroom⟩ := h
      obtain ⟨hlim, hsp⟩ := hroom.resolve_left (by simp [hp])
      have hplain : PlainMemory u := hm.congr rfl rfl
      have hin : 4 * (2 : Byte).toNat + 3 ≤ u.idtr.limit.toNat := le_trans (by decide) hlim
      exact served_entersReal (s := u) hp hplain (canPush_three_real hp hsp) hin .mp

end Sys2Proof.Machine
end

section
/-! PROOFS. The events of an instruction boundary and their order (60_exceptions.md R544 to R551, R595): the settled statements. -/

namespace Sys2Proof.Machine

/-! ### Which events are due -/

section
variable (s : State)

theorem externalOpen_iff : externalOpen (Latched s) = true ↔ ExternalOpen s := by
  simp [externalOpen, ExternalOpen, Latched, and_assoc]

theorem stepDue_iff : stepDue (Latched s) = true ↔ TrapDue s := by
  cases h : s.phase <;> simp [stepDue, TrapDue, StepDue, stepsPassed, Phase.past, Latched, h, and_assoc]

theorem nmiDue_iff : nmiDue (Latched s) = true ↔ NmiDue s := by
  rw [nmiDue, NmiDue, Bool.and_eq_true, Bool.and_eq_true, externalOpen_iff, latched_nmiPending_iff, and_assoc]
  refine and_congr_left fun _ => ?_
  cases h : s.phase <;> simp [stepsPassed, Phase.past, Latched, h]

theorem mpDue_iff : mpDue (Latched s) = true ↔ OverrunDue s := by
  rw [mpDue, OverrunDue, Bool.and_eq_true, Bool.and_eq_true, externalOpen_iff, and_assoc]
  cases h : s.phase <;> simp [stepsPassed, Phase.past, Latched, h]

theorem intrDue_iff : intrDue (Latched s) = true ↔ IntrDue s := by
  rw [intrDue, IntrDue, Bool.and_eq_true, Bool.and_eq_true, Bool.and_eq_true, externalOpen_iff, and_assoc, and_assoc]
  cases h : s.phase <;> simp [stepsPassed, Phase.past, Latched, h]

end

/-! ### The event that is taken -/

section
variable {s : State}

theorem takeEvent_trap (h : TrapDue s) :
    takeEvent (Latched s) = some (Served { Latched s with stepTrap := false } 1 .nmi) := by
  rw [takeEvent, if_pos ((stepDue_iff s).2 h)]
  rfl

section
variable (htrap : ¬ TrapDue s)
include htrap

theorem takeEvent_nmi (h : NmiDue s) :
    takeEvent (Latched s) = some (Served { Latched s with nmiPending := false, nmiInService := true } 2 .mp) := by
  rw [takeEvent, if_neg (mt (stepDue_iff s).1 htrap), if_pos ((nmiDue_iff s).2 h)]
  rfl

variable (hnmi : ¬ NmiDue s)
include hnmi

theorem takeEvent_overrun (h : OverrunDue s) :
    takeEvent (Latched s) = some (Served { Latched s with mpPending := false } 9 .intr) := by
  rw [takeEvent, if_neg (mt (stepDue_iff s).1 htrap), if_neg (mt (nmiDue_iff s).1 hnmi), if_pos ((mpDue_iff s).2 h)]
  rfl

variable (hover : ¬ OverrunDue s)
include hover

theorem takeEvent_intr (h : IntrDue s) : takeEvent (Latched s) = some (Served (Latched s) s.pins.vector .done) := by
  rw [takeEvent, if_neg (mt (stepDue_iff s).1 htrap), if_neg (mt (nmiDue_iff s).1 hnmi), if_neg (mt (mpDue_iff s).1 hover),
    if_pos ((intrDue_iff s).2 h)]
  rfl

theorem takeEvent_none (h : ¬ IntrDue s) : takeEvent (Latched s) = none := by
  rw [takeEvent, if_neg (mt (stepDue_iff s).1 htrap), if_neg (mt (nmiDue_iff s).1 hnmi), if_neg (mt (mpDue_iff s).1 hover),
    if_neg (mt (intrDue_iff s).1 h)]

end

/-! ### Steps at a boundary -/

/-- The event that is due is the step. -/
theorem step_event (hb : AtBoundary s) {t : State} (h : takeEvent (Latched s) = some t) : step s = .next t := by
  obtain ⟨hr, hs, hfree⟩ := hb
  rw [step_active hr hs hfree, activeStep, show takeEvent (beginStep s) = some t from h]

/-- A halted processor with nothing due passes the boundary (60_exceptions.md R595). -/
theorem step_halted (hb : AtBoundary s) (hh : s.halted = true) (h : takeEvent (Latched s) = none) :
    step s = .next (haltTick (Latched s)) := by
  obtain ⟨hr, hs, hfree⟩ := hb
  rw [step_active hr hs hfree, activeStep, show takeEvent (beginStep s) = none from h]
  exact if_pos hh

/-- Where no event is due the step is an instruction: it ends at the first phase of the next boundary, the trap due if TF was
set when it began and it has ended (R548, R551). -/
theorem step_quiet_ends {t : State} (he : Executing s) (hq : QuietBoundary s) (ht : step s = .next t) :
    t.phase = .singleStep ∧ t.stepTrap = (s.flags.tf && !t.waiting) := by
  rw [step_eq_runInstr he hq] at ht
  have ended {r : Result} (hr : endOutcome (Latched s).flags.tf r = .next t) :
      t.phase = .singleStep ∧ t.stepTrap = (s.flags.tf && !t.waiting) := by
    obtain ⟨u, -, rfl⟩ := endOutcome_next hr
    exact ⟨rfl, rfl⟩
  unfold runInstr at ht
  split at ht
  · split at ht
    · cases ht
    · exact ended ht
  · split at ht
    · exact ended ht
    · cases ht

end

/-- Settles O57: the four tests of a boundary in their order, and the end of an instruction. -/
theorem eventsOfABoundaryFollowEachOther : Obligations.EventsOfABoundaryFollowEachOther :=
  ⟨fun _ _ he hq ht => step_quiet_ends he hq ht, fun _ hb =>
    ⟨fun h => step_event hb (takeEvent_trap h), fun h1 h => step_event hb (takeEvent_nmi h1 h),
      fun h1 h2 h => step_event hb (takeEvent_overrun h1 h2 h), fun h1 h2 h3 h => step_event hb (takeEvent_intr h1 h2 h3 h),
      fun h1 h2 h3 h => takeEvent_none h1 h2 h3 h⟩⟩

/-! ### Real mode boundaries -/

section
variable {s : State}

/-- The state in which an event of the boundary is delivered, by what is noted of the events. -/
def eventNoted (s : State) (trap pending inService overrun : Bool) : State :=
  { Latched s with stepTrap := trap, nmiPending := pending, nmiInService := inService, mpPending := overrun }

/-- The events noted as taken, and the place of the step on the bus, are not seen by what a delivery has left. -/
theorem EntersReal.of_eventNoted {t : State} {n : Nat} {ret : Word} (hm : PlainMemory s) {a b c d : Bool}
    (h : EntersReal (eventNoted s a b c d) t n ret) : EntersReal s t n ret := by
  have hload (p : Phys) : (eventNoted s a b c d).load8 p = s.load8 p :=
    hm.steady.load8_congr (t := eventNoted s a b c d) rfl rfl p
  have hload16 (p : Phys) : (eventNoted s a b c d).load16 p = s.load16 p := by rw [State.load16, hload, hload, State.load16]
  simp only [EntersReal, hload, hload16] at h
  exact h

/-- Every vector of a real mode boundary can be entered (60_exceptions.md R544 to R548, R561). -/
theorem RealBoundary.served (h : RealBoundary s) (trap pending inService overrun : Bool) (v : Byte) (p : Phase) :
    let t := Served (eventNoted s trap pending inService overrun) v p
    EntersReal s t v.toNat s.ip ∧ t.nmiPending = pending ∧ t.nmiInService = inService ∧ t.mpPending = overrun := by
  obtain ⟨-, -, hp, hm, hlim, hpush⟩ := h
  have hplain : PlainMemory (eventNoted s trap pending inService overrun) := hm.congr rfl rfl
  have hin : 4 * v.toNat + 3 ≤ (eventNoted s trap pending inService overrun).idtr.limit.toNat := by
    have hv := v.isLt
    have hlimit : (0x3FF : Nat) ≤ (eventNoted s trap pending inService overrun).idtr.limit.toNat := hlim
    omega
  obtain ⟨henters, hsys⟩ := deliver_entersReal (s := eventNoted s trap pending inService overrun) hp hplain hpush
    (ev := .external v) hin s.ip s.ip
  exact ⟨(henters.withPhase p).of_eventNoted hm, hsys.nmiPending, hsys.nmiInService, hsys.mpPending⟩

theorem RealBoundary.trapDue_iff (h : RealBoundary s) : TrapDue s ↔ StepDue s := by
  obtain ⟨-, hphase, -⟩ := h
  simp [TrapDue, hphase, stepsPassed]

theorem RealBoundary.nmiDue_iff (h : RealBoundary s) : NmiDue s ↔ NmiPending s ∧ ExternalOpen s := by
  obtain ⟨-, hphase, -⟩ := h
  simp [NmiDue, hphase, stepsPassed]

theorem RealBoundary.overrunDue_iff (h : RealBoundary s) : OverrunDue s ↔ s.mpPending = true ∧ ExternalOpen s := by
  obtain ⟨-, hphase, -⟩ := h
  simp [OverrunDue, hphase, stepsPassed]

theorem RealBoundary.intrDue_iff (h : RealBoundary s) :
    IntrDue s ↔ s.pins.intr = true ∧ s.flags.ief = true ∧ ExternalOpen s := by
  obtain ⟨-, hphase, -⟩ := h
  simp [IntrDue, hphase, stepsPassed]

end

/-- Settles O56: the first event in the order of Table 5 is the step, and its vector is entered. -/
theorem eventsFollowTheirPriority : Obligations.EventsFollowTheirPriority := by
  intro s hb
  have hat : AtBoundary s := hb.1
  refine ⟨fun h => ?trap, fun h1 ho h => ?nmi, fun h1 ho h2 h => ?overrun, fun h1 ho h2 h3 hi hf => ?intr, fun h1 hnone hh => ?halted⟩
  case trap =>
    obtain ⟨henters, -⟩ := hb.served false (Latched s).nmiPending s.nmiInService s.mpPending 1 .nmi
    exact ⟨_, step_event hat (takeEvent_trap (hb.trapDue_iff.2 h)), henters⟩
  all_goals have htrap : ¬ TrapDue s := mt hb.trapDue_iff.1 h1
  case nmi =>
    obtain ⟨henters, hpending, hservice, -⟩ := hb.served s.stepTrap false true s.mpPending 2 .mp
    exact ⟨_, step_event hat (takeEvent_nmi htrap (hb.nmiDue_iff.2 ⟨h, ho⟩)), henters, hservice, hpending⟩
  case overrun =>
    obtain ⟨henters, -, -, hover⟩ := hb.served s.stepTrap (Latched s).nmiPending s.nmiInService false 9 .intr
    have hnmi : ¬ NmiDue s := fun hd => h2 (hb.nmiDue_iff.1 hd).1
    exact ⟨_, step_event hat (takeEvent_overrun htrap hnmi (hb.overrunDue_iff.2 ⟨h, ho⟩)), henters, hover⟩
  case intr =>
    obtain ⟨henters, -⟩ := hb.served s.stepTrap (Latched s).nmiPending s.nmiInService s.mpPending s.pins.vector .done
    have hnmi : ¬ NmiDue s := fun hd => h2 (hb.nmiDue_iff.1 hd).1
    have hover : ¬ OverrunDue s := fun hd => absurd ((hb.overrunDue_iff.1 hd).1.symm.trans h3) (by decide)
    exact ⟨_, step_event hat (takeEvent_intr htrap hnmi hover (hb.intrDue_iff.2 ⟨hi, hf, ho⟩)), henters⟩
  case halted =>
    have hnmi : ¬ NmiDue s := fun hd =>
      have ⟨hpending, ho⟩ := hb.nmiDue_iff.1 hd
      (hnone ho).1 hpending
    have hover : ¬ OverrunDue s := fun hd =>
      have ⟨hmp, ho⟩ := hb.overrunDue_iff.1 hd
      absurd (hmp.symm.trans (hnone ho).2.1) (by decide)
    have hintr : ¬ IntrDue s := fun hd =>
      have ⟨hi, hf, ho⟩ := hb.intrDue_iff.1 hd
      (hnone ho).2.2 ⟨hi, hf⟩
    obtain ⟨-, -, -, hm, -⟩ := hb
    exact ⟨_, step_halted hat hh (takeEvent_none htrap hnmi hover hintr), hh, rfl, rfl, rfl, hm.steady.load8_congr rfl rfl⟩

end Sys2Proof.Machine
end

section
/-! PROOFS. In memory that reads as it was left a delivery does not depend on its place on the bus (20_memory.md R160): two runs of
it from states that differ there, and in what has been prefetched, give the same answer but for these two. By `SameAnswer`, one
lemma for each shared operation. -/

namespace Sys2Proof.Machine

/-! ### States that differ in the bus alone -/

/-- The state at another place on the bus, with other bytes taken as prefetched. -/
def State.elsewhere (s : State) (x : BusTime) (l : List Host.Cell) : State := { s with bus := x, stale := l }

/-- Memory is steady, and the states differ in the bus and in what has been prefetched alone. -/
structure BusApart (s u : State) : Prop where
  steady : Steady s
  elsewhere : ∃ x l, u = s.elsewhere x l

section
variable {s u : State}

theorem BusApart.of_eq {t : State} {x : BusTime} {l : List Host.Cell} (hs : Steady s) (hmap : t.memMap = s.memMap)
    (h : u = t.elsewhere x l) : BusApart t u := ⟨fun r hr => hs r (hmap ▸ hr), x, l, h⟩

theorem BusApart.refl (hs : Steady s) : BusApart s s := ⟨hs, s.bus, s.stale, rfl⟩

theorem BusApart.trans {t : State} (h : BusApart s t) (k : BusApart t u) : BusApart s u := by
  obtain ⟨hs, x, l, rfl⟩ := h
  obtain ⟨-, y, m, rfl⟩ := k
  exact ⟨hs, y, m, rfl⟩

theorem BusApart.later (h : BusApart s u) (g : ReadGroup) : BusApart (s.later g) (u.later g) := by
  obtain ⟨hs, x, l, rfl⟩ := h
  exact ⟨hs, ((s.elsewhere x l).later g).bus, l, rfl⟩

theorem BusApart.later_left (hs : Steady s) (g : ReadGroup) : BusApart s (s.later g) :=
  ⟨hs, (s.later g).bus, s.stale, rfl⟩

theorem Steady.load8_elsewhere (hs : Steady s) (x : BusTime) (l : List Host.Cell) (a : Phys) :
    (s.elsewhere x l).load8 a = s.load8 a := hs.load8_congr (t := s.elsewhere x l) rfl rfl a

theorem Steady.elsewhere (hs : Steady s) (x : BusTime) (l : List Host.Cell) : Steady (s.elsewhere x l) := hs

theorem Steady.descAt_elsewhere (hs : Steady s) (x : BusTime) (l : List Host.Cell) (a : Phys) :
    descAt (s.elsewhere x l) a = descAt s a := descAt_congr fun _ _ => hs.load8_elsewhere x l _

theorem Steady.tssWord_elsewhere (hs : Steady s) (x : BusTime) (l : List Host.Cell) (base : Phys) (k : Nat) :
    tssWord (s.elsewhere x l) base k = tssWord s base k := by
  rw [tssWord, tssWord, State.load16, State.load16, hs.load8_elsewhere, hs.load8_elsewhere]

theorem Steady.fetchDescriptor_elsewhere (hs : Steady s) (x : BusTime) (l : List Host.Cell) (sel : Word) :
    fetchDescriptor (s.elsewhere x l) sel = fetchDescriptor s sel := by
  simp only [fetchDescriptor, hs.descAt_elsewhere]
  rfl

theorem Steady.needDescriptor_elsewhere (hs : Steady s) (x : BusTime) (l : List Host.Cell) (g : ReadGroup) (sel : Word)
    (e : Stop) : needDescriptor ((s.elsewhere x l).later g) sel e = needDescriptor (s.later g) sel e := by
  rw [needDescriptor, needDescriptor, (hs.elsewhere x l).fetchDescriptor_later, hs.fetchDescriptor_later,
    hs.fetchDescriptor_elsewhere]

theorem innerStack_elsewhere (hs : Steady s) (x : BusTime) (l : List Host.Cell) (p : Nat) (ext : Bool) :
    innerStack (s.elsewhere x l) p ext = innerStack s p ext := by
  have hword (k : Nat) : tssWord ((s.elsewhere x l).later .taskState) s.tr.base k = tssWord (s.later .taskState) s.tr.base k := by
    rw [(hs.elsewhere x l).tssWord_later, hs.tssWord_later]
    exact hs.tssWord_elsewhere x l _ k
  simp only [innerStack, hs.needDescriptor_elsewhere, show (s.elsewhere x l).tr = s.tr from rfl, hword]

/-! Updates of states that differ in the bus. -/

theorem setAccessed_elsewhere (s : State) (x : BusTime) (l : List Host.Cell) (a : Phys) (d : Desc) :
    ∃ m, setAccessed (s.elsewhere x l) a d = (setAccessed s a d).elsewhere x m := by
  unfold setAccessed
  split
  · exact ⟨l, rfl⟩
  · exact ⟨_, rfl⟩

theorem setSeg_elsewhere (s : State) (b : BusTime) (l : List Host.Cell) (x : SReg) (g : SegReg) :
    (s.elsewhere b l).setSeg x g = (s.setSeg x g).elsewhere b l := by cases x <;> rfl

theorem BusApart.loadCache (h : BusApart s u) (x : SReg) (sel : Word) (p : Phys × Desc) :
    BusApart (loadCache s x sel p) (loadCache u x sel p) := by
  obtain ⟨hs, b, l, rfl⟩ := h
  obtain ⟨m, hm⟩ := setAccessed_elsewhere s b l p.1 p.2
  refine .of_eq (x := b) (l := m) hs (by simp [Machine.loadCache]) ?_
  rw [Machine.loadCache, hm, setSeg_elsewhere, Machine.loadCache]

theorem BusApart.loadCs (h : BusApart s u) (sel : Word) (p : Phys × Desc) (cpl : Nat) (off : Word) :
    BusApart (loadCs s sel p cpl off) (loadCs u sel p cpl off) := by
  obtain ⟨hs, b, l, hu⟩ := h.loadCache .cs ((sel &&& 0xFFFC) ||| BitVec.ofNat 16 cpl) p
  rw [Machine.loadCs, Machine.loadCs, hu]
  exact .of_eq (x := b) (l := []) hs rfl rfl

theorem BusApart.setSp (h : BusApart s u) (v : Word) : BusApart (s.setSp v) (u.setSp v) := by
  obtain ⟨hs, b, l, rfl⟩ := h
  exact .of_eq (x := b) (l := l) hs rfl rfl

theorem BusApart.store16 (h : BusApart s u) (a : Phys) (v : Word) : BusApart (s.store16 a v) (u.store16 a v) := by
  obtain ⟨hs, b, l, rfl⟩ := h
  exact .of_eq (x := b) hs rfl rfl

theorem BusApart.pushRaw (h : BusApart s u) (v : Word) : BusApart (pushRaw s v) (pushRaw u v) := by
  obtain ⟨hs, b, l, rfl⟩ := h
  exact .of_eq (x := b) hs rfl rfl

theorem BusApart.pushCode (h : BusApart s u) (code : Option Word) : BusApart (pushCode s code) (pushCode u code) := by
  cases code with
  | none => exact h
  | some c => exact h.pushRaw c

theorem BusApart.tssStore (h : BusApart s u) (base : Phys) (l : List (Nat × Word)) :
    BusApart (tssStore s base l) (tssStore u base l) := by
  induction l generalizing s u with
  | nil => exact h
  | cons e rest ih => exact ih (h.store16 _ _)

/-- The end of a delivery through a gate. -/
theorem BusApart.afterGate (h : BusApart s u) (f : Flags) :
    BusApart ((s.setFlags f).drawn 1) ((u.setFlags f).drawn 1) := by
  obtain ⟨hs, b, l, rfl⟩ := h
  exact .of_eq (x := b) (l := l) hs rfl rfl

theorem BusApart.drawn (h : BusApart s u) (n : Nat) : BusApart (s.drawn n) (u.drawn n) := by
  obtain ⟨hs, b, l, rfl⟩ := h
  exact .of_eq (x := b) (l := l) hs rfl rfl

theorem BusApart.saveTask (h : BusApart s u) (mode : SwitchMode) (ret : Word) :
    BusApart (saveTask s mode ret) (saveTask u mode ret) := by
  have hstored (l : List (Nat × Word)) := (h.tssStore s.tr.base l).drawn 1
  obtain ⟨-, x, l, rfl⟩ := h
  have hwords : imageWords (s.elsewhere x l) mode ret = imageWords s mode ret := rfl
  rw [saveTask_eq, saveTask_eq, hwords]
  exact hstored _

theorem BusApart.markOldAvailable (h : BusApart s u) : BusApart (markOldAvailable s) (markOldAvailable u) := by
  obtain ⟨hs, x, l, rfl⟩ := h
  have hread (a : Phys) : ((s.elsewhere x l).later .taskState).load8 a = (s.later .taskState).load8 a := by
    rw [(hs.elsewhere x l).load8_later, hs.load8_later, hs.load8_elsewhere]
  unfold Machine.markOldAvailable
  simp only [hread]
  exact .of_eq (x := x) hs rfl rfl

theorem BusApart.loadTask (h : BusApart s u) (base : Phys) (mode : SwitchMode) :
    BusApart (loadTask s base mode) (loadTask u base mode) := by
  obtain ⟨hs, x, l, rfl⟩ := h
  have hword (k : Nat) : tssWord ((s.elsewhere x l).later .newTask) base k = tssWord (s.later .newTask) base k := by
    rw [(hs.elsewhere x l).tssWord_later, hs.tssWord_later]
    exact hs.tssWord_elsewhere x l _ k
  unfold Machine.loadTask
  simp only [hword]
  exact .of_eq (x := x) (l := []) hs rfl rfl

theorem BusApart.commitSwitch (h : BusApart s u) (tsel : Word) (a : Phys) (t : Desc) (mode : SwitchMode) (ret : Word) :
    BusApart (commitSwitch s tsel a t mode ret) (commitSwitch u tsel a t mode ret) := by
  have hsaved := h.saveTask mode ret
  have hlinked : BusApart
      (if mode = .nest then (Machine.saveTask s mode ret).store16 (t.base + BitVec.ofNat 24 tssLayout.backLink) s.tr.sel
        else Machine.markOldAvailable (Machine.saveTask s mode ret))
      (if mode = .nest then (Machine.saveTask u mode ret).store16 (t.base + BitVec.ofNat 24 tssLayout.backLink) s.tr.sel
        else Machine.markOldAvailable (Machine.saveTask u mode ret)) := by
    split
    · exact hsaved.store16 _ _
    · exact hsaved.markOldAvailable
  have hmarked {s1 u1 : State} (h1 : BusApart s1 u1) :
      BusApart (if mode = .iret then s1 else markBusy s1 a t) (if mode = .iret then u1 else markBusy u1 a t) := by
    split
    · exact h1
    · obtain ⟨hs, x, l, rfl⟩ := h1
      exact .of_eq (x := x) hs rfl rfl
  have hentered {s1 u1 : State} (h1 : BusApart s1 u1) (r : Tr) :
      BusApart { s1 with tr := r, msw := { s1.msw with ts := true } } { u1 with tr := r, msw := { u1.msw with ts := true } } := by
    obtain ⟨hs, x, l, rfl⟩ := h1
    exact .of_eq (x := x) (l := l) hs rfl rfl
  have htr : u.tr = s.tr := by
    obtain ⟨-, x, l, rfl⟩ := h
    rfl
  unfold Machine.commitSwitch
  rw [htr]
  exact (hentered (hmarked hlinked) _).loadTask t.base mode

end

/-! ### Answers that agree -/

/-- Two runs answer alike, or raise the same exception in like states. -/
inductive SameAnswer {α : Type} (R : α → α → Prop) : M α → M α → Prop where
  | ok {a b : α} (h : R a b) : SameAnswer R (.ok a) (.ok b)
  | exc (e : Event) : SameAnswer R (.error (.exc e)) (.error (.exc e))
  | excIn {e : Event} {ip : Word} {t u : State} (h : BusApart t u) :
    SameAnswer R (.error (.excIn e t ip)) (.error (.excIn e u ip))

section
variable {α β : Type} {R : α → α → Prop} {Q : β → β → Prop}

theorem SameAnswer.bind {x y : M α} {f g : α → M β} (h : SameAnswer R x y) (hf : ∀ a b, R a b → SameAnswer Q (f a) (g b)) :
    SameAnswer Q (x >>= f) (y >>= g) := by
  cases h with
  | ok h => exact hf _ _ h
  | exc e => exact .exc e
  | excIn h => exact .excIn h

/-- A check or a read that both runs make alike, then the rest. -/
theorem SameAnswer.after {x y : M α} {f g : α → M β} (he : y = x) (hx : ChangesNothing x) (hf : ∀ a, SameAnswer Q (f a) (g a)) :
    SameAnswer Q (x >>= f) (y >>= g) := by
  subst he
  rcases y with (e | ⟨e, t, ip⟩) | a
  · exact .exc e
  · exact (hx.raised e t ip rfl).elim
  · exact hf a

theorem SameAnswer.need {ok : Bool} {e : Event} {x y : M β} (h : SameAnswer Q x y) :
    SameAnswer Q (need ok (.exc e) >>= fun _ => x) (need ok (.exc e) >>= fun _ => y) :=
  .after rfl (need_changesNothing ok e) fun _ => h

theorem SameAnswer.ite {c : Prop} [Decidable c] {x y x' y' : M β} (hx : SameAnswer Q x x') (hy : SameAnswer Q y y') :
    SameAnswer Q (if c then x else y) (if c then x' else y') := by
  split
  · exact hx
  · exact hy

theorem SameAnswer.descriptor {s : State} (hs : Steady s) {x : BusTime} {l : List Host.Cell} {g : ReadGroup} {sel : Word}
    {e : Event} {f f' : Phys × Desc → M β} (h : ∀ p, SameAnswer Q (f p) (f' p)) :
    SameAnswer Q (needDescriptor (s.later g) sel (.exc e) >>= f) (needDescriptor ((s.elsewhere x l).later g) sel (.exc e) >>= f') :=
  .after (hs.needDescriptor_elsewhere x l g sel _) (needDescriptor_changesNothing ..) h

theorem SameAnswer.inTask {s u : State} (h : BusApart s u) {r r' : M State} (hr : SameAnswer BusApart r r') :
    SameAnswer BusApart (inTask s r) (inTask u r') := by
  cases hr with
  | ok h' => exact .ok h'
  | exc e =>
    obtain ⟨hs, x, l, rfl⟩ := h
    exact .excIn ⟨hs, x, l, rfl⟩
  | excIn h' => exact .excIn h'

end

/-! ### Task switches and gates -/

section
variable {s u : State} (h : BusApart s u)
include h

theorem checkIp_sameAnswer : SameAnswer BusApart (checkIp s) (checkIp u) := by
  obtain ⟨hs, x, l, rfl⟩ := h
  exact .need (.ok ⟨hs, x, l, rfl⟩)

theorem push_sameAnswer (v : Word) : SameAnswer BusApart (push s v) (push u v) := by
  obtain ⟨hs, x, l, rfl⟩ := h
  unfold push memWrite
  exact .bind (R := BusApart) (.after rfl (memCheck_changesNothing ..) fun _ => .ok (.of_eq (x := x) hs rfl rfl)) fun _ _ h =>
    .ok (h.setSp _)

theorem switchLdt_sameAnswer (ext : Bool) : SameAnswer BusApart (switchLdt s ext) (switchLdt u ext) := by
  obtain ⟨hs, x, l, rfl⟩ := h
  exact .ite (.ok ⟨hs, x, l, rfl⟩) (.need <| .descriptor hs fun _ => .need <| .ok (.of_eq (x := x) (l := l) hs rfl rfl))

theorem switchCs_sameAnswer (ext : Bool) : SameAnswer BusApart (switchCs s ext) (switchCs u ext) := by
  obtain ⟨hs, x, l, rfl⟩ := h
  exact .need <| .descriptor hs fun _ => .need <| .need <| .need <| .ok (BusApart.loadCache ⟨hs, x, l, rfl⟩ ..)

theorem switchSs_sameAnswer (ext : Bool) : SameAnswer BusApart (switchSs s ext) (switchSs u ext) := by
  obtain ⟨hs, x, l, rfl⟩ := h
  exact .need <| .descriptor hs fun _ => .need <| .need <| .need <| .ok (BusApart.loadCache ⟨hs, x, l, rfl⟩ ..)

theorem switchData_sameAnswer (x : SReg) (ext : Bool) : SameAnswer BusApart (switchData s x ext) (switchData u x ext) := by
  obtain ⟨hs, b, l, rfl⟩ := h
  have hseg : (s.elsewhere b l).seg x = s.seg x := by cases x <;> rfl
  unfold switchData
  rw [hseg]
  exact .ite (.ok ⟨hs, b, l, rfl⟩) (.descriptor hs fun _ => .need <| .need <| .need <|
    .ok (BusApart.loadCache ⟨hs, b, l, rfl⟩ ..))

theorem switchTasks_sameAnswer (tsel : Word) (a : Phys) (t : Desc) (mode : SwitchMode) (ret : Word) (ext : Bool) :
    SameAnswer BusApart (switchTasks s tsel a t mode ret ext) (switchTasks u tsel a t mode ret ext) :=
  have h1 := h.commitSwitch tsel a t mode ret
  .need <| .bind (.inTask h1 (switchLdt_sameAnswer h1 ext)) fun _ _ h2 =>
    .bind (.inTask h2 (switchCs_sameAnswer h2 ext)) fun _ _ h3 =>
    .bind (.inTask h3 (switchSs_sameAnswer h3 ext)) fun _ _ h4 =>
    .bind (.inTask h4 (switchData_sameAnswer h4 .ds ext)) fun _ _ h5 =>
    .bind (.inTask h5 (switchData_sameAnswer h5 .es ext)) fun _ _ ⟨hs, x, _, hu⟩ =>
    .ok (.of_eq (x := x) (l := []) hs rfl (congrArg State.flush hu))

theorem taskEntry_sameAnswer (ev : Event) (g : Desc) (ret : Word) :
    SameAnswer BusApart (taskEntry s ev g ret) (taskEntry u ev g ret) := by
  have hswitch (p : Phys × Desc) := switchTasks_sameAnswer h g.selector p.1 p.2 .nest ret ev.ext
  obtain ⟨hs, x, l, rfl⟩ := h
  refine .need <| .descriptor hs fun p => .need <| .need <| .bind (hswitch p) fun _ _ h1 =>
    .bind (.inTask h1 ?_) fun _ _ h2 => .inTask h2 (checkIp_sameAnswer h2)
  split
  · exact push_sameAnswer h1 _
  · exact .ok h1

theorem gateInner_sameAnswer (ev : Event) (g : Desc) (c : Phys × Desc) (ret : Word) :
    SameAnswer BusApart (gateInner s ev g c ret) (gateInner u ev g c ret) := by
  obtain ⟨hs, x, l, rfl⟩ := h
  refine .after (innerStack_elsewhere hs x l _ _) (innerStack_changesNothing ..) fun a => .need <| .need <| .ok ?_
  have hstack := ((BusApart.mk hs ⟨x, l, rfl⟩).loadCache .ss a.1 a.2.2).setSp a.2.1
  exact ((((((((hstack.loadCs ..).pushRaw _).pushRaw _).pushRaw _).pushRaw _).pushRaw _).pushCode _).afterGate _)

theorem gateSame_sameAnswer (ev : Event) (g : Desc) (c : Phys × Desc) (ret : Word) :
    SameAnswer BusApart (gateSame s ev g c ret) (gateSame u ev g c ret) := by
  obtain ⟨hs, x, l, rfl⟩ := h
  have hcheck (n : Nat) : checkPush (s.elsewhere x l) n = checkPush s n := by
    induction n with
    | zero => rfl
    | succ n ih =>
      rw [checkPush, checkPush, ih]
      rfl
  refine .after (hcheck _) (checkPush_changesNothing ..) fun _ => .need <| .ok ?_
  exact (((((BusApart.mk hs ⟨x, l, rfl⟩).pushRaw _).pushRaw _).pushRaw _).loadCs ..).pushCode _ |>.afterGate _

theorem gateEntry_sameAnswer (ev : Event) (g : Desc) (ret : Word) :
    SameAnswer BusApart (gateEntry s ev g ret) (gateEntry u ev g ret) := by
  have hinner (c : Phys × Desc) := gateInner_sameAnswer h ev g c ret
  have hsame (c : Phys × Desc) := gateSame_sameAnswer h ev g c ret
  obtain ⟨hs, x, l, rfl⟩ := h
  exact .need <| .descriptor hs fun c => .need <| .need <| .ite (hinner c) (.ite (hsame c) (.exc _))

/-- What an entry of the IDT does. -/
theorem protEntry_sameAnswer (ev : Event) (ret : Word) : SameAnswer BusApart (protEntry s ev ret) (protEntry u ev ret) := by
  have htask (g : Desc) := taskEntry_sameAnswer h ev g ret
  have hgate (g : Desc) := gateEntry_sameAnswer h ev g ret
  obtain ⟨hs, x, l, rfl⟩ := h
  have hg : descAt (s.elsewhere x l) ((s.elsewhere x l).idtr.base + BitVec.ofNat 24 (8 * ev.vector.toNat)) =
      descAt s (s.idtr.base + BitVec.ofNat 24 (8 * ev.vector.toNat)) := hs.descAt_elsewhere x l _
  unfold protEntry
  rw [hg]
  exact .need <| .need <| .need <| .need <| .ite (htask _) (hgate _)

/-! ### Deliveries -/

theorem enterShutdown_busApart : BusApart (enterShutdown s) (enterShutdown u) := by
  obtain ⟨hs, x, l, rfl⟩ := h
  exact .of_eq (x := x) (l := l) hs rfl rfl

theorem doubleFault_busApart (ret : Word) : BusApart (doubleFault s ret) (doubleFault u ret) := by
  have hd := protEntry_sameAnswer h (.exn 8 (some 0)) ret
  unfold doubleFault
  generalize protEntry s (.exn 8 (some 0)) ret = r at hd ⊢
  generalize protEntry u (.exn 8 (some 0)) ret = r' at hd ⊢
  cases hd with
  | ok k => exact k
  | exc e => exact enterShutdown_busApart h
  | excIn k => exact enterShutdown_busApart k

/-- The delivery of the exception that a benign first one has raised. -/
theorem secondDelivery_busApart (ev : Event) (ip : Word) :
    BusApart
      (match protEntry s ev ip with
        | .ok t => t
        | .error st => doubleFault (st.nextDelivery s ip).1 (st.nextDelivery s ip).2.1)
      (match protEntry u ev ip with
        | .ok t => t
        | .error st => doubleFault (st.nextDelivery u ip).1 (st.nextDelivery u ip).2.1) := by
  have hd := protEntry_sameAnswer h ev ip
  generalize protEntry s ev ip = r at hd ⊢
  generalize protEntry u ev ip = r' at hd ⊢
  cases hd with
  | ok k => exact k
  | exc e => exact doubleFault_busApart (h.later .delivery) _
  | excIn k => exact doubleFault_busApart (k.later .delivery) _

theorem deliverFirst_busApart (ev : Event) (ret : Word) : BusApart (deliverFirst s ev ret) (deliverFirst u ev ret) := by
  have hd := protEntry_sameAnswer h ev ret
  unfold deliverFirst
  generalize protEntry s ev ret = r at hd ⊢
  generalize protEntry u ev ret = r' at hd ⊢
  cases hd with
  | ok k => exact k
  | exc e =>
    simp only [Stop.nextDelivery, Stop.context]
    split
    · exact secondDelivery_busApart (h.later .delivery) e ret
    · exact doubleFault_busApart (h.later .delivery) _
  | @excIn e ip t v k =>
    simp only [Stop.nextDelivery, Stop.context]
    split
    · exact secondDelivery_busApart (k.later .delivery) e ip
    · exact doubleFault_busApart (k.later .delivery) _

end

/-- At the end of a delivery the bus and what has been prefetched are set anew. -/
theorem BusApart.deliveryEnded {s u v : State} (h : BusApart u v) : deliveryEnded s v = deliveryEnded s u := by
  obtain ⟨-, x, l, rfl⟩ := h
  rfl

end Sys2Proof.Machine
end

section
/-! PROOFS. Interrupt and trap gates in protected mode (60_exceptions.md R562, R563, R565): the checks of a delivery, one lemma for
each, and the two states it ends in, at the same level and at an inner one. -/

namespace Sys2Proof.Machine

/-! ### The entry of the IDT -/

section
variable {s : State} {ev : Event}

/-- The gate is one that a delivery knows: a task, interrupt or trap gate (R562). -/
abbrev GateTyped (g : Desc) : Prop := g.isType 5 = true ∨ InterruptOrTrap g

theorem gateTyped_iff (g : Desc) : (g.isType 5 || g.isType 6 || g.isType 7) = true ↔ GateTyped g := by
  rw [Bool.or_eq_true, Bool.or_eq_true, or_assoc]
  rfl

/-- The gate's DPL lets the event pass: it is tested for an INT instruction alone (R562). -/
abbrev GateSeen (s : State) (ev : Event) : Prop := ev.isInt = true → s.cpl ≤ arDpl (idtGate s ev.vector).ar

theorem gateSeen_iff : (!ev.isInt || decide (s.cpl ≤ arDpl (idtGate s ev.vector).ar)) = true ↔ GateSeen s ev := by
  cases h : ev.isInt <;> simp [h]

/-- The error code that names a gate (R565). -/
theorem idtCode_eq (ev : Event) : idtCode ev = BitVec.ofNat 16 (8 * ev.vector.toNat + 2) + (if ev.ext then 1 else 0) := by
  rw [idtCode, BitVec.ofNat_add, Nat.mul_comm]
  cases ev.ext <;> rfl

theorem protEntry_eq (s : State) (ev : Event) (ret : Word) : protEntry s ev ret = (do
    need (decide (8 * ev.vector.toNat + 7 ≤ s.idtr.limit.toNat)) (protection (idtCode ev))
    need ((idtGate s ev.vector).isType 5 || (idtGate s ev.vector).isType 6 || (idtGate s ev.vector).isType 7)
      (protection (idtCode ev))
    need (!ev.isInt || decide (s.cpl ≤ arDpl (idtGate s ev.vector).ar)) (protection (idtCode ev))
    need (arP (idtGate s ev.vector).ar) (notPresent (idtCode ev))
    if (idtGate s ev.vector).isType 5 then taskEntry s ev (idtGate s ev.vector) ret
      else gateEntry s ev (idtGate s ev.vector) ret) := rfl

theorem protEntry_unusable (ret : Word)
    (h : ¬ (8 * ev.vector.toNat + 7 ≤ s.idtr.limit.toNat ∧ GateTyped (idtGate s ev.vector) ∧ GateSeen s ev)) :
    protEntry s ev ret = .error (protection (idtCode ev)) := by
  rw [protEntry_eq]
  by_cases hlim : 8 * ev.vector.toNat + 7 ≤ s.idtr.limit.toNat
  · rw [need_ok _ (decide_eq_true hlim), ok_bind']
    by_cases ht : GateTyped (idtGate s ev.vector)
    · have hseen : ¬ GateSeen s ev := fun hseen => h ⟨hlim, ht, hseen⟩
      rw [need_ok _ ((gateTyped_iff _).2 ht), ok_bind', need_error _ (Bool.eq_false_iff.2 (mt gateSeen_iff.1 hseen)),
        error_bind']
    · rw [need_error _ (Bool.eq_false_iff.2 (mt (gateTyped_iff _).1 ht)), error_bind']
  · rw [need_error _ (decide_eq_false hlim), error_bind']

section
variable (ret : Word) (hlim : 8 * ev.vector.toNat + 7 ≤ s.idtr.limit.toNat) (ht : GateTyped (idtGate s ev.vector))
  (hseen : GateSeen s ev)
include hlim ht hseen

theorem protEntry_present :
    protEntry s ev ret = (do
      need (arP (idtGate s ev.vector).ar) (notPresent (idtCode ev))
      if (idtGate s ev.vector).isType 5 then taskEntry s ev (idtGate s ev.vector) ret
        else gateEntry s ev (idtGate s ev.vector) ret) := by
  rw [protEntry_eq, need_ok _ (decide_eq_true hlim), ok_bind', need_ok _ ((gateTyped_iff _).2 ht), ok_bind',
    need_ok _ (gateSeen_iff.2 hseen), ok_bind']

theorem protEntry_notPresent (hP : arP (idtGate s ev.vector).ar = false) :
    protEntry s ev ret = .error (notPresent (idtCode ev)) := by
  rw [protEntry_present ret hlim ht hseen, need_error _ hP, error_bind']

end

theorem protEntry_taskUsable (ret : Word) (hg : GateUsable s ev) (h5 : (idtGate s ev.vector).isType 5 = true) :
    protEntry s ev ret = taskEntry s ev (idtGate s ev.vector) ret := by
  obtain ⟨hlim, hP, hseen⟩ := hg
  rw [protEntry_present ret hlim (.inl h5) hseen, need_ok _ hP, ok_bind', if_pos h5]

theorem InterruptOrTrap.not_task {g : Desc} (h : InterruptOrTrap g) : g.isType 5 = false := by
  rcases h with h | h <;> exact Desc.isType_ne h (by decide)

theorem protEntry_gateUsable (ret : Word) (hg : GateUsable s ev) (ht : InterruptOrTrap (idtGate s ev.vector)) :
    protEntry s ev ret = gateEntry s ev (idtGate s ev.vector) ret := by
  obtain ⟨hlim, hP, hseen⟩ := hg
  rw [protEntry_present ret hlim (.inr ht) hseen, need_ok _ hP, ok_bind', if_neg (by simp [ht.not_task])]

/-! ### Task gates that fail -/

theorem taskEntry_fault (hs : Steady s) {g : Desc} (ret : Word) {n : Byte} {c : Word} (h : TaskGateFault s g.selector ev.ext n c) :
    taskEntry s ev g ret = .error (.exc (.exn n (some c))) := by
  rw [taskEntry_eq, selCode_false]
  rcases h with ⟨h, rfl, rfl⟩ | ⟨a, d, hn, hl, hf, h⟩
  · have hbad : namedTask s g.selector 1 (protection (g.selector &&& 0xFFFC)) = .error (protection (g.selector &&& 0xFFFC)) := by
      rcases or_assoc.2 h with h | h
      · exact namedTask_noSelector _ h
      · exact namedTask_noDescriptor hs _ h
    rw [hbad]
    rfl
  rcases h with ⟨ht, rfl, rfl⟩ | ⟨ht, hP, rfl, rfl⟩ | ⟨ht, hP, hlim, rfl, rfl⟩
  · rw [namedTask_otherType hs _ hn hl hf ht]
    rfl
  · rw [namedTask_notPresent hs _ hn hl hf ht hP]
    rfl
  · have hlimit : decide (0x2B ≤ d.limit.toNat) = false := decide_eq_false (Nat.not_le_of_lt hlim)
    rw [namedTask_ok hs _ hn hl hf ht hP, ok_bind', switchTasks, hlimit, selCode_eq_add]
    rfl

/-! ### What an interrupt or trap gate names -/

theorem innerLevel_test_iff (s : State) (d : Desc) :
    (!arC d.ar && decide (arDpl d.ar < s.cpl)) = true ↔ InnerTarget s d := by simp [InnerTarget]

theorem sameLevel_test_iff (s : State) (d : Desc) :
    ((arC d.ar && decide (arDpl d.ar ≤ s.cpl)) || decide (arDpl d.ar = s.cpl)) = true ↔ SameLevelTarget s d := by
  simp [SameLevelTarget]

theorem SameLevelTarget.not_inner (h : SameLevelTarget s d) : ¬ InnerTarget s d := by
  rintro ⟨hC, hlt⟩
  rcases h with ⟨hC', -⟩ | heq
  · exact absurd (hC.symm.trans hC') (by decide)
  · exact absurd heq (Nat.ne_of_lt hlt)

section
variable {g : Desc} (ret : Word)

theorem gateEntry_null (hn : g.selector.toNat < 4) :
    gateEntry s ev g ret = .error (protection (if ev.ext then 1 else 0)) := by
  rw [gateEntry, selNull_eq_true hn]
  cases ev.ext <;> rfl

variable (hs : Steady s) (hn : 4 ≤ g.selector.toNat)
include hs hn

theorem gateEntry_noDescriptor (hf : fetchDescriptor s g.selector = none) :
    gateEntry s ev g ret = .error (protection (selCode g.selector ev.ext)) := by
  rw [gateEntry, selNull_eq_false hn, hs.needDescriptor_none _ hf]
  rfl

variable {a : Phys} {d : Desc} (hf : fetchDescriptor s g.selector = some (a, d))
include hf

theorem gateEntry_noCode (hc : arCode d.ar = false) :
    gateEntry s ev g ret = .error (protection (selCode g.selector ev.ext)) := by
  rw [gateEntry, selNull_eq_false hn, hs.needDescriptor_some _ hf]
  simp only [Bool.not_false, need_true, ok_bind']
  rw [need_error _ hc, error_bind']

variable (hc : arCode d.ar = true)
include hc

theorem gateEntry_codeNotPresent (hP : arP d.ar = false) :
    gateEntry s ev g ret = .error (notPresent (selCode g.selector ev.ext)) := by
  rw [gateEntry, selNull_eq_false hn, hs.needDescriptor_some _ hf]
  simp only [Bool.not_false, need_true, ok_bind']
  rw [need_ok _ hc, ok_bind', need_error _ hP, error_bind']

variable (hP : arP d.ar = true)
include hP

theorem gateEntry_code :
    gateEntry s ev g ret =
      if !arC d.ar && decide (arDpl d.ar < s.cpl) then gateInner s ev g (a, d) ret
      else if (arC d.ar && decide (arDpl d.ar ≤ s.cpl)) || decide (arDpl d.ar = s.cpl) then gateSame s ev g (a, d) ret
      else .error (protection (selCode g.selector ev.ext)) := by
  rw [gateEntry, selNull_eq_false hn, hs.needDescriptor_some _ hf]
  simp only [Bool.not_false, need_true, ok_bind']
  rw [need_ok _ hc, ok_bind', need_ok _ hP, ok_bind']

theorem gateEntry_inner (h : InnerTarget s d) : gateEntry s ev g ret = gateInner s ev g (a, d) ret := by
  rw [gateEntry_code ret hs hn hf hc hP, if_pos ((innerLevel_test_iff s d).2 h)]

theorem gateEntry_same (h : SameLevelTarget s d) : gateEntry s ev g ret = gateSame s ev g (a, d) ret := by
  rw [gateEntry_code ret hs hn hf hc hP, if_neg (mt (innerLevel_test_iff s d).1 h.not_inner),
    if_pos ((sameLevel_test_iff s d).2 h)]

theorem gateEntry_noLevel (h : ¬ SameLevelTarget s d) (hi : ¬ InnerTarget s d) :
    gateEntry s ev g ret = .error (protection (selCode g.selector ev.ext)) := by
  rw [gateEntry_code ret hs hn hf hc hP, if_neg (mt (innerLevel_test_iff s d).1 hi),
    if_neg (mt (sameLevel_test_iff s d).1 h)]

end

/-! ### The same level -/

theorem codeWords_eq (code : Option Word) : codeWords code = codeLength code := by cases code <;> rfl

/-- A delivery at the same level when all its checks have passed (R563). -/
def sameLevel (s : State) (ev : Event) (g : Desc) (c : Phys × Desc) (ret : Word) : State :=
  ((pushCode (loadCs ([s.flagsWord, s.cs.sel, ret].foldl pushRaw s) g.selector c s.cpl g.offset) ev.code).setFlags
    (gateFlags s.flags g)).drawn 1

section
variable {g : Desc} {c : Phys × Desc} (ret : Word)

theorem gateSame_noRoom (h : ¬ CanPush s (3 + codeLength ev.code)) :
    gateSame s ev g c ret = .error (refusedAccess s .ss .write) := by
  rw [gateSame, codeWords_eq, checkPush_refused h, error_bind']

variable (h : CanPush s (3 + codeLength ev.code))
include h

theorem gateSame_outside (ho : c.2.limit.toNat < g.offset.toNat) : gateSame s ev g c ret = .error (protection 0) := by
  rw [gateSame, codeWords_eq, checkPush_ok h, ok_bind', need_error _ (by simpa using ho), error_bind']

theorem gateSame_ok (ho : g.offset.toNat ≤ c.2.limit.toNat) : gateSame s ev g c ret = .ok (sameLevel s ev g c ret) := by
  rw [gateSame, codeWords_eq, checkPush_ok h, ok_bind', need_ok _ (by simpa using ho), ok_bind']
  rfl

end

/-! ### An inner level -/

/-- What a delivery leaves on the stack of an inner level, from its top (R563). -/
def interruptWords (s : State) (code : Option Word) (ret : Word) : List Word :=
  code.toList ++ [ret, s.cs.sel, s.flagsWord, s.regs.sp, s.ss.sel]

theorem codeLength_eq (code : Option Word) : code.toList.length = codeLength code := by cases code <;> rfl

theorem codeLength_le_one (code : Option Word) : codeLength code ≤ 1 := by
  rw [codeLength]
  split <;> decide

theorem interruptWords_length (s : State) (code : Option Word) (ret : Word) :
    (interruptWords s code ret).length = 5 + codeLength code := by
  rw [interruptWords, List.length_append, codeLength_eq, Nat.add_comm]
  rfl

/-- Behind the error code lie the five words of the old state. -/
theorem interruptWords_behind (s : State) (code : Option Word) (ret : Word) (k : Nat) :
    (interruptWords s code ret)[codeLength code + k]? = [ret, s.cs.sel, s.flagsWord, s.regs.sp, s.ss.sel][k]? := by
  rw [interruptWords, List.getElem?_append_right (by rw [codeLength_eq]; omega), codeLength_eq, Nat.add_sub_cancel_left]

theorem pushCode_eq (u : State) (code : Option Word) : pushCode u code = code.toList.foldl pushRaw u := by cases code <;> rfl

/-- A delivery at an inner level when all its checks have passed (R563). -/
def innerEntered (s : State) (ev : Event) (g : Desc) (c : Phys × Desc) (ss sp : Word) (d : Phys × Desc) (ret : Word) : State :=
  (((interruptWords s ev.code ret).reverse.foldl pushRaw (innerLevel s ss sp d g.selector c g.offset)).setFlags
    (gateFlags s.flags g)).drawn 1

section
variable {g : Desc} {c : Phys × Desc} (ret : Word) (hs : Steady s)
include hs

theorem gateInner_stackFault {n : Byte} {e : Word} (h : InnerStackFault s (arDpl c.2.ar) ev.ext n e) :
    gateInner s ev g c ret = .error (.exc (.exn n (some e))) := by
  rw [gateInner, innerStack_fault hs h]
  rfl

variable {ss sp : Word} {b : Phys} {x : Desc} (hi : InnerStackIs s (arDpl c.2.ar) ss sp b x)
include hi

theorem gateInner_noRoom (hroom : ¬ RoomBelow (segmentCache ss x) sp (5 + codeLength ev.code)) :
    gateInner s ev g c ret = .error (stackFault 0) := by
  rw [gateInner, innerStack_passed hs ev.ext hi, ok_bind']
  simp only
  have hfits : roomBelow (x.cache ss) sp (5 + codeWords ev.code) = false :=
    Bool.eq_false_iff.2 fun h => hroom (codeWords_eq ev.code ▸ (roomBelow_iff ..).1 h)
  rw [need_error _ hfits, error_bind']

variable (hroom : RoomBelow (segmentCache ss x) sp (5 + codeLength ev.code))
include hroom

theorem gateInner_outside (ho : c.2.limit.toNat < g.offset.toNat) : gateInner s ev g c ret = .error (protection 0) := by
  have hfits : roomBelow (x.cache ss) sp (5 + codeWords ev.code) = true :=
    (roomBelow_iff ..).2 (codeWords_eq ev.code ▸ hroom)
  rw [gateInner, innerStack_passed hs ev.ext hi, ok_bind']
  simp only
  rw [need_ok _ hfits, ok_bind', need_error _ (by simpa using ho), error_bind']

theorem gateInner_ok (ho : g.offset.toNat ≤ c.2.limit.toNat) :
    gateInner s ev g c ret = .ok (innerEntered s ev g c ss sp (b, x) ret) := by
  have hfits : roomBelow (x.cache ss) sp (5 + codeWords ev.code) = true :=
    (roomBelow_iff ..).2 (codeWords_eq ev.code ▸ hroom)
  rw [gateInner, innerStack_passed hs ev.ext hi, ok_bind']
  simp only
  rw [need_ok _ hfits, ok_bind', need_ok _ (by simpa using ho), ok_bind', innerEntered, interruptWords]
  cases ev.code <;> rfl

end

/-! ### The states they end in -/

/-- Later pushes leave the words of the stack alone that they do not reach by running round the segment. -/
theorem stackAt_behind_pushed {u : State} {l : List Word} {k : Word} (hk : k.toNat + 2 + 2 * l.length ≤ 2 ^ 16) :
    stackAt (l.foldl pushRaw u) (BitVec.ofNat 16 (2 * l.length) + k) = stackAt u k := by
  have hsp : (l.foldl pushRaw u).regs.sp = u.regs.sp - BitVec.ofNat 16 (2 * l.length) :=
    congrArg Regs.sp (foldl_pushRaw_registers u l).1
  have hsys := SameSystem.foldl_pushRaw u l
  have hbyte (j : Nat) (hj : j < 2) :
      (l.foldl pushRaw u).load8 (segAddr u .ss (u.regs.sp + k + BitVec.ofNat 16 j)) =
        u.load8 (segAddr u .ss (u.regs.sp + k + BitVec.ofNat 16 j)) :=
    load8_foldl_pushRaw fun i hi heq => by
      have hoff := segAddr_inj u .ss heq
      bv_omega
  have hlow := hbyte 0 (by decide)
  rw [show u.regs.sp + k + BitVec.ofNat 16 0 = u.regs.sp + k by simp] at hlow
  have hplace : (l.foldl pushRaw u).regs.sp + (BitVec.ofNat 16 (2 * l.length) + k) = u.regs.sp + k := by
    rw [hsp]
    bv_omega
  rw [stackAt, stackAt, hplace]
  simp only [peek16, peek8, segAddr_congr hsys.msw (hsys.seg .ss), hlow]
  exact congrArg _ (hbyte 1 (by decide))

/-- The bytes of words pushed below other words. -/
theorem BelowTop.behind {s u : State} {n m : Nat} {p : Phys} (hsys : SameButCs s u)
    (hsp : u.regs.sp = s.regs.sp - BitVec.ofNat 16 (2 * n)) (h : BelowTop u m p) : BelowTop s (n + m) p := by
  obtain ⟨k, hk, rfl⟩ := h
  refine ⟨2 * n + k, by omega, ?_⟩
  rw [hsys.segAddr_ss, hsp, BitVec.sub_sub, ← BitVec.ofNat_add, Nat.add_assoc]

theorem BelowTop.mono {n m : Nat} {p : Phys} (h : BelowTop s n p) (hnm : n ≤ m) : BelowTop s m p := by
  obtain ⟨k, hk, hp⟩ := h
  exact ⟨k, by omega, hp⟩

theorem PlainMemory.loadCs (h : PlainMemory s) (sel : Word) (p : Phys × Desc) (cpl : Nat) (off : Word) :
    PlainMemory (loadCs s sel p cpl off) := (h.setAccessed p.1 p.2).congr rfl rfl

theorem codeOnTop_of_words {t : State} {code : Option Word} (h : ∀ v, code.toList[0]? = some v → stackAt t 0 = v) :
    CodeOnTop t code := by
  rintro c rfl
  exact h c rfl

/-- At the same level FLAGS, CS, the return offset and the error code lie on the stack, and nothing else has changed (R563). -/
theorem sameLevel_frame (hm : PlainMemory s) {g : Desc} {a : Phys} {d : Desc} (hd : d = descAt s a) (ret : Word)
    (ha : ¬ BelowTop s (3 + codeLength ev.code) (a + 5)) :
    let t := sameLevel s ev g (a, d) ret
    let e : Word := BitVec.ofNat 16 (2 * codeLength ev.code)
    PlainMemory t ∧ t.cs = codeCache g.selector d s.cpl ∧ t.ip = g.offset ∧ CodeOnTop t ev.code ∧ stackAt t e = ret ∧
      stackAt t (e + 2) = s.cs.sel ∧ Flags.ofWord (stackAt t (e + 4)) = s.flags ∧
      t.regs = { s.regs with sp := s.regs.sp - BitVec.ofNat 16 (2 * (3 + codeLength ev.code)) } ∧
      t.flags = gateFlags s.flags g ∧ t.load8 (a + 5) = d.ar ||| 1 ∧
      (∀ p, p ≠ a + 5 → ¬ BelowTop s (3 + codeLength ev.code) p → t.load8 p = s.load8 p) ∧ SameButCs s t := by
  have hfirst : ¬ BelowTop s 3 (a + 5) := fun h => ha (h.mono (Nat.le_add_right ..))
  obtain ⟨⟨hcs, hip, -, hregs, hset, hmem, hsys⟩, hword⟩ := entersCode_pushed (sel := g.selector) hm hd
    (l := [s.flagsWord, s.cs.sel, ret]) (by simp) hfirst s.cpl g.offset
  have hplain := (hm.foldl_pushRaw [s.flagsWord, s.cs.sel, ret]).loadCs g.selector (a, d) s.cpl g.offset
  rw [sameLevel, pushCode_eq]
  generalize loadCs ([s.flagsWord, s.cs.sel, ret].foldl pushRaw s) g.selector (a, d) s.cpl g.offset = u at *
  have hlen := codeLength_eq ev.code
  have hle := codeLength_le_one ev.code
  obtain ⟨hregs', -, hip'⟩ := foldl_pushRaw_registers u ev.code.toList
  have hsys' := SameSystem.foldl_pushRaw u ev.code.toList
  have hsp : u.regs.sp = s.regs.sp - BitVec.ofNat 16 (2 * 3) := congrArg Regs.sp hregs
  have hbelow {p : Phys} (hp : ¬ BelowTop s (3 + codeLength ev.code) p) :
      (ev.code.toList.foldl pushRaw u).load8 p = u.load8 p :=
    load8_foldl_pushRaw fun k hk h => hp (BelowTop.behind hsys hsp ⟨k, hlen ▸ hk, h⟩)
  have hbehind (k : Word) (hk : k.toNat ≤ 4) :
      stackAt (ev.code.toList.foldl pushRaw u) (BitVec.ofNat 16 (2 * codeLength ev.code) + k) = stackAt u k := by
    rw [← hlen]
    exact stackAt_behind_pushed (by omega)
  have hret : stackAt u 0 = ret := stackAt_of_sp hsp (by bv_omega) (hword 2 ret rfl)
  have hsel : stackAt u 2 = s.cs.sel := stackAt_of_sp hsp (by bv_omega) (hword 1 s.cs.sel rfl)
  have hflags : stackAt u 4 = s.flagsWord := stackAt_of_sp hsp (by bv_omega) (hword 0 s.flagsWord rfl)
  refine ⟨(hplain.foldl_pushRaw _).congr rfl rfl, hsys'.cs.trans hcs, hip'.trans hip,
    codeOnTop_of_words fun v hv => ?_, ?_, (hbehind 2 (by decide)).trans hsel, ?_, ?_, rfl, (hbelow ha).trans hset,
    fun p hp hb => (hbelow hb).trans (hmem p hp fun h => hb (h.mono (Nat.le_add_right ..))),
    hsys.trans (hsys'.sameButCs.trans (sameButCs_setFlags ..))⟩
  · cases hcode : ev.code with
    | none =>
      rw [hcode] at hv
      cases hv
    | some c =>
      rw [hcode] at hv
      cases hv
      exact stackAt_foldl_pushRaw hplain (l := [v]) (by simp) (i := 0) rfl
  · have hplace := hbehind 0 (by decide)
    simp only [BitVec.ofNat_eq_ofNat, BitVec.add_zero] at hplace
    exact hplace.trans hret
  · exact (congrArg Flags.ofWord ((hbehind 4 (by decide)).trans hflags)).trans (Flags.ofWord_image ..)
  · refine hregs'.trans ?_
    rw [hregs, hlen, BitVec.sub_sub, ← BitVec.ofNat_add, ← Nat.mul_add]
    rfl

/-- At an inner level the new stack holds, from its top, the error code, the return offset, CS, FLAGS and the old SS:SP (R563). -/
theorem innerEntered_frame (hm : PlainMemory s) (hp : s.msw.pe = true) (g : Desc) (c : Phys × Desc) (ss sp : Word)
    (d : Phys × Desc) (ret : Word) :
    let t := innerEntered s ev g c ss sp d ret
    let e : Word := BitVec.ofNat 16 (2 * codeLength ev.code)
    PlainMemory t ∧ t.cs = codeCache g.selector c.2 (arDpl c.2.ar) ∧ t.cpl = arDpl c.2.ar ∧ t.ip = g.offset ∧
      t.ss = segmentCache ss d.2 ∧ CodeOnTop t ev.code ∧ stackAt t e = ret ∧ stackAt t (e + 2) = s.cs.sel ∧
      Flags.ofWord (stackAt t (e + 4)) = s.flags ∧ stackAt t (e + 6) = s.regs.sp ∧ stackAt t (e + 8) = s.ss.sel ∧
      t.regs = { s.regs with sp := sp - BitVec.ofNat 16 (2 * (5 + codeLength ev.code)) } ∧ t.flags = gateFlags s.flags g ∧
      (∀ p, p ≠ c.1 + 5 → p ≠ d.1 + 5 → (∀ j, j < 2 * (5 + codeLength ev.code) →
        p ≠ segAddr t .ss (sp - BitVec.ofNat 16 (j + 1))) → t.load8 p = s.load8 p) ∧
      SameSystem { s with cs := t.cs, ss := t.ss } t := by
  obtain ⟨hcs, hip, hss, hregs, -, hsys, hplain, hmem⟩ := innerLevel_frame s ss sp d g.selector c g.offset
  rw [innerEntered]
  generalize innerLevel s ss sp d g.selector c g.offset = u at *
  have hle := codeLength_le_one ev.code
  have hlen : (interruptWords s ev.code ret).reverse.length = 5 + codeLength ev.code := by
    rw [List.length_reverse, interruptWords_length]
  obtain ⟨hregs', -, hip'⟩ := foldl_pushRaw_registers u (interruptWords s ev.code ret).reverse
  have hsys' := SameSystem.foldl_pushRaw u (interruptWords s ev.code ret).reverse
  have hword (i : Nat) {v : Word} (hv : (interruptWords s ev.code ret)[i]? = some v) :
      stackAt ((interruptWords s ev.code ret).reverse.foldl pushRaw u) (BitVec.ofNat 16 (2 * i)) = v :=
    stackAt_foldl_pushRaw (hplain hm) (by omega) (by rwa [List.reverse_reverse])
  have hplace (k : Nat) {v : Word} (hv : [ret, s.cs.sel, s.flagsWord, s.regs.sp, s.ss.sel][k]? = some v) :
      stackAt ((interruptWords s ev.code ret).reverse.foldl pushRaw u)
        (BitVec.ofNat 16 (2 * codeLength ev.code) + BitVec.ofNat 16 (2 * k)) = v :=
    add_twice (codeLength ev.code) k ▸ hword _ ((interruptWords_behind s ev.code ret k).trans hv)
  have hbelow {p : Phys} (h : ∀ k, k < 2 * (interruptWords s ev.code ret).reverse.length →
      p ≠ segAddr u .ss (u.regs.sp - BitVec.ofNat 16 (k + 1))) :=
    load8_foldl_pushRaw h
  have hplain' := (hplain hm).foldl_pushRaw (interruptWords s ev.code ret).reverse
  generalize (interruptWords s ev.code ret).reverse.foldl pushRaw u = t at *
  have hmsw : t.msw = s.msw := hsys'.msw.trans hsys.msw
  have hcs' : t.cs = codeCache g.selector c.2 (arDpl c.2.ar) := hsys'.cs.trans hcs
  have hsp : u.regs.sp = sp := congrArg Regs.sp hregs
  refine ⟨?_, hcs', ?_, hip'.trans hip, hsys'.ss.trans hss, codeOnTop_of_words fun v hv => ?_, ?_, hplace 1 rfl, ?_,
    hplace 3 rfl, hplace 4 rfl, ?_, rfl, fun p hpc hpd hpn => ?_, ?_⟩
  · exact hplain'.congr rfl rfl
  · have hcpl : t.cpl = rpl t.cs.sel := by rw [State.cpl, hmsw, if_pos hp]
    refine hcpl.trans ?_
    rw [hcs']
    exact rpl_withLevel _ (arDpl_lt_four _)
  · refine hword 0 ?_
    rw [interruptWords, List.getElem?_append_left (by simpa using (List.getElem?_eq_some_iff.1 hv).1), hv]
  · exact hword (codeLength ev.code + 0) ((interruptWords_behind s ev.code ret 0).trans rfl)
  · exact (congrArg Flags.ofWord (hplace 2 rfl)).trans (Flags.ofWord_image ..)
  · exact hregs'.trans (by rw [hregs, hlen])
  · refine (hbelow fun k hk h => hpn k (by omega) (h.trans ?_)).trans (hmem p hpc hpd)
    rw [hsp]
    exact (segAddr_congr (t := t) (x := .ss) hsys'.msw hsys'.ss _).symm
  · exact { hsys.trans hsys' with cs := rfl, ss := rfl }

end

end Sys2Proof.Machine
end

section
/-! PROOFS. The delivery of events in protected mode (60_exceptions.md R562 to R570): what an entry of the IDT answers, first in the
state that it finds, then in the delivery as a whole, and the settled statements. -/

namespace Sys2Proof.Machine

/-! ### What an entry of the IDT answers -/

section
variable {s : State} {ev : Event} (hs : Steady s) (ret : Word)
include hs

section
variable (hg : GateUsable s ev) (ht : InterruptOrTrap (idtGate s ev.vector))
include hg ht

theorem protEntry_sameLevel {a : Phys} {d : Desc} (hd : GateTarget s (idtGate s ev.vector) a d) (hl : SameLevelTarget s d)
    (hroom : CanPush s (3 + codeLength ev.code)) :
    protEntry s ev ret = .ok (sameLevel s ev (idtGate s ev.vector) (a, d) ret) := by
  obtain ⟨hn, hf, hc, hP, ho⟩ := hd
  rw [protEntry_gateUsable ret hg ht, gateEntry_same ret hs hn hf hc hP hl, gateSame_ok ret hroom ho]

theorem protEntry_innerLevel {a b : Phys} {d x : Desc} {ss sp : Word} (hd : GateTarget s (idtGate s ev.vector) a d)
    (hl : InnerTarget s d) (hi : InnerStackIs s (arDpl d.ar) ss sp b x)
    (hroom : RoomBelow (segmentCache ss x) sp (5 + codeLength ev.code)) :
    protEntry s ev ret = .ok (innerEntered s ev (idtGate s ev.vector) (a, d) ss sp (b, x) ret) := by
  obtain ⟨hn, hf, hc, hP, ho⟩ := hd
  rw [protEntry_gateUsable ret hg ht, gateEntry_inner ret hs hn hf hc hP hl, gateInner_ok (c := (a, d)) ret hs hi hroom ho]

end

/-- A delivery that fails raises the exception that R565 gives it. -/
theorem protEntry_fails {n : Byte} {c : Word} (h : DeliveryFails s ev n c) :
    protEntry s ev ret = .error (.exc (.exn n (some c))) := by
  rcases h with ⟨h, rfl, rfl⟩ | ⟨hlim, ht, hseen, hP, rfl, rfl⟩ | ⟨hg, h5, h⟩ | ⟨hg, ht, h⟩
  · rw [protEntry_unusable ret h, idtCode_eq]
    rfl
  · rw [protEntry_notPresent ret hlim ht hseen hP, idtCode_eq]
    rfl
  · rw [protEntry_taskUsable ret hg h5, taskEntry_fault hs ret h]
  rw [protEntry_gateUsable ret hg ht]
  rcases h with ⟨hn, rfl, rfl⟩ | ⟨hn, hf, rfl, rfl⟩ | ⟨hn, a, d, hf, h⟩
  · rw [gateEntry_null ret hn]
    rfl
  · rw [gateEntry_noDescriptor ret hs hn hf, selCode_eq_add]
    rfl
  rcases h with ⟨hc, rfl, rfl⟩ | ⟨hc, hP, rfl, rfl⟩ | ⟨hc, hP, hl, hi, rfl, rfl⟩ | ⟨hc, hP, hl, h⟩ | ⟨hc, hP, hi, h⟩
  · rw [gateEntry_noCode ret hs hn hf hc, selCode_eq_add]
    rfl
  · rw [gateEntry_codeNotPresent ret hs hn hf hc hP, selCode_eq_add]
    rfl
  · rw [gateEntry_noLevel ret hs hn hf hc hP hl hi, selCode_eq_add]
    rfl
  · rw [gateEntry_same ret hs hn hf hc hP hl]
    rcases h with ⟨hroom, rfl, rfl⟩ | ⟨hroom, ho, rfl, rfl⟩
    · rw [gateSame_noRoom (c := (a, d)) ret hroom]
      rfl
    · rw [gateSame_outside (c := (a, d)) ret hroom ho]
      rfl
  · rw [gateEntry_inner ret hs hn hf hc hP hi]
    rcases h with h | ⟨ss, sp, b, x, hstack, ⟨hroom, rfl, rfl⟩ | ⟨hroom, ho, rfl, rfl⟩⟩
    · rw [gateInner_stackFault (c := (a, d)) ret hs h]
    · rw [gateInner_noRoom (c := (a, d)) ret hs hstack hroom]
      rfl
    · rw [gateInner_outside (c := (a, d)) ret hs hstack hroom ho]
      rfl

end

/-! ### The state in which the delivery begins -/

section
variable {s : State} {ev : Event} (hs : Steady s)
include hs

theorem idtGate_deliveryBegun (n : Byte) : idtGate (deliveryBegun s) n = idtGate s n :=
  descAt_congr fun _ _ => load8_deliveryBegun hs _

theorem load16_deliveryBegun (a : Phys) : (deliveryBegun s).load16 a = s.load16 a := by
  rw [State.load16, State.load16, load8_deliveryBegun hs, load8_deliveryBegun hs]

theorem GateUsable.deliveryBegun (h : GateUsable s ev) : GateUsable (deliveryBegun s) ev := by
  rw [GateUsable, idtGate_deliveryBegun hs]
  exact h

theorem GateTarget.deliveryBegun {g : Desc} {a : Phys} {d : Desc} (h : GateTarget s g a d) :
    GateTarget (deliveryBegun s) g a d := by
  rw [GateTarget, fetchDescriptor_deliveryBegun hs]
  exact h

theorem InnerStackIs.deliveryBegun {p : Nat} {ss sp : Word} {b : Phys} {x : Desc} (h : InnerStackIs s p ss sp b x) :
    InnerStackIs (deliveryBegun s) p ss sp b x := by
  rw [InnerStackIs, fetchDescriptor_deliveryBegun hs, load16_deliveryBegun hs, load16_deliveryBegun hs]
  exact h

theorem DeliveryFails.deliveryBegun {n : Byte} {c : Word} (h : DeliveryFails s ev n c) :
    DeliveryFails (deliveryBegun s) ev n c := by
  simp only [DeliveryFails, GateUsable, TaskGateFault, InnerStackFault, InnerStackIs, idtGate_deliveryBegun hs,
    fetchDescriptor_deliveryBegun hs, load16_deliveryBegun hs]
  exact h

end

/-! ### The states in which a delivery ends -/

section
variable {s : State} {ev : Event}

theorem stackAt_deliveryEnded (s : State) {u : State} (hm : PlainMemory u) (k : Word) :
    stackAt (deliveryEnded s u) k = stackAt u k :=
  SameSystem.peek (sameSystem_deliveryEnded s u) (sameMemory_deliveryEnded s hm) .word .ss _

variable (hm : PlainMemory s) (ret : Word)
include hm

theorem sameLevel_delivered {a : Phys} {d : Desc} (hd : GateTarget s (idtGate s ev.vector) a d)
    (ha : ¬ BelowTop s (3 + codeLength ev.code) (a + 5)) :
    EntersSameLevel s (deliveryEnded s (sameLevel (deliveryBegun s) ev (idtGate s ev.vector) (a, d) ret)) ev ret a d := by
  obtain ⟨-, hf, -⟩ := hd.deliveryBegun hm.steady
  have hbegun : PlainMemory (deliveryBegun s) := hm.congr rfl rfl
  obtain ⟨hplain, hcs, hip, hcode, hret, hsel, hfl, hregs, hflags, hset, hmem, hsys⟩ :=
    sameLevel_frame (ev := ev) (g := idtGate s ev.vector) hbegun (fetchDescriptor_eq_some hf).2 ret ha
  generalize sameLevel (deliveryBegun s) ev (idtGate s ev.vector) (a, d) ret = u at *
  have hword := stackAt_deliveryEnded s hplain
  have hbyte := sameMemory_deliveryEnded s hplain
  exact ⟨hcs, hip, fun c hc => (hword 0).trans (hcode c hc), (hword _).trans hret, (hword _).trans hsel,
    (congrArg Flags.ofWord (hword _)).trans hfl, hregs, hflags, (hbyte _).trans hset,
    fun p hp hb => (hbyte p).trans ((hmem p hp hb).trans (load8_deliveryBegun hm.steady p)), { hsys with }⟩

theorem innerEntered_delivered (hp : s.msw.pe = true) (a b : Phys) (d x : Desc) (ss sp : Word) :
    EntersInnerLevel s (deliveryEnded s (innerEntered (deliveryBegun s) ev (idtGate s ev.vector) (a, d) ss sp (b, x) ret))
      ev ret a d ss sp b x := by
  have hbegun : PlainMemory (deliveryBegun s) := hm.congr rfl rfl
  obtain ⟨hplain, hcs, hcpl, hip, hss, hcode, hret, hsel, hfl, hsp, hsssel, hregs, hflags, hmem, hsys⟩ :=
    innerEntered_frame (ev := ev) hbegun hp (idtGate s ev.vector) (a, d) ss sp (b, x) ret
  generalize innerEntered (deliveryBegun s) ev (idtGate s ev.vector) (a, d) ss sp (b, x) ret = u at *
  have hword := stackAt_deliveryEnded s hplain
  have hbyte := sameMemory_deliveryEnded s hplain
  exact ⟨hcs, hcpl, hip, hss, fun c hc => (hword 0).trans (hcode c hc), (hword _).trans hret, (hword _).trans hsel,
    (congrArg Flags.ofWord (hword _)).trans hfl, (hword _).trans hsp, (hword _).trans hsssel, hregs, hflags,
    fun p hpa hpb hpn => (hbyte p).trans ((hmem p hpa hpb hpn).trans (load8_deliveryBegun hm.steady p)), { hsys with }⟩

end

/-! ### Deliveries that succeed -/

section
variable {s : State} {ev : Event} (hp : s.msw.pe = true) (hm : PlainMemory s) (hg : GateUsable s ev)
  (ht : InterruptOrTrap (idtGate s ev.vector)) (ret atIp : Word)
include hp hm hg ht

theorem deliver_entersSameLevel {a : Phys} {d : Desc} (hd : GateTarget s (idtGate s ev.vector) a d) (hl : SameLevelTarget s d)
    (hroom : CanPush s (3 + codeLength ev.code)) (ha : ¬ BelowTop s (3 + codeLength ev.code) (a + 5)) :
    EntersSameLevel s (deliver s ev ret atIp) ev ret a d := by
  have hs := hm.steady
  have hgate := idtGate_deliveryBegun hs ev.vector
  have hentry := protEntry_sameLevel (s := deliveryBegun s) hs ret (hg.deliveryBegun hs) (hgate ▸ ht)
    (hgate ▸ hd.deliveryBegun hs) hl hroom
  rw [deliver_ok hp atIp hentry, hgate]
  exact sameLevel_delivered hm ret hd ha

theorem deliver_entersInnerLevel {a b : Phys} {d x : Desc} {ss sp : Word} (hd : GateTarget s (idtGate s ev.vector) a d)
    (hl : InnerTarget s d) (hi : InnerStackIs s (arDpl d.ar) ss sp b x)
    (hroom : RoomBelow (segmentCache ss x) sp (5 + codeLength ev.code)) :
    EntersInnerLevel s (deliver s ev ret atIp) ev ret a d ss sp b x := by
  have hs := hm.steady
  have hgate := idtGate_deliveryBegun hs ev.vector
  have hentry := protEntry_innerLevel (s := deliveryBegun s) hs ret (hg.deliveryBegun hs) (hgate ▸ ht)
    (hgate ▸ hd.deliveryBegun hs) hl (hi.deliveryBegun hs) hroom
  rw [deliver_ok hp atIp hentry, hgate]
  exact innerEntered_delivered hm ret hp a b d x ss sp

end

/-! ### Deliveries that fail -/

section
variable {s : State} {ev : Event} {n : Byte} {c : Word} (hp : s.msw.pe = true) (hs : Steady s) (ret atIp : Word)
  (h : DeliveryFails s ev n c)
include hp hs h

/-- The exception that an INT instruction or an external event raises is the first one (R570). -/
theorem deliver_fails_first (hev : ev.isException = false) :
    deliver s ev ret atIp = deliver s (.exn n (some c)) atIp atIp := by
  have hfail := protEntry_fails (s := deliveryBegun s) hs ret (h.deliveryBegun hs)
  have hfirst : deliverProt (deliveryBegun s) ev ret atIp =
      deliverFirst ((deliveryBegun s).later .delivery) (.exn n (some c)) atIp := by
    rw [deliverProt, hev, hfail]
    rfl
  rw [deliver_protected ev ret atIp hp, deliver_protected _ atIp atIp hp, hfirst]
  exact (deliverFirst_busApart (BusApart.later_left (s := deliveryBegun s) hs .delivery) _ atIp).deliveryEnded

/-- The exception that an exception raises is a double fault (R570). -/
theorem deliver_fails_double (hev : ev.isException = true) (hb : Config.dfBenign ev.vector = false) :
    deliver s ev ret atIp = deliveryEnded s (doubleFault (deliveryBegun s) ret) := by
  have hfail := protEntry_fails (s := deliveryBegun s) hs ret (h.deliveryBegun hs)
  have hdouble : deliverProt (deliveryBegun s) ev ret atIp = doubleFault ((deliveryBegun s).later .delivery) ret := by
    rw [deliverProt, hev, if_pos rfl, deliverFirst, hfail, hb]
    rfl
  rw [deliver_protected ev ret atIp hp, hdouble]
  exact (doubleFault_busApart (BusApart.later_left (s := deliveryBegun s) hs .delivery) ret).deliveryEnded

end

/-- A double fault whose own delivery fails is shutdown (R570, R585). -/
theorem doubleFault_fails {s : State} (hs : Steady s) (ret : Word) {n : Byte} {c : Word}
    (h : DeliveryFails s (.exn 8 (some 0)) n c) :
    deliveryEnded s (doubleFault (deliveryBegun s) ret) = shutDown s := by
  rw [doubleFault, protEntry_fails (s := deliveryBegun s) hs ret (h.deliveryBegun hs)]
  rfl

/-- A double fault is delivered as an exception that nothing has preceded. -/
theorem doubleFault_entersSameLevel {s : State} (hm : PlainMemory s) (ret : Word)
    (hg : GateUsable s (.exn 8 (some 0))) (ht : InterruptOrTrap (idtGate s 8)) {a : Phys} {d : Desc}
    (hd : GateTarget s (idtGate s 8) a d) (hl : SameLevelTarget s d) (hroom : CanPush s 4) (ha : ¬ BelowTop s 4 (a + 5)) :
    EntersSameLevel s (deliveryEnded s (doubleFault (deliveryBegun s) ret)) (.exn 8 (some 0)) ret a d := by
  have hs := hm.steady
  have hgate := idtGate_deliveryBegun hs 8
  have hentry := protEntry_sameLevel (s := deliveryBegun s) (ev := .exn 8 (some 0)) hs ret (hg.deliveryBegun hs) (hgate ▸ ht)
    (hgate ▸ hd.deliveryBegun hs) hl hroom
  rw [doubleFault, hentry]
  exact hgate ▸ sameLevel_delivered (ev := .exn 8 (some 0)) hm ret hd ha

/-! ### The settled statements -/

/-- Settles O32: the checks of a delivery decide its answer, and the deliveries that follow a failing one see the same memory. -/
theorem protectedEventDelivery : Obligations.ProtectedEventDelivery := by
  refine ⟨fun s ev ret at' a d hp hm hg ht hd => ⟨fun hl => deliver_entersSameLevel hp hm hg ht ret at' hd hl,
    fun hl ss sp b x => deliver_entersInnerLevel hp hm hg ht ret at' hd hl⟩, fun s ev ret at' n c hp hs h => ⟨fun hev => ?_,
    fun hext hint hb => ?_⟩⟩
  · refine deliver_fails_first hp hs ret at' h ?_
    rcases hev with hev | hev <;> simp [Event.isException, hev]
  · have hev : ev.isException = true := by rw [Event.isException, hext, hint]; rfl
    rw [deliver_fails_double hp hs ret at' h hev hb]
    refine ⟨fun a d hm hg ht hd hl => doubleFault_entersSameLevel hm ret hg ht hd hl, fun m k hd => ?_⟩
    rw [doubleFault_fails hs ret hd]
    exact shutDown_shutDown s

/-- The event of an INT instruction (R562). -/
def intEvent (n : Byte) : Event := { vector := n, code := none, ext := false, isInt := true }

/-- Settles O31: INT is the delivery of an event without an error code. -/
theorem protectedInterruptGates : Obligations.ProtectedInterruptGates := by
  intro i n s ca c hi ho hp hm hu hd
  obtain ⟨hlim, ht, hP, hdpl⟩ := hu
  have hg : GateUsable s (intEvent n) := ⟨hlim, hP, fun _ => hdpl⟩
  refine ⟨fun hl hroom ha => ⟨softInt s n, exec_interruptForm hi ho, ?_⟩,
    fun hC hlt nss nsp sa sd hstack hroom => ⟨softInt s n, exec_interruptForm hi ho, ?_⟩⟩
  · obtain ⟨hcs, hip, -, hret, hsel, hfl, hregs, hflags, -, hmem, hsys⟩ :=
      deliver_entersSameLevel (ev := intEvent n) hp hm hg ht s.ip s.cur.ip hd hl hroom ha
    exact ⟨hcs, hip, hret, hsel, hfl, hregs, hflags, hmem, hsys⟩
  · obtain ⟨hcs, hcpl, hip, hss, -, hret, hsel, hfl, hsp, hsssel, hregs, hflags, hmem, hsys⟩ :=
      deliver_entersInnerLevel (ev := intEvent n) hp hm hg ht s.ip s.cur.ip hd ⟨hC, hlt⟩ hstack hroom
    exact ⟨hcs, hcpl, hip, hss, hret, hsel, hfl, hsp, hsssel, hregs, hflags, hmem, hsys⟩

end Sys2Proof.Machine
end
